-- ==== Sys2Proof/Word.lean ====
section
/-! DEFINITION. The two widths the spec moves: a word (00_scope.md R8 `WORD_BITS`, R9) and a byte. -/

namespace Sys2Proof

/-- A *word*: "a 32-bit unsigned value" (00_scope.md R9), the width of every register-window access (`WORD_BITS`, R8). -/
abbrev Word := BitVec 32

/-- A serial or file byte (30_encoding.md R82). -/
abbrev Byte := BitVec 8

end Sys2Proof
end

