-- ==== Sys2Proof/Syntax.lean ====
section
/-! DEFINITION. The operations of the block (30_encoding.md R83): one constructor per row of spec/opcode_table.json, with the
typed operands of R82, and the command a caller issues (command word and operand record, R80). -/

namespace Sys2Proof

/-- The registers of the register window, in the order of 10_state.md R30. -/
inductive Reg where
  | cfgData | cfgCtrl | cfgStat | hbrReq | hbrDone | hbrStat | dspAddr | dspData | dmaCtrl | dmaStat | csr
  | extmemAddr | extmemData | extmemFifoArm | extmemClr | extfifoArm | extfifoWm | extfifoData
  | serCtrl | serStat | clkrst
  deriving DecidableEq, Repr, Inhabited

/-- Which memory a DMA burst serves (30_encoding.md R82). -/
inductive Kind where
  | dsp | ext | fifo
  deriving DecidableEq, Repr, Inhabited

/-- Direction of a DMA burst: `toHost` is module to host, a read (10_state.md R29). -/
inductive Dir where
  | toHost | toModule
  deriving DecidableEq, Repr, Inhabited

/-- A caller buffer: a list of words, or absent (the "null buffer" of 20_memory.md R68). -/
abbrev Buf := Option (List Word)

/-- The three images BOOT_MODULE takes (43_boot.md R230). -/
structure Images where
  comm : List Word := []
  sp   : List Word := []
  dsp  : List Byte := []
  deriving DecidableEq, Repr, Inhabited

/-- The 26 operation names of 30_encoding.md R83. -/
inductive Mnemonic where
  | regRead | regWrite | csrRead | csrWrite | csrSetBits | csrClearBits
  | serWriteByte | serReadByte | serReadSeq | idDecode
  | hbrRequest | hbrDone | dspMemWrite | dspMemRead | dmaBurst | fifoReadWm | fifoDrain
  | extMemWrite | extMemRead | extMemClear
  | bootCommFpga | bootSpFpga | bootDsp | bootModule | sysInit | moduleClose
  deriving DecidableEq, Repr, Inhabited

/-- One operation with its operands, in the order of 30_encoding.md R83. `lead` is the operand the spec calls prefix, `port`
the one it calls local. -/
inductive Instr where
  | regRead (m off : Nat) (buf : Buf)
  | regWrite (m off : Nat) (val : Word)
  | csrRead (m : Nat) (buf : Buf)
  | csrWrite (m : Nat) (val : Word)
  | csrSetBits (m : Nat) (mask : Word)
  | csrClearBits (m : Nat) (mask : Word)
  | serWriteByte (m : Nat) (b : Byte)
  | serReadByte (m : Nat) (buf : Buf)
  | serReadSeq (m : Nat) (lead : List Byte) (n : Nat) (buf : Buf)
  | idDecode (bytes : List Byte)
  | hbrRequest (m : Nat)
  | hbrDone (m : Nat)
  | dspMemWrite (m : Nat) (addr : Word) (count : Nat) (buf : Buf)
  | dspMemRead (m : Nat) (addr : Word) (count : Nat) (buf : Buf)
  | dmaBurst (m : Nat) (kind : Kind) (port : Reg) (buf : Buf) (count : Nat) (dir : Dir)
  | fifoReadWm (m : Nat) (buf : Buf)
  | fifoDrain (m : Nat) (count : Nat) (buf : Buf)
  | extMemWrite (m : Nat) (addr : Word) (count : Nat) (buf : Buf)
  | extMemRead (m : Nat) (addr : Word) (count : Nat) (buf : Buf)
  | extMemClear (m : Nat) (addr : Word) (count : Nat)
  | bootCommFpga (m rev : Nat) (image : List Word)
  | bootSpFpga (m rev : Nat) (image : List Word)
  | bootDsp (m : Nat) (file : List Byte)
  | bootModule (m rev : Nat) (images : Images) (pattern : Word)
  | sysInit (slotMap : List Nat) (offlineFlag : Bool)
  | moduleClose (m : Nat)
  deriving DecidableEq, Repr

/-- The name of an operation. -/
def Instr.mnemonic : Instr → Mnemonic
  | .regRead .. => .regRead
  | .regWrite .. => .regWrite
  | .csrRead .. => .csrRead
  | .csrWrite .. => .csrWrite
  | .csrSetBits .. => .csrSetBits
  | .csrClearBits .. => .csrClearBits
  | .serWriteByte .. => .serWriteByte
  | .serReadByte .. => .serReadByte
  | .serReadSeq .. => .serReadSeq
  | .idDecode .. => .idDecode
  | .hbrRequest .. => .hbrRequest
  | .hbrDone .. => .hbrDone
  | .dspMemWrite .. => .dspMemWrite
  | .dspMemRead .. => .dspMemRead
  | .dmaBurst .. => .dmaBurst
  | .fifoReadWm .. => .fifoReadWm
  | .fifoDrain .. => .fifoDrain
  | .extMemWrite .. => .extMemWrite
  | .extMemRead .. => .extMemRead
  | .extMemClear .. => .extMemClear
  | .bootCommFpga .. => .bootCommFpga
  | .bootSpFpga .. => .bootSpFpga
  | .bootDsp .. => .bootDsp
  | .bootModule .. => .bootModule
  | .sysInit .. => .sysInit
  | .moduleClose .. => .moduleClose

/-- The module an operation names; none for ID_DECODE and SYS_INIT (30_encoding.md R82). -/
def Instr.module? : Instr → Option Nat
  | .regRead m .. | .regWrite m .. | .csrRead m .. | .csrWrite m .. | .csrSetBits m .. | .csrClearBits m ..
  | .serWriteByte m .. | .serReadByte m .. | .serReadSeq m .. | .hbrRequest m | .hbrDone m
  | .dspMemWrite m .. | .dspMemRead m .. | .dmaBurst m .. | .fifoReadWm m .. | .fifoDrain m ..
  | .extMemWrite m .. | .extMemRead m .. | .extMemClear m .. | .bootCommFpga m .. | .bootSpFpga m ..
  | .bootDsp m .. | .bootModule m .. | .moduleClose m => some m
  | .idDecode _ | .sysInit .. => none

/-- The operand record of a command (30_encoding.md R82). Every field has a value; an operation reads only the fields R83
lists for it (log 6). -/
structure Operands where
  off         : Nat := 0
  val         : Word := 0
  mask        : Word := 0
  addr        : Word := 0
  count       : Nat := 0
  buf         : Buf := none
  kind        : Kind := .dsp
  dir         : Dir := .toHost
  port        : Reg := .cfgData
  b           : Byte := 0
  lead        : List Byte := []
  n           : Nat := 0
  bytes       : List Byte := []
  rev         : Nat := 0
  image       : List Word := []
  file        : List Byte := []
  images      : Images := {}
  pattern     : Word := 0
  slotMap     : List Nat := []
  offlineFlag : Bool := false
  deriving DecidableEq, Repr, Inhabited

/-- One command a caller issues: "a 32-bit *command word* plus a typed *operand record*" (30_encoding.md R80). -/
structure Call where
  cmd  : Word
  args : Operands := {}
  deriving DecidableEq, Repr, Inhabited

end Sys2Proof
end

