-- ==== Sys2Proof/Config.lean ====
section
/-! DEFINITION. The implementation parameters of 00_scope.md R8 and the free values. A parameter R8 leaves OPEN is an opaque
constant here: nothing in Lean can evaluate it. The record `Params` gathers all parameters; the machine holds one in
`State.cfg` (log 3), so that a statement about every state holds for every value of every parameter. -/

namespace Sys2Proof

/-! ## The shapes of the parameters -/

/-- A value of `REGMAP`, sorted by the two conditions of 20_memory.md R65. Every natural number is one of the three (log 9). -/
inductive RegOffset where
  /-- The byte offset `4 * k`, inside the window: admitted. -/
  | word (k : Nat)
  /-- The byte offset `4 * k + r + 1`, no multiple of 4. -/
  | unaligned (k : Nat) (r : Fin 3)
  /-- The `k`-th multiple of 4 that is not below `WIN_BYTES`. -/
  | beyond (k : Nat)
  deriving DecidableEq, Repr, Inhabited

/-- `REGMAP`: the offset of each register of 10_state.md R30. Two names may share an offset. -/
structure RegMap where
  cfgData : RegOffset
  cfgCtrl : RegOffset
  cfgStat : RegOffset
  hbrReq : RegOffset
  hbrDone : RegOffset
  hbrStat : RegOffset
  dspAddr : RegOffset
  dspData : RegOffset
  dmaCtrl : RegOffset
  dmaStat : RegOffset
  csr : RegOffset
  extmemAddr : RegOffset
  extmemData : RegOffset
  extmemFifoArm : RegOffset
  extmemClr : RegOffset
  extfifoArm : RegOffset
  extfifoWm : RegOffset
  extfifoData : RegOffset
  serCtrl : RegOffset
  serStat : RegOffset
  clkrst : RegOffset
  deriving DecidableEq, Repr, Inhabited

/-- The map with the offset `f` gives each register. -/
def RegMap.ofFn (f : Reg → RegOffset) : RegMap where
  cfgData := f .cfgData
  cfgCtrl := f .cfgCtrl
  cfgStat := f .cfgStat
  hbrReq := f .hbrReq
  hbrDone := f .hbrDone
  hbrStat := f .hbrStat
  dspAddr := f .dspAddr
  dspData := f .dspData
  dmaCtrl := f .dmaCtrl
  dmaStat := f .dmaStat
  csr := f .csr
  extmemAddr := f .extmemAddr
  extmemData := f .extmemData
  extmemFifoArm := f .extmemFifoArm
  extmemClr := f .extmemClr
  extfifoArm := f .extfifoArm
  extfifoWm := f .extfifoWm
  extfifoData := f .extfifoData
  serCtrl := f .serCtrl
  serStat := f .serStat
  clkrst := f .clkrst

/-- A positive rational, `(numPred + 1) / (denPred + 1)`: the type R8 gives `CPNS`. -/
structure PosRat where
  numPred : Nat
  denPred : Nat
  deriving DecidableEq, Repr, Inhabited

/-- The rational a `PosRat` stands for. -/
def PosRat.value (q : PosRat) : Rat := ((q.numPred + 1 : Nat) : Rat) / ((q.denPred + 1 : Nat) : Rat)

/-- `CSRMAP`: the bit position of each CSR field of 10_state.md R33. -/
structure CsrMap where
  autoIncDisable : Fin 32
  pciExtmem : Fin 32
  extmemClearing : Fin 32
  dspReset : Fin 32
  dspDownload : Fin 32
  deriving DecidableEq, Repr, Inhabited

/-- `SERMAP`: the bit positions of the serial-line registers (10_state.md R36). -/
structure SerMap where
  scl : Fin 32
  sdaOut : Fin 32
  sdaOe : Fin 32
  sdaIn : Fin 32
  deriving DecidableEq, Repr, Inhabited

/-- The FPGA targets of 10_state.md R35. -/
inductive Target where
  | comm | spA | spB
  deriving DecidableEq, Repr, Inhabited

/-- `FPGA_PATTERNS` of one target: program-line words and status masks (10_state.md R35). `DONE_MASK` covers two bits: bit
`doneBit`, and the bit `doneGap + 1` places above it, counted round the word. -/
structure FpgaPattern where
  progLow : Word
  progHigh : Word
  initMask : Word
  doneBit : Fin 32
  doneGap : Fin 31
  deriving DecidableEq, Repr, Inhabited

/-- The second bit of the done pair. -/
def FpgaPattern.doneBit2 (t : FpgaPattern) : Nat := (t.doneBit.val + t.doneGap.val + 1) % 32

/-- `DONE_MASK`: the two bits of the done pair (10_state.md R35). -/
def FpgaPattern.doneMask (t : FpgaPattern) : Word := (1#32 <<< t.doneBit.val) ||| (1#32 <<< t.doneBit2)

/-- `REMAINDER_MODE` (42_hbr_dma.md R156). -/
inductive RemainderMode where
  | autoinc | perword
  deriving DecidableEq, Repr, Inhabited

/-- `CFG_VERIFY_MODE` (43_boot.md R221). -/
inductive CfgVerifyMode where
  | writeRead | readOnly
  deriving DecidableEq, Repr, Inhabited

/-- One (address, value) pair of `DSP_CFG` (43_boot.md R221). -/
structure CfgPair where
  addr : Word
  value : Word
  deriving DecidableEq, Repr, Inhabited

/-- The kinds of a program segment (10_state.md R38). -/
inductive SegKind where
  | zero | init | final
  deriving DecidableEq, Repr, Inhabited

/-- The memory zone of a segment (10_state.md R38). -/
inductive Zone where
  | program | data
  deriving DecidableEq, Repr, Inhabited

/-- The word width of a segment in bits: 16, 32, 40, 48 or 64 (10_state.md R38). -/
inductive SegWidth where
  | w16 | w32 | w40 | w48 | w64
  deriving DecidableEq, Repr, Inhabited

/-- What `TAGMAP` gives for a supported tag (30_encoding.md R90). -/
structure TagInfo where
  kind : SegKind
  zone : Zone
  width : SegWidth
  deriving DecidableEq, Repr, Inhabited

/-- The layout of identification data (41_serial_bus.md R133). -/
inductive Layout where
  | old | new
  deriving DecidableEq, Repr, Inhabited

/-- An ADC description: resolution and rate (41_serial_bus.md R133). -/
structure Adc where
  bits : Nat
  msps : Nat
  deriving DecidableEq, Repr, Inhabited

/-- The five failure categories (60_exceptions.md R256; 30_encoding.md R87). -/
inductive Category where
  | invalidArgument | protocolTimeout | resourceFailure | dataIntegrityFailure | hardwareBusyOrStuck
  deriving DecidableEq, Repr, Inhabited

/-- The failure sites of 30_encoding.md R88. -/
inductive Site where
  | moduleIndex | buffer | count | pattern | closed | system
  | serAck | hbrGrant | dspBlock | dspRemainder
  | dmaOpen | dmaWatermark | dmaTransfer | dmaClose
  | fifoWatermark | fifoBurst | extmemRead | extmemWatermark | extmemClear
  | fwSizeComm | fwSizeSp | commFpga | spFpgaA | spFpgaB | dspCfg | dspPudone | dspTag | dspStream
  | find | openDev | map | slotRead | matchSlot
  deriving DecidableEq, Repr, Inhabited

/-- `Fail(category, site)` of 30_encoding.md R86. -/
structure Failure where
  category : Category
  site : Site
  deriving DecidableEq, Repr, Inhabited

/-- What `ADC_DECODE` returns: a description or a failing status ("whatever ADC_DECODE returns", 41_serial_bus.md R133). -/
inductive AdcResult where
  | adc (a : Adc)
  | fail (f : Failure)
  deriving DecidableEq, Repr, Inhabited

/-- The three levels of the serial-line control register (10_state.md R27, R36). -/
structure Lines where
  scl : Bool
  sdaOut : Bool
  sdaOe : Bool
  deriving DecidableEq, Repr, Inhabited

/-- The bridge driver's values (10_state.md R28): a device key, a device handle, a mapped address, a DMA channel. -/
abbrev DevKey := Nat
abbrev DevHandle := Nat
abbrev VAddr := Nat
abbrev Channel := Nat

/-- Result of `dmaTransfer` (10_state.md R28). -/
inductive XferResult where
  | ok | vendorError | timeout
  deriving DecidableEq, Repr, Inhabited

/-- Result of `dmaClose` (10_state.md R28). -/
inductive CloseResult where
  | ok | inProgress | error
  deriving DecidableEq, Repr, Inhabited

/-! ## Parameters R8 leaves OPEN: opaque constants -/

namespace Config

opaque maxModules : Fin 257
opaque winSlack : Nat
/-- `REGMAP`, in words: the machine's own map is one 20_memory.md R65 admits (log 9). -/
opaque regWord : Reg → Nat
opaque csrmap : CsrMap
opaque sermap : SerMap
opaque cpns : PosRat
opaque serSettleNs : Nat
opaque hbrReqVal : Word
opaque hbrDoneVal : Word
opaque hbrGrantMask : Word
opaque hbrGrantDelayNs : Nat
opaque dmaWmMask : Word
opaque fifoWmDelayNs : Nat
opaque extmemWmDelayNs : Nat
opaque extmemWmMask : Word
opaque patternComm : FpgaPattern
opaque patternSpA : FpgaPattern
opaque patternSpB : FpgaPattern
opaque clkrstAssert : Word
opaque clkrstDeassert : Word
opaque clkrstHoldNs : Nat
opaque dspCfg0 : CfgPair
opaque dspCfg1 : CfgPair
opaque dspKernelAddr : Word
opaque finalBlockWords : Nat
opaque dspPudoneAddr : Word
opaque dspPudoneMask : Word
opaque pciVendorId : Nat
opaque pciDeviceId : Nat
opaque barIndex : Nat
opaque slotReadLead : List Byte
opaque slotReadCount : Nat
opaque findLimit : Nat

/-- `FW_WORDS_COMM(rev)`. -/
opaque fwWordsComm : Nat → Nat
/-- `FW_WORDS_SP(rev)`. -/
opaque fwWordsSp : Nat → Nat
/-- `TAGMAP(tagValue)`; none is `unsupported`. -/
opaque tagMap : Word → Option TagInfo
/-- `SLOT_READ.decode(bytes)`. -/
opaque slotDecode : List Byte → Nat
/-- `BUSSLOT(key)`. -/
opaque busSlot : DevKey → Nat
/-- `ADC_DECODE(layout, bytes)`. -/
opaque adcDecode : Layout → List Byte → AdcResult

/-! ## Free values: the answers no rule states

The first argument says whose environment answers (`some m`: module `m`; `none`: discovery), the second is that environment's
counter of free values drawn so far (log 2). -/

/-- A register read's answer (10_state.md R40, U1), a word a DMA transfer delivers, a word of a buffer after a failed read
(20_memory.md R68, U2). -/
opaque freeWord : Option Nat → Nat → Word
/-- The serial shadow before the first Start (10_state.md R27, U16; log 14). -/
opaque freeLines : Option Nat → Nat → Lines
opaque freeFind : Option Nat → Nat → Option DevKey
opaque freeOpen : Option Nat → Nat → Option DevHandle
opaque freeMap : Option Nat → Nat → Option VAddr
opaque freeDmaOpen : Option Nat → Nat → Option Channel
opaque freeXfer : Option Nat → Nat → XferResult
opaque freeClose : Option Nat → Nat → CloseResult

/-- The word written to a 32-bit port for a count that does not fit one: no rule states it (log 11). -/
opaque wordOfLargeCount : Nat → Word

end Config

/-! ## The record of all parameters -/

/-- The parameters of 00_scope.md R8, each under its own name. Defaults: the source's value or the decided default; for an OPEN
parameter the opaque constant above. A function parameter is a finite table; where the table has no row, the opaque function
answers (log 4). -/
structure Params where
  /-- `MAX_MODULES`, at most 256 (D1, D50). -/
  maxModules : Fin 257 := Config.maxModules
  /-- The bytes of the window after the first byte of its last admitted register: it gives `WIN_BYTES` (log 10). -/
  winSlack : Nat := Config.winSlack
  /-- `REGMAP`. -/
  regmap : RegMap := RegMap.ofFn fun r => .word (Config.regWord r)
  /-- `CSRMAP`. -/
  csrmap : CsrMap := Config.csrmap
  /-- `SERMAP`. -/
  sermap : SerMap := Config.sermap
  /-- `CPNS`, host cycles per nanosecond (unused by any rule, D48). -/
  cpns : PosRat := Config.cpns
  /-- `SER_SETTLE_NS`. -/
  serSettleNs : Nat := Config.serSettleNs
  /-- `ACKSEND_SDA`. -/
  acksendSda : Bool := false
  /-- `HBR_REQ_VAL`. -/
  hbrReqVal : Word := Config.hbrReqVal
  /-- `HBR_DONE_VAL`. -/
  hbrDoneVal : Word := Config.hbrDoneVal
  /-- `HBR_GRANT_POLLS`. -/
  hbrGrantPolls : Nat := 0
  /-- `HBR_GRANT_MASK`. -/
  hbrGrantMask : Word := Config.hbrGrantMask
  /-- `HBR_GRANT_DELAY_NS`. -/
  hbrGrantDelayNs : Nat := Config.hbrGrantDelayNs
  /-- The words of a block after its first: it gives `DSP_BLOCK_WORDS` (log 19). -/
  dspBlockMore : Nat := 8191
  /-- `DSP_SINGLE_MAX`. -/
  dspSingleMax : Nat := 48
  /-- `REMAINDER_MODE`. -/
  remainderMode : RemainderMode := .autoinc
  /-- `DMA_WM_POLLS`. -/
  dmaWmPolls : Nat := 1000
  /-- `DMA_WM_MASK`. -/
  dmaWmMask : Word := Config.dmaWmMask
  /-- `DMA_WM_DELAY_NS`. -/
  dmaWmDelayNs : Nat := 0
  /-- `DMA_TIMEOUT_MS`. -/
  dmaTimeoutMs : Nat := 5000
  /-- `DMA_BUS_BITS`. -/
  dmaBusBits : Nat := 32
  /-- `FIFO_WM_POLLS`. -/
  fifoWmPolls : Nat := 1000
  /-- `FIFO_WM_DELAY_NS`. -/
  fifoWmDelayNs : Nat := Config.fifoWmDelayNs
  /-- `EXTMEM_WM_POLLS`; 0 disables the poll (C1). -/
  extmemWmPolls : Nat := 1000
  /-- `EXTMEM_WM_DELAY_NS`. -/
  extmemWmDelayNs : Nat := Config.extmemWmDelayNs
  /-- `EXTMEM_WM_MASK`. -/
  extmemWmMask : Word := Config.extmemWmMask
  /-- `EXTMEM_CLR_POLLS`. -/
  extmemClrPolls : Nat := 1000
  /-- `EXTMEM_CLR_DELAY_NS`. -/
  extmemClrDelayNs : Nat := 100000
  /-- `FPGA_INIT_POLLS`. -/
  fpgaInitPolls : Nat := 100
  /-- `FPGA_INIT_DELAY_NS`. -/
  fpgaInitDelayNs : Nat := 200000
  /-- `FPGA_WORD_DELAY_NS`. -/
  fpgaWordDelayNs : Nat := 2000
  /-- `FPGA_ATTEMPTS`. -/
  fpgaAttempts : Nat := 10
  /-- `FPGA_PATTERNS` of the interface FPGA. -/
  patternComm : FpgaPattern := Config.patternComm
  /-- `FPGA_PATTERNS` of the first signal-processing pair. -/
  patternSpA : FpgaPattern := Config.patternSpA
  /-- `FPGA_PATTERNS` of the second signal-processing pair. -/
  patternSpB : FpgaPattern := Config.patternSpB
  /-- `FPGA_PROG_HOLD_NS`. -/
  fpgaProgHoldNs : Nat := 0
  /-- `CLKRST_ASSERT`. -/
  clkrstAssert : Word := Config.clkrstAssert
  /-- `CLKRST_DEASSERT`. -/
  clkrstDeassert : Word := Config.clkrstDeassert
  /-- `CLKRST_HOLD_NS`. -/
  clkrstHoldNs : Nat := Config.clkrstHoldNs
  /-- Rows of `FW_WORDS_COMM`. -/
  fwWordsComm : List (Nat × Nat) := []
  /-- Rows of `FW_WORDS_SP`. -/
  fwWordsSp : List (Nat × Nat) := []
  /-- `DSP_RESET_HOLD_NS`. -/
  dspResetHoldNs : Nat := 1000000
  /-- The first pair of `DSP_CFG`. -/
  dspCfg0 : CfgPair := Config.dspCfg0
  /-- The second pair of `DSP_CFG`. -/
  dspCfg1 : CfgPair := Config.dspCfg1
  /-- `DSP_CFG_ATTEMPTS`. -/
  dspCfgAttempts : Nat := 5
  /-- `CFG_VERIFY_MODE`. -/
  cfgVerifyMode : CfgVerifyMode := .writeRead
  /-- `DSP_KERNEL_WORDS`. -/
  dspKernelWords : Nat := 256
  /-- `DSP_KERNEL_SUBWORDS`. -/
  dspKernelSubwords : Nat := 3
  /-- `DSP_KERNEL_ADDR`. -/
  dspKernelAddr : Word := Config.dspKernelAddr
  /-- Rows of `TAGMAP`. -/
  tagMap : List (Word × Option TagInfo) := []
  /-- `SEG_HEADER_WORDS` beyond the three R90 reads (tag, count, address); the decided default 3 is 0 here (log 19). -/
  segHeaderExtra : Nat := 0
  /-- `FINAL_BLOCK_WORDS`. -/
  finalBlockWords : Nat := Config.finalBlockWords
  /-- `DSP_PUDONE_ADDR`. -/
  dspPudoneAddr : Word := Config.dspPudoneAddr
  /-- `DSP_PUDONE_MASK`. -/
  dspPudoneMask : Word := Config.dspPudoneMask
  /-- `DSP_PUDONE_POLLS`. -/
  dspPudonePolls : Nat := 10
  /-- `DSP_PUDONE_DELAY_NS`. -/
  dspPudoneDelayNs : Nat := 1000000
  /-- `DSP_ATTEMPTS - 1`: the attempts after the first; the source's value of `DSP_ATTEMPTS` is 10 (log 19). -/
  dspMoreAttempts : Nat := 9
  /-- `PCI_VENDOR_ID`. -/
  pciVendorId : Nat := Config.pciVendorId
  /-- `PCI_DEVICE_ID`. -/
  pciDeviceId : Nat := Config.pciDeviceId
  /-- `BAR_INDEX`. -/
  barIndex : Nat := Config.barIndex
  /-- `SLOT_READ.prefix`. -/
  slotReadLead : List Byte := Config.slotReadLead
  /-- `SLOT_READ.n`. -/
  slotReadCount : Nat := Config.slotReadCount
  /-- Rows of `SLOT_READ.decode`. -/
  slotDecode : List (List Byte × Nat) := []
  /-- `FIND_LIMIT`. -/
  findLimit : Nat := Config.findLimit
  /-- Rows of `BUSSLOT`. -/
  busSlot : List (DevKey × Nat) := []
  /-- `NEW_LAYOUT_MIN_REV`. -/
  newLayoutMinRev : Nat := 11
  /-- `LEGACY_ADC_SERIAL_LIMIT`. -/
  legacyAdcSerialLimit : Nat := 275
  /-- Rows of `ADC_DECODE`. -/
  adcDecode : List ((Layout × List Byte) × AdcResult) := []
  deriving DecidableEq, Repr

/-- `DSP_BLOCK_WORDS`. No rule bounds it, and R154 divides by it: at least 1 (DESIGN CHOICE, log 19). -/
def Params.dspBlockWords (p : Params) : Nat := p.dspBlockMore + 1

end Sys2Proof
end

