-- ==== Sys2Proof/WellFormed.lean ====
section
/-! DEFINITION. Which operations a command word can spell: the module index fits the field MOD (30_encoding.md R81), and a raw
register offset is a multiple of 4 (20_memory.md R65). The bound WIN_BYTES of R65 is a parameter, so exec checks it. -/

namespace Sys2Proof

/-- The module index fits the eight bits of `MOD` (30_encoding.md R81). -/
abbrev Instr.ModuleFits (i : Instr) : Prop := ∀ m ∈ i.module?, m < 256

/-- The raw byte offset of REG_READ or REG_WRITE; no other operation has one (30_encoding.md R83). -/
def Instr.rawOffset? : Instr → Option Nat
  | .regRead _ off _ | .regWrite _ off _ => some off
  | .csrRead .. | .csrWrite .. | .csrSetBits .. | .csrClearBits .. | .serWriteByte .. | .serReadByte ..
  | .serReadSeq .. | .idDecode .. | .hbrRequest .. | .hbrDone .. | .dspMemWrite .. | .dspMemRead .. | .dmaBurst ..
  | .fifoReadWm .. | .fifoDrain .. | .extMemWrite .. | .extMemRead .. | .extMemClear .. | .bootCommFpga ..
  | .bootSpFpga .. | .bootDsp .. | .bootModule .. | .sysInit .. | .moduleClose .. => none

/-- A raw offset is a multiple of 4 (20_memory.md R65). -/
abbrev Instr.OffsetAligned (i : Instr) : Prop := ∀ off ∈ i.rawOffset?, off % 4 = 0

/-- A well-formed operation. -/
abbrev Instr.WellFormed (i : Instr) : Prop := i.ModuleFits ∧ i.OffsetAligned

end Sys2Proof
end

