-- ==== Sys2Proof/Decode.lean ====
section
/-! DEFINITION. The single format CMD (30_encoding.md R81 to R84): decoding a command word and an operand record, and the
encoder written from the same table. -/

namespace Sys2Proof

/-- Why a command word spells no operation (30_encoding.md R84). -/
inductive DecodeError where
  /-- R84(a): an `OP` value not in R83. -/
  | unknownOp (op : Byte)
  /-- R84(b): `RSV ≠ 0`. -/
  | reservedNotZero
  /-- R84(c): `MOD ≠ 0` for ID_DECODE or SYS_INIT. -/
  | moduleNotZero
  deriving DecidableEq, Repr

/-- The operation codes of 30_encoding.md R83. -/
def Mnemonic.opcode : Mnemonic → Byte
  | .regRead => 0x01#8
  | .regWrite => 0x02#8
  | .csrRead => 0x08#8
  | .csrWrite => 0x09#8
  | .csrSetBits => 0x0A#8
  | .csrClearBits => 0x0B#8
  | .serWriteByte => 0x10#8
  | .serReadByte => 0x11#8
  | .serReadSeq => 0x12#8
  | .idDecode => 0x13#8
  | .hbrRequest => 0x20#8
  | .hbrDone => 0x21#8
  | .dspMemWrite => 0x22#8
  | .dspMemRead => 0x23#8
  | .dmaBurst => 0x28#8
  | .fifoReadWm => 0x30#8
  | .fifoDrain => 0x31#8
  | .extMemWrite => 0x38#8
  | .extMemRead => 0x39#8
  | .extMemClear => 0x3A#8
  | .bootCommFpga => 0x40#8
  | .bootSpFpga => 0x41#8
  | .bootDsp => 0x42#8
  | .bootModule => 0x43#8
  | .sysInit => 0x50#8
  | .moduleClose => 0x51#8

/-- Field `OP`, bits 31:24 (30_encoding.md R81). -/
def cmdOp (w : Word) : Byte := w.extractLsb' 24 8
/-- Field `MOD`, bits 23:16. -/
def cmdMod (w : Word) : Byte := w.extractLsb' 16 8
/-- Field `RSV`, bits 15:0. -/
def cmdRsv (w : Word) : BitVec 16 := w.extractLsb' 0 16

/-- The operation an `OP` value spells, or none (30_encoding.md R83, R84(a)). -/
def Mnemonic.ofOpcode (op : Byte) : Option Mnemonic :=
  match op.toNat with
  | 0x01 => some .regRead
  | 0x02 => some .regWrite
  | 0x08 => some .csrRead
  | 0x09 => some .csrWrite
  | 0x0A => some .csrSetBits
  | 0x0B => some .csrClearBits
  | 0x10 => some .serWriteByte
  | 0x11 => some .serReadByte
  | 0x12 => some .serReadSeq
  | 0x13 => some .idDecode
  | 0x20 => some .hbrRequest
  | 0x21 => some .hbrDone
  | 0x22 => some .dspMemWrite
  | 0x23 => some .dspMemRead
  | 0x28 => some .dmaBurst
  | 0x30 => some .fifoReadWm
  | 0x31 => some .fifoDrain
  | 0x38 => some .extMemWrite
  | 0x39 => some .extMemRead
  | 0x3A => some .extMemClear
  | 0x40 => some .bootCommFpga
  | 0x41 => some .bootSpFpga
  | 0x42 => some .bootDsp
  | 0x43 => some .bootModule
  | 0x50 => some .sysInit
  | 0x51 => some .moduleClose
  | _ => none

/-- Operand assembly (30_encoding.md R82): the fields R83 lists for the operation, read from the record. -/
def assemble (k : Mnemonic) (m : Nat) (a : Operands) : Instr :=
  match k with
  | .regRead => .regRead m a.off a.buf
  | .regWrite => .regWrite m a.off a.val
  | .csrRead => .csrRead m a.buf
  | .csrWrite => .csrWrite m a.val
  | .csrSetBits => .csrSetBits m a.mask
  | .csrClearBits => .csrClearBits m a.mask
  | .serWriteByte => .serWriteByte m a.b
  | .serReadByte => .serReadByte m a.buf
  | .serReadSeq => .serReadSeq m a.lead a.n a.buf
  | .idDecode => .idDecode a.bytes
  | .hbrRequest => .hbrRequest m
  | .hbrDone => .hbrDone m
  | .dspMemWrite => .dspMemWrite m a.addr a.count a.buf
  | .dspMemRead => .dspMemRead m a.addr a.count a.buf
  | .dmaBurst => .dmaBurst m a.kind a.port a.buf a.count a.dir
  | .fifoReadWm => .fifoReadWm m a.buf
  | .fifoDrain => .fifoDrain m a.count a.buf
  | .extMemWrite => .extMemWrite m a.addr a.count a.buf
  | .extMemRead => .extMemRead m a.addr a.count a.buf
  | .extMemClear => .extMemClear m a.addr a.count
  | .bootCommFpga => .bootCommFpga m a.rev a.image
  | .bootSpFpga => .bootSpFpga m a.rev a.image
  | .bootDsp => .bootDsp m a.file
  | .bootModule => .bootModule m a.rev a.images a.pattern
  | .sysInit => .sysInit a.slotMap a.offlineFlag
  | .moduleClose => .moduleClose m

/-- The operations that name no module: their `MOD` field must be 0 (30_encoding.md R82, R84(c)). -/
def Mnemonic.noModule : Mnemonic → Bool
  | .idDecode | .sysInit => true
  | _ => false

/-- The decoder: one command word and its operand record (30_encoding.md R81 to R84). -/
def decode (c : Call) : Except DecodeError Instr :=
  match Mnemonic.ofOpcode (cmdOp c.cmd) with
  | none => .error (.unknownOp (cmdOp c.cmd))
  | some k =>
    if cmdRsv c.cmd ≠ 0 then .error .reservedNotZero
    else if k.noModule = true ∧ cmdMod c.cmd ≠ 0 then .error .moduleNotZero
    else .ok (assemble k (cmdMod c.cmd).toNat c.args)

/-- The operand record an operation's operands stand in (30_encoding.md R82, R83); fields the operation does not list are left
at their zero values (log 6). -/
def Instr.operands : Instr → Operands
  | .regRead _ off buf => { off, buf }
  | .regWrite _ off val => { off, val }
  | .csrRead _ buf => { buf }
  | .csrWrite _ val => { val }
  | .csrSetBits _ mask => { mask }
  | .csrClearBits _ mask => { mask }
  | .serWriteByte _ b => { b }
  | .serReadByte _ buf => { buf }
  | .serReadSeq _ lead n buf => { lead, n, buf }
  | .idDecode bytes => { bytes }
  | .hbrRequest _ => {}
  | .hbrDone _ => {}
  | .dspMemWrite _ addr count buf => { addr, count, buf }
  | .dspMemRead _ addr count buf => { addr, count, buf }
  | .dmaBurst _ kind port buf count dir => { kind, port, buf, count, dir }
  | .fifoReadWm _ buf => { buf }
  | .fifoDrain _ count buf => { count, buf }
  | .extMemWrite _ addr count buf => { addr, count, buf }
  | .extMemRead _ addr count buf => { addr, count, buf }
  | .extMemClear _ addr count => { addr, count }
  | .bootCommFpga _ rev image => { rev, image }
  | .bootSpFpga _ rev image => { rev, image }
  | .bootDsp _ file => { file }
  | .bootModule _ rev images pattern => { rev, images, pattern }
  | .sysInit slotMap offlineFlag => { slotMap, offlineFlag }
  | .moduleClose _ => {}

/-- The command word of an operation: `OP`, `MOD` (0 where no module is named), `RSV = 0` (30_encoding.md R81, R82). -/
def Instr.word (i : Instr) : Word :=
  i.mnemonic.opcode ++ (BitVec.ofNat 8 (i.module?.getD 0)) ++ 0#16

/-- The encoder. -/
def encode (i : Instr) : Call := { cmd := i.word, args := i.operands }

/-- What the decoder reads from a table row's word `w` of `nbits` bits; every bit above them is 0 and the operand record
holds zeros. -/
def decodeTableWord (nbits w : Nat) : Option Instr :=
  match decode { cmd := BitVec.ofNat 32 (w % 2 ^ nbits) } with
  | .ok i => some i
  | .error _ => none

end Sys2Proof
end

