-- ==== Sys2Proof/Machine/State.lean ====
section
/-! DEFINITION. The state of the block (10_state.md), the environment that answers it, the events it issues (00_scope.md R11),
the ways a step can stop, and the type of the sequencer's programs. All of State is plain data. -/

namespace Sys2Proof.Machine

/-! ## Events (00_scope.md R11) -/

/-- Whose register window an access goes to: a module's, or the window of the `j`-th probed device (44_discovery.md R242). -/
inductive Who where
  | module (m : Nat)
  | probe (j : Nat)
  deriving DecidableEq, Repr

/-- The descriptor passed to `dmaOpen` (30_encoding.md R92). -/
structure DmaDesc where
  readyGated : Bool
  burstInfinite : Bool
  busWidthBits : Nat
  deriving DecidableEq, Repr

/-- The parameters passed to `dmaTransfer` (30_encoding.md R92): the `DmaRequest` of 10_state.md R29. `hostBuffer` is the
buffer's contents at the call. -/
structure XferParams where
  dir : Dir
  localAddress : Nat
  hostBuffer : List Word
  byteCount : Nat
  deriving DecidableEq, Repr

/-- The event alphabet of 00_scope.md R11. The device handle of DMAOPEN, DEVRESET, UNMAP and CLOSE is the handle field `dev` as
it stands (log 21). -/
inductive Event where
  | rd (w : Who) (off : Nat) (v : Word)
  | wr (w : Who) (off : Nat) (v : Word)
  | sleep (ns : Nat)
  | find (vid did idx : Nat) (r : Option DevKey)
  | openDev (key : DevKey) (r : Option DevHandle)
  | mapBar (h : DevHandle) (bar : Nat) (r : Option VAddr)
  | unmapBar (h : Option DevHandle) (va : VAddr)
  | closeDev (h : Option DevHandle)
  | dmaOpen (h : Option DevHandle) (desc : DmaDesc) (r : Option Channel)
  | dmaXfer (ch : Channel) (params : XferParams) (timeoutMs : Nat) (r : XferResult)
  | dmaClose (ch : Channel) (r : CloseResult)
  | devReset (h : Option DevHandle)
  deriving DecidableEq, Repr

/-! ## The sequencer position (10_state.md R23) -/

/-- Phases of the serial byte transfer (41_serial_bus.md R125). -/
inductive SerPhase where
  | idle | start | bitLoop (i : Nat) | release | ackWait | ackSend | stop
  deriving DecidableEq, Repr

/-- Phases of the FPGA boot (43_boot.md R205). -/
inductive FpgaPhase where
  | clear | pollInit (k : Nat) | stream (i : Nat) | verify
  deriving DecidableEq, Repr

/-- Phases of the processor boot (43_boot.md R220). -/
inductive DspPhase where
  | reset | release | cfgVerify (j k : Nat) | kernel (i : Nat) | tagStream | pollPudone (k : Nat)
  deriving DecidableEq, Repr

/-- The phase of the state machine an operation is in; `straight` where its rule gives none. `attempt` counts from 1. -/
inductive Phase where
  | straight
  | serial (p : SerPhase)
  | fpga (t : Target) (attempt : Nat) (p : FpgaPhase)
  | dsp (attempt : Nat) (p : DspPhase)
  deriving DecidableEq, Repr

/-- A place in an operation: the operation, the phase of its state machine, and the counters of the loops it is in, innermost
first. -/
inductive Place where
  | running (op : Mnemonic) (phase : Phase) (loops : List Nat)
  deriving DecidableEq, Repr

/-- The sequencer position of 10_state.md R23: idle, or a place in the operation in progress. -/
inductive SeqPos where
  | idle
  | busy (p : Place)
  deriving DecidableEq, Repr

/-- One event as the sequencer issued it: the place it stood at, the register of 10_state.md R30 the rule names for the
access (none for a raw offset and for an event that is no register access), and the event itself (log 13, 27). -/
structure Issued where
  pos : Place
  reg : Option Reg
  event : Event
  deriving DecidableEq, Repr

/-! ## What an operation returns (00_scope.md R7; 60_exceptions.md R255) -/

/-- The status of an operation (30_encoding.md R86). -/
inductive Status where
  | ok
  | fail (f : Failure)
  deriving DecidableEq, Repr

/-- The outputs of 30_encoding.md R83 other than the caller's buffer. -/
inductive Output where
  | none
  | word (v : Word)
  | ack (a : Bool)
  | byte (b : Byte)
  | words (ws : List Word)
  | ident (serial revision : Nat) (layout : Layout) (adc : Adc)
  deriving DecidableEq, Repr

/-- What an operation gives back to its caller: status, outputs, and the caller's buffer afterwards. -/
structure Reply where
  status : Status
  output : Output := .none
  buf : Buf := none
  deriving DecidableEq, Repr

/-- The observation of one operation: what it returned and the events it issued, in order (00_scope.md R7). -/
structure Observation where
  op : Mnemonic
  reply : Reply
  issued : List Issued
  deriving DecidableEq, Repr

/-! ## The module handle (10_state.md R21) -/

/-- The boot-completion record (10_state.md R39). -/
structure Boot where
  commDone : Bool := false
  spDone : Bool := false
  dspDone : Bool := false
  booted : Bool := false
  deriving DecidableEq, Repr

/-- The serial-transaction record (10_state.md R26). -/
structure SerRec where
  bitIdx : Nat
  shift : Byte
  ack : Bool
  deriving DecidableEq, Repr

/-- A module handle: exactly the fields of 10_state.md R21. -/
structure Handle where
  dev : Option DevHandle
  win : Option VAddr
  slot : Nat
  offline : Bool
  boot : Boot
  hbrHeld : Bool
  dma : Option Channel
  ser : Option SerRec
  lines : Lines
  deriving DecidableEq, Repr

/-! ## The environment (00_scope.md R6; 10_state.md R28, R40; log 2, 16) -/

/-- What `dmaTransfer` answers: its result and, for a transfer to the host that succeeds, the words it delivers. -/
structure XferAnswer where
  result : XferResult
  data : List Word := []
  deriving DecidableEq, Repr

/-- The answers of one environment. Each call takes the next scripted answer of its own queue; when the queue is empty the
answer is a free value of Config at `used`, which then advances. `vendorLeft = some n`: after `n` more vendor calls the next
one never returns (93_implementation_defined.md U9); `none`: every vendor call returns (70_reset_and_hazards.md R287). -/
structure Env where
  id : Option Nat
  used : Nat := 0
  vendorLeft : Option Nat := none
  reads : List Word := []
  finds : List (Option DevKey) := []
  opens : List (Option DevHandle) := []
  maps : List (Option VAddr) := []
  dmaOpens : List (Option Channel) := []
  xfers : List XferAnswer := []
  closes : List CloseResult := []
  deriving DecidableEq, Repr

/-- What a running operation reads and changes: the module handle and the environment it consumes answers of. -/
structure Ctx where
  handle : Handle
  env : Env
  deriving DecidableEq, Repr

/-- An operation in progress (00_scope.md R6): the operation, the context it started from, and the events it has issued so far.
By 00_scope.md R7 they fix what it does next (log 32). -/
structure Job where
  op : Instr
  start : Ctx
  trace : List Issued
  deriving DecidableEq, Repr

/-- One module: its handle, the position of its sequencer (10_state.md R23), the environment behind its window, and the operation
its sequencer has in progress: none between operations. In mid-operation `handle`, `pos` and `env` are those of the moment. -/
structure Module where
  handle : Handle
  pos : SeqPos
  env : Env
  job : Option Job := none
  deriving DecidableEq, Repr

/-- The system record (10_state.md R20). `moduleCount` is the number of entries of `modules`. -/
structure System where
  offline : Bool
  modules : List Module
  deriving DecidableEq, Repr

/-- Who moves in a step (00_scope.md R6; log 32): the caller starts its oldest call on its module's sequencer, or the sequencer of
module `m` makes the next step of the operation it has in progress. -/
inductive Turn where
  | start
  | sequencer (m : Nat)
  deriving DecidableEq, Repr

/-- The machine. `system` is none before the first successful SYS_INIT (44_discovery.md R246). `cfg`, `disc`, `calls`, `last` and
`turns` are the model's own: the parameters (log 3), the environment discovery meets (log 2), the operations the caller has
issued and the block has not started, oldest first (log 5), the observation of the operation that returned last (log 26), and who
moves next, first turn first: any interleaving of the sequencers (log 32). -/
structure State where
  cfg : Params
  system : Option System
  disc : Env
  calls : List Call
  last : Option Observation
  turns : List Turn := []
  deriving DecidableEq, Repr

/-- The machine before the caller has issued anything: no system exists (70_reset_and_hazards.md R275). -/
def State.reset : State :=
  { cfg := {}, system := none, disc := { id := none }, calls := [], last := none, turns := [] }

/-! ## Ways to stop -/

/-- Faults. The first two are the model faults of 60_exceptions.md R261, the third is the hang of U9. -/
inductive Fault where
  /-- Raised by HBR_REQUEST (42_hbr_dma.md R150) when the request is already held. Safe: the spec gives no effect, and no
  operation a caller can issue reaches it. -/
  | hbrNested
  /-- Raised by HBR_DONE (42_hbr_dma.md R151) when no request is held. Safe, as above. -/
  | hbrUnpaired
  /-- Raised by the meaning of an operation whose vendor-library call never returns (93_implementation_defined.md U9, treatment
  `stuck`). On a module, `step` turns it into a next state in which that sequencer stands where it hangs and every other one goes
  on; it stays the fault of SYS_INIT alone, which no sequencer runs (70_reset_and_hazards.md R286). Safe: SYS_INIT has no enabled
  step. -/
  | vendorHang
  deriving DecidableEq, Repr

/-- Refusals: "it has no step, issues no event and returns nothing". -/
inductive Refusal where
  /-- Raised by exec's arms for an instruction without a meaning; no arm does. Safe. -/
  | notModelled (mnemonic : String)
  /-- Raised by step for a command word that spells no operation (30_encoding.md R84 (a) to (c)). Safe: the spec refuses it. -/
  | encoding (e : DecodeError)
  /-- Raised by step for HBR_REQUEST or HBR_DONE issued by the caller (30_encoding.md R84 (d)). Safe: the spec refuses it. -/
  | callerIssuedInternal
  /-- Raised by an operation given a raw offset, or naming a register whose REGMAP offset (log 9), that 20_memory.md R65 does not
  admit. Safe: the spec refuses it. -/
  | badOffset (off : Nat)
  /-- Raised by any operation on a module whose sequencer is not idle: it has an operation in progress, or hangs
  (70_reset_and_hazards.md R283; U12, "no move"). Safe: a caller does not issue it (R286). -/
  | sequencerBusy
  deriving DecidableEq, Repr

/-! ## The sequencer's programs -/

/-- What the running operation sees and does not change: the parameters, the window it drives, its position. -/
structure Scope where
  cfg : Params
  who : Who
  pos : Place
  deriving DecidableEq, Repr

/-- One step of a sequencer: the event it issues and the context it stands in just before. -/
structure Stage where
  pre : Ctx
  issued : Issued
  deriving DecidableEq, Repr

/-- The events of the steps. -/
def shown (t : List Stage) : List Issued := t.map Stage.issued

/-- How a part of an operation ends: with a value, the new context and the steps it made, in order; or with a fault at a place and
in a context, after the steps made before it; or refused. -/
inductive Res (α : Type) where
  | ok (a : α) (c : Ctx) (t : List Stage)
  | fault (f : Fault) (pos : Place) (c : Ctx) (t : List Stage)
  | refused (r : Refusal)
  deriving Repr, DecidableEq

/-- A part of an operation, as the pseudocode of the rules composes them. -/
def Op (α : Type) : Type := Scope → Ctx → Res α

end Sys2Proof.Machine
end

