-- ==== Sys2Proof/Machine/Operands.lean ====
section
/-! DEFINITION. The operand forms: parameters looked up by name or by table, register offsets and directions, caller buffers,
counts written to ports, the processor file and its segments. Pure functions, no step. -/

namespace Sys2Proof.Machine

/-! ## Parameters (00_scope.md R8) -/

/-- A function parameter: its table's row, or the opaque function where no row stands (log 4). -/
def tableOr {α β : Type} [DecidableEq α] (rows : List (α × β)) (other : α → β) (a : α) : β :=
  match rows.find? (fun r => r.1 = a) with
  | some r => r.2
  | none => other a

/-- `DSP_ATTEMPTS`. -/
def dspAttempts (p : Params) : Nat := p.dspMoreAttempts + 1
/-- `SEG_HEADER_WORDS`. -/
def segHeaderWords (p : Params) : Nat := 3 + p.segHeaderExtra
/-- `FW_WORDS_COMM(rev)`. -/
def fwWordsComm (p : Params) (rev : Nat) : Nat := tableOr p.fwWordsComm Config.fwWordsComm rev
/-- `FW_WORDS_SP(rev)`. -/
def fwWordsSp (p : Params) (rev : Nat) : Nat := tableOr p.fwWordsSp Config.fwWordsSp rev
/-- `TAGMAP(tagValue)`; none is `unsupported`. -/
def tagInfo (p : Params) (tag : Word) : Option TagInfo := tableOr p.tagMap Config.tagMap tag
/-- `SLOT_READ.decode(bytes)`. -/
def slotOf (p : Params) (bytes : List Byte) : Nat := tableOr p.slotDecode Config.slotDecode bytes
/-- `BUSSLOT(key)`. -/
def busSlotOf (p : Params) (k : DevKey) : Nat := tableOr p.busSlot Config.busSlot k
/-- `ADC_DECODE(layout, bytes)`. -/
def adcOf (p : Params) (l : Layout) (bytes : List Byte) : AdcResult :=
  tableOr p.adcDecode (fun x => Config.adcDecode x.1 x.2) (l, bytes)
/-- `FPGA_PATTERNS` of a target (10_state.md R35). -/
def patternOf (p : Params) : Target → FpgaPattern
  | .comm => p.patternComm
  | .spA => p.patternSpA
  | .spB => p.patternSpB
/-- The two pairs of `DSP_CFG`, in order. -/
def dspCfgPairs (p : Params) : List CfgPair := [p.dspCfg0, p.dspCfg1]
/-- Host cycles of one settle delay: `ceil(SER_SETTLE_NS * CPNS)` (41_serial_bus.md R120). No event depends on it (log 29). -/
def settleCycles (p : Params) : Int := ((p.serSettleNs : Rat) * p.cpns.value).ceil

/-! ## The register window (10_state.md R30, 20_memory.md R65) -/

/-- The registers of 10_state.md R30. -/
def allRegs : List Reg :=
  [.cfgData, .cfgCtrl, .cfgStat, .hbrReq, .hbrDone, .hbrStat, .dspAddr, .dspData, .dmaCtrl, .dmaStat, .csr, .extmemAddr,
    .extmemData, .extmemFifoArm, .extmemClr, .extfifoArm, .extfifoWm, .extfifoData, .serCtrl, .serStat, .clkrst]

/-- The entry of `REGMAP` for a register. -/
def regEntry (p : Params) : Reg → RegOffset
  | .cfgData => p.regmap.cfgData
  | .cfgCtrl => p.regmap.cfgCtrl
  | .cfgStat => p.regmap.cfgStat
  | .hbrReq => p.regmap.hbrReq
  | .hbrDone => p.regmap.hbrDone
  | .hbrStat => p.regmap.hbrStat
  | .dspAddr => p.regmap.dspAddr
  | .dspData => p.regmap.dspData
  | .dmaCtrl => p.regmap.dmaCtrl
  | .dmaStat => p.regmap.dmaStat
  | .csr => p.regmap.csr
  | .extmemAddr => p.regmap.extmemAddr
  | .extmemData => p.regmap.extmemData
  | .extmemFifoArm => p.regmap.extmemFifoArm
  | .extmemClr => p.regmap.extmemClr
  | .extfifoArm => p.regmap.extfifoArm
  | .extfifoWm => p.regmap.extfifoWm
  | .extfifoData => p.regmap.extfifoData
  | .serCtrl => p.regmap.serCtrl
  | .serStat => p.regmap.serStat
  | .clkrst => p.regmap.clkrst

/-- The words of the window up to an admitted register; none for another. -/
def entryWords : RegOffset → Nat
  | .word k => k
  | .unaligned _ _ | .beyond _ => 0

/-- The word index of the last admitted register. -/
def lastRegWord (p : Params) : Nat := (allRegs.map fun r => entryWords (regEntry p r)).foldr max 0

/-- `WIN_BYTES` (log 10): every admitted register lies inside the window. -/
def winBytes (p : Params) : Nat := 4 * lastRegWord p + p.winSlack + 1

/-- `REGMAP(name)`, a byte offset. -/
def regOffset (p : Params) (r : Reg) : Nat :=
  match regEntry p r with
  | .word k => 4 * k
  | .unaligned k i => 4 * k + i.val + 1
  | .beyond k => 4 * ((winBytes p + 3) / 4 + k)

/-- The register's `REGMAP` value satisfies 20_memory.md R65 (`Laws/Ops.lean`, `regAdmitted_eq`). -/
def regAdmitted (p : Params) (r : Reg) : Bool :=
  match regEntry p r with
  | .word _ => true
  | .unaligned _ _ | .beyond _ => false

/-- "A register offset must be a multiple of 4 and below `WIN_BYTES`" (20_memory.md R65). -/
def offsetOk (p : Params) (off : Nat) : Bool := off % 4 == 0 && decide (off < winBytes p)

/-- The direction column of 10_state.md R30 includes read. -/
def regReadable : Reg → Bool
  | .cfgStat | .hbrStat | .dspData | .dmaStat | .csr | .extmemData | .extfifoWm | .extfifoData | .serStat => true
  | .cfgData | .cfgCtrl | .hbrReq | .hbrDone | .dspAddr | .dmaCtrl | .extmemAddr | .extmemFifoArm | .extmemClr
  | .extfifoArm | .serCtrl | .clkrst => false

/-- The direction column of 10_state.md R30 includes write. -/
def regWritable : Reg → Bool
  | .cfgData | .cfgCtrl | .hbrReq | .hbrDone | .dspAddr | .dspData | .dmaCtrl | .csr | .extmemAddr | .extmemData
  | .extmemFifoArm | .extmemClr | .extfifoArm | .serCtrl | .clkrst => true
  | .cfgStat | .hbrStat | .dmaStat | .extfifoWm | .extfifoData | .serStat => false

/-! ## Counts and buffers -/

/-- A count as the word written to a port. A count of 2^32 or more has no stated word: a free value (log 11). -/
def countWord (n : Nat) : Word := if n < 2 ^ 32 then BitVec.ofNat 32 n else Config.wordOfLargeCount n

/-- The words of a caller buffer; an absent one has none (20_memory.md R68; log 7). -/
def bufWords (b : Buf) : List Word := b.getD []

/-- `len(buf)`. -/
def bufLen (b : Buf) : Nat := (bufWords b).length

/-- `buf[0..len(ws))` replaced by `ws`, the rest unchanged (20_memory.md R68). -/
def bufPut (b : Buf) (ws : List Word) : Buf := b.map fun old => ws ++ old.drop ws.length

/-- `buf[0]`, the output of an offline read of one word; the check `len(buf) ≥ 1` precedes it. -/
def bufFirst (b : Buf) : Word := (bufWords b).headD 0

/-- `w[7:0]` (41_serial_bus.md R131). -/
def lowByte (w : Word) : Byte := w.setWidth 8

/-- `zext_32` of a byte. -/
def zextByte (b : Byte) : Word := b.setWidth 32

/-! ## Argument checks (the ArgChecks lines of the rules) -/

/-- The first check that fails, in the order listed (00_scope.md R12, 60_exceptions.md R263). -/
def firstFailure : List (Bool × Failure) → Option Failure
  | [] => none
  | (bad, f) :: rest => if bad then some f else firstFailure rest

/-- `if len(buf) < n: Fail(InvalidArgument, BUFFER)`. -/
def checkBuf (b : Buf) (n : Nat) : Bool × Failure := (decide (bufLen b < n), ⟨.invalidArgument, .buffer⟩)

/-- `if count == 0: Fail(InvalidArgument, COUNT)`. -/
def checkCount (n : Nat) : Bool × Failure := (n == 0, ⟨.invalidArgument, .count⟩)

/-- Firmware size of the interface FPGA (43_boot.md R200). -/
def checkComm (p : Params) (rev : Nat) (image : List Word) : Bool × Failure :=
  (image.length != fwWordsComm p rev, ⟨.dataIntegrityFailure, .fwSizeComm⟩)

/-- Firmware size of the signal-processing FPGAs (43_boot.md R200). -/
def checkSp (p : Params) (rev : Nat) (image : List Word) : Bool × Failure :=
  (image.length != fwWordsSp p rev, ⟨.dataIntegrityFailure, .fwSizeSp⟩)

/-! ## The processor file (43_boot.md R216, R219; 30_encoding.md R90) -/

/-- `Repack`: each byte pair is one stream word, the first byte in bits 15:8; an odd length is malformed. -/
def repack : List Byte → Option (List Word)
  | [] => some []
  | [_] => none
  | a :: b :: rest => (repack rest).map fun ws => (a ++ b).setWidth 32 :: ws

/-- Stream words of the boot kernel: the position `p0` of 30_encoding.md R90. -/
def kernelStreamWords (p : Params) : Nat := p.dspKernelWords * p.dspKernelSubwords

/-- The file's ArgChecks of 43_boot.md R226: it repacks, and it holds the kernel. -/
def fileOk (p : Params) (file : List Byte) : Bool :=
  match repack file with
  | none => false
  | some ws => decide (kernelStreamWords p ≤ ws.length)

/-- `DSP_STREAM` when the file is malformed. -/
def checkFile (p : Params) (file : List Byte) : Bool × Failure :=
  (!fileOk p file, ⟨.dataIntegrityFailure, .dspStream⟩)

/-- The stream `W` of a file that passed its check. -/
def streamOf (file : List Byte) : List Word := (repack file).getD []

/-- `SUBWORDS(width)` (30_encoding.md R90). -/
def subwords : SegWidth → Nat
  | .w16 => 1
  | .w32 => 2
  | .w40 => 3
  | .w48 => 3
  | .w64 => 4

/-- `n` consecutive groups of `k` words from the front of `ws`. -/
def groupsOf (k : Nat) : Nat → List Word → List (List Word)
  | 0, _ => []
  | n + 1, ws => ws.take k :: groupsOf k n (ws.drop k)

end Sys2Proof.Machine
end

