-- ==== Sys2Proof/Machine/Flags.lean ====
section
/-! DEFINITION. Every status code, CSR field, control-word and mask computation of the spec. -/

namespace Sys2Proof.Machine

/-! ## Status codes (30_encoding.md R86 to R88) -/

/-- Category numbers (R87). -/
def categoryCode : Category → Nat
  | .invalidArgument => 1
  | .protocolTimeout => 2
  | .resourceFailure => 3
  | .dataIntegrityFailure => 4
  | .hardwareBusyOrStuck => 5

/-- Site numbers (R88). -/
def siteCode : Site → Nat
  | .moduleIndex => 1
  | .buffer => 2
  | .count => 3
  | .pattern => 4
  | .closed => 5
  | .system => 6
  | .serAck => 10
  | .hbrGrant => 20
  | .dspBlock => 21
  | .dspRemainder => 22
  | .dmaOpen => 30
  | .dmaWatermark => 31
  | .dmaTransfer => 32
  | .dmaClose => 33
  | .fifoWatermark => 40
  | .fifoBurst => 41
  | .extmemRead => 50
  | .extmemWatermark => 51
  | .extmemClear => 52
  | .fwSizeComm => 60
  | .fwSizeSp => 61
  | .commFpga => 62
  | .spFpgaA => 63
  | .spFpgaB => 64
  | .dspCfg => 65
  | .dspPudone => 66
  | .dspTag => 67
  | .dspStream => 68
  | .find => 70
  | .openDev => 71
  | .map => 72
  | .slotRead => 73
  | .matchSlot => 74

/-- The numeric code: 0 for OK, `-(10 * site + category)` for a failure (R86). -/
def statusCode : Status → Int
  | .ok => 0
  | .fail f => -(10 * (siteCode f.site : Int) + categoryCode f.category)

/-- Re-siting: the category is kept, the site replaced (60_exceptions.md R262). -/
def resite (s : Site) (f : Failure) : Failure := { f with site := s }

/-! ## The CSR (10_state.md R33, 40_register_csr.md R107) -/

/-- `1 << CSRMAP(F)`. -/
def fieldBit (i : Fin 32) : Word := 1#32 <<< i.val

/-- The word a CSR read-modify-write writes back: `(v & ~clr) | set`. -/
def csrMerge (set clr v : Word) : Word := (v &&& ~~~clr) ||| set

/-- `(v & mask) == mask`: INIT, DONE and the HBR grant (10_state.md R35; 42_hbr_dma.md R150). -/
def allSet (mask v : Word) : Bool := v &&& mask == mask

/-- `(v & mask) != 0`: watermarks and the power-up flag (42_hbr_dma.md R159, R172; 43_boot.md R225). -/
def anySet (mask v : Word) : Bool := v &&& mask != 0

/-! ## The serial lines (10_state.md R36) -/

/-- A line level at its bit position. -/
def lineBit (level : Bool) (i : Fin 32) : Word := if level then fieldBit i else 0

/-- The `SER_CTRL` word of three line levels, all other bits 0. -/
def lineWord (p : Params) (l : Lines) : Word :=
  lineBit l.scl p.sermap.scl ||| lineBit l.sdaOut p.sermap.sdaOut ||| lineBit l.sdaOe p.sermap.sdaOe

/-- `SDA_IN` of a `SER_STAT` word. -/
def sdaIn (p : Params) (v : Word) : Bool := v.getLsbD p.sermap.sdaIn.val

/-- The sampled bit is shifted in at bit 0 (41_serial_bus.md R122). -/
def shiftIn (s : Byte) (d : Bool) : Byte := (s <<< 1) ||| (if d then 1#8 else 0#8)

/-! ## The boot pattern (30_encoding.md R89) -/

/-- Reserved bits 7..31. -/
def patternReserved (pattern : Word) : Bool := pattern &&& ~~~0x7F#32 != 0
/-- Bit 0, the interface FPGA. -/
def patternComm (pattern : Word) : Bool := pattern.getLsbD 0
/-- Bit 2, the signal-processing FPGAs. -/
def patternSp (pattern : Word) : Bool := pattern.getLsbD 2
/-- Bit 3, the processor program. -/
def patternDsp (pattern : Word) : Bool := pattern.getLsbD 3

end Sys2Proof.Machine
end

