-- ==== Sys2Proof/Machine/Ops.lean ====
section
/-! DEFINITION. The named operations every meaning is written from: composing parts of an operation, the sequencer position, the
primitives of 00_scope.md R10, the environment's answers, bounded polls, the CSR read-modify-write, the caller's buffer, the
preamble, and returning a status (the block's counterpart of taking an exception, 60_exceptions.md R255, R259). -/

namespace Sys2Proof.Machine

/-! ## Composing the parts of an operation -/

/-- The part that only gives a value. -/
def Op.pure {α : Type} (a : α) : Op α := fun _ c => .ok a c []

/-- One part, then the next: the context is handed on and the steps follow one another. -/
def Op.bind {α β : Type} (x : Op α) (f : α → Op β) : Op β := fun sc c =>
  match x sc c with
  | .ok a c₁ t₁ =>
    match f a sc c₁ with
    | .ok b c₂ t₂ => .ok b c₂ (t₁ ++ t₂)
    | .fault r pos c₂ t₂ => .fault r pos c₂ (t₁ ++ t₂)
    | .refused r => .refused r
  | .fault r pos c₁ t₁ => .fault r pos c₁ t₁
  | .refused r => .refused r

/-- A part without a value, then the next. -/
def Op.andThen {β : Type} (x : Op Unit) (y : Op β) : Op β := x.bind fun _ => y

/-- A part, its value changed. -/
def Op.map {α β : Type} (f : α → β) (x : Op α) : Op β := x.bind fun a => Op.pure (f a)

/-- `s <- x; if s != OK: return s`, then the next. -/
def Op.ifOk {α β : Type} (x : Op (Except Failure α)) (f : α → Op (Except Failure β)) : Op (Except Failure β) :=
  x.bind fun r =>
    match r with
    | .ok a => f a
    | .error e => Op.pure (.error e)

/-- A part that depends on the parameters. -/
def Op.withCfg {α : Type} (f : Params → Op α) : Op α := fun sc c => f sc.cfg sc c

/-- Stops with a fault. -/
def Op.fault {α : Type} (f : Fault) : Op α := fun sc c => .fault f sc.pos c []

/-- Stops with a refusal. -/
def Op.refuse {α : Type} (r : Refusal) : Op α := fun _ _ => .refused r

/-- The module handle as it stands. -/
def Op.getHandle : Op Handle := fun _ c => .ok c.handle c []

/-- Writes the module handle. -/
def Op.setHandle (f : Handle → Handle) : Op Unit := fun _ c => .ok () { c with handle := f c.handle } []

/-- A part run for every element, in order, with its index counted from `i`. -/
def Op.each {α : Type} (f : Nat → α → Op Unit) : Nat → List α → Op Unit
  | _, [] => Op.pure ()
  | i, a :: rest => (f i a).andThen (Op.each f (i + 1) rest)

/-- A part run `n` times, index counted from `i`, its values collected. -/
def Op.times {β : Type} (f : Nat → Op β) : Nat → Nat → Op (List β)
  | _, 0 => Op.pure []
  | i, n + 1 => (f i).bind fun b => (Op.times f (i + 1) n).map fun bs => b :: bs

/-- A part run for every element, in order, until one fails; the values are collected. -/
def Op.eachOk {α β : Type} (f : Nat → α → Op (Except Failure β)) : Nat → List α → Op (Except Failure (List β))
  | _, [] => Op.pure (.ok [])
  | i, a :: rest =>
    (f i a).ifOk fun b => (Op.eachOk f (i + 1) rest).ifOk fun bs => Op.pure (.ok (b :: bs))

/-! ## The sequencer position (10_state.md R23) -/

/-- The place at which operation `k` starts. -/
abbrev startPos (k : Mnemonic) : Place := .running k .straight []

/-- Inside iteration `k` of a loop. -/
def posLoop (k : Nat) : Place → Place
  | .running op ph ls => .running op ph (k :: ls)

/-- In a phase of the operation's state machine. -/
def posPhase (ph : Phase) : Place → Place
  | .running op _ ls => .running op ph ls

/-- A part run at another place of the operation. -/
def Op.placed {α : Type} (g : Place → Place) (x : Op α) : Op α := fun sc c => x { sc with pos := g sc.pos } c

/-- A part run inside iteration `k`. -/
def Op.inLoop {α : Type} (k : Nat) (x : Op α) : Op α := x.placed (posLoop k)

/-- A part run in phase `ph`. -/
def Op.inPhase {α : Type} (ph : Phase) (x : Op α) : Op α := x.placed (posPhase ph)

/-! ## The environment's answers (10_state.md R40; log 2) -/

/-- The next answer of a queue: its scripted head, or a free value. -/
def envNext {α : Type} (q : List α) (free : Option Nat → Nat → α) (pop : Env → List α → Env) (e : Env) : α × Env :=
  match q with
  | a :: rest => (a, pop e rest)
  | [] => (free e.id e.used, { e with used := e.used + 1 })

/-- The next register-read answer. -/
def envRead (e : Env) : Word × Env := envNext e.reads Config.freeWord (fun e q => { e with reads := q }) e

/-- The next `findDevice` answer. -/
def envFind (e : Env) : Option DevKey × Env := envNext e.finds Config.freeFind (fun e q => { e with finds := q }) e

/-- The next `open` answer. -/
def envOpen (e : Env) : Option DevHandle × Env := envNext e.opens Config.freeOpen (fun e q => { e with opens := q }) e

/-- The next `mapBar` answer. -/
def envMap (e : Env) : Option VAddr × Env := envNext e.maps Config.freeMap (fun e q => { e with maps := q }) e

/-- The next `dmaOpen` answer. -/
def envDmaOpen (e : Env) : Option Channel × Env :=
  envNext e.dmaOpens Config.freeDmaOpen (fun e q => { e with dmaOpens := q }) e

/-- The next `dmaTransfer` answer. -/
def envXfer (e : Env) : XferAnswer × Env :=
  envNext e.xfers (fun i n => { result := Config.freeXfer i n }) (fun e q => { e with xfers := q }) e

/-- The next `dmaClose` answer. -/
def envClose (e : Env) : CloseResult × Env := envNext e.closes Config.freeClose (fun e q => { e with closes := q }) e

/-- `n` free words. -/
def envFreeWords (n : Nat) (e : Env) : List Word × Env :=
  ((List.range n).map fun i => Config.freeWord e.id (e.used + i), { e with used := e.used + n })

/-! ## Primitives (00_scope.md R10) -/

/-- One event, issued where the sequencer stands: the step that issues it. -/
def stepOf (sc : Scope) (c : Ctx) (r : Option Reg) (e : Event) : List Stage := [⟨c, ⟨sc.pos, r, e⟩⟩]

/-- Issues one event. -/
def Op.emit (r : Option Reg) (e : Event) : Op Unit := fun sc c => .ok () c (stepOf sc c r e)

/-- `MemRead(off, 4)`: one RD event with the environment's answer; no access is issued at an offset outside 20_memory.md R65,
which the operation has been refused for before it starts (`guardRegs`; log 9). `r` is the register the rule names, none for a raw offset. -/
def memRead (r : Option Reg) (off : Nat) : Op Word := fun sc c =>
  if offsetOk sc.cfg off then
    .ok (envRead c.env).1 { c with env := (envRead c.env).2 } (stepOf sc c r (.rd sc.who off (envRead c.env).1))
  else .refused (.badOffset off)

/-- `MemWrite(off, 4, v)`: one WR event. -/
def memWrite (r : Option Reg) (off : Nat) (v : Word) : Op Unit := fun sc c =>
  if offsetOk sc.cfg off then .ok () c (stepOf sc c r (.wr sc.who off v))
  else .refused (.badOffset off)

/-- `RegRead(m, R)`. -/
def regRead (r : Reg) : Op Word := Op.withCfg fun p => memRead (some r) (regOffset p r)

/-- `RegWrite(m, R, v)`. -/
def regWrite (r : Reg) (v : Word) : Op Unit := Op.withCfg fun p => memWrite (some r) (regOffset p r) v

/-- `Sleep(ns)`: an event without duration (70_reset_and_hazards.md R281). -/
def sleep (ns : Nat) : Op Unit := Op.emit none (.sleep ns)

/-- `Sleep(ns) when ns > 0`. -/
def sleepIfPositive (ns : Nat) : Op Unit := if ns > 0 then sleep ns else Op.pure ()

/-- A vendor-library call (10_state.md R28): it never returns (U9; log 16), or one event with the environment's answer. -/
def vendorCall {α : Type} (answer : Env → α × Env) (event : Handle → α → Event) : Op α := fun sc c =>
  match c.env.vendorLeft with
  | some 0 => .fault .vendorHang sc.pos c []
  | left =>
    let a := answer { c.env with vendorLeft := left.map (· - 1) }
    .ok a.1 { c with env := a.2 } (stepOf sc c none (event c.handle a.1))

/-- The answer of a call whose result the block does not use. -/
def noAnswer (e : Env) : Unit × Env := ((), e)

/-! ## Bounded polls (42_hbr_dma.md R152) -/

/-- `PollUntil`: read `i` of at most `n` more; satisfied with the read's number and value, or none on TIMEOUT. `place` says
where the sequencer stands during read `i`. -/
def pollFrom (place : Nat → Place → Place) (r : Reg) (pred : Word → Bool) (d : Nat) :
    Nat → Nat → Op (Option (Nat × Word))
  | _, 0 => Op.pure none
  | i, n + 1 =>
    ((regRead r).placed (place i)).bind fun v =>
      if pred v then Op.pure (some (i, v))
      else ((sleepIfPositive d).placed (place i)).andThen (pollFrom place r pred d (i + 1) n)

/-- `PollUntil(m, R, pred, N, d)`. -/
def pollUntil (place : Nat → Place → Place) (r : Reg) (pred : Word → Bool) (n d : Nat) : Op (Option (Nat × Word)) :=
  pollFrom place r pred d 1 n

/-! ## The CSR read-modify-write (40_register_csr.md R107) -/

/-- `CsrModify(m, set, clr)`: one read, one write, no lock (10_state.md R34). -/
def csrModify (set clr : Word) : Op Unit := (regRead .csr).bind fun v => regWrite .csr (csrMerge set clr v)

/-- `CsrSet(m, F)`. -/
def csrSet (f : CsrMap → Fin 32) : Op Unit := Op.withCfg fun p => csrModify (fieldBit (f p.csrmap)) 0

/-- `CsrClear(m, F)`. -/
def csrClear (f : CsrMap → Fin 32) : Op Unit := Op.withCfg fun p => csrModify 0 (fieldBit (f p.csrmap))

/-! ## The caller's buffer after a failure (20_memory.md R68, U2; log 8) -/

/-- `buf[0..n)` becomes unspecified; the rest is unchanged. -/
def spoil (n : Nat) (b : Buf) : Op Buf := fun _ c =>
  match b with
  | none => .ok none c []
  | some ws =>
    let k := min n ws.length
    .ok (some ((envFreeWords k c.env).1 ++ ws.drop k)) { c with env := (envFreeWords k c.env).2 } []

/-- `return Fail(category, site)` of an operation that reads `n` words into `b`. -/
def failWith (f : Failure) (n : Nat) (b : Buf) : Op Reply :=
  (spoil n b).map fun b' => { status := .fail f, buf := b' }

/-- A status returned unchanged by an operation without outputs. -/
def replyOf (b : Buf) : Except Failure Unit → Reply
  | .ok _ => { status := .ok, buf := b }
  | .error f => { status := .fail f, buf := b }

/-- The reply of an operation that reads into `b`: the words read on success, an unspecified prefix on failure. -/
def replyWords (n : Nat) (b : Buf) : Except Failure (List Word) → Op Reply
  | .ok ws => Op.pure { status := .ok, buf := bufPut b ws }
  | .error f => failWith f n b

/-! ## Refusing an operation for its offsets (20_memory.md R65; log 9) -/

/-- Runs an operation that names the registers `rs`, unless the `REGMAP` value of one of them breaks 20_memory.md R65: then the
operation "has no step, issues no event and returns nothing", whatever its checks and its path would be. R65 leaves open which
values are an operation's: a loop or a poll names its registers even with no turn (DESIGN CHOICE, log 9). -/
def guardRegs (rs : List Reg) (s : State) (run : Host.Outcome State Fault Refusal) : Host.Outcome State Fault Refusal :=
  match rs.find? fun r => !regAdmitted s.cfg r with
  | none => run
  | some r => .refused (.badOffset (regOffset s.cfg r))

/-- Runs an operation with a raw offset, unless it breaks 20_memory.md R65 (40_register_csr.md R100). -/
def guardOffset (off : Nat) (s : State) (run : Host.Outcome State Fault Refusal) : Host.Outcome State Fault Refusal :=
  if offsetOk s.cfg off then run else .refused (.badOffset off)

/-- The registers of the serial lines (10_state.md R36): those every serial operation names, and with a byte count of 0 as well
(DESIGN CHOICE, log 9). -/
def serRegs : List Reg := [.serCtrl, .serStat]

/-- The registers HBR_REQUEST names: the grant poll's only where there is one (42_hbr_dma.md R150). -/
def hbrRequestRegs (p : Params) : List Reg := if p.hbrGrantPolls > 0 then [.hbrReq, .hbrStat, .hbrDone] else [.hbrReq]

/-- The registers of work under a request (42_hbr_dma.md R150, R151). -/
def hbrRegs (p : Params) : List Reg := .hbrDone :: hbrRequestRegs p

/-- The registers a burst names: its port and, for processor memory, those of the priming (42_hbr_dma.md R158, R159). -/
def burstRegs (kind : Kind) (port : Reg) : List Reg :=
  match kind with
  | .dsp => [port, .dmaCtrl, .dmaStat]
  | .ext | .fifo => [port]

/-! ## Running an operation: preamble, body, return (00_scope.md R12, 40_register_csr.md R100) -/

/-- The module handle at an index, if there is one. -/
def State.module? (s : State) (m : Nat) : Option Module :=
  match s.system with
  | none => none
  | some y => y.modules[m]?

/-- `moduleCount`, read as 0 while no system exists (44_discovery.md R246). -/
def State.moduleCount (s : State) : Nat :=
  match s.system with
  | none => 0
  | some y => y.modules.length

/-- The system's `offline`. -/
def State.isOffline (s : State) : Bool :=
  match s.system with
  | none => false
  | some y => y.offline

/-- Writes one module's record. -/
def State.putModule (m : Nat) (x : Module) (s : State) : State :=
  { s with system := s.system.map fun y => { y with modules := y.modules.set m x } }

/-- Returning a status: the one way every operation ends, on success and on failure. The status, the outputs and the trace are
the observation (00_scope.md R7). It saves no other state, changes no mode, and goes nowhere (60_exceptions.md R255, R259);
the sequencer becomes idle (70_reset_and_hazards.md R288), which `Program.runOn` and `resume` write into the module served. -/
def finish (k : Mnemonic) (r : Reply) (t : List Issued) (s : State) : State :=
  { s with last := some { op := k, reply := r, issued := t } }

/-- An operation run from its start to its return, whose parts ended as `res`. `back` puts the context back. -/
def runOp (k : Mnemonic) (res : Res Reply) (back : Ctx → State → State) (s : State) : Host.Outcome State Fault Refusal :=
  match res with
  | .ok r c t => .next (finish k r (shown t) (back c s))
  | .fault f _ _ _ => .fault f
  | .refused r => .refused r

/-- A handle that belongs to no module: what a probe drives (44_discovery.md R242). -/
def scratchHandle (e : Env) (dev : Option DevHandle) (win : Option VAddr) : Handle :=
  { dev, win, slot := 0, offline := false, boot := {}, hbrHeld := false, dma := none, ser := none,
    lines := Config.freeLines e.id e.used }

/-- Runs an operation that is served by no module. -/
def runSystem (k : Mnemonic) (x : Op Reply) (s : State) : Host.Outcome State Fault Refusal :=
  runOp k (x ⟨s.cfg, .probe 0, startPos k⟩ ⟨scratchHandle s.disc none none, s.disc⟩) (fun c s => { s with disc := c.env }) s

/-- `Preamble(m)` after the index check: the argument checks in their order, then offline (00_scope.md R12). -/
def preamble (checks : List (Bool × Failure)) (offline : Bool) (offlineReply : Reply) (n : Nat) (b : Buf)
    (body : Op Reply) : Op Reply :=
  match firstFailure checks with
  | some f => failWith f n b
  | none => if offline then Op.pure offlineReply else body

/-- `if S.win == none: return Fail(InvalidArgument, CLOSED)` (40_register_csr.md R100). -/
def mapped (n : Nat) (b : Buf) (body : Op Reply) : Op Reply :=
  Op.getHandle.bind fun h => if h.win.isNone then failWith ⟨.invalidArgument, .closed⟩ n b else body

/-- The program of an operation that names a module: what the sequencer of that module runs (00_scope.md R6). The registers and
the raw offset it is refused for, its argument checks, how many words of `buf` are unspecified after a failure, the output
offline, whether it runs `Ready(m)` or `Preamble(m)` alone, and its body. -/
structure Program where
  op : Mnemonic
  regs : List Reg := []
  raw : Option Nat := none
  checks : List (Bool × Failure) := []
  reads : Nat := 0
  buf : Buf := none
  offlineOut : Output := .none
  ready : Bool := true
  body : Op Reply

/-- Everything the sequencer runs: the preamble, which offline returns at once with the buffer unchanged (40_register_csr.md
R108), and the body. -/
def Program.code (g : Program) (offline : Bool) : Op Reply :=
  preamble g.checks offline { status := .ok, output := g.offlineOut, buf := g.buf } g.reads g.buf
    (if g.ready then mapped g.reads g.buf g.body else g.body)

/-- How the program ends on module `m` from the context `c`, and the steps it makes. -/
def Program.result (g : Program) (p : Params) (offline : Bool) (m : Nat) (c : Ctx) : Res Reply :=
  g.code offline ⟨p, .module m, startPos g.op⟩ c

/-- The context an operation starts from on a module. -/
def Module.ctx (x : Module) : Ctx := ⟨x.handle, x.env⟩

/-- The program run from its start to its return on module `m`: no such module, or its sequencer is not idle and gives no move
(70_reset_and_hazards.md R283, U12), or its code. -/
def Program.runOn (g : Program) (m : Nat) (s : State) : Host.Outcome State Fault Refusal :=
  match s.module? m with
  | none => runSystem g.op (failWith ⟨.invalidArgument, .moduleIndex⟩ g.reads g.buf) s
  | some x =>
    if x.pos = .idle then
      runOp g.op (g.result s.cfg s.isOffline m x.ctx)
        (fun c s => s.putModule m { x with handle := c.handle, pos := .idle, env := c.env }) s
    else .refused .sequencerBusy

/-- Refused for an offset (20_memory.md R65), or `run`. -/
def Program.guarded (g : Program) (s : State) (run : Host.Outcome State Fault Refusal) : Host.Outcome State Fault Refusal :=
  guardRegs g.regs s <|
    match g.raw with
    | none => run
    | some off => guardOffset off s run

/-- The meaning of every operation that names a module. -/
def Program.run (g : Program) (m : Nat) (s : State) : Host.Outcome State Fault Refusal := g.guarded s (g.runOn m s)

/-! ## Issuing a call -/

/-- The operations a caller may not issue (30_encoding.md R84 (d)). -/
def callerMayIssue : Instr → Bool
  | .hbrRequest _ | .hbrDone _ => false
  | _ => true

/-- The next call the caller has issued and the state without it. -/
def nextCall (s : State) : Option (Call × State) :=
  match s.calls with
  | [] => none
  | c :: rest => some (c, { s with calls := rest })

/-- What a call spells: an operation the caller may issue, or a refusal. -/
def readCall (c : Call) : Except Refusal Instr :=
  match decode c with
  | .error e => .error (.encoding e)
  | .ok i => if callerMayIssue i then .ok i else .error .callerIssuedInternal

/-- The next command of the caller is the word `w` of `nbits` bits with an operand record of zeros, and no turn comes before it. -/
def placeCall (s : State) (nbits w : Nat) : State :=
  { s with calls := { cmd := BitVec.ofNat 32 (w % 2 ^ nbits) } :: s.calls, turns := [] }

end Sys2Proof.Machine
end

