-- ==== Sys2Proof/Machine/Dma.lean ====
section
/-! DEFINITION. The DMA Burst Engine (42_hbr_dma.md R158 to R160) and DMA_BURST. -/

namespace Sys2Proof.Machine

/-- The descriptor of every burst (30_encoding.md R92). -/
def dmaDesc (p : Params) : DmaDesc := { readyGated := true, burstInfinite := true, busWidthBits := p.dmaBusBits }

/-- Processor-memory priming (R159): the count is written to `DMA_CTRL`, then the watermark is polled. Other kinds do neither. -/
def dmaPrime (kind : Kind) (count : Nat) : Op (Except Failure Unit) :=
  match kind with
  | .dsp =>
    (regWrite .dmaCtrl (countWord count)).andThen <| Op.withCfg fun p =>
      (pollUntil posLoop .dmaStat (anySet p.dmaWmMask) p.dmaWmPolls p.dmaWmDelayNs).map fun r =>
        match r with
        | some _ => .ok ()
        | none => .error ⟨.protocolTimeout, .dmaWatermark⟩
  | .ext | .fifo => Op.pure (.ok ())

/-- The `n` words a successful transfer to the host delivers: the environment's, free values where it scripts fewer (log 17). -/
def deliver (n : Nat) (data : List Word) : Op (List Word) := fun _ c =>
  let k := n - data.length
  .ok (data.take n ++ (envFreeWords k c.env).1) { c with env := (envFreeWords k c.env).2 } []

/-- `V.dmaTransfer`: the local address is the port's offset (30_encoding.md R92), which must satisfy 20_memory.md R65. -/
def dmaTransfer (ch : Channel) (port : Reg) (hostBuffer : List Word) (count : Nat) (dir : Dir) :
    Op (Except Failure (List Word)) :=
  Op.withCfg fun p =>
    if offsetOk p (regOffset p port) then
      (vendorCall envXfer fun _ a =>
        .dmaXfer ch { dir, localAddress := regOffset p port, hostBuffer, byteCount := 4 * count } p.dmaTimeoutMs a.result).bind
      fun a =>
        match a.result with
        | .ok =>
          match dir with
          | .toHost => (deliver count a.data).map Except.ok
          | .toModule => Op.pure (.ok [])
        | .timeout => Op.pure (.error ⟨.protocolTimeout, .dmaTransfer⟩)
        | .vendorError => Op.pure (.error ⟨.resourceFailure, .dmaTransfer⟩)
    else Op.refuse (.badOffset (regOffset p port))

/-- Writes `dma` (10_state.md R25). -/
def setDma (ch : Option Channel) : Op Unit := Op.setHandle fun h => { h with dma := ch }

/-- `V.dmaClose(ch)`. -/
def dmaCloseCall (ch : Channel) : Op CloseResult := vendorCall envClose fun _ r => .dmaClose ch r

/-- What the second close gives (R160). -/
def secondClose : CloseResult → Except Failure Unit
  | .ok => .ok ()
  | .inProgress => .error ⟨.hardwareBusyOrStuck, .dmaClose⟩
  | .error => .error ⟨.resourceFailure, .dmaClose⟩

/-- After a close that failed: a device reset and one more close; the channel is abandoned if that fails too (R160). -/
def closeRetry (ch : Channel) : Op (Except Failure Unit) :=
  (vendorCall noAnswer fun h _ => .devReset h.dev).andThen <|
  (dmaCloseCall ch).bind fun c => (setDma none).map fun _ => secondClose c

/-- `CloseChannel(m, ch)` (R160): one close, or close, device reset, close; never a third. -/
def closeChannel (ch : Channel) : Op (Except Failure Unit) :=
  (dmaCloseCall ch).bind fun c =>
    match c with
    | .ok => (setDma none).map fun _ => .ok ()
    | .inProgress | .error => closeRetry ch

/-- `if st == OK: st <- c`: the first failure wins (R158, 60_exceptions.md R263). -/
def firstOf {α : Type} (st : Except Failure α) (c : Except Failure Unit) : Except Failure α :=
  match st with
  | .error f => .error f
  | .ok a =>
    match c with
    | .ok _ => .ok a
    | .error f => .error f

/-- `DmaBurst` (R158): the words delivered to the host, none for a write. -/
def dmaBurst (kind : Kind) (port : Reg) (hostBuffer : List Word) (count : Nat) (dir : Dir) :
    Op (Except Failure (List Word)) :=
  Op.withCfg fun p =>
    (vendorCall envDmaOpen fun h r => .dmaOpen h.dev (dmaDesc p) r).bind fun o =>
      match o with
      | none => Op.pure (.error ⟨.resourceFailure, .dmaOpen⟩)
      | some ch =>
        (setDma (some ch)).andThen <|
        ((dmaPrime kind count).ifOk fun _ => dmaTransfer ch port hostBuffer count dir).bind fun st =>
          (closeChannel ch).map (firstOf st)

/-- The words of the caller's buffer a burst leaves unspecified when it fails: those it reads into (20_memory.md R66, R68). -/
def burstSpoils (dir : Dir) (count : Nat) : Nat :=
  match dir with
  | .toHost => count
  | .toModule => 0

/-- DMA_BURST (R158), admitted from a caller with any kind and any port (D56). -/
def dmaBurstProgram (kind : Kind) (port : Reg) (buf : Buf) (count : Nat) (dir : Dir) : Program :=
  { op := .dmaBurst, regs := burstRegs kind port, checks := [checkCount count, checkBuf buf count],
    reads := burstSpoils dir count, buf,
    body := (dmaBurst kind port (bufWords buf) count dir).bind (replyWords (burstSpoils dir count) buf) }

/-- DMA_BURST. -/
def execDmaBurst (m : Nat) (kind : Kind) (port : Reg) (buf : Buf) (count : Nat) (dir : Dir) (s : State) :
    Host.Outcome State Fault Refusal := (dmaBurstProgram kind port buf count dir).run m s

end Sys2Proof.Machine
end

