-- ==== Sys2Proof/Machine/Hbr.lean ====
section
/-! DEFINITION. The HBR gatekeeper (42_hbr_dma.md R150, R151): HBR_REQUEST, HBR_DONE, and work done under one request. -/

namespace Sys2Proof.Machine

/-- Writes `hbrHeld` (10_state.md R24). -/
def setHbr (held : Bool) : Op Unit := Op.setHandle fun h => { h with hbrHeld := held }

/-- `HbrDone(m)` (R151): a done while no request is held is the model fault HBR_UNPAIRED. -/
def hbrDone : Op Unit :=
  Op.getHandle.bind fun h =>
    if h.hbrHeld then (Op.withCfg fun p => regWrite .hbrDone p.hbrDoneVal).andThen (setHbr false)
    else Op.fault .hbrUnpaired

/-- The optional grant poll of R150 (D18): a poll that times out releases the request. -/
def hbrGrantPoll : Op (Except Failure Unit) :=
  Op.withCfg fun p =>
    if p.hbrGrantPolls > 0 then
      (pollUntil posLoop .hbrStat (allSet p.hbrGrantMask) p.hbrGrantPolls p.hbrGrantDelayNs).bind fun r =>
        match r with
        | some _ => Op.pure (.ok ())
        | none => hbrDone.andThen (Op.pure (.error ⟨.protocolTimeout, .hbrGrant⟩))
    else Op.pure (.ok ())

/-- `HbrRequest(m)` (R150): a request while one is held is the model fault HBR_NESTED. -/
def hbrRequest : Op (Except Failure Unit) :=
  Op.getHandle.bind fun h =>
    if h.hbrHeld then Op.fault .hbrNested
    else
      (Op.withCfg fun p => regWrite .hbrReq p.hbrReqVal).andThen <| (setHbr true).andThen hbrGrantPoll

/-- `s <- HbrRequest(m); if s != OK: return s; x; HbrDone(m)`: the shape of every HBR-mediated access (R153 to R156;
43_boot.md R215, R217). -/
def withHbr {α : Type} (x : Op α) : Op (Except Failure α) :=
  hbrRequest.ifOk fun _ => x.bind fun a => hbrDone.map fun _ => .ok a

/-- HBR_REQUEST (R150). Only the sequencer issues it inside other operations; `step` refuses it from a caller (R84 (d)). -/
def hbrRequestProgram (p : Params) : Program :=
  { op := .hbrRequest, regs := hbrRequestRegs p, body := hbrRequest.map (replyOf none) }

/-- HBR_DONE (R151), internal as HBR_REQUEST. -/
def hbrDoneProgram : Program :=
  { op := .hbrDone, regs := [.hbrDone], body := hbrDone.map fun _ => { status := .ok } }

/-- HBR_REQUEST. -/
def execHbrRequest (m : Nat) (s : State) : Host.Outcome State Fault Refusal := (hbrRequestProgram s.cfg).run m s

/-- HBR_DONE. -/
def execHbrDone (m : Nat) (s : State) : Host.Outcome State Fault Refusal := hbrDoneProgram.run m s

end Sys2Proof.Machine
end

