-- ==== Sys2Proof/Machine/DspMem.lean ====
section
/-! DEFINITION. HBR-mediated processor-memory access (42_hbr_dma.md R153 to R156): DSP_MEM_WRITE and DSP_MEM_READ. -/

namespace Sys2Proof.Machine

/-- `RegWrite(m, R, x)` for every word `x`, in order, each at its loop index. -/
def writeAll (r : Reg) (ws : List Word) : Op Unit := Op.each (fun i x => Op.inLoop i (regWrite r x)) 0 ws

/-- A sub-step's status re-sited (60_exceptions.md R262). -/
def resited {α : Type} (site : Site) (x : Op (Except Failure α)) : Op (Except Failure α) :=
  x.map fun r =>
    match r with
    | .ok a => .ok a
    | .error f => .error (resite site f)

/-- The one-word read path (R154, 43_boot.md R217): `HbrRequest`, the address, one data read, `HbrDone`. -/
def dspReadOne (a : Word) : Op (Except Failure Word) :=
  withHbr <| (regWrite .dspAddr a).andThen (regRead .dspData)

/-- `BlockRead` (R155): one DMA burst under its own HBR pair, released whatever the burst's status. -/
def blockRead (a : Word) (hostBuffer : List Word) (w : Nat) : Op (Except Failure (List Word)) :=
  (withHbr <|
    (csrClear fun c => c.autoIncDisable).andThen <|
    (regWrite .dspAddr a).andThen (dmaBurst .dsp .dspData hostBuffer w .toHost)).map fun r =>
    match r with
    | .ok st => st
    | .error f => .error f

/-- `SingleRead` (R156): the single-word HBR path for a remainder. -/
def singleRead (a : Word) (r : Nat) : Op (Except Failure (List Word)) :=
  Op.withCfg fun p =>
    match p.remainderMode with
    | .autoinc =>
      withHbr <|
        (csrClear fun c => c.autoIncDisable).andThen <|
        (regWrite .dspAddr a).andThen <| Op.times (fun i => Op.inLoop i (regRead .dspData)) 0 r
    | .perword =>
      Op.eachOk (fun _ i => Op.inLoop i (dspReadOne (a + BitVec.ofNat 32 i))) 0 (List.range r)

/-- The full blocks of a read of more than one word (R154): any block failure ends it, re-sited to DSP_BLOCK. -/
def dspBlocks (addr : Word) (host : List Word) (blockWords nb : Nat) : Op (Except Failure (List (List Word))) :=
  Op.eachOk (fun _ k => resited .dspBlock <| Op.inLoop k <|
    blockRead (addr + BitVec.ofNat 32 (k * blockWords)) (host.drop (k * blockWords)) blockWords) 0 (List.range nb)

/-- The remainder of a read of more than one word (R154), re-sited to DSP_REMAINDER. -/
def dspRemainder (addr : Word) (host : List Word) (base r singleMax : Nat) : Op (Except Failure (List Word)) :=
  if r > 0 then
    resited .dspRemainder <|
      if r < singleMax then singleRead (addr + BitVec.ofNat 32 base) r
      else blockRead (addr + BitVec.ofNat 32 base) (host.drop base) r
  else Op.pure (.ok [])

/-- The words of DSP_MEM_READ (R154); a block has at least one word (log 19), so `div` and `mod` have their values. -/
def dspReadBody (addr : Word) (count : Nat) (host : List Word) : Op (Except Failure (List Word)) :=
  Op.withCfg fun p =>
    if count = 1 then (dspReadOne addr).ifOk fun v => Op.pure (.ok [v])
    else
      let nb := count / p.dspBlockWords
      (dspBlocks addr host p.dspBlockWords nb).ifOk fun blocks =>
        (dspRemainder addr host (nb * p.dspBlockWords) (count % p.dspBlockWords) p.dspSingleMax).ifOk fun rest =>
          Op.pure (.ok (blocks.flatten ++ rest))

/-- DSP_MEM_WRITE (R153). -/
def dspMemWriteProgram (p : Params) (addr : Word) (count : Nat) (buf : Buf) : Program :=
  { op := .dspMemWrite, regs := hbrRegs p ++ [.csr, .dspAddr, .dspData], checks := [checkCount count, checkBuf buf count], buf,
    body := (withHbr <|
      (csrClear fun c => c.autoIncDisable).andThen <|
      (regWrite .dspAddr addr).andThen (writeAll .dspData ((bufWords buf).take count))).map (replyOf buf) }

/-- The registers DSP_MEM_READ names: one word needs neither the CSR nor a burst (R154); more words name those of blocks and
remainders alike (DESIGN CHOICE, log 9). -/
def dspReadRegs (p : Params) (count : Nat) : List Reg :=
  hbrRegs p ++ if count = 1 then [.dspAddr, .dspData] else .csr :: .dspAddr :: burstRegs .dsp .dspData

/-- DSP_MEM_READ (R154). -/
def dspMemReadProgram (p : Params) (addr : Word) (count : Nat) (buf : Buf) : Program :=
  { op := .dspMemRead, regs := dspReadRegs p count, checks := [checkCount count, checkBuf buf count], reads := count, buf,
    body := (dspReadBody addr count (bufWords buf)).bind (replyWords count buf) }

/-- DSP_MEM_WRITE. -/
def execDspMemWrite (m : Nat) (addr : Word) (count : Nat) (buf : Buf) (s : State) : Host.Outcome State Fault Refusal :=
  (dspMemWriteProgram s.cfg addr count buf).run m s

/-- DSP_MEM_READ. -/
def execDspMemRead (m : Nat) (addr : Word) (count : Nat) (buf : Buf) (s : State) : Host.Outcome State Fault Refusal :=
  (dspMemReadProgram s.cfg addr count buf).run m s

end Sys2Proof.Machine
end

