-- ==== Sys2Proof/Machine/Boot.lean ====
section
/-! DEFINITION. The Boot Sequencer (43_boot.md): the FPGA cycle, the processor boot, and the operations BOOT_COMM_FPGA,
BOOT_SP_FPGA, BOOT_DSP, BOOT_MODULE. -/

namespace Sys2Proof.Machine

/-! ## The FPGA cycle (R201 to R205) -/

/-- `FpgaClear(m, t)` (R201): the program line low, then high. -/
def fpgaClear (t : Target) : Op Unit := Op.withCfg fun p =>
  (regWrite .cfgCtrl (patternOf p t).progLow).andThen <|
  (sleepIfPositive p.fpgaProgHoldNs).andThen (regWrite .cfgCtrl (patternOf p t).progHigh)

/-- `FpgaPollInit(m, t)` (R202); read `k` stands at phase PollInit(k). True when INIT is ready. -/
def fpgaPollInit (t : Target) (a : Nat) : Op Bool := Op.withCfg fun p =>
  (pollUntil (fun k => posPhase (.fpga t a (.pollInit k))) .cfgStat (allSet (patternOf p t).initMask) p.fpgaInitPolls
    p.fpgaInitDelayNs).map Option.isSome

/-- `FpgaStream(m, image)` (R203): every word, each followed by the inter-word delay. -/
def fpgaStream (t : Target) (a : Nat) (image : List Word) : Op Unit := Op.withCfg fun p =>
  Op.each (fun i w => Op.inPhase (.fpga t a (.stream i)) <| (regWrite .cfgData w).andThen (sleep p.fpgaWordDelayNs)) 0 image

/-- `FpgaVerify(m, t)` (R204). -/
def fpgaVerify (t : Target) : Op Bool := Op.withCfg fun p =>
  (regRead .cfgStat).map (allSet (patternOf p t).doneMask)

/-- Attempt `a` of the cycle: true when it configured the target (R205). -/
def fpgaAttempt (t : Target) (image : List Word) (a : Nat) : Op Bool :=
  (Op.inPhase (.fpga t a .clear) (fpgaClear t)).andThen <|
  (fpgaPollInit t a).bind fun ready =>
    if ready then (fpgaStream t a image).andThen (Op.inPhase (.fpga t a .verify) (fpgaVerify t))
    else Op.pure false

/-- The attempts from `a` on, `n` of them (R205). -/
def fpgaAttempts (t : Target) (image : List Word) (site : Site) : Nat → Nat → Op (Except Failure Unit)
  | _, 0 => Op.pure (.error ⟨.protocolTimeout, site⟩)
  | a, n + 1 =>
    (fpgaAttempt t image a).bind fun done =>
      if done then Op.pure (.ok ()) else fpgaAttempts t image site (a + 1) n

/-- `FpgaBoot(m, t, image, site)` (R205). -/
def fpgaBoot (t : Target) (image : List Word) (site : Site) : Op (Except Failure Unit) :=
  Op.withCfg fun p => fpgaAttempts t image site 1 p.fpgaAttempts

/-- Writes the boot-completion record (10_state.md R39). -/
def setBoot (f : Boot → Boot) : Op Unit := Op.setHandle fun h => { h with boot := f h.boot }

/-- Whether a sub-step's status is OK. -/
def isOk {α : Type} : Except Failure α → Bool
  | .ok _ => true
  | .error _ => false

/-- The body of BOOT_COMM_FPGA (R208, R209). -/
def bootCommBody (image : List Word) : Op (Except Failure Unit) :=
  (setBoot fun b => { b with commDone := false }).andThen <|
  (fpgaBoot .comm image .commFpga).bind fun s =>
    (setBoot fun b => { b with commDone := isOk s }).map fun _ => s

/-- `ClockDomainReset(m)` (R212). R23 and R211 give the pulse no phase: its events stand at phase straight (DESIGN CHOICE, log
31). -/
def clockDomainReset : Op Unit := Op.withCfg fun p =>
  (regWrite .clkrst p.clkrstAssert).andThen <|
  (sleepIfPositive p.clkrstHoldNs).andThen (regWrite .clkrst p.clkrstDeassert)

/-- The body of BOOT_SP_FPGA (R211): both pairs, then the clock-domain reset (its position: DESIGN CHOICE, log 31), then the
flag. -/
def bootSpBody (image : List Word) : Op (Except Failure Unit) :=
  (setBoot fun b => { b with spDone := false }).andThen <|
  (fpgaBoot .spA image .spFpgaA).ifOk fun _ =>
  (fpgaBoot .spB image .spFpgaB).ifOk fun _ =>
  clockDomainReset.andThen <|
  (setBoot fun b => { b with spDone := true }).map fun _ => .ok ()

/-! ## The processor boot (R215 to R226) -/

/-- `HbrWriteGroup(m, a, ws)` (R215): one processor word under its own HBR pair. -/
def hbrWriteGroup (a : Word) (ws : List Word) : Op (Except Failure Unit) :=
  withHbr <| (regWrite .dspAddr a).andThen (writeAll .dspData ws)

/-- Kernel download (R218): word `i` is the group `W[3i .. 3i+3)` at `DSP_KERNEL_ADDR + i`. -/
def kernelDownload (a : Nat) (w : List Word) : Op (Except Failure (List Unit)) := Op.withCfg fun p =>
  Op.eachOk (fun i ws => Op.inPhase (.dsp a (.kernel i)) <| hbrWriteGroup (p.dspKernelAddr + BitVec.ofNat 32 i) ws) 0
    (groupsOf p.dspKernelSubwords p.dspKernelWords w)

/-- The malformed-stream failure (R219). -/
def streamFailure : Failure := ⟨.dataIntegrityFailure, .dspStream⟩

/-- Words a segment writes (R219): its count, or `FINAL_BLOCK_WORDS` for the final one. -/
def segWords (p : Params) (t : TagInfo) (count : Word) : Nat :=
  match t.kind with
  | .final => p.finalBlockWords
  | .zero | .init => count.toNat

/-- The groups a segment of `n` words writes: zeros, or the payload at the front of `rest` (R219). -/
def segGroups (t : TagInfo) (n : Nat) (rest : List Word) : List (List Word) :=
  match t.kind with
  | .zero => List.replicate n (List.replicate (subwords t.width) 0)
  | .init | .final => groupsOf (subwords t.width) n rest

/-- `TagStream(m, W)` on the words `ws` not yet parsed (R219). `fuel` bounds the segments; the length of `ws` is enough, since
each segment takes three words or more (70_reset_and_hazards.md R285). -/
def tagStream : Nat → List Word → Op (Except Failure Unit)
  | _, [] => Op.pure (.ok ())
  | fuel + 1, tag :: count :: addr :: more => Op.withCfg fun p =>
    if more.length < p.segHeaderExtra then Op.pure (.error streamFailure)
    else
      match tagInfo p tag with
      | none => Op.pure (.error ⟨.dataIntegrityFailure, .dspTag⟩)
      | some t =>
        let rest := more.drop p.segHeaderExtra
        let n := segWords p t count
        if t.kind ≠ .zero ∧ rest.length < n * subwords t.width then Op.pure (.error streamFailure)
        else
          (Op.eachOk (fun j ws => Op.inLoop j <| hbrWriteGroup (addr + BitVec.ofNat 32 j) ws) 0 (segGroups t n rest)).ifOk fun _ =>
            match t.kind with
            | .final => Op.pure (.ok ())
            | .zero => tagStream fuel rest
            | .init => tagStream fuel (rest.drop (n * subwords t.width))
  | _, _ :: _ => Op.pure (.error streamFailure)

/-- `CfgVerify(m, (a, v))`, tries from `k` on, `n` of them (R221). `j` is the pair's index. -/
def cfgVerify (a j : Nat) (c : CfgPair) : Nat → Nat → Op (Except Failure Unit)
  | _, 0 => Op.pure (.error ⟨.protocolTimeout, .dspCfg⟩)
  | k, n + 1 =>
    (Op.inPhase (.dsp a (.cfgVerify j k)) <| Op.withCfg fun p =>
      (match p.cfgVerifyMode with
        | .writeRead => hbrWriteGroup c.addr [c.value]
        | .readOnly => Op.pure (.ok ())).ifOk fun _ => dspReadOne c.addr).ifOk fun r =>
      if r = c.value then Op.pure (.ok ()) else cfgVerify a j c (k + 1) n

/-- `PollPudone(m)`, polls from `k` on, `n` of them (R225). -/
def pollPudone (a : Nat) : Nat → Nat → Op (Except Failure Unit)
  | _, 0 => Op.pure (.error ⟨.protocolTimeout, .dspPudone⟩)
  | k, n + 1 => Op.withCfg fun p =>
    (Op.inPhase (.dsp a (.pollPudone k)) (dspReadOne p.dspPudoneAddr)).ifOk fun v =>
      if anySet p.dspPudoneMask v then Op.pure (.ok ())
      else (Op.inPhase (.dsp a (.pollPudone k)) (sleep p.dspPudoneDelayNs)).andThen (pollPudone a (k + 1) n)

/-- `DspAttempt(m, W)` (R220, R222), attempt `a`. R220 gives no phase to the clear of `DSP_DOWNLOAD`, and R222 puts it after the
tag stream and before the poll: its two events stand at phase TagStream (DESIGN CHOICE, log 31). -/
def dspAttempt (w : List Word) (a : Nat) : Op (Except Failure Unit) := Op.withCfg fun p =>
  (Op.inPhase (.dsp a .reset) <|
    (csrModify (fieldBit p.csrmap.dspReset ||| fieldBit p.csrmap.dspDownload) 0).andThen (sleep p.dspResetHoldNs)).andThen <|
  (Op.inPhase (.dsp a .release) (csrClear fun c => c.dspReset)).andThen <|
  (Op.eachOk (fun j c => cfgVerify a j c 1 p.dspCfgAttempts) 0 (dspCfgPairs p)).ifOk fun _ =>
  (kernelDownload a w).ifOk fun _ =>
  (Op.inPhase (.dsp a .tagStream) (tagStream w.length (w.drop (kernelStreamWords p)))).ifOk fun _ =>
  (Op.inPhase (.dsp a .tagStream) (csrClear fun c => c.dspDownload)).andThen (pollPudone a 1 p.dspPudonePolls)

/-- The HARD failures: a malformed or unsupported stream is not retried (R219, R226; 60_exceptions.md R262). -/
def isHard (f : Failure) : Bool := f.site == .dspTag || f.site == .dspStream

/-- The attempts from `a` on, `more` of them after this one (R226): the last attempt's failure is returned. -/
def dspBootFrom (w : List Word) : Nat → Nat → Op (Except Failure Unit)
  | a, 0 => dspAttempt w a
  | a, more + 1 =>
    (dspAttempt w a).bind fun r =>
      match r with
      | .ok _ => Op.pure (.ok ())
      | .error f => if isHard f then Op.pure (.error f) else dspBootFrom w (a + 1) more

/-- The body of BOOT_DSP (R226). -/
def bootDspBody (w : List Word) : Op (Except Failure Unit) :=
  (setBoot fun b => { b with dspDone := false }).andThen <| Op.withCfg fun p =>
  (dspBootFrom w 1 (dspAttempts p - 1)).bind fun r =>
    match r with
    | .ok _ => (setBoot fun b => { b with dspDone := true }).map fun _ => .ok ()
    | .error f => Op.pure (.error f)

/-! ## Composition (R230) -/

/-- A stage BOOT_MODULE runs when its pattern bit is set. -/
def stageIf (selected : Bool) (x : Op (Except Failure Unit)) : Op (Except Failure Unit) :=
  if selected then x else Op.pure (.ok ())

/-- The ArgChecks of BOOT_MODULE (R230): every selected image is validated before the first stage. -/
def bootModuleChecks (p : Params) (rev : Nat) (images : Images) (pattern : Word) : List (Bool × Failure) :=
  [ (patternReserved pattern, ⟨.invalidArgument, .pattern⟩),
    (patternComm pattern && (checkComm p rev images.comm).1, ⟨.dataIntegrityFailure, .fwSizeComm⟩),
    (patternSp pattern && (checkSp p rev images.sp).1, ⟨.dataIntegrityFailure, .fwSizeSp⟩),
    (patternDsp pattern && (checkFile p images.dsp).1, streamFailure) ]

/-- The body of BOOT_MODULE (R230): the selected stages in order, stopping at the first failure. -/
def bootModuleBody (images : Images) (pattern : Word) : Op (Except Failure Unit) :=
  (setBoot fun b => { b with booted := false }).andThen <|
  (stageIf (patternComm pattern) (bootCommBody images.comm)).ifOk fun _ =>
  (stageIf (patternSp pattern) (bootSpBody images.sp)).ifOk fun _ =>
  (stageIf (patternDsp pattern) (bootDspBody (streamOf images.dsp))).ifOk fun _ =>
  (setBoot fun b => { b with booted := true }).map fun _ => .ok ()

/-! ## Operations -/

/-- The registers of the FPGA cycle (R201 to R204), with an empty image, no poll or no attempt as well (DESIGN CHOICE, log 9). -/
def fpgaRegs : List Reg := [.cfgCtrl, .cfgStat, .cfgData]

/-- The registers BOOT_SP_FPGA names (R211, R212). -/
def spBootRegs : List Reg := .clkrst :: fpgaRegs

/-- The registers BOOT_DSP names (R215 to R225), whatever the bounds of its loops (DESIGN CHOICE, log 9). -/
def dspBootRegs (p : Params) : List Reg := hbrRegs p ++ [.csr, .dspAddr, .dspData]

/-- The registers BOOT_MODULE names: those of its selected stages (R230). -/
def bootModuleRegs (p : Params) (pattern : Word) : List Reg :=
  (if patternComm pattern then fpgaRegs else []) ++ (if patternSp pattern then spBootRegs else []) ++
    if patternDsp pattern then dspBootRegs p else []

/-- BOOT_COMM_FPGA (R208). -/
def bootCommFpgaProgram (p : Params) (rev : Nat) (image : List Word) : Program :=
  { op := .bootCommFpga, regs := fpgaRegs, checks := [checkComm p rev image], body := (bootCommBody image).map (replyOf none) }

/-- BOOT_SP_FPGA (R211). -/
def bootSpFpgaProgram (p : Params) (rev : Nat) (image : List Word) : Program :=
  { op := .bootSpFpga, regs := spBootRegs, checks := [checkSp p rev image], body := (bootSpBody image).map (replyOf none) }

/-- BOOT_DSP (R226). -/
def bootDspProgram (p : Params) (file : List Byte) : Program :=
  { op := .bootDsp, regs := dspBootRegs p, checks := [checkFile p file],
    body := (bootDspBody (streamOf file)).map (replyOf none) }

/-- BOOT_MODULE (R230). -/
def bootModuleProgram (p : Params) (rev : Nat) (images : Images) (pattern : Word) : Program :=
  { op := .bootModule, regs := bootModuleRegs p pattern, checks := bootModuleChecks p rev images pattern,
    body := (bootModuleBody images pattern).map (replyOf none) }

/-- BOOT_COMM_FPGA. -/
def execBootCommFpga (m rev : Nat) (image : List Word) (s : State) : Host.Outcome State Fault Refusal :=
  (bootCommFpgaProgram s.cfg rev image).run m s

/-- BOOT_SP_FPGA. -/
def execBootSpFpga (m rev : Nat) (image : List Word) (s : State) : Host.Outcome State Fault Refusal :=
  (bootSpFpgaProgram s.cfg rev image).run m s

/-- BOOT_DSP. -/
def execBootDsp (m : Nat) (file : List Byte) (s : State) : Host.Outcome State Fault Refusal :=
  (bootDspProgram s.cfg file).run m s

/-- BOOT_MODULE. -/
def execBootModule (m rev : Nat) (images : Images) (pattern : Word) (s : State) : Host.Outcome State Fault Refusal :=
  (bootModuleProgram s.cfg rev images pattern).run m s

end Sys2Proof.Machine
end

