-- ==== Sys2Proof/Machine/RegisterBus.lean ====
section
/-! DEFINITION. The Register Bus (40_register_csr.md R101, R102): REG_READ and REG_WRITE. -/

namespace Sys2Proof.Machine

/-- `v <- read; buf[0] <- v; return OK, output v`: the shape of every one-word read. -/
def readIntoBuf (b : Buf) (x : Op Word) : Op Reply :=
  x.map fun v => { status := .ok, output := .word v, buf := bufPut b [v] }

/-- REG_READ (R101). A raw offset outside 20_memory.md R65 is refused before `Ready` (R100). -/
def regReadProgram (off : Nat) (buf : Buf) : Program :=
  { op := .regRead, raw := some off, checks := [checkBuf buf 1], reads := 1, buf, offlineOut := .word (bufFirst buf),
    body := readIntoBuf buf (memRead none off) }

/-- REG_WRITE (R102): the word is written unchanged. -/
def regWriteProgram (off : Nat) (val : Word) : Program :=
  { op := .regWrite, raw := some off, body := (memWrite none off val).map fun _ => { status := .ok } }

/-- REG_READ. -/
def execRegRead (m off : Nat) (buf : Buf) (s : State) : Host.Outcome State Fault Refusal :=
  (regReadProgram off buf).run m s

/-- REG_WRITE. -/
def execRegWrite (m off : Nat) (val : Word) (s : State) : Host.Outcome State Fault Refusal :=
  (regWriteProgram off val).run m s

end Sys2Proof.Machine
end

