-- ==== Sys2Proof/Machine/Csr.lean ====
section
/-! DEFINITION. The CSR Accessor (40_register_csr.md R103 to R106). -/

namespace Sys2Proof.Machine

/-- CSR_READ (R103). -/
def csrReadProgram (buf : Buf) : Program :=
  { op := .csrRead, regs := [.csr], checks := [checkBuf buf 1], reads := 1, buf, offlineOut := .word (bufFirst buf),
    body := readIntoBuf buf (regRead .csr) }

/-- CSR_WRITE (R104): every bit is written. -/
def csrWriteProgram (val : Word) : Program :=
  { op := .csrWrite, regs := [.csr], body := (regWrite .csr val).map fun _ => { status := .ok } }

/-- CSR_SET_BITS (R105). -/
def csrSetBitsProgram (mask : Word) : Program :=
  { op := .csrSetBits, regs := [.csr], body := (csrModify mask 0).map fun _ => { status := .ok } }

/-- CSR_CLEAR_BITS (R106). -/
def csrClearBitsProgram (mask : Word) : Program :=
  { op := .csrClearBits, regs := [.csr], body := (csrModify 0 mask).map fun _ => { status := .ok } }

/-- CSR_READ. -/
def execCsrRead (m : Nat) (buf : Buf) (s : State) : Host.Outcome State Fault Refusal := (csrReadProgram buf).run m s

/-- CSR_WRITE. -/
def execCsrWrite (m : Nat) (val : Word) (s : State) : Host.Outcome State Fault Refusal := (csrWriteProgram val).run m s

/-- CSR_SET_BITS. -/
def execCsrSetBits (m : Nat) (mask : Word) (s : State) : Host.Outcome State Fault Refusal :=
  (csrSetBitsProgram mask).run m s

/-- CSR_CLEAR_BITS. -/
def execCsrClearBits (m : Nat) (mask : Word) (s : State) : Host.Outcome State Fault Refusal :=
  (csrClearBitsProgram mask).run m s

end Sys2Proof.Machine
end

