-- ==== Sys2Proof/Machine/Serial.lean ====
section
/-! DEFINITION. The Serial Bus Master (41_serial_bus.md): line primitives, the framed byte transfers, and the operations
SER_WRITE_BYTE, SER_READ_BYTE, SER_READ_SEQ, ID_DECODE. -/

namespace Sys2Proof.Machine

/-! ## Line primitives (R120) -/

/-- `Settle()`. -/
def settle : Op Unit := Op.withCfg fun p => sleep p.serSettleNs

/-- `Drive(scl, sda, oe)`: one `SER_CTRL` write, the shadow updated, one settle delay. -/
def drive (l : Lines) : Op Unit :=
  (Op.withCfg fun p => regWrite .serCtrl (lineWord p l)).andThen <|
  (Op.setHandle fun h => { h with lines := l }).andThen settle

/-- `Sample()`: one `SER_STAT` read, one settle delay, the level of `SDA_IN`. -/
def sample : Op Bool :=
  (regRead .serStat).bind fun v => settle.andThen <| Op.withCfg fun p => Op.pure (sdaIn p v)

/-! ## States of the byte transfer (R121 to R125) -/

/-- `Start()` (R121). -/
def serStart : Op Unit :=
  Op.inPhase (.serial .start) <| (drive ⟨true, true, true⟩).andThen (drive ⟨true, false, true⟩)

/-- `SendBit(d)` (R122): clock low with the data held, the data bit, clock high. -/
def sendBit (d : Bool) : Op Unit :=
  (Op.getHandle.bind fun h => drive ⟨false, h.lines.sdaOut, true⟩).andThen <|
  (drive ⟨false, d, true⟩).andThen (drive ⟨true, d, true⟩)

/-- `RecvBit()` (R122): clock low and data released, sample, clock high. -/
def recvBit : Op Bool :=
  (drive ⟨false, true, false⟩).andThen <|
  sample.bind fun d => (drive ⟨true, true, false⟩).map fun _ => d

/-- Writes the serial-transaction record in progress. -/
def setSer (f : SerRec → SerRec) : Op Unit := Op.setHandle fun h => { h with ser := h.ser.map f }

/-- `Release()` (R123). -/
def serRelease : Op Unit := Op.inPhase (.serial .release) (drive ⟨false, true, false⟩)

/-- `AckWait()` (R123): a sample of 0 is an acknowledge (PRESUMED by the spec, G1; log 22). -/
def serAckWait : Op Unit :=
  Op.inPhase (.serial .ackWait) <|
    (drive ⟨true, true, false⟩).andThen <|
    sample.bind fun a => (drive ⟨false, true, false⟩).andThen (setSer fun r => { r with ack := !a })

/-- `AckSend()` (R124). -/
def serAckSend : Op Unit :=
  Op.inPhase (.serial .ackSend) <| Op.withCfg fun p =>
    (drive ⟨false, p.acksendSda, true⟩).andThen <|
    (drive ⟨true, p.acksendSda, true⟩).andThen (drive ⟨false, p.acksendSda, true⟩)

/-- `Stop()` (R125). -/
def serStop : Op Unit :=
  Op.inPhase (.serial .stop) <|
    (drive ⟨false, false, true⟩).andThen <| (drive ⟨true, false, true⟩).andThen (drive ⟨true, true, true⟩)

/-! ## Framed byte transfers -/

/-- The bit indices of one byte, most significant first (R122). -/
def bitOrder : List Nat := [7, 6, 5, 4, 3, 2, 1, 0]

/-- Bit index `i` of the transfer in progress. -/
def setBitIdx (i : Nat) : Op Unit := setSer fun r => { r with bitIdx := i }

/-- One iteration of the sending BitLoop. -/
def sendBitAt (b : Byte) (i : Nat) : Op Unit :=
  Op.inPhase (.serial (.bitLoop i)) <| (setBitIdx i).andThen (sendBit (b.getLsbD i))

/-- One iteration of the receiving BitLoop: the sampled bit is shifted in. -/
def recvBitAt (i : Nat) : Op Unit :=
  Op.inPhase (.serial (.bitLoop i)) <|
    (setBitIdx i).andThen <| recvBit.bind fun d => setSer fun r => { r with shift := shiftIn r.shift d }

/-- The end of a byte transfer: the record is read out and discarded (10_state.md R26). -/
def endSer {α : Type} (f : SerRec → α) (none' : α) : Op α :=
  Op.getHandle.bind fun h =>
    (Op.setHandle fun h => { h with ser := none }).map fun _ =>
      match h.ser with
      | some r => f r
      | none => none'

/-- The body of SER_WRITE_BYTE (R130): the acknowledge. Stop is sent whatever it is. -/
def serWriteBody (b : Byte) : Op Bool :=
  (Op.setHandle fun h => { h with ser := some ⟨7, b, false⟩ }).andThen <|
  serStart.andThen <|
  (Op.each (fun _ i => sendBitAt b i) 0 bitOrder).andThen <|
  serRelease.andThen <|
  serAckWait.andThen <|
  serStop.andThen <|
  endSer (fun r => r.ack) false

/-- The body of SER_READ_BYTE (R131): the byte. -/
def serReadBody : Op Byte :=
  (Op.setHandle fun h => { h with ser := some ⟨7, 0, false⟩ }).andThen <|
  serStart.andThen <|
  (Op.each (fun _ i => recvBitAt i) 0 bitOrder).andThen <|
  serAckSend.andThen <|
  serStop.andThen <|
  endSer (fun r => r.shift) 0

/-- The `j`-th byte of the prefix: a failed acknowledge ends the sequence (R132). -/
def serSendChecked (j : Nat) (b : Byte) : Op (Except Failure Unit) :=
  (Op.inLoop j (serWriteBody b)).map fun ack =>
    if ack then .ok () else .error ⟨.protocolTimeout, .serAck⟩

/-- The body of SER_READ_SEQ (R132): the prefix byte by byte, then `n` bytes, each in its own frame. -/
def serReadSeqBody (lead : List Byte) (n : Nat) : Op (Except Failure (List Byte)) :=
  (Op.eachOk serSendChecked 0 lead).ifOk fun _ =>
    (Op.times (fun i => Op.inLoop i serReadBody) 0 n).map Except.ok

/-! ## Operations -/

/-- SER_WRITE_BYTE (R130). A failed acknowledge is an output, not a status; offline the output is `ack = true`. -/
def serWriteByteProgram (b : Byte) : Program :=
  { op := .serWriteByte, regs := serRegs, offlineOut := .ack true,
    body := (serWriteBody b).map fun a => { status := .ok, output := .ack a } }

/-- SER_READ_BYTE (R131). -/
def serReadByteProgram (buf : Buf) : Program :=
  { op := .serReadByte, regs := serRegs, checks := [checkBuf buf 1], reads := 1, buf,
    offlineOut := .byte (lowByte (bufFirst buf)),
    body := serReadBody.map fun b => { status := .ok, output := .byte b, buf := bufPut buf [zextByte b] } }

/-- SER_READ_SEQ (R132). On a failed acknowledge the buffer is unchanged. With an empty prefix and `n = 0` it accesses no register,
and names those of its loops all the same (DESIGN CHOICE, log 9). -/
def serReadSeqProgram (lead : List Byte) (n : Nat) (buf : Buf) : Program :=
  { op := .serReadSeq, regs := serRegs, checks := [checkBuf buf n], reads := n, buf,
    offlineOut := .words ((bufWords buf).take n),
    body := (serReadSeqBody lead n).map fun r =>
      match r with
      | .ok bytes => { status := .ok, output := .words (bytes.map zextByte), buf := bufPut buf (bytes.map zextByte) }
      | .error f => { status := .fail f, buf := buf } }

/-- SER_WRITE_BYTE. -/
def execSerWriteByte (m : Nat) (b : Byte) (s : State) : Host.Outcome State Fault Refusal := (serWriteByteProgram b).run m s

/-- SER_READ_BYTE. -/
def execSerReadByte (m : Nat) (buf : Buf) (s : State) : Host.Outcome State Fault Refusal := (serReadByteProgram buf).run m s

/-- SER_READ_SEQ. -/
def execSerReadSeq (m : Nat) (lead : List Byte) (n : Nat) (buf : Buf) (s : State) : Host.Outcome State Fault Refusal :=
  (serReadSeqProgram lead n buf).run m s

/-- What ID_DECODE returns (R133): serial low byte first, the layout by the revision threshold, the ADC description by the
serial threshold. -/
def idReply (p : Params) : List Byte → Reply
  | b0 :: b1 :: b2 :: rest =>
    let serial := b0.toNat + 256 * b1.toNat
    let revision := b2.toNat
    let layout := if revision ≥ p.newLayoutMinRev then Layout.new else Layout.old
    let adc := if serial < p.legacyAdcSerialLimit then AdcResult.adc ⟨12, 100⟩ else adcOf p layout rest
    match adc with
    | .adc a => { status := .ok, output := .ident serial revision layout a }
    | .fail f => { status := .fail f }
  | _ => { status := .fail ⟨.invalidArgument, .count⟩ }

/-- ID_DECODE (R133): no preamble, no event, the same online and offline. -/
def execIdDecode (bytes : List Byte) (s : State) : Host.Outcome State Fault Refusal :=
  .next (finish .idDecode (idReply s.cfg bytes) [] s)

end Sys2Proof.Machine
end

