-- ==== Sys2Proof/Machine/Discovery.lean ====
section
/-! DEFINITION. Device and slot discovery, system creation and module close (44_discovery.md): SYS_INIT and MODULE_CLOSE. -/

namespace Sys2Proof.Machine

/-! ## Vendor calls of discovery (10_state.md R28) -/

/-- `V.findDevice(PCI_VENDOR_ID, PCI_DEVICE_ID, k)`. -/
def findCall (k : Nat) : Op (Option DevKey) := Op.withCfg fun p =>
  vendorCall envFind fun _ r => .find p.pciVendorId p.pciDeviceId k r

/-- `V.open(key)`. -/
def openCall (key : DevKey) : Op (Option DevHandle) := vendorCall envOpen fun _ r => .openDev key r

/-- `V.mapBar(h, BAR_INDEX)`. -/
def mapCall (h : DevHandle) : Op (Option VAddr) := Op.withCfg fun p =>
  vendorCall envMap fun _ r => .mapBar h p.barIndex r

/-- `V.unmapBar(h, va)`. -/
def unmapCall (h : Option DevHandle) (va : VAddr) : Op Unit := vendorCall noAnswer fun _ _ => .unmapBar h va

/-- `V.close(h)`. -/
def closeCall (h : Option DevHandle) : Op Unit := vendorCall noAnswer fun _ _ => .closeDev h

/-! ## Find, Probe, Match, OpenModules (R241 to R245) -/

/-- `Find()` from call `k` on, at most `n` calls; a key whose bus/slot is already there is dropped (R241). -/
def findFrom : Nat → Nat → List DevKey → Op (List DevKey)
  | _, 0, keys => Op.pure keys
  | k, n + 1, keys =>
    (Op.inLoop k (findCall k)).bind fun r =>
      match r with
      | none => Op.pure keys
      | some key => Op.withCfg fun p =>
        findFrom (k + 1) n
          (if keys.any (fun k₂ => busSlotOf p k₂ == busSlotOf p key) then keys else keys ++ [key])

/-- `Find()` (R241). -/
def findAll : Op (Except Failure (List DevKey)) := Op.withCfg fun p =>
  (findFrom 0 p.findLimit []).map fun keys =>
    match keys with
    | [] => .error ⟨.resourceFailure, .find⟩
    | _ :: _ => .ok keys

/-- A part run on the window `va` of the `j`-th probed device, whose handle is no module's (R242; log 14). -/
def onProbe {α : Type} (j : Nat) (h : DevHandle) (va : VAddr) (x : Op α) : Op α := fun sc c =>
  match x { sc with who := .probe j } ⟨scratchHandle c.env (some h) (some va), { c.env with used := c.env.used + 1 }⟩ with
  | .ok a c' t => .ok a { c' with handle := c.handle } t
  | .fault f pos c' t => .fault f pos { c' with handle := c.handle } t
  | .refused r => .refused r

/-- One device opened and mapped, the shared step of `Probe` and `OpenModules` (R242, R244): a device that cannot be mapped is
closed. -/
def openDevice (key : DevKey) : Op (Except Failure (DevHandle × VAddr)) :=
  (openCall key).bind fun o =>
    match o with
    | none => Op.pure (.error ⟨.resourceFailure, .openDev⟩)
    | some h =>
      (mapCall h).bind fun v =>
        match v with
        | none => (closeCall (some h)).map fun _ => .error ⟨.resourceFailure, .map⟩
        | some va => Op.pure (.ok (h, va))

/-- One device released. -/
def releaseDevice (d : DevHandle × VAddr) : Op Unit := (unmapCall (some d.1) d.2).andThen (closeCall (some d.1))

/-- One device of `Probe` (R242): open, map, read the slot, release. -/
def probeOne (j : Nat) (key : DevKey) : Op (Except Failure (DevKey × Nat)) :=
  Op.inLoop j <| (openDevice key).ifOk fun d => Op.withCfg fun p =>
    (onProbe j d.1 d.2 (serReadSeqBody p.slotReadLead p.slotReadCount)).bind fun r =>
      (releaseDevice d).map fun _ =>
        match r with
        | .ok bytes => .ok (key, slotOf p bytes)
        | .error _ => .error ⟨.protocolTimeout, .slotRead⟩

/-- `Match(slotMap, probed)` (R243): the first probed device that reported each slot, or none. -/
def matchSlots (probed : List (DevKey × Nat)) : List Nat → Option (List DevKey)
  | [] => some []
  | slot :: rest =>
    match probed.find? (fun d => d.2 == slot) with
    | none => none
    | some d => (matchSlots probed rest).map fun keys => d.1 :: keys

/-- `Unwind(hs)` on a list given last first (R245). -/
def unwind : List (DevHandle × VAddr) → Op Unit
  | [] => Op.pure ()
  | d :: rest => (releaseDevice d).andThen (unwind rest)

/-- `OpenModules(keys)` (R244); `held` are the devices opened so far, last first. The loop counter at which the events of a key
stand, and the position of an unwind outside the loop, are the model's (DESIGN CHOICE, log 31). -/
def openModules (held : List (DevHandle × VAddr)) : List DevKey → Op (Except Failure (List (DevHandle × VAddr)))
  | [] => Op.pure (.ok held.reverse)
  | key :: rest =>
    (Op.inLoop held.length (openDevice key)).bind fun r =>
      match r with
      | .ok d => openModules (d :: held) rest
      | .error f => (unwind held).map fun _ => .error f

/-- The online part of SYS_INIT (R240): the handles and windows of the modules, in module order. -/
def discover (slotMap : List Nat) : Op (Except Failure (List (DevHandle × VAddr))) :=
  findAll.ifOk fun found =>
  (Op.eachOk probeOne 0 found).ifOk fun probed =>
    match matchSlots probed slotMap with
    | none => Op.pure (.error ⟨.invalidArgument, .matchSlot⟩)
    | some keys => openModules [] keys

/-! ## System creation (R246; 10_state.md R42) -/

/-- A module handle as SYS_INIT creates it (10_state.md R42); the serial shadow is unspecified (log 14). -/
def newHandle (i slot : Nat) (offline : Bool) (dev : Option DevHandle) (win : Option VAddr) : Handle :=
  { dev, win, slot, offline, boot := {}, hbrHeld := false, dma := none, ser := none, lines := Config.freeLines (some i) 0 }

/-- A module as SYS_INIT creates it: idle, its environment without scripted answers (log 2). -/
def newModule (i slot : Nat) (offline : Bool) (d : Option (DevHandle × VAddr)) : Module :=
  { handle := newHandle i slot offline (d.map Prod.fst) (d.map Prod.snd), pos := .idle,
    env := { id := some i, used := 1 } }

/-- The modules from index `i` on. -/
def newModules (offline : Bool) : Nat → List (Nat × Option (DevHandle × VAddr)) → List Module
  | _, [] => []
  | i, (slot, d) :: rest => newModule i slot offline d :: newModules offline (i + 1) rest

/-- Creates the system (R246). -/
def createSystem (offline : Bool) (slots : List (Nat × Option (DevHandle × VAddr))) (s : State) : State :=
  { s with system := some { offline, modules := newModules offline 0 slots } }

/-! ## Operations -/

/-- The checks of SYS_INIT, before any event (R240). -/
def sysInitChecks (s : State) (slotMap : List Nat) : List (Bool × Failure) :=
  [ (s.system.isSome, ⟨.invalidArgument, .system⟩),
    (decide (slotMap.length > s.cfg.maxModules.val), ⟨.invalidArgument, .count⟩),
    (!decide slotMap.Nodup, ⟨.invalidArgument, .matchSlot⟩) ]

/-- The registers SYS_INIT names: the serial lines of a probe, and none offline (R240, R242). -/
def sysInitRegs (offlineFlag : Bool) : List Reg := if offlineFlag then [] else serRegs

/-- SYS_INIT (R240): the system record and every handle are written only on OK. It runs with no sequencer active
(60_exceptions.md R268); its events stand at a position of the model's own, `startPos .sysInit`, with the counters of the loops
of R241, R242 and R244 (DESIGN CHOICE, log 31). -/
def execSysInit (slotMap : List Nat) (offlineFlag : Bool) (s : State) : Host.Outcome State Fault Refusal :=
  guardRegs (sysInitRegs offlineFlag) s <|
    match firstFailure (sysInitChecks s slotMap) with
    | some f => .next (finish .sysInit { status := .fail f } [] s)
    | none =>
      if offlineFlag then
        .next (finish .sysInit { status := .ok } [] (createSystem true (slotMap.map fun n => (n, none)) s))
      else
        match discover slotMap ⟨s.cfg, .probe 0, startPos .sysInit⟩ ⟨scratchHandle s.disc none none, s.disc⟩ with
        | .ok (.ok hs) c t =>
          .next (finish .sysInit { status := .ok } (shown t)
            (createSystem false (slotMap.zip (hs.map some)) { s with disc := c.env }))
        | .ok (.error f) c t => .next (finish .sysInit { status := .fail f } (shown t) { s with disc := c.env })
        | .fault f _ _ _ => .fault f
        | .refused r => .refused r

/-- The body of MODULE_CLOSE (R247): a closed module stays closed, with no event. -/
def moduleCloseBody : Op Reply :=
  Op.getHandle.bind fun h =>
    match h.win with
    | none => Op.pure { status := .ok }
    | some va =>
      (unmapCall h.dev va).andThen <| (closeCall h.dev).andThen <|
      (Op.setHandle fun h => { h with win := none, dev := none }).map fun _ => { status := .ok }

/-- MODULE_CLOSE (R247): `Preamble`, not `Ready`. -/
def moduleCloseProgram : Program := { op := .moduleClose, ready := false, body := moduleCloseBody }

/-- MODULE_CLOSE. -/
def execModuleClose (m : Nat) (s : State) : Host.Outcome State Fault Refusal := moduleCloseProgram.run m s

end Sys2Proof.Machine
end

