-- ==== Sys2Proof/Machine/ExtMem.lean ====
section
/-! DEFINITION. External Memory Access (42_hbr_dma.md R171 to R175): EXT_MEM_WRITE, EXT_MEM_READ, EXT_MEM_CLEAR. -/

namespace Sys2Proof.Machine

/-- `WithExtMem(m, body)` (R175): the ownership bit is set before the body and cleared after it on every path. -/
def withExtMem {α : Type} (body : Op α) : Op α :=
  (csrSet fun c => c.pciExtmem).andThen <|
  body.bind fun a => (csrClear fun c => c.pciExtmem).map fun _ => a

/-- The words EXT_MEM_READ reads (R172), inside the ownership. -/
def extReadBody (addr : Word) (count : Nat) (host : List Word) : Op (Except Failure (List Word)) :=
  (regWrite .extmemAddr addr).andThen <|
  (regWrite .extmemFifoArm (countWord count)).andThen <| Op.withCfg fun p =>
    (if p.extmemWmPolls > 0 then
      (pollUntil posLoop .dmaStat (anySet p.extmemWmMask) p.extmemWmPolls p.extmemWmDelayNs).map fun r =>
        match r with
        | some _ => .ok ()
        | none => .error ⟨.protocolTimeout, .extmemWatermark⟩
    else Op.pure (.ok ())).ifOk fun _ =>
      resited .extmemRead (dmaBurst .ext .extmemData host count .toHost)

/-- The clear accelerator (R173, R174): address, count, then the clearing-active bit polled on the CSR. -/
def extClearBody (addr : Word) (count : Nat) : Op (Except Failure Unit) :=
  (regWrite .extmemClr addr).andThen <|
  (regWrite .extmemClr (countWord count)).andThen <| Op.withCfg fun p =>
    (pollUntil posLoop .csr (fun v => !v.getLsbD p.csrmap.extmemClearing.val) p.extmemClrPolls p.extmemClrDelayNs).map
      fun r =>
        match r with
        | some _ => .ok ()
        | none => .error ⟨.protocolTimeout, .extmemClear⟩

/-- EXT_MEM_WRITE (R171). -/
def extMemWriteProgram (addr : Word) (count : Nat) (buf : Buf) : Program :=
  { op := .extMemWrite, regs := [.csr, .extmemAddr, .extmemData], checks := [checkCount count, checkBuf buf count], buf,
    body := (withExtMem <|
      (regWrite .extmemAddr addr).andThen (writeAll .extmemData ((bufWords buf).take count))).map fun _ =>
        { status := .ok, buf := buf } }

/-- The registers EXT_MEM_READ names: `DMA_STAT` only where the watermark is polled (R172). -/
def extReadRegs (p : Params) : List Reg :=
  [.csr, .extmemAddr, .extmemFifoArm] ++ (if p.extmemWmPolls > 0 then [.dmaStat] else []) ++ burstRegs .ext .extmemData

/-- EXT_MEM_READ (R172). -/
def extMemReadProgram (p : Params) (addr : Word) (count : Nat) (buf : Buf) : Program :=
  { op := .extMemRead, regs := extReadRegs p, checks := [checkCount count, checkBuf buf count], reads := count, buf,
    body := (withExtMem (extReadBody addr count (bufWords buf))).bind (replyWords count buf) }

/-- EXT_MEM_CLEAR (R173). -/
def extMemClearProgram (addr : Word) (count : Nat) : Program :=
  { op := .extMemClear, regs := [.csr, .extmemClr], checks := [checkCount count],
    body := (withExtMem (extClearBody addr count)).map (replyOf none) }

/-- EXT_MEM_WRITE. -/
def execExtMemWrite (m : Nat) (addr : Word) (count : Nat) (buf : Buf) (s : State) : Host.Outcome State Fault Refusal :=
  (extMemWriteProgram addr count buf).run m s

/-- EXT_MEM_READ. -/
def execExtMemRead (m : Nat) (addr : Word) (count : Nat) (buf : Buf) (s : State) : Host.Outcome State Fault Refusal :=
  (extMemReadProgram s.cfg addr count buf).run m s

/-- EXT_MEM_CLEAR. -/
def execExtMemClear (m : Nat) (addr : Word) (count : Nat) (s : State) : Host.Outcome State Fault Refusal :=
  (extMemClearProgram addr count).run m s

end Sys2Proof.Machine
end

