-- ==== Sys2Proof/Machine/Fifo.lean ====
section
/-! DEFINITION. The External FIFO Reader (42_hbr_dma.md R165, R166): FIFO_READ_WM and FIFO_DRAIN. -/

namespace Sys2Proof.Machine

/-- FIFO_READ_WM (R165): the watermark as read, no polling. -/
def fifoReadWmProgram (buf : Buf) : Program :=
  { op := .fifoReadWm, regs := [.extfifoWm], checks := [checkBuf buf 1], reads := 1, buf, offlineOut := .word (bufFirst buf),
    body := readIntoBuf buf (regRead .extfifoWm) }

/-- The words FIFO_DRAIN drains (R166): arm, poll the watermark (unsigned, at least `count`), burst. -/
def fifoDrainBody (count : Nat) (host : List Word) : Op (Except Failure (List Word)) :=
  if count = 0 then Op.pure (.ok [])
  else
    (regWrite .extfifoArm (countWord count)).andThen <| Op.withCfg fun p =>
      (pollUntil posLoop .extfifoWm (fun v => decide (v.toNat ≥ count)) p.fifoWmPolls p.fifoWmDelayNs).bind fun r =>
        match r with
        | none => Op.pure (.error ⟨.protocolTimeout, .fifoWatermark⟩)
        | some _ => resited .fifoBurst (dmaBurst .fifo .extfifoData host count .toHost)

/-- The registers FIFO_DRAIN names: none where there is nothing to drain (R166). -/
def fifoDrainRegs (count : Nat) : List Reg :=
  if count = 0 then [] else .extfifoArm :: .extfifoWm :: burstRegs .fifo .extfifoData

/-- FIFO_DRAIN (R166). -/
def fifoDrainProgram (count : Nat) (buf : Buf) : Program :=
  { op := .fifoDrain, regs := fifoDrainRegs count, checks := [checkBuf buf count], reads := count, buf,
    body := (fifoDrainBody count (bufWords buf)).bind (replyWords count buf) }

/-- FIFO_READ_WM. -/
def execFifoReadWm (m : Nat) (buf : Buf) (s : State) : Host.Outcome State Fault Refusal := (fifoReadWmProgram buf).run m s

/-- FIFO_DRAIN. -/
def execFifoDrain (m : Nat) (count : Nat) (buf : Buf) (s : State) : Host.Outcome State Fault Refusal :=
  (fifoDrainProgram count buf).run m s

end Sys2Proof.Machine
end

