-- ==== Sys2Proof/Machine/Dispatch.lean ====
section
/-! DEFINITION. One arm per operation of 30_encoding.md R83, each one call of its meaning. -/

namespace Sys2Proof.Machine

def exec (i : Instr) (s : State) : Host.Outcome State Fault Refusal :=
  match i with
  | .regRead m off buf => Sys2Proof.Machine.execRegRead m off buf s
  | .regWrite m off val => Sys2Proof.Machine.execRegWrite m off val s
  | .csrRead m buf => Sys2Proof.Machine.execCsrRead m buf s
  | .csrWrite m val => Sys2Proof.Machine.execCsrWrite m val s
  | .csrSetBits m mask => Sys2Proof.Machine.execCsrSetBits m mask s
  | .csrClearBits m mask => Sys2Proof.Machine.execCsrClearBits m mask s
  | .serWriteByte m b => Sys2Proof.Machine.execSerWriteByte m b s
  | .serReadByte m buf => Sys2Proof.Machine.execSerReadByte m buf s
  | .serReadSeq m lead n buf => Sys2Proof.Machine.execSerReadSeq m lead n buf s
  | .idDecode bytes => Sys2Proof.Machine.execIdDecode bytes s
  | .hbrRequest m => Sys2Proof.Machine.execHbrRequest m s
  | .hbrDone m => Sys2Proof.Machine.execHbrDone m s
  | .dspMemWrite m addr count buf => Sys2Proof.Machine.execDspMemWrite m addr count buf s
  | .dspMemRead m addr count buf => Sys2Proof.Machine.execDspMemRead m addr count buf s
  | .dmaBurst m kind port buf count dir => Sys2Proof.Machine.execDmaBurst m kind port buf count dir s
  | .fifoReadWm m buf => Sys2Proof.Machine.execFifoReadWm m buf s
  | .fifoDrain m count buf => Sys2Proof.Machine.execFifoDrain m count buf s
  | .extMemWrite m addr count buf => Sys2Proof.Machine.execExtMemWrite m addr count buf s
  | .extMemRead m addr count buf => Sys2Proof.Machine.execExtMemRead m addr count buf s
  | .extMemClear m addr count => Sys2Proof.Machine.execExtMemClear m addr count s
  | .bootCommFpga m rev image => Sys2Proof.Machine.execBootCommFpga m rev image s
  | .bootSpFpga m rev image => Sys2Proof.Machine.execBootSpFpga m rev image s
  | .bootDsp m file => Sys2Proof.Machine.execBootDsp m file s
  | .bootModule m rev images pattern => Sys2Proof.Machine.execBootModule m rev images pattern s
  | .sysInit slotMap offlineFlag => Sys2Proof.Machine.execSysInit slotMap offlineFlag s
  | .moduleClose m => Sys2Proof.Machine.execModuleClose m s

end Sys2Proof.Machine
end

