-- ==== Sys2Proof/Machine/Sequencer.lean ====
section
/-! DEFINITION. The sequencers of 00_scope.md R6 running side by side: the program an operation gives its module's sequencer, where
that sequencer stands after some of its steps, and its moves (start, one event, return). An operation in progress is held as the
context it started from and the events it has issued; 00_scope.md R7 makes them fix what it does next (log 32). -/

namespace Sys2Proof.Machine

/-- The module an operation names and the program its sequencer runs; none for the two that name no module. -/
def programOf (p : Params) : Instr → Option (Nat × Program)
  | .regRead m off buf => some (m, regReadProgram off buf)
  | .regWrite m off val => some (m, regWriteProgram off val)
  | .csrRead m buf => some (m, csrReadProgram buf)
  | .csrWrite m val => some (m, csrWriteProgram val)
  | .csrSetBits m mask => some (m, csrSetBitsProgram mask)
  | .csrClearBits m mask => some (m, csrClearBitsProgram mask)
  | .serWriteByte m b => some (m, serWriteByteProgram b)
  | .serReadByte m buf => some (m, serReadByteProgram buf)
  | .serReadSeq m lead n buf => some (m, serReadSeqProgram lead n buf)
  | .hbrRequest m => some (m, hbrRequestProgram p)
  | .hbrDone m => some (m, hbrDoneProgram)
  | .dspMemWrite m addr count buf => some (m, dspMemWriteProgram p addr count buf)
  | .dspMemRead m addr count buf => some (m, dspMemReadProgram p addr count buf)
  | .dmaBurst m kind port buf count dir => some (m, dmaBurstProgram kind port buf count dir)
  | .fifoReadWm m buf => some (m, fifoReadWmProgram buf)
  | .fifoDrain m count buf => some (m, fifoDrainProgram count buf)
  | .extMemWrite m addr count buf => some (m, extMemWriteProgram addr count buf)
  | .extMemRead m addr count buf => some (m, extMemReadProgram p addr count buf)
  | .extMemClear m addr count => some (m, extMemClearProgram addr count)
  | .bootCommFpga m rev image => some (m, bootCommFpgaProgram p rev image)
  | .bootSpFpga m rev image => some (m, bootSpFpgaProgram p rev image)
  | .bootDsp m file => some (m, bootDspProgram p file)
  | .bootModule m rev images pattern => some (m, bootModuleProgram p rev images pattern)
  | .moduleClose m => some (m, moduleCloseProgram)
  | .idDecode _ | .sysInit .. => none

/-- Where an operation stands after some of its steps: at a place and in a context, its events so far issued, and about to issue the
next one, or hanging there; or returned; or stopped. -/
inductive Point where
  | paused (pos : Place) (c : Ctx) (t : List Issued)
  | returned (r : Reply) (c : Ctx) (t : List Issued)
  | fault (f : Fault)
  | refused (r : Refusal)
  deriving DecidableEq, Repr

/-- Where an operation that ends as `res` stands after `k` of its steps. One whose vendor call never returns stands at that call for
good (93_implementation_defined.md U9). -/
def Res.after (k : Nat) (res : Res Reply) : Point :=
  match res with
  | .ok r c t =>
    match t[k]? with
    | some e => .paused e.issued.pos e.pre (shown (t.take k))
    | none => .returned r c (shown t)
  | .fault f pos c t =>
    match t[k]? with
    | some e => .paused e.issued.pos e.pre (shown (t.take k))
    | none => if f = .vendorHang then .paused pos c (shown t) else .fault f
  | .refused r => .refused r

/-- How many steps an operation makes until it returns, faults or hangs. -/
def Res.steps (res : Res Reply) : Nat :=
  match res with
  | .ok _ _ t | .fault _ _ _ t => t.length
  | .refused _ => 0

/-- The record of a module whose sequencer stands in operation `i`, started from `start`. -/
def pausedModule (i : Instr) (start : Ctx) (pos : Place) (c : Ctx) (t : List Issued) : Module :=
  { handle := c.handle, pos := .busy pos, env := c.env, job := some { op := i, start, trace := t } }

/-- The operation `i` with program `g` on module `m`, started from `start`, after `k` of its steps: in progress, or returned, its
sequencer idle again (70_reset_and_hazards.md R283, R288). -/
def resume (i : Instr) (m : Nat) (g : Program) (start : Ctx) (k : Nat) (s : State) : Host.Outcome State Fault Refusal :=
  match (g.result s.cfg s.isOffline m start).after k with
  | .paused pos c t => .next (s.putModule m (pausedModule i start pos c t))
  | .returned r c t => .next (finish g.op r t (s.putModule m { handle := c.handle, pos := .idle, env := c.env }))
  | .fault f => .fault f
  | .refused r => .refused r

/-- The caller starts an operation: on an idle sequencer it stands before its first step, or has returned if it makes none. One that
no sequencer serves (SYS_INIT, ID_DECODE, a module index that names no module) is run whole. -/
def startOp (i : Instr) (s : State) : Host.Outcome State Fault Refusal :=
  match programOf s.cfg i with
  | none => exec i s
  | some (m, g) =>
    match s.module? m with
    | none => exec i s
    | some x => g.guarded s (if x.pos = .idle then resume i m g x.ctx 0 s else .refused .sequencerBusy)

/-- The operation the sequencer of module `m` has in progress, with its program; none when it is idle. -/
def State.job? (s : State) (m : Nat) : Option (Job × Program) :=
  (s.module? m).bind fun x => x.job.bind fun j => (programOf s.cfg j.op).map fun g => (j, g.2)

/-- The sequencer of module `m` makes its next step: one event, and with its last one it returns. An idle sequencer and one that hangs
have no step (93_implementation_defined.md U9): nothing changes. -/
def advance (m : Nat) (s : State) : Host.Outcome State Fault Refusal :=
  match s.job? m with
  | none => .next s
  | some (j, g) => resume j.op m g j.start (j.trace.length + 1) s

/-- Whether the sequencer of module `m` has an enabled step: an operation in progress that does not hang
(70_reset_and_hazards.md R287; 93_implementation_defined.md U9). -/
def State.enabled (s : State) (m : Nat) : Bool :=
  match s.job? m with
  | none => false
  | some (j, g) =>
    match g.result s.cfg s.isOffline m j.start with
    | .fault .vendorHang _ _ t => decide (j.trace.length < t.length)
    | .ok .. | .fault .. | .refused _ => true

/-- The first sequencer with an enabled step. -/
def State.firstEnabled (s : State) : Option Nat := (List.range s.moduleCount).find? s.enabled

/-- An operation whose vendor call never returns, run until it hangs: its sequencer stands there and every other one goes on. SYS_INIT,
which no sequencer runs, stops with the fault. -/
def hang (i : Instr) (s : State) : Host.Outcome State Fault Refusal :=
  match programOf s.cfg i with
  | none => .fault .vendorHang
  | some (m, g) =>
    match s.module? m with
    | none => .fault .vendorHang
    | some x => resume i m g x.ctx (g.result s.cfg s.isOffline m x.ctx).steps s

/-- An operation run whole, no other sequencer moving between its steps: to its return, or until it hangs. -/
def runWhole (i : Instr) (s : State) : Host.Outcome State Fault Refusal :=
  match exec i s with
  | .next t => .next t
  | .fault .vendorHang => hang i s
  | .fault f => .fault f
  | .refused r => .refused r

/-- The oldest call of the caller is taken off the queue, read, and its operation run by `f`; `idle` is what happens when there is no
call. -/
def withCall (f : Instr → State → Host.Outcome State Fault Refusal) (idle : State → Host.Outcome State Fault Refusal)
    (s : State) : Host.Outcome State Fault Refusal :=
  match nextCall s with
  | none => idle s
  | some (c, s') =>
    match readCall c with
    | .error r => .refused r
    | .ok i => f i s'

/-- A step nobody was given: the oldest call is run whole; without one, the first sequencer with an enabled step makes it. -/
def freeStep : State → Host.Outcome State Fault Refusal :=
  withCall runWhole fun s =>
    match s.firstEnabled with
    | none => .next s
    | some m => advance m s

end Sys2Proof.Machine
end

