-- ==== Sys2Proof/Machine/Step.lean ====
section
/-! DEFINITION. One step of the block (00_scope.md R6): the agent whose turn it is moves. The caller starts its oldest call, or the
sequencer of a module makes its next step; where no turn is given the oldest call is run whole, or a sequencer in operation moves.
With no call and no operation in progress it does nothing of its own (10_state.md R42). -/

namespace Sys2Proof.Machine

/-- One step of the machine. -/
def step (s : State) : Host.Outcome State Fault Refusal :=
  match s.turns with
  | [] => freeStep s
  | .start :: rest => withCall startOp .next { s with turns := rest }
  | .sequencer m :: rest => advance m { s with turns := rest }

/-- The state in which the caller's next command is the word `w` of `nbits` bits with operands of zeros (log 5). -/
def State.withFetchWord (s : State) (nbits w : Nat) : State := placeCall s nbits w

end Sys2Proof.Machine
end

