-- ==== Sys2Proof/Safety.lean ====
section
/-! DEFINITION. The terms the claims use: when a module is ready to run an operation, what holds between operations (10_state.md
R43, 70_reset_and_hazards.md R288), and the shapes of traces (HBR pairing, DMA cleanup, directions, discovery balance). -/

namespace Sys2Proof.Machine

/-! ## A window the operations can use (20_memory.md R65) -/

/-- Every `REGMAP` offset is a multiple of 4 below `WIN_BYTES`. -/
def windowOk (p : Params) : Bool := allRegs.all fun r => offsetOk p (regOffset p r)

/-- The three bits the block drives on the serial lines stand at different positions (10_state.md R36). -/
def linesDistinct (p : Params) : Bool :=
  p.sermap.scl != p.sermap.sdaOut && p.sermap.scl != p.sermap.sdaOe && p.sermap.sdaOut != p.sermap.sdaOe

/-! ## When a module runs an operation -/

/-- Module `m` of `s` is `x`: its sequencer is idle, the system is online, its window is mapped. -/
abbrev State.Online (s : State) (m : Nat) (x : Module) : Prop :=
  s.module? m = some x ∧ x.pos = .idle ∧ s.isOffline = false ∧ x.handle.win.isSome = true

/-- Module `m` of `s` is online, every register can be accessed, no request is held, and every vendor call returns
(70_reset_and_hazards.md R287): nothing stops an operation. -/
abbrev State.Serves (s : State) (m : Nat) (x : Module) : Prop :=
  s.Online m x ∧ windowOk s.cfg = true ∧ x.handle.hbrHeld = false ∧ x.env.vendorLeft = none

/-- Events issued at one place: each with the register its rule names. -/
def issuedAt (pos : Place) (es : List (Option Reg × Event)) : List Issued := es.map fun x => ⟨pos, x.1, x.2⟩

/-- The RD event of a register of module `m`. -/
def rdEvent (p : Params) (m : Nat) (r : Reg) (v : Word) : Option Reg × Event := (some r, .rd (.module m) (regOffset p r) v)

/-- The WR event of a register of module `m`. -/
def wrEvent (p : Params) (m : Nat) (r : Reg) (v : Word) : Option Reg × Event := (some r, .wr (.module m) (regOffset p r) v)

/-- The events an observation issued, without positions (00_scope.md R7). -/
def State.trace (s : State) : List Event :=
  match s.last with
  | none => []
  | some o => o.issued.map Issued.event

/-- The issued events of the last operation. -/
def State.issued (s : State) : List Issued :=
  match s.last with
  | none => []
  | some o => o.issued

/-- The status of the last operation. -/
def State.status (s : State) : Option Status := s.last.map fun o => o.reply.status

/-- The caller's buffer after the last operation. -/
def State.buf (s : State) : Buf :=
  match s.last with
  | none => none
  | some o => o.reply.buf

/-- The output of the last operation. -/
def State.output (s : State) : Option Output := s.last.map fun o => o.reply.output

/-- Nothing but environments, the observation and the counters differs: the same parameters, calls, turns and handles, the same
operations in progress. -/
abbrev SameHandles (s t : State) : Prop :=
  t.cfg = s.cfg ∧ t.calls = s.calls ∧ t.turns = s.turns ∧ t.isOffline = s.isOffline ∧ t.system.isSome = s.system.isSome ∧
    t.moduleCount = s.moduleCount ∧
    ∀ m, (t.module? m).map Module.handle = (s.module? m).map Module.handle ∧
      (t.module? m).map Module.pos = (s.module? m).map Module.pos ∧
      (t.module? m).map Module.job = (s.module? m).map Module.job

/-- The operation ends with a failure and no event, and changes no handle. -/
abbrev FailsQuietly (k : Mnemonic) (f : Failure) (s : State) (o : Host.Outcome State Fault Refusal) : Prop :=
  ∃ t b, o = .next t ∧ t.last = some { op := k, reply := { status := .fail f, output := .none, buf := b }, issued := [] } ∧
    SameHandles s t

/-! ## Argument checks, as the rules list them (00_scope.md R12, R83's operands) -/

/-- The first argument check of an operation that fails, if one does: the ArgChecks lines of 40 to 43. -/
def argFailure (p : Params) : Instr → Option Failure
  | .regRead _ _ buf | .csrRead _ buf | .serReadByte _ buf | .fifoReadWm _ buf =>
    if bufLen buf < 1 then some ⟨.invalidArgument, .buffer⟩ else none
  | .serReadSeq _ _ n buf => if bufLen buf < n then some ⟨.invalidArgument, .buffer⟩ else none
  | .fifoDrain _ count buf => if bufLen buf < count then some ⟨.invalidArgument, .buffer⟩ else none
  | .dspMemWrite _ _ count buf | .dspMemRead _ _ count buf | .dmaBurst _ _ _ buf count _ | .extMemWrite _ _ count buf
  | .extMemRead _ _ count buf =>
    if count = 0 then some ⟨.invalidArgument, .count⟩
    else if bufLen buf < count then some ⟨.invalidArgument, .buffer⟩ else none
  | .extMemClear _ _ count => if count = 0 then some ⟨.invalidArgument, .count⟩ else none
  | .bootCommFpga _ rev image =>
    if image.length ≠ fwWordsComm p rev then some ⟨.dataIntegrityFailure, .fwSizeComm⟩ else none
  | .bootSpFpga _ rev image =>
    if image.length ≠ fwWordsSp p rev then some ⟨.dataIntegrityFailure, .fwSizeSp⟩ else none
  | .bootDsp _ file => if fileOk p file then none else some ⟨.dataIntegrityFailure, .dspStream⟩
  | .bootModule _ rev images pattern =>
    if pattern.toNat / 128 ≠ 0 then some ⟨.invalidArgument, .pattern⟩
    else if pattern.getLsbD 0 ∧ images.comm.length ≠ fwWordsComm p rev then some ⟨.dataIntegrityFailure, .fwSizeComm⟩
    else if pattern.getLsbD 2 ∧ images.sp.length ≠ fwWordsSp p rev then some ⟨.dataIntegrityFailure, .fwSizeSp⟩
    else if pattern.getLsbD 3 ∧ fileOk p images.dsp = false then some ⟨.dataIntegrityFailure, .dspStream⟩
    else none
  | .regWrite .. | .csrWrite .. | .csrSetBits .. | .csrClearBits .. | .serWriteByte .. | .idDecode _ | .hbrRequest _
  | .hbrDone _ | .sysInit .. | .moduleClose _ => none

/-- The caller's buffer operand. -/
def bufOperand : Instr → Buf
  | .regRead _ _ buf | .csrRead _ buf | .serReadByte _ buf | .fifoReadWm _ buf | .serReadSeq _ _ _ buf
  | .fifoDrain _ _ buf | .dspMemWrite _ _ _ buf | .dspMemRead _ _ _ buf | .dmaBurst _ _ _ buf _ _ | .extMemWrite _ _ _ buf
  | .extMemRead _ _ _ buf => buf
  | .extMemClear .. | .bootCommFpga .. | .bootSpFpga .. | .bootDsp .. | .bootModule .. | .regWrite .. | .csrWrite ..
  | .csrSetBits .. | .csrClearBits .. | .serWriteByte .. | .idDecode _ | .hbrRequest _ | .hbrDone _ | .sysInit ..
  | .moduleClose _ => none

/-- The registers an operation names: those its rule names on the branch its operands and the parameters select, whether or not
a run reaches the access (20_memory.md R65; log 9). -/
def regsOf (p : Params) : Instr → List Reg
  | .csrRead .. | .csrWrite .. | .csrSetBits .. | .csrClearBits .. => [.csr]
  | .serWriteByte .. | .serReadByte .. | .serReadSeq .. => serRegs
  | .hbrRequest _ => hbrRequestRegs p
  | .hbrDone _ => [.hbrDone]
  | .dspMemWrite .. => hbrRegs p ++ [.csr, .dspAddr, .dspData]
  | .dspMemRead _ _ count _ => dspReadRegs p count
  | .dmaBurst _ kind port _ _ _ => burstRegs kind port
  | .fifoReadWm .. => [.extfifoWm]
  | .fifoDrain _ count _ => fifoDrainRegs count
  | .extMemWrite .. => [.csr, .extmemAddr, .extmemData]
  | .extMemRead .. => extReadRegs p
  | .extMemClear .. => [.csr, .extmemClr]
  | .bootCommFpga .. => fpgaRegs
  | .bootSpFpga .. => spBootRegs
  | .bootDsp .. => dspBootRegs p
  | .bootModule _ _ _ pattern => bootModuleRegs p pattern
  | .sysInit _ offlineFlag => sysInitRegs offlineFlag
  | .regRead .. | .regWrite .. | .idDecode _ | .moduleClose _ => []

/-- The offsets of an operation in the sense of 20_memory.md R65: its raw offset, or the `REGMAP` values it names. -/
def offsetsOf (p : Params) (i : Instr) : List Nat := i.rawOffset?.toList ++ (regsOf p i).map (regOffset p)

/-- Every offset of an operation is one 20_memory.md R65 admits. -/
abbrev OffsetsOk (p : Params) (i : Instr) : Prop := ∀ off ∈ offsetsOf p i, offsetOk p off = true

/-! ## What holds between operations (10_state.md R43) -/

/-- A handle between operations: no request held, no channel open, no serial transaction. -/
abbrev Handle.Quiet (h : Handle) : Prop := h.hbrHeld = false ∧ h.dma = none ∧ h.ser = none

/-- A module between operations: idle, no operation in progress, and quiet; its window is mapped exactly when its device is open (44_discovery.md R246,
R247); its `offline` is the system's, and an offline module has no window (10_state.md R21, R42). -/
abbrev Module.AtRest (off : Bool) (x : Module) : Prop :=
  x.pos = .idle ∧ x.job = none ∧ x.handle.Quiet ∧ x.handle.dev.isSome = x.handle.win.isSome ∧ x.handle.offline = off ∧
    (off = true → x.handle.win = none)

/-- A system between operations: at most MAX_MODULES modules, every slot declared once, every module at rest. -/
abbrev System.AtRest (p : Params) (y : System) : Prop :=
  y.modules.length ≤ p.maxModules.val ∧ (y.modules.map fun x => x.handle.slot).Nodup ∧
    ∀ x ∈ y.modules, x.AtRest y.offline

/-- A module as the operation in progress found it; the module itself between operations. -/
def Module.home (x : Module) : Module :=
  match x.job with
  | none => x
  | some j => { handle := j.start.handle, pos := .idle, env := j.start.env }

/-- The record of module `m` while the operation of `j` is in progress and has issued the events of `j`; none where that operation
cannot stand there. -/
def Job.standing (p : Params) (off : Bool) (m : Nat) (j : Job) : Option Module :=
  match programOf p j.op with
  | none => none
  | some (n, g) =>
    if n = m then
      match (g.result p off m j.start).after j.trace.length with
      | .paused pos c t => some (pausedModule j.op j.start pos c t)
      | .returned .. | .fault _ | .refused _ => none
    else none

/-- A module with an operation in progress stands where that operation stands after the events it has issued
(10_state.md R23; 00_scope.md R7), and a caller may have issued it. -/
abbrev Module.InStep (p : Params) (off : Bool) (m : Nat) (x : Module) : Prop :=
  ∀ j ∈ x.job, callerMayIssue j.op = true ∧ j.standing p off m = some x

/-- The invariant of the machine: every module is at rest, or in the midst of an operation that found it at rest. -/
abbrev State.Inv (s : State) : Prop :=
  ∀ y ∈ s.system, ({ y with modules := y.modules.map Module.home } : System).AtRest s.cfg ∧
    ∀ m < y.modules.length, ∀ x ∈ y.modules[m]?, x.InStep s.cfg y.offline m

/-! ## Trace shapes -/

/-- Whether an issued event is a write to register `r`. -/
def writesReg (r : Reg) (e : Issued) : Bool :=
  match e.reg, e.event with
  | some q, .wr .. => q == r
  | _, _ => false

/-- Follows the HBR through a trace from `held`: a request while held and a done while not held have no successor. -/
def hbrWalk : Bool → List Issued → Option Bool
  | held, [] => some held
  | held, e :: rest =>
    if writesReg .hbrReq e then (if held then none else hbrWalk true rest)
    else if writesReg .hbrDone e then (if held then hbrWalk false rest else none)
    else hbrWalk held rest

/-- The requests and dones of a trace alternate, start with a request and end with a done (10_state.md R43). -/
abbrev HbrPaired (t : List Issued) : Prop := hbrWalk false t = some false

/-- Where a burst's channel stands: none open; open; its first close has failed; the device has been reset after that. -/
inductive ChannelStage where
  | closed | opened (ch : Channel) | closeFailed (ch : Channel) | wasReset (ch : Channel)
  deriving DecidableEq, Repr

/-- The channel that is open at that stage (10_state.md R25). -/
def ChannelStage.channel : ChannelStage → Option Channel
  | .closed => none
  | .opened ch | .closeFailed ch | .wasReset ch => some ch

/-- Follows the DMA channel through a trace (42_hbr_dma.md R160, R161): a successful open is followed by one close, or by a
failed close, at once a device reset and at once one more close; transfers happen on the open channel only; any other order
has no successor. -/
def dmaWalk : ChannelStage → List Issued → Option ChannelStage
  | g, [] => some g
  | g, e :: rest =>
    match g with
    | .closed =>
      match e.event with
      | .dmaOpen _ _ none => dmaWalk .closed rest
      | .dmaOpen _ _ (some ch) => dmaWalk (.opened ch) rest
      | .dmaXfer .. | .dmaClose .. | .devReset _ => none
      | .rd .. | .wr .. | .sleep _ | .find .. | .openDev .. | .mapBar .. | .unmapBar .. | .closeDev _ => dmaWalk .closed rest
    | .opened ch =>
      match e.event with
      | .dmaXfer ch' _ _ _ => if ch = ch' then dmaWalk (.opened ch) rest else none
      | .dmaClose ch' .ok => if ch = ch' then dmaWalk .closed rest else none
      | .dmaClose ch' _ => if ch = ch' then dmaWalk (.closeFailed ch) rest else none
      | .dmaOpen .. | .devReset _ => none
      | .rd .. | .wr .. | .sleep _ | .find .. | .openDev .. | .mapBar .. | .unmapBar .. | .closeDev _ =>
        dmaWalk (.opened ch) rest
    | .closeFailed ch =>
      match e.event with
      | .devReset _ => dmaWalk (.wasReset ch) rest
      | _ => none
    | .wasReset ch =>
      match e.event with
      | .dmaClose ch' _ => if ch = ch' then dmaWalk .closed rest else none
      | _ => none

/-- Every channel a trace opens it closes, in the order of 42_hbr_dma.md R161. -/
abbrev DmaClean (t : List Issued) : Prop := dmaWalk .closed t = some .closed

/-- A window access is at an offset 20_memory.md R65 admits; where the rule names the register, it is at that register's
`REGMAP` offset and respects the direction of 10_state.md R30 (R31). -/
def accessAllowed (p : Params) (e : Issued) : Bool :=
  match e.event with
  | .rd _ off _ => offsetOk p off && e.reg.all fun r => off == regOffset p r && regReadable r
  | .wr _ off _ => offsetOk p off && e.reg.all fun r => off == regOffset p r && regWritable r
  | .sleep _ | .find .. | .openDev .. | .mapBar .. | .unmapBar .. | .closeDev _ | .dmaOpen .. | .dmaXfer .. | .dmaClose ..
  | .devReset _ => true

/-- The window an event accesses, if it accesses one. -/
def windowOf : Event → Option Who
  | .rd w _ _ | .wr w _ _ => some w
  | .sleep _ | .find .. | .openDev .. | .mapBar .. | .unmapBar .. | .closeDev _ | .dmaOpen .. | .dmaXfer .. | .dmaClose ..
  | .devReset _ => none

/-- How many events of a trace satisfy `f`. -/
def countEvents (f : Event → Bool) (t : List Issued) : Nat := t.countP fun e => f e.event

def isRead : Event → Bool
  | .rd .. => true
  | _ => false
def isWrite : Event → Bool
  | .wr .. => true
  | _ => false
def isSleep : Event → Bool
  | .sleep _ => true
  | _ => false
def isOpened : Event → Bool
  | .openDev _ (some _) => true
  | _ => false
def isClosed : Event → Bool
  | .closeDev _ => true
  | _ => false
def isMapped : Event → Bool
  | .mapBar _ _ (some _) => true
  | _ => false
def isUnmapped : Event → Bool
  | .unmapBar _ _ => true
  | _ => false
def isDmaOpen : Event → Bool
  | .dmaOpen .. => true
  | _ => false
/-- A vendor-library call (10_state.md R28). -/
def isVendor : Event → Bool
  | .rd .. | .wr .. | .sleep _ => false
  | .find .. | .openDev .. | .mapBar .. | .unmapBar .. | .closeDev _ | .dmaOpen .. | .dmaXfer .. | .dmaClose ..
  | .devReset _ => true

/-- The words a trace writes to register `r`, in order. -/
def wordsTo (r : Reg) (t : List Issued) : List Word :=
  t.filterMap fun e =>
    match e.reg, e.event with
    | some q, .wr _ _ v => if q = r then some v else none
    | _, _ => none

/-- The words a trace reads from register `r`, in order. -/
def wordsFrom (r : Reg) (t : List Issued) : List Word :=
  t.filterMap fun e =>
    match e.reg, e.event with
    | some q, .rd _ _ v => if q = r then some v else none
    | _, _ => none

/-- The byte counts of a trace's transfers, in order. -/
def xferBytes (t : List Issued) : List Nat :=
  t.filterMap fun e =>
    match e.event with
    | .dmaXfer _ q _ _ => some q.byteCount
    | _ => none

/-! ## What an operation answers, without positions -/

/-- Register and event of every issued event, without the sequencer's position. -/
def named (t : List Issued) : List (Option Reg × Event) := t.map fun e => (e.reg, e.event)

/-- The named events of the last operation. -/
def State.events (s : State) : List (Option Reg × Event) := named s.issued

/-- The outcome `o` of an operation on module `m` is the next state that differs from `s` in that module's record, now `x`, and
in the observation: the reply `r` and the events `es`. -/
abbrev Answers (o : Host.Outcome State Fault Refusal) (s : State) (k : Mnemonic) (m : Nat) (x : Module) (r : Reply)
    (es : List (Option Reg × Event)) : Prop :=
  ∃ t, o = .next (finish k r t (s.putModule m x)) ∧ named t = es

/-- The next `n` register-read answers of an environment, and the environment after them. -/
def readMany : Nat → Env → List Word × Env
  | 0, e => ([], e)
  | n + 1, e => ((envRead e).1 :: (readMany n (envRead e).2).1, (readMany n (envRead e).2).2)

/-- The output of an operation offline (40_register_csr.md R108; log 12). -/
def offlineOutput : Instr → Output
  | .regRead _ _ buf | .csrRead _ buf | .fifoReadWm _ buf => .word ((bufWords buf).headD 0)
  | .serWriteByte .. => .ack true
  | .serReadByte _ buf => .byte (((bufWords buf).headD 0).setWidth 8)
  | .serReadSeq _ _ n buf => .words ((bufWords buf).take n)
  | .regWrite .. | .csrWrite .. | .csrSetBits .. | .csrClearBits .. | .idDecode _ | .hbrRequest _ | .hbrDone _
  | .dspMemWrite .. | .dspMemRead .. | .dmaBurst .. | .fifoDrain .. | .extMemWrite .. | .extMemRead .. | .extMemClear ..
  | .bootCommFpga .. | .bootSpFpga .. | .bootDsp .. | .bootModule .. | .sysInit .. | .moduleClose _ => .none

/-- How many words of the caller's buffer an operation reads into (20_memory.md R68). -/
def readsInto : Instr → Nat
  | .regRead .. | .csrRead .. | .fifoReadWm .. | .serReadByte .. => 1
  | .serReadSeq _ _ n _ => n
  | .dspMemRead _ _ count _ | .fifoDrain _ count _ | .extMemRead _ _ count _ => count
  | .dmaBurst _ _ _ _ count .toHost => count
  | .dmaBurst _ _ _ _ _ .toModule => 0
  | .regWrite .. | .csrWrite .. | .csrSetBits .. | .csrClearBits .. | .serWriteByte .. | .idDecode _ | .hbrRequest _
  | .hbrDone _ | .dspMemWrite .. | .extMemWrite .. | .extMemClear .. | .bootCommFpga .. | .bootSpFpga .. | .bootDsp ..
  | .bootModule .. | .sysInit .. | .moduleClose _ => 0

/-! ## Traces the rules give -/

/-- The SLEEP event of `ns`. -/
def sleepEvent (ns : Nat) : Option Reg × Event := (none, .sleep ns)

/-- `Sleep(ns) when ns > 0`. -/
def sleepEvents (ns : Nat) : List (Option Reg × Event) := if ns > 0 then [sleepEvent ns] else []

/-- The reads of a poll that are not satisfied, each with its sleep (42_hbr_dma.md R152). -/
def pollEvents (p : Params) (m : Nat) (r : Reg) (d : Nat) (vs : List Word) : List (Option Reg × Event) :=
  vs.flatMap fun v => rdEvent p m r v :: sleepEvents d

/-- The words `vs` of a poll whose predicate holds of the last word and of no other, within `n` reads (42_hbr_dma.md R152). -/
abbrev PollSeen (n : Nat) (pred : Word → Bool) (vs : List Word) : Prop :=
  vs.length ≤ n ∧ (∀ w ∈ vs.dropLast, pred w = false) ∧ vs.getLast?.any pred = true

/-- The words `vs` of a poll of `n` reads whose predicate holds of none of them (42_hbr_dma.md R152). -/
abbrev PollMissed (n : Nat) (pred : Word → Bool) (vs : List Word) : Prop := vs.length = n ∧ ∀ w ∈ vs, pred w = false

/-- The events of a poll that reads `vs`: every word the predicate does not hold of is followed by the sleep. -/
def pollTrace (p : Params) (m : Nat) (r : Reg) (d : Nat) (pred : Word → Bool) (vs : List Word) : List (Option Reg × Event) :=
  vs.flatMap fun v => rdEvent p m r v :: if pred v then [] else sleepEvents d

/-- A CSR read-modify-write that reads `v` (40_register_csr.md R107). -/
def csrEvents (p : Params) (m : Nat) (v set clr : Word) : List (Option Reg × Event) :=
  [rdEvent p m .csr v, wrEvent p m .csr ((v &&& ~~~clr) ||| set)]

/-- One processor word written under its own HBR pair, without a grant poll (43_boot.md R215). -/
def hbrGroupEvents (p : Params) (m : Nat) (a : Word) (ws : List Word) : List (Option Reg × Event) :=
  [wrEvent p m .hbrReq p.hbrReqVal, wrEvent p m .dspAddr a] ++ ws.map (wrEvent p m .dspData) ++
    [wrEvent p m .hbrDone p.hbrDoneVal]

/-- One processor word read under its own HBR pair, without a grant poll (43_boot.md R217). -/
def hbrReadEvents (p : Params) (m : Nat) (a v : Word) : List (Option Reg × Event) :=
  [wrEvent p m .hbrReq p.hbrReqVal, wrEvent p m .dspAddr a, rdEvent p m .dspData v, wrEvent p m .hbrDone p.hbrDoneVal]

/-- One try of a configuration register, which reads back `v` (43_boot.md R221). -/
def cfgTryEvents (p : Params) (m : Nat) (c : CfgPair) (v : Word) : List (Option Reg × Event) :=
  (match p.cfgVerifyMode with
    | .writeRead => hbrGroupEvents p m c.addr [c.value]
    | .readOnly => []) ++ hbrReadEvents p m c.addr v

/-- A configuration register verified at the first try. -/
def cfgVerifyEvents (p : Params) (m : Nat) (c : CfgPair) : List (Option Reg × Event) := cfgTryEvents p m c c.value

/-- An FPGA cycle that succeeds: INIT seen after the reads `bad`, in the word `v`; the done pair in the word `d`
(43_boot.md R201 to R204). -/
def fpgaEvents (p : Params) (m : Nat) (t : Target) (image bad : List Word) (v d : Word) : List (Option Reg × Event) :=
  [wrEvent p m .cfgCtrl (patternOf p t).progLow] ++ sleepEvents p.fpgaProgHoldNs ++
    [wrEvent p m .cfgCtrl (patternOf p t).progHigh] ++ pollEvents p m .cfgStat p.fpgaInitDelayNs bad ++
    [rdEvent p m .cfgStat v] ++ image.flatMap (fun w => [wrEvent p m .cfgData w, sleepEvent p.fpgaWordDelayNs]) ++
    [rdEvent p m .cfgStat d]

/-- INIT is seen in `v` after the reads `bad`, within the bound, and the done pair in `d` (43_boot.md R202, R204). -/
abbrev FpgaReady (p : Params) (t : Target) (bad : List Word) (v d : Word) : Prop :=
  bad.length < p.fpgaInitPolls ∧ (∀ w ∈ bad, w &&& (patternOf p t).initMask ≠ (patternOf p t).initMask) ∧
    v &&& (patternOf p t).initMask = (patternOf p t).initMask ∧ d &&& (patternOf p t).doneMask = (patternOf p t).doneMask

/-- One attempt of the FPGA cycle: the words of its INIT poll, and the word of its verify, none where it got to none
(43_boot.md R205). -/
structure FpgaRun where
  polls : List Word
  verify : Option Word
  deriving DecidableEq, Repr

/-- The `CFG_STAT` words the attempt reads. -/
def FpgaRun.reads (r : FpgaRun) : List Word := r.polls ++ r.verify.toList

/-- INIT stands in a `CFG_STAT` word. -/
def initSeen (p : Params) (t : Target) (v : Word) : Bool := v &&& (patternOf p t).initMask == (patternOf p t).initMask

/-- The done pair stands in a `CFG_STAT` word. -/
def doneSeen (p : Params) (t : Target) (v : Word) : Bool := v &&& (patternOf p t).doneMask == (patternOf p t).doneMask

/-- The attempt fails: its INIT poll times out, or its verify does not see the done pair. -/
abbrev FpgaRun.Fails (p : Params) (t : Target) (r : FpgaRun) : Prop :=
  (r.verify = none ∧ PollMissed p.fpgaInitPolls (initSeen p t) r.polls) ∨
    (r.verify.any (fun d => !doneSeen p t d) = true ∧ PollSeen p.fpgaInitPolls (initSeen p t) r.polls)

/-- The attempt configures the target. -/
abbrev FpgaRun.Succeeds (p : Params) (t : Target) (r : FpgaRun) : Prop :=
  r.verify.any (doneSeen p t) = true ∧ PollSeen p.fpgaInitPolls (initSeen p t) r.polls

/-- The events of the attempt: the stream and the verify only after INIT was seen (43_boot.md R201 to R205). -/
def FpgaRun.events (p : Params) (m : Nat) (t : Target) (image : List Word) (r : FpgaRun) : List (Option Reg × Event) :=
  [wrEvent p m .cfgCtrl (patternOf p t).progLow] ++ sleepEvents p.fpgaProgHoldNs ++
    [wrEvent p m .cfgCtrl (patternOf p t).progHigh] ++
    pollTrace p m .cfgStat p.fpgaInitDelayNs (initSeen p t) r.polls ++
    match r.verify with
    | none => []
    | some d =>
      image.flatMap (fun w => [wrEvent p m .cfgData w, sleepEvent p.fpgaWordDelayNs]) ++ [rdEvent p m .cfgStat d]

/-- A boot of a target: the attempts that fail, in order, and the one that succeeds; none where every attempt fails. -/
abbrev FpgaBoots (p : Params) (t : Target) (fails : List FpgaRun) (last : Option FpgaRun) : Prop :=
  (∀ r ∈ fails, r.Fails p t) ∧ (∀ r ∈ last, r.Succeeds p t) ∧
    if last.isSome then fails.length < p.fpgaAttempts else fails.length = p.fpgaAttempts

/-- The `CFG_STAT` words a boot reads. -/
def bootReads (fails : List FpgaRun) (last : Option FpgaRun) : List Word := (fails ++ last.toList).flatMap FpgaRun.reads

/-- The events of a boot. -/
def bootEvents (p : Params) (m : Nat) (t : Target) (image : List Word) (fails : List FpgaRun) (last : Option FpgaRun) :
    List (Option Reg × Event) := (fails ++ last.toList).flatMap (FpgaRun.events p m t image)

/-- The DMAOPEN event of a burst (30_encoding.md R92). -/
def dmaOpenEvent (p : Params) (dev : Option DevHandle) (r : Option Channel) : Option Reg × Event :=
  (none, .dmaOpen dev { readyGated := true, burstInfinite := true, busWidthBits := p.dmaBusBits } r)

/-- The DMAXFER event of a burst (30_encoding.md R92). -/
def dmaXferEvent (p : Params) (ch : Channel) (dir : Dir) (port : Reg) (host : List Word) (count : Nat) (r : XferResult) :
    Option Reg × Event :=
  (none, .dmaXfer ch { dir, localAddress := regOffset p port, hostBuffer := host, byteCount := 4 * count } p.dmaTimeoutMs r)

/-- The close sequence of a channel (42_hbr_dma.md R160). -/
def closeEvents (dev : Option DevHandle) (ch : Channel) (e : Env) : List (Option Reg × Event) :=
  match (envClose e).1 with
  | .ok => [(none, .dmaClose ch .ok)]
  | .inProgress =>
    [(none, .dmaClose ch .inProgress), (none, .devReset dev), (none, .dmaClose ch (envClose (envClose e).2).1)]
  | .error => [(none, .dmaClose ch .error), (none, .devReset dev), (none, .dmaClose ch (envClose (envClose e).2).1)]

/-- The status of a close sequence: the second result, when the first close failed (42_hbr_dma.md R160). -/
def closeStatus (e : Env) : Status :=
  match (envClose e).1 with
  | .ok => .ok
  | .inProgress | .error =>
    match (envClose (envClose e).2).1 with
    | .ok => .ok
    | .inProgress => .fail ⟨.hardwareBusyOrStuck, .dmaClose⟩
    | .error => .fail ⟨.resourceFailure, .dmaClose⟩

/-- The status of a burst's transfer, closed afterwards: the first failure wins (42_hbr_dma.md R158). -/
def burstStatus (r : XferResult) (closed : Status) : Status :=
  match r with
  | .ok => closed
  | .timeout => .fail ⟨.protocolTimeout, .dmaTransfer⟩
  | .vendorError => .fail ⟨.resourceFailure, .dmaTransfer⟩

/-- A burst on the channel `ch` after its priming `primed`, whose transfer answers `a`: it completes with the open, the priming,
one transfer, one close sequence, and the transfer's failure or else the close sequence's status; the channel is given up, the
rest of the handle unchanged. On success to the host the words delivered are in the buffer; a transfer to the module leaves it
unchanged (42_hbr_dma.md R158). The close sequence's answers `e` are those after the transfer's, and after the free words drawn
where the environment delivers too few (log 17). -/
abbrev BurstEnds (s : State) (m : Nat) (x : Module) (port : Reg) (ws : List Word) (count : Nat) (dir : Dir) (ch : Channel)
    (primed : List (Option Reg × Event)) (a : XferAnswer × Env) (o : Host.Outcome State Fault Refusal) : Prop :=
  ∃ t, o = .next t ∧
    (∃ e, t.module? m = some { x with handle := { x.handle with dma := none }, env := e }) ∧
    (∃ e, e = (if a.1.result = .ok ∧ dir = .toHost then (envFreeWords (count - a.1.data.length) a.2).2 else a.2) ∧
      t.status = some (burstStatus a.1.result (closeStatus e)) ∧
      t.events = [dmaOpenEvent s.cfg x.handle.dev (some ch)] ++ primed ++
        [dmaXferEvent s.cfg ch dir port ws count a.1.result] ++ closeEvents x.handle.dev ch e) ∧
    (t.status = some .ok → dir = .toHost → a.1.data.length = count → t.buf = some (a.1.data ++ ws.drop count)) ∧
    (dir = .toModule → t.buf = some ws)

/-- A status re-sited: the category kept, the site replaced (60_exceptions.md R262). -/
def resitedStatus (site : Site) : Status → Status
  | .ok => .ok
  | .fail f => .fail ⟨f.category, site⟩

/-! ## A read as the operations it is made of (42_hbr_dma.md R154 to R156) -/

/-- What operations run one after the other give: the words read or the failure, the events, the state reached; none where one
of them stops. -/
abbrev Ran := Option (Except Failure (List Word) × List Event × State)

/-- One operation; `words` are those it reads. -/
def ranOp (i : Instr) (words : State → List Word) (s : State) : Ran :=
  match exec i s with
  | .next t =>
    match t.status with
    | some (.fail f) => some (.error f, t.trace, t)
    | some .ok | none => some (.ok (words t), t.trace, t)
  | .fault _ | .refused _ => none

/-- One, then another, unless the first fails. -/
def Ran.andThen (x : Ran) (f : State → Ran) : Ran :=
  x.bind fun a =>
    match a.1 with
    | .error e => some (.error e, a.2.1, a.2.2)
    | .ok ws => (f a.2.2).map fun b => (b.1.map (ws ++ ·), a.2.1 ++ b.2.1, b.2.2)

/-- A failure re-sited. -/
def Ran.resited (site : Site) (x : Ran) : Ran := x.map fun a => (a.1.mapError fun f => ⟨f.category, site⟩, a.2)

/-- Work under a request: a request that fails ends it; after the work, whatever its status, the done. -/
def ranUnderRequest (m : Nat) (work : State → Ran) (s : State) : Ran :=
  (ranOp (.hbrRequest m) (fun _ => []) s).andThen fun q =>
    (work q).bind fun a => (ranOp (.hbrDone m) (fun _ => []) a.2.2).map fun d => (a.1, a.2.1 ++ d.2.1, d.2.2)

/-- The word an operation outputs. -/
def outputWords (s : State) : List Word :=
  match s.output with
  | some (.word v) => [v]
  | _ => []

/-- The auto-increment disable cleared and the address written. -/
def ranAddress (m : Nat) (a : Word) (s : State) : Ran :=
  (ranOp (.csrClearBits m (1#32 <<< s.cfg.csrmap.autoIncDisable.val)) (fun _ => []) s).andThen
    (ranOp (.regWrite m (regOffset s.cfg .dspAddr) a) fun _ => [])

/-- `BlockRead(m, a, dst, w)` (R155). -/
def ranBlock (m : Nat) (a : Word) (dst : List Word) (w : Nat) : State → Ran :=
  ranUnderRequest m fun q => (ranAddress m a q).andThen
    (ranOp (.dmaBurst m .dsp .dspData (some dst) w .toHost) fun t => (bufWords t.buf).take w)

/-- The same run for every element, in order, until one fails. -/
def ranEach {α : Type} (f : α → State → Ran) : List α → State → Ran
  | [], s => some (.ok [], [], s)
  | a :: rest, s => (f a s).andThen (ranEach f rest)

/-- `SingleRead(m, a, dst, r)` (R156): one request for all words, or the one-word path for each. -/
def ranSingle (m : Nat) (a : Word) (r : Nat) (s : State) : Ran :=
  match s.cfg.remainderMode with
  | .autoinc =>
    ranUnderRequest m (fun q => (ranAddress m a q).andThen
      (ranEach (fun _ => ranOp (.regRead m (regOffset s.cfg .dspData) (some [0])) outputWords) (List.range r))) s
  | .perword =>
    ranEach (fun i => ranOp (.dspMemRead m (a + BitVec.ofNat 32 i) 1 (some [0])) fun t => bufWords t.buf) (List.range r) s

/-- A read of two words or more (R154): its full blocks, then its remainder. -/
def ranRead (m : Nat) (addr : Word) (count : Nat) (ws : List Word) (s : State) : Ran :=
  let size := s.cfg.dspBlockWords
  let base := count / size * size
  let r := count % size
  (ranEach (fun k q => (ranBlock m (addr + BitVec.ofNat 32 (k * size)) (ws.drop (k * size)) size q).resited .dspBlock)
      (List.range (count / size)) s).andThen fun q =>
    if r = 0 then some (.ok [], [], q)
    else
      Ran.resited .dspRemainder <|
        if r < s.cfg.dspSingleMax then ranSingle m (addr + BitVec.ofNat 32 base) r q
        else ranBlock m (addr + BitVec.ofNat 32 base) (ws.drop base) r q

/-! ## Serial transfers (41_serial_bus.md R121 to R125) -/

/-- Line levels of `Start`. -/
def startLines : List Lines := [⟨true, true, true⟩, ⟨true, false, true⟩]

/-- Line levels of `Stop`. -/
def stopLines : List Lines := [⟨false, false, true⟩, ⟨true, false, true⟩, ⟨true, true, true⟩]

/-- Line levels of the bits sent, the data line standing at `held` before the first. -/
def sendLines : Bool → List Bool → List Lines
  | _, [] => []
  | held, d :: rest => [⟨false, held, true⟩, ⟨false, d, true⟩, ⟨true, d, true⟩] ++ sendLines d rest

/-- The bits of a byte, bit 7 first (30_encoding.md R91). -/
def bitsOf (b : Byte) : List Bool := [7, 6, 5, 4, 3, 2, 1, 0].map b.getLsbD

/-- Line levels of a framed byte write. -/
def serWriteLines (b : Byte) : List Lines :=
  startLines ++ sendLines false (bitsOf b) ++ [⟨false, true, false⟩, ⟨true, true, false⟩, ⟨false, true, false⟩] ++ stopLines

/-- Line levels of a framed byte read that acknowledges with the level `a`. -/
def serReadLines (a : Bool) : List Lines :=
  startLines ++ (List.replicate 8 [⟨false, true, false⟩, ⟨true, true, false⟩]).flatten ++
    [⟨false, a, true⟩, ⟨true, a, true⟩, ⟨false, a, true⟩] ++ stopLines

/-- The phases a trace passes through, each once. -/
def phasesOf (t : List Issued) : List Place := (t.map Issued.pos).dedup

/-- The word is an acknowledge sample: the data line is low (41_serial_bus.md R123, G1). -/
abbrev isLow (p : Params) (v : Word) : Prop := v.getLsbD p.sermap.sdaIn.val = false

/-- Sample `k` of the transfer of `b`, for every `k` below 8, is bit `7 - k` of `b`. -/
abbrev SampledByte (p : Params) (vs : List Word) (b : Byte) : Prop :=
  ∀ k < 8, b.getLsbD (7 - k) = (vs.getD k 0).getLsbD p.sermap.sdaIn.val

/-! ## Segments of the processor stream (43_boot.md R219) -/

/-- A segment of the stream: its header words, the header words no rule reads, what `TAGMAP` gives for its tag, its payload. -/
structure Segment where
  tag : Word
  count : Word
  addr : Word
  unread : List Word
  info : TagInfo
  payload : List Word
  deriving DecidableEq, Repr

/-- Words the segment writes: its count, or `FINAL_BLOCK_WORDS` for the final one. -/
def Segment.size (p : Params) (g : Segment) : Nat := if g.info.kind = .final then p.finalBlockWords else g.count.toNat

/-- The segment's tag is supported, its header has `SEG_HEADER_WORDS` words, and its payload has the length its kind and width
give. -/
abbrev Segment.Ok (p : Params) (g : Segment) : Prop :=
  tagInfo p g.tag = some g.info ∧ 3 + g.unread.length = segHeaderWords p ∧
    g.payload.length = (if g.info.kind = .zero then 0 else g.size p * subwords g.info.width)

/-- The stream words of a segment. -/
def Segment.words (g : Segment) : List Word := g.tag :: g.count :: g.addr :: (g.unread ++ g.payload)

/-- Word `j` a segment writes: zeros, or the `j`-th group of its payload. -/
def Segment.group (g : Segment) (j : Nat) : List Word :=
  if g.info.kind = .zero then List.replicate (subwords g.info.width) 0
  else (g.payload.drop (j * subwords g.info.width)).take (subwords g.info.width)

/-- The events of a segment: every word at the next address, under its own HBR pair. -/
def Segment.events (p : Params) (m : Nat) (g : Segment) : List (Option Reg × Event) :=
  (List.range (g.size p)).flatMap fun j => hbrGroupEvents p m (g.addr + BitVec.ofNat 32 j) (g.group j)

/-- Header words left that are too few, an unsupported tag, or a payload that is too short: the malformed or unsupported rest of
a stream, and its failure. -/
abbrev StreamRejected (p : Params) (rest : List Word) (f : Failure) : Prop :=
  (0 < rest.length ∧ rest.length < segHeaderWords p ∧ f = ⟨.dataIntegrityFailure, .dspStream⟩) ∨
  (segHeaderWords p ≤ rest.length ∧ tagInfo p (rest.getD 0 0) = none ∧ f = ⟨.dataIntegrityFailure, .dspTag⟩) ∨
  (segHeaderWords p ≤ rest.length ∧ f = ⟨.dataIntegrityFailure, .dspStream⟩ ∧
    ∃ g, tagInfo p (rest.getD 0 0) = some g ∧ g.kind ≠ .zero ∧
      rest.length < segHeaderWords p +
        (if g.kind = .final then p.finalBlockWords else (rest.getD 1 0).toNat) * subwords g.width)

/-- A processor file's stream: the kernel, segments that are not final, then a final segment and whatever follows it, or the end
of the file, or a rest that is rejected with the failure `bad`. -/
structure BootStream where
  kernel : List Word
  segments : List Segment
  last : Option Segment
  rest : List Word
  bad : Option Failure
  deriving DecidableEq, Repr

/-- The words of the stream. -/
def BootStream.words (b : BootStream) : List Word :=
  b.kernel ++ (b.segments ++ b.last.toList).flatMap Segment.words ++ b.rest

/-- The stream is what its fields say. -/
abbrev BootStream.Ok (p : Params) (b : BootStream) : Prop :=
  b.kernel.length = p.dspKernelWords * p.dspKernelSubwords ∧ (∀ g ∈ b.segments, g.Ok p ∧ g.info.kind ≠ .final) ∧
    (∀ g ∈ b.last, g.Ok p ∧ g.info.kind = .final) ∧ (∀ f ∈ b.bad, b.last = none ∧ StreamRejected p b.rest f) ∧
    (b.bad = none → b.last = none → b.rest = [])

/-- The events of the kernel download and of the tag stream. -/
def BootStream.events (p : Params) (m : Nat) (b : BootStream) : List (Option Reg × Event) :=
  (List.range p.dspKernelWords).flatMap (fun i =>
      hbrGroupEvents p m (p.dspKernelAddr + BitVec.ofNat 32 i)
        ((b.kernel.drop (i * p.dspKernelSubwords)).take p.dspKernelSubwords)) ++
    (b.segments ++ b.last.toList).flatMap (Segment.events p m)

/-! ## Attempts of the processor boot, without grant polls (43_boot.md R220 to R226) -/

/-- Where an attempt ends: a configuration register that never reads back its value, the stream, the power-up flag that never
stands, or the processor running. -/
inductive DspEnd where
  | cfg0 | cfg1 | stream | pudone | running
  deriving DecidableEq, Repr

/-- An attempt: the CSR words of reset, of release and of the clear of `DSP_DOWNLOAD`, the words read back for the two
configuration registers, the words of the power-up poll, and where it ends. -/
structure DspRun where
  reset : Word
  release : Word
  tries0 : List Word
  tries1 : List Word
  download : Option Word
  polls : List Word
  ends : DspEnd
  deriving DecidableEq, Repr

/-- The words the attempt reads. -/
def DspRun.reads (r : DspRun) : List Word := [r.reset, r.release] ++ r.tries0 ++ r.tries1 ++ r.download.toList ++ r.polls

/-- The configuration register reads back its value. -/
def cfgHolds (c : CfgPair) (v : Word) : Bool := v == c.value

/-- The power-up flag stands in a word. -/
def pudoneSeen (p : Params) (v : Word) : Bool := v &&& p.dspPudoneMask != 0

/-- The attempt, on the stream `b`, ends where it says. -/
abbrev DspRun.Ok (p : Params) (b : BootStream) (r : DspRun) : Prop :=
  (if r.ends = .cfg0 then PollMissed p.dspCfgAttempts (cfgHolds p.dspCfg0) r.tries0
    else PollSeen p.dspCfgAttempts (cfgHolds p.dspCfg0) r.tries0) ∧
  (if r.ends = .cfg0 then r.tries1 = []
    else if r.ends = .cfg1 then PollMissed p.dspCfgAttempts (cfgHolds p.dspCfg1) r.tries1
    else PollSeen p.dspCfgAttempts (cfgHolds p.dspCfg1) r.tries1) ∧
  (r.ends = .stream → b.bad ≠ none) ∧
  (if r.ends = .pudone ∨ r.ends = .running then b.bad = none ∧ r.download.isSome = true else r.download = none) ∧
  (if r.ends = .pudone then PollMissed p.dspPudonePolls (pudoneSeen p) r.polls
    else if r.ends = .running then PollSeen p.dspPudonePolls (pudoneSeen p) r.polls else r.polls = [])

/-- The events of the attempt: reset, release, the tries of the two configuration registers; then, once both hold, the kernel
and the stream; then the clear of `DSP_DOWNLOAD` and the power-up poll. -/
def DspRun.events (p : Params) (m : Nat) (b : BootStream) (r : DspRun) : List (Option Reg × Event) :=
  csrEvents p m r.reset (1#32 <<< p.csrmap.dspReset.val ||| 1#32 <<< p.csrmap.dspDownload.val) 0 ++
    [sleepEvent p.dspResetHoldNs] ++ csrEvents p m r.release 0 (1#32 <<< p.csrmap.dspReset.val) ++
    r.tries0.flatMap (cfgTryEvents p m p.dspCfg0) ++ r.tries1.flatMap (cfgTryEvents p m p.dspCfg1) ++
    (if r.ends = .cfg0 ∨ r.ends = .cfg1 then [] else b.events p m) ++
    r.download.toList.flatMap (fun v => csrEvents p m v 0 (1#32 <<< p.csrmap.dspDownload.val)) ++
    r.polls.flatMap fun v =>
      hbrReadEvents p m p.dspPudoneAddr v ++ if pudoneSeen p v then [] else [sleepEvent p.dspPudoneDelayNs]

/-- The status of the attempt. -/
def DspRun.status (b : BootStream) (r : DspRun) : Status :=
  match r.ends with
  | .cfg0 | .cfg1 => .fail ⟨.protocolTimeout, .dspCfg⟩
  | .stream => .fail (b.bad.getD ⟨.dataIntegrityFailure, .dspStream⟩)
  | .pudone => .fail ⟨.protocolTimeout, .dspPudone⟩
  | .running => .ok

/-- A failed attempt that is made again from Reset: every one but a stream failure (R219, R226). -/
abbrev DspRun.Retried (r : DspRun) : Prop := r.ends = .cfg0 ∨ r.ends = .cfg1 ∨ r.ends = .pudone

/-! ## The stages of BOOT_MODULE (43_boot.md R230) -/

/-- The selected stages, in order. -/
def bootStages (m rev : Nat) (images : Images) (pattern : Word) : List Instr :=
  (if pattern.getLsbD 0 then [.bootCommFpga m rev images.comm] else []) ++
    (if pattern.getLsbD 2 then [.bootSpFpga m rev images.sp] else []) ++
    (if pattern.getLsbD 3 then [.bootDsp m images.dsp] else [])

/-- Runs operations one after the other until one fails: the last status, all events, the state reached. -/
def runStages : List Instr → State → Option (Status × List (Option Reg × Event) × State)
  | [], s => some (.ok, [], s)
  | i :: rest, s =>
    match exec i s with
    | .next t =>
      match t.status with
      | some .ok => (runStages rest t).map fun r => (r.1, t.events ++ r.2.1, r.2.2)
      | some (.fail f) => some (.fail f, t.events, t)
      | none => none
    | .fault _ => none
    | .refused _ => none

/-! ## Discovery (44_discovery.md R241 to R245) -/

/-- The answers of the `findDevice` calls: every one but the last found a device, and the calls end at the limit or at the first
that finds none. -/
abbrev FindRan (p : Params) (rs : List (Option DevKey)) : Prop :=
  rs.length ≤ p.findLimit ∧ (∀ r ∈ rs.dropLast, r.isSome = true) ∧ (rs.length = p.findLimit ∨ rs.getLast? = some none)

/-- The events of `Find`. -/
def findEvents (p : Params) (rs : List (Option DevKey)) : List (Option Reg × Event) :=
  rs.zipIdx.map fun r => (none, .find p.pciVendorId p.pciDeviceId r.2 r.1)

/-- The keys whose bus/slot no earlier key has, in order. -/
def firstPerSlot (p : Params) (ks : List DevKey) : List DevKey :=
  (ks.zipIdx.filter fun k => (ks.take k.2).all fun q => busSlotOf p q != busSlotOf p k.1).map Prod.fst

/-- A device opened and mapped. -/
def acquireEvents (p : Params) (key : DevKey) (d : DevHandle × VAddr) : List (Option Reg × Event) :=
  [(none, .openDev key (some d.1)), (none, .mapBar d.1 p.barIndex (some d.2))]

/-- A device unmapped and closed. -/
def releaseEvents (d : DevHandle × VAddr) : List (Option Reg × Event) :=
  [(none, .unmapBar (some d.1) d.2), (none, .closeDev (some d.1))]

/-- A device that cannot be opened, or is opened as `h`, cannot be mapped, and is closed: the events. -/
def acquireFailEvents (p : Params) (key : DevKey) : Option DevHandle → List (Option Reg × Event)
  | none => [(none, .openDev key none)]
  | some h => [(none, .openDev key (some h)), (none, .mapBar h p.barIndex none), (none, .closeDev (some h))]

/-- The failure of a device that cannot be opened or mapped. -/
def acquireFailure : Option DevHandle → Failure
  | none => ⟨.resourceFailure, .openDev⟩
  | some _ => ⟨.resourceFailure, .map⟩

/-- The register traffic of the slot read of probe `j`: accesses to its window and sleeps. -/
abbrev OnProbe (j : Nat) (t : List Issued) : Prop :=
  ∀ e ∈ t, windowOf e.event = some (.probe j) ∨ isSleep e.event = true

/-- The trace of a slot read that gives `bytes`: the prefix sent and acknowledged, then every byte sampled in its own frame
(41_serial_bus.md R132). -/
abbrev SlotRead (p : Params) (t : List Issued) (bytes : List Byte) : Prop :=
  wordsTo .serCtrl t = (p.slotReadLead.flatMap serWriteLines ++
      (List.replicate p.slotReadCount (serReadLines p.acksendSda)).flatten).map (lineWord p) ∧
    (wordsFrom .serStat t).length = p.slotReadLead.length + 8 * p.slotReadCount ∧
    (∀ v ∈ (wordsFrom .serStat t).take p.slotReadLead.length, isLow p v) ∧ bytes.length = p.slotReadCount ∧
    ∀ i < p.slotReadCount,
      SampledByte p ((wordsFrom .serStat t).drop (p.slotReadLead.length + 8 * i)) (bytes.getD i 0)

/-- The trace of a slot read that ends at the first byte of the prefix not acknowledged. -/
abbrev SlotReadFails (p : Params) (t : List Issued) : Prop :=
  ∃ j < p.slotReadLead.length, wordsTo .serCtrl t = ((p.slotReadLead.take (j + 1)).flatMap serWriteLines).map (lineWord p) ∧
    (wordsFrom .serStat t).length = j + 1 ∧ (∀ v ∈ (wordsFrom .serStat t).take j, isLow p v) ∧
    ¬ isLow p ((wordsFrom .serStat t).getD j 0)

/-- One probed device: its key, what opening and mapping it gave, the trace of its slot read and the bytes read. -/
structure ProbeRun where
  key : DevKey
  dev : DevHandle × VAddr
  read : List Issued
  bytes : List Byte
  deriving DecidableEq, Repr

/-- The events of a device probed: opened, mapped, read and released. -/
def ProbeRun.events (p : Params) (r : ProbeRun) : List (Option Reg × Event) :=
  acquireEvents p r.key r.dev ++ named r.read ++ releaseEvents r.dev

/-- The key of a probed device and the slot it reported. -/
def ProbeRun.reported (p : Params) (r : ProbeRun) : DevKey × Nat := (r.key, slotOf p r.bytes)

/-! ## Encoding -/

/-- The `OP` values of 30_encoding.md R83. -/
def tableOpcodes : List Byte :=
  [0x01, 0x02, 0x08, 0x09, 0x0A, 0x0B, 0x10, 0x11, 0x12, 0x13, 0x20, 0x21, 0x22, 0x23, 0x28, 0x30, 0x31, 0x38, 0x39, 0x3A,
    0x40, 0x41, 0x42, 0x43, 0x50, 0x51]

/-! ## A serial peer (41_serial_bus.md R134) -/

/-- What a peer on the lines clocks in from the `SER_CTRL` words written: the data level at each rise of the clock line, the
clock having been high before. -/
def risingData (p : Params) : Bool → List Word → List Bool
  | _, [] => []
  | high, w :: rest =>
    let scl := w.getLsbD p.sermap.scl.val
    if scl && !high then w.getLsbD p.sermap.sdaOut.val :: risingData p scl rest else risingData p scl rest

/-- The `SER_STAT` words of a peer that drives the given levels. -/
def peerWords (p : Params) (levels : List Bool) : List Word := levels.map fun d => lineBit d p.sermap.sdaIn

end Sys2Proof.Machine
end

