-- ==== Sys2Proof/Certificates/Slice0/Obligations.lean ====
section
/-! DEFINITION. The statements for the provers. Each names the rules of spec/ it follows; "the model's" marks what rests on a
log entry. -/

open Sys2Proof Sys2Proof.Machine

/-! ## Encoding and the step -/

/-- 30_encoding.md R81 to R83: no bit and no operand of an encoding is dropped. -/
def Obligations.DecodeEncodeRoundTrip : Prop := ∀ i : Instr, i.ModuleFits → decode (encode i) = .ok i

/-- 30_encoding.md R81, R82: each command word has one meaning. -/
def Obligations.DecodedWordIsTheEncoding : Prop :=
  ∀ (c : Call) (i : Instr), decode c = .ok i → i.word = c.cmd ∧ i.ModuleFits

/-- 30_encoding.md R84, (a) to (e), for the oldest call, unless a sequencer moves first. -/
def Obligations.RefusedEncodings : Prop :=
  ∀ (s : State) (c : Call) (rest : List Call), s.calls = c :: rest → (∀ m, s.turns.head? ≠ some (.sequencer m)) →
    (cmdOp c.cmd ∉ tableOpcodes → step s = .refused (.encoding (.unknownOp (cmdOp c.cmd)))) ∧
    (cmdOp c.cmd ∈ tableOpcodes → cmdRsv c.cmd ≠ 0 → step s = .refused (.encoding .reservedNotZero)) ∧
    (cmdOp c.cmd ∈ [0x13#8, 0x50#8] → cmdRsv c.cmd = 0 → cmdMod c.cmd ≠ 0 →
      step s = .refused (.encoding .moduleNotZero)) ∧
    (cmdOp c.cmd ∈ [0x20#8, 0x21#8] → cmdRsv c.cmd = 0 → step s = .refused .callerIssuedInternal) ∧
    (cmdOp c.cmd ∈ tableOpcodes → cmdOp c.cmd ∉ [0x13#8, 0x50#8] → cmdRsv c.cmd = 0 →
      ∃ i, decode c = .ok i ∧ i.module? = some (cmdMod c.cmd).toNat ∧
        (s.moduleCount ≤ (cmdMod c.cmd).toNat → OffsetsOk s.cfg i →
          FailsQuietly i.mnemonic ⟨.invalidArgument, .moduleIndex⟩ { s with calls := rest }
            (exec i { s with calls := rest })))

/-- 30_encoding.md R81, R83: words written out from the table decode to their operations. -/
def Obligations.TableWordsDecode : Prop :=
  decode ⟨0b0000_0001_0000_0011_0000_0000_0000_0000#32, { off := 16, buf := some [7] }⟩ = .ok (.regRead 3 16 (some [7])) ∧
  decode ⟨0b0000_1010_0000_0000_0000_0000_0000_0000#32, { mask := 4 }⟩ = .ok (.csrSetBits 0 4) ∧
  decode ⟨0b0001_0000_1111_1111_0000_0000_0000_0000#32, { b := 0xA5 }⟩ = .ok (.serWriteByte 255 0xA5) ∧
  decode ⟨0b0010_0011_0000_0000_0000_0000_0000_0000#32, { addr := 0x40000, count := 8202 }⟩ =
    .ok (.dspMemRead 0 0x40000 8202 none) ∧
  decode ⟨0b0011_0001_0000_0000_0000_0000_0000_0000#32, { count := 64 }⟩ = .ok (.fifoDrain 0 64 none) ∧
  decode ⟨0b0011_1010_0000_0000_0000_0000_0000_0000#32, { count := 1024 }⟩ = .ok (.extMemClear 0 0 1024) ∧
  decode ⟨0b0100_0011_0000_0000_0000_0000_0000_0000#32, { rev := 9, pattern := 13 }⟩ = .ok (.bootModule 0 9 {} 13) ∧
  decode ⟨0b0101_0001_0000_0001_0000_0000_0000_0000#32, {}⟩ = .ok (.moduleClose 1)

/-- 00_scope.md R6, 30_encoding.md R84 (d): a step given to nobody runs the operation the oldest issued call spells, that call
taken off the queue; one that hangs on a module leaves its sequencer hanging instead (StopsByName). With no call issued the first
sequencer with an enabled step makes it (70_reset_and_hazards.md R287), and with none nothing changes ("the block starts no
activity of its own", R275). The queue and the turns are the model's (log 5, 32). -/
def Obligations.StepRunsDecodedOperation : Prop :=
  (∀ (s : State) (c : Call) (rest : List Call) (i : Instr), s.turns = [] → s.calls = c :: rest → decode c = .ok i →
    (∀ m, i ≠ .hbrRequest m ∧ i ≠ .hbrDone m) →
    exec i { s with calls := rest } ≠ .fault .vendorHang ∨ i.module? = none → step s = exec i { s with calls := rest }) ∧
  (∀ (s : State) (m : Nat), s.turns = [] → s.calls = [] → s.enabled m = true → (∀ k < m, s.enabled k = false) →
    step s = step { s with turns := [.sequencer m] }) ∧
  (∀ s : State, s.turns = [] → s.calls = [] → (∀ m, s.enabled m = false) → step s = .next s)

/-- 00_scope.md R6, R7, 10_state.md R23, 70_reset_and_hazards.md R283, R288: an operation started on its module's sequencer and
moved on by that sequencer's turns, one event a turn, reaches exactly the state that running it whole reaches; after `n` events it
stands where its next event is issued, and nothing but its module's record has changed. The turns, and an event a turn, are the
model's (log 32). -/
def Obligations.SequencerTurnsRunTheOperation : Prop :=
  ∀ (s t : State) (c : Call) (rest : List Call) (i : Instr) (m : Nat) (x : Module) (more : List Turn), s.calls = c :: rest →
    decode c = .ok i → (∀ k, i ≠ .hbrRequest k ∧ i ≠ .hbrDone k) → i.module? = some m → s.module? m = some x →
    x.job = none → exec i { s with calls := rest, turns := more } = .next t →
    Sys2Proof.core.run (t.issued.length + 1)
        { s with turns := .start :: List.replicate t.issued.length (.sequencer m) ++ more } = .next t ∧
    ∀ (n : Nat) (e : Issued), t.issued[n]? = some e →
      ∃ h v, Sys2Proof.core.run (n + 1) { s with turns := .start :: List.replicate n (.sequencer m) ++ more } =
        .next ({ s with calls := rest, turns := more }.putModule m
          { handle := h, pos := .busy e.pos, env := v, job := some ⟨i, ⟨x.handle, x.env⟩, t.issued.take n⟩ })

/-! ## Reset and the invariant -/

/-- 44_discovery.md R246, 70_reset_and_hazards.md R275: before SYS_INIT no system exists, and every module operation fails its
index check. The parameters the source gives a value stand at it (00_scope.md R8; held in the state, log 3); the machine's own
REGMAP is one 20_memory.md R65 admits (log 9). -/
def Obligations.ResetHoldsNoSystem : Prop :=
  State.reset.Inv ∧ State.reset.system = none ∧ State.reset.moduleCount = 0 ∧
    (∀ (i : Instr) (m : Nat), i.module? = some m → (∀ off ∈ i.rawOffset?, offsetOk State.reset.cfg off = true) →
      FailsQuietly i.mnemonic ⟨.invalidArgument, .moduleIndex⟩ State.reset (exec i State.reset)) ∧
    ∀ p, p = State.reset.cfg →
      p.dspBlockWords = 8192 ∧ p.dspSingleMax = 48 ∧ p.dmaWmPolls = 1000 ∧ p.dmaTimeoutMs = 5000 ∧ p.fifoWmPolls = 1000 ∧
      p.extmemClrPolls = 1000 ∧ p.extmemClrDelayNs = 100000 ∧ p.fpgaInitPolls = 100 ∧ p.fpgaInitDelayNs = 200000 ∧
      p.fpgaWordDelayNs = 2000 ∧ p.fpgaAttempts = 10 ∧ p.dspResetHoldNs = 1000000 ∧ p.dspCfgAttempts = 5 ∧
      p.dspKernelWords = 256 ∧ p.dspKernelSubwords = 3 ∧ p.dspPudonePolls = 10 ∧ p.dspPudoneDelayNs = 1000000 ∧
      dspAttempts p = 10 ∧ p.newLayoutMinRev = 11 ∧ p.legacyAdcSerialLimit = 275

/-- 10_state.md R43, 70_reset_and_hazards.md R283, R288: every step keeps the invariant: every module is at rest, or in the midst of
an operation that found it at rest and stands where that operation stands after the events it has issued. -/
def Obligations.StepKeepsInvariant : Prop := ∀ s t : State, s.Inv → step s = .next t → t.Inv

/-- 10_state.md R24, R25, R43, 42_hbr_dma.md R161, and the model's reading of what a request is (log 27, DESIGN CHOICE). After a
step no request is held, no channel is open and no serial transaction stands on any module with no operation in progress; on one
with an operation in progress, the request is held and the channel is open exactly as the events it has issued left them. The trace
of every operation that returns: the writes the rules name as host bus requests and dones alternate and are paired, and every
channel opened is closed by exactly one close sequence. A raw REG_WRITE at the offset of HBR_REQ or HBR_DONE is no such write. -/
def Obligations.StepTraceIsPairedAndClean : Prop :=
  ∀ s t : State, s.Inv → step s = .next t →
    (∀ m x, t.module? m = some x → x.job = none → x.handle.Quiet) ∧
    (∀ m x j, t.module? m = some x → x.job = some j →
      hbrWalk false j.trace = some x.handle.hbrHeld ∧ (dmaWalk .closed j.trace).map ChannelStage.channel = some x.handle.dma) ∧
    (t.last = s.last ∨ (HbrPaired t.issued ∧ DmaClean t.issued)) ∧
    (s.turns = [] → s.calls ≠ [] → (∀ m x, t.module? m = some x → x.job = none ∨ s.module? m = some x) →
      HbrPaired t.issued ∧ DmaClean t.issued)

/-! ## Checks, offline, stops -/

/-- 00_scope.md R12, 60_exceptions.md R263: the index check first, then the argument checks in their order; each fails without
an event and changes no handle, online and offline. -/
def Obligations.ChecksComeFirst : Prop :=
  ∀ (i : Instr) (m : Nat) (s : State), i.module? = some m → OffsetsOk s.cfg i →
    (s.module? m = none → FailsQuietly i.mnemonic ⟨.invalidArgument, .moduleIndex⟩ s (exec i s)) ∧
    (∀ x f, s.module? m = some x → x.pos = .idle → argFailure s.cfg i = some f → FailsQuietly i.mnemonic f s (exec i s))

/-- 00_scope.md R12, 40_register_csr.md R108: offline, an operation whose checks pass returns OK with its offline output, the
buffer unchanged, no event, and no change of state but the observation. -/
def Obligations.OfflineIsSilent : Prop :=
  ∀ (i : Instr) (m : Nat) (s : State) (x : Module), i.module? = some m → OffsetsOk s.cfg i → s.module? m = some x →
    x.pos = .idle → argFailure s.cfg i = none → s.isOffline = true →
    exec i s = .next (finish i.mnemonic { status := .ok, output := offlineOutput i, buf := bufOperand i } [] s)

/-- 40_register_csr.md R100, 44_discovery.md R247: on a closed module every operation but MODULE_CLOSE fails with CLOSED, and
MODULE_CLOSE succeeds; neither issues an event. -/
def Obligations.ClosedModuleFails : Prop :=
  ∀ (i : Instr) (m : Nat) (s : State) (x : Module), i.module? = some m → OffsetsOk s.cfg i → s.module? m = some x →
    x.pos = .idle → argFailure s.cfg i = none → s.isOffline = false → x.handle.win = none →
    (i ≠ .moduleClose m → FailsQuietly i.mnemonic ⟨.invalidArgument, .closed⟩ s (exec i s)) ∧
    (i = .moduleClose m → exec i s = .next (finish .moduleClose { status := .ok } [] s))

/-- 20_memory.md R65, 40_register_csr.md R100, 70_reset_and_hazards.md R283, R285, 93_implementation_defined.md U9: an operation
with a bad offset, raw or of a register it names, is refused before anything else (which registers it names: log 9); a module
whose sequencer is busy gives no move; a vendor call that never returns stops the sequencer, in every operation that reaches it,
and no operation issues more vendor calls than return (log 16). It stops that sequencer alone: the step leaves its module standing
at the call, which no turn moves on, and changes nothing else (00_scope.md R6; log 32). -/
def Obligations.StopsByName : Prop :=
  (∀ (i : Instr) (s : State), (∃ off ∈ offsetsOf s.cfg i, off % 4 ≠ 0 ∨ winBytes s.cfg ≤ off) →
    ∃ off ∈ offsetsOf s.cfg i, (off % 4 ≠ 0 ∨ winBytes s.cfg ≤ off) ∧ exec i s = .refused (.badOffset off)) ∧
  (∀ (i : Instr) (m : Nat) (s : State) (x : Module), i.module? = some m → OffsetsOk s.cfg i → s.module? m = some x →
    x.pos ≠ .idle → exec i s = .refused .sequencerBusy) ∧
  (∀ (s : State) (m : Nat) (x : Module), s.Online m x → windowOk s.cfg = true → x.env.vendorLeft = some 0 →
    exec (.moduleClose m) s = .fault .vendorHang ∧
    (∀ kind port buf count dir, 0 < count → count ≤ bufLen buf →
      exec (.dmaBurst m kind port buf count dir) s = .fault .vendorHang) ∧
    (∀ addr count buf, x.handle.hbrHeld = false → s.cfg.hbrGrantPolls = 0 → 2 ≤ count → count ≤ bufLen buf →
      (0 < count / s.cfg.dspBlockWords ∨ s.cfg.dspSingleMax ≤ count % s.cfg.dspBlockWords) →
      exec (.dspMemRead m addr count buf) s = .fault .vendorHang) ∧
    (∀ count buf vs e, 0 < count → count ≤ bufLen buf → readMany vs.length x.env = (vs, e) →
      PollSeen s.cfg.fifoWmPolls (fun v => decide (count ≤ v.toNat)) vs →
      exec (.fifoDrain m count buf) s = .fault .vendorHang) ∧
    (∀ addr count buf v vs e, 0 < count → count ≤ bufLen buf → readMany (vs.length + 1) x.env = (v :: vs, e) →
      (if s.cfg.extmemWmPolls = 0 then vs = []
        else PollSeen s.cfg.extmemWmPolls (fun v => v &&& s.cfg.extmemWmMask != 0) vs) →
      exec (.extMemRead m addr count buf) s = .fault .vendorHang)) ∧
  (∀ (s : State) (slotMap : List Nat), s.system = none → slotMap.length ≤ s.cfg.maxModules.val → slotMap.Nodup →
    windowOk s.cfg = true → 0 < s.cfg.findLimit → s.disc.vendorLeft = some 0 →
    exec (.sysInit slotMap false) s = .fault .vendorHang) ∧
  (∀ (i : Instr) (m n : Nat) (s t : State) (x : Module), i.module? = some m → s.module? m = some x →
    x.env.vendorLeft = some n → exec i s = .next t → countEvents isVendor t.issued ≤ n) ∧
  (∀ (slotMap : List Nat) (flag : Bool) (n : Nat) (s t : State), s.disc.vendorLeft = some n →
    exec (.sysInit slotMap flag) s = .next t → countEvents isVendor t.issued ≤ n) ∧
  (∀ (s : State) (c : Call) (rest : List Call) (i : Instr) (m : Nat) (x : Module), s.turns = [] → s.calls = c :: rest →
    decode c = .ok i → (∀ k, i ≠ .hbrRequest k ∧ i ≠ .hbrDone k) → i.module? = some m → s.module? m = some x →
    exec i { s with calls := rest } = .fault .vendorHang →
    ∃ h pos e t u, u = { s with calls := rest }.putModule m
        { handle := h, pos := .busy pos, env := e, job := some ⟨i, ⟨x.handle, x.env⟩, t⟩ } ∧
      step s = .next u ∧ e.vendorLeft = some 0 ∧ u.enabled m = false ∧
      (∀ q, step { u with turns := .sequencer m :: q } = .next { u with turns := q }) ∧
      ∀ j, j.module? = some m → OffsetsOk s.cfg j → exec j u = .refused .sequencerBusy)

/-- 70_reset_and_hazards.md R285, R287: on a module nothing stops, every operation whose checks pass completes. -/
def Obligations.ServingModuleCompletes : Prop :=
  ∀ (i : Instr) (m : Nat) (s : State) (x : Module), i.module? = some m → s.Serves m x → OffsetsOk s.cfg i →
    argFailure s.cfg i = none → i ≠ .hbrDone m → ∃ t, exec i s = .next t ∧ t.last.map Observation.op = some i.mnemonic

/-! ## Frames -/

/-- 00_scope.md R6, 60_exceptions.md R268, 20_memory.md R71: an operation on one module, and a step of one module's sequencer, changes
no other module, no system field and no parameter; while the module exists, discovery's environment is untouched. -/
def Obligations.OtherModulesUntouched : Prop :=
  (∀ (m : Nat) (s t : State) (rest : List Turn), s.turns = .sequencer m :: rest → step s = .next t →
    t.cfg = s.cfg ∧ t.calls = s.calls ∧ t.turns = rest ∧ t.disc = s.disc ∧ t.isOffline = s.isOffline ∧
      t.system.isSome = s.system.isSome ∧ t.moduleCount = s.moduleCount ∧ ∀ k, k ≠ m → t.module? k = s.module? k) ∧
  ∀ (i : Instr) (m : Nat) (s t : State), i.module? = some m → exec i s = .next t →
    t.cfg = s.cfg ∧ t.calls = s.calls ∧ t.turns = s.turns ∧ t.isOffline = s.isOffline ∧ t.system.isSome = s.system.isSome ∧
      t.moduleCount = s.moduleCount ∧ (∀ k, k ≠ m → t.module? k = s.module? k) ∧
      (m < s.moduleCount → t.disc = s.disc)

/-- 10_state.md R21, R23 to R27, R39, 60_exceptions.md R270: which fields of its module's handle an operation may change. -/
def Obligations.HandleFrame : Prop :=
  ∀ (i : Instr) (m : Nat) (s t : State) (x y : Module), i.module? = some m → s.module? m = some x → exec i s = .next t →
    t.module? m = some y →
    y.pos = .idle ∧ y.job = x.job ∧ y.env.id = x.env.id ∧ y.handle.slot = x.handle.slot ∧ y.handle.offline = x.handle.offline ∧
    (i.mnemonic ≠ .moduleClose → y.handle.dev = x.handle.dev ∧ y.handle.win = x.handle.win) ∧
    (i.mnemonic ∉ [.bootCommFpga, .bootSpFpga, .bootDsp, .bootModule] → y.handle.boot = x.handle.boot) ∧
    (i.mnemonic ∉ [.serWriteByte, .serReadByte, .serReadSeq] → y.handle.lines = x.handle.lines ∧ y.handle.ser = x.handle.ser) ∧
    (i.mnemonic ∉ [.hbrRequest, .hbrDone] → y.handle.hbrHeld = x.handle.hbrHeld) ∧
    (y.handle.dma = x.handle.dma ∨ y.handle.dma = none) ∧
    (i.mnemonic ∉ [.dmaBurst, .dspMemRead, .fifoDrain, .extMemRead] → y.handle.dma = x.handle.dma)

/-- 20_memory.md R66, R68, 60_exceptions.md R257: whatever the status, the caller's buffer keeps its length and every word the
operation does not read into. On a failing status that the words beyond those are unchanged is the model's reading (log 8,
DEDUCED). -/
def Obligations.BufferFrame : Prop :=
  ∀ (i : Instr) (s t : State), exec i s = .next t →
    t.buf.isSome = (bufOperand i).isSome ∧ bufLen t.buf = bufLen (bufOperand i) ∧
      (bufWords t.buf).drop (readsInto i) = (bufWords (bufOperand i)).drop (readsInto i)

/-- 10_state.md R31, 20_memory.md R65, 60_exceptions.md R268, 44_discovery.md R242: every window access is at an admitted
offset; one the rules name is at that register's offset and in its direction; and it goes to the operation's own module, or
to a probe for SYS_INIT. -/
def Obligations.WindowAccessesAreAllowed : Prop :=
  ∀ (i : Instr) (s t : State), exec i s = .next t → ∀ e ∈ t.issued,
    accessAllowed s.cfg e = true ∧
      ∀ w, windowOf e.event = some w →
        match i.module? with
        | some m => w = .module m
        | none => ∃ j, w = .probe j

/-- 00_scope.md R7, 60_exceptions.md R268: the outcome on one module, the observation and that module's record afterwards
depend on the parameters, `offline` and that module's record alone. -/
def Obligations.OutcomeDependsOnOwnModule : Prop :=
  ∀ (i : Instr) (m : Nat) (s s' : State) (x : Module), i.module? = some m → s.module? m = some x → s'.module? m = some x →
    s'.cfg = s.cfg → s'.isOffline = s.isOffline →
    match exec i s, exec i s' with
    | .next t, .next t' => t'.last = t.last ∧ t'.module? m = t.module? m
    | .fault f, .fault f' => f = f'
    | .refused r, .refused r' => r = r'
    | _, _ => False

/-- 00_scope.md R6, 60_exceptions.md R268, 20_memory.md R71: the sequencers of different modules are independent. Steps of two of them
commute, but for which observation stands last; so do a step of one and an operation on another; and operations on different modules
commute, each giving its own observation in either order. -/
def Obligations.ModuleOperationsCommute : Prop :=
  (∀ (m n : Nat) (s a : State) (rest : List Turn), m ≠ n →
    Sys2Proof.core.run 2 { s with turns := .sequencer m :: .sequencer n :: rest } = .next a →
    ∃ b, Sys2Proof.core.run 2 { s with turns := .sequencer n :: .sequencer m :: rest } = .next b ∧
      { b with last := a.last } = a) ∧
  (∀ (m n : Nat) (j : Instr) (s a b : State) (rest : List Turn), m ≠ n → j.module? = some n →
    step { s with turns := .sequencer m :: rest } = .next a → exec j { s with turns := rest } = .next b →
    ∃ ab ba, exec j a = .next ab ∧ step { b with turns := .sequencer m :: rest } = .next ba ∧
      { ba with last := ab.last } = ab ∧ ab.last = b.last) ∧
  ∀ (i j : Instr) (m n : Nat) (s a b : State), i.module? = some m → j.module? = some n → m ≠ n → m < s.moduleCount →
    n < s.moduleCount → exec i s = .next a → exec j s = .next b →
    ∃ ab ba, exec j a = .next ab ∧ exec i b = .next ba ∧ ab.system = ba.system ∧ ab.disc = ba.disc ∧ ab.calls = ba.calls ∧
      ab.turns = ba.turns ∧ ab.cfg = ba.cfg ∧ ab.last = b.last ∧ ba.last = a.last

/-! ## Register bus and CSR -/

/-- 40_register_csr.md R101, R102: REG_READ is one read, its word the output and `buf[0]`, every other word of the buffer
unchanged; REG_WRITE is one write of the word and nothing else. -/
def Obligations.RegisterBusAccesses : Prop :=
  ∀ (s : State) (m : Nat) (x : Module) (off : Nat) (old val : Word) (rest : List Word), s.Online m x → off % 4 = 0 →
    off < winBytes s.cfg →
    exec (.regRead m off (some (old :: rest))) s =
      .next (finish .regRead
        { status := .ok, output := .word (envRead x.env).1, buf := some ((envRead x.env).1 :: rest) }
        (issuedAt (startPos .regRead) [(none, .rd (.module m) off (envRead x.env).1)])
        (s.putModule m { x with env := (envRead x.env).2 })) ∧
    exec (.regWrite m off val) s =
      .next (finish .regWrite { status := .ok } (issuedAt (startPos .regWrite) [(none, .wr (.module m) off val)]) s)

/-- 40_register_csr.md R103, 42_hbr_dma.md R165: CSR_READ and FIFO_READ_WM are one read of their register. -/
def Obligations.CsrAndWatermarkReads : Prop :=
  ∀ (s : State) (m : Nat) (x : Module) (old : Word) (rest : List Word), s.Online m x → windowOk s.cfg = true →
    exec (.csrRead m (some (old :: rest))) s =
      .next (finish .csrRead
        { status := .ok, output := .word (envRead x.env).1, buf := some ((envRead x.env).1 :: rest) }
        (issuedAt (startPos .csrRead) [rdEvent s.cfg m .csr (envRead x.env).1])
        (s.putModule m { x with env := (envRead x.env).2 })) ∧
    exec (.fifoReadWm m (some (old :: rest))) s =
      .next (finish .fifoReadWm
        { status := .ok, output := .word (envRead x.env).1, buf := some ((envRead x.env).1 :: rest) }
        (issuedAt (startPos .fifoReadWm) [rdEvent s.cfg m .extfifoWm (envRead x.env).1])
        (s.putModule m { x with env := (envRead x.env).2 }))

/-- 40_register_csr.md R104 to R106: CSR_WRITE is one write; CSR_SET_BITS and CSR_CLEAR_BITS read, then write the word with the
mask set or cleared. -/
def Obligations.CsrWritesAndModifies : Prop :=
  ∀ (s : State) (m : Nat) (x : Module) (w : Word), s.Online m x → windowOk s.cfg = true →
    exec (.csrWrite m w) s =
      .next (finish .csrWrite { status := .ok } (issuedAt (startPos .csrWrite) [wrEvent s.cfg m .csr w]) s) ∧
    exec (.csrSetBits m w) s =
      .next (finish .csrSetBits { status := .ok }
        (issuedAt (startPos .csrSetBits)
          [rdEvent s.cfg m .csr (envRead x.env).1, wrEvent s.cfg m .csr ((envRead x.env).1 ||| w)])
        (s.putModule m { x with env := (envRead x.env).2 })) ∧
    exec (.csrClearBits m w) s =
      .next (finish .csrClearBits { status := .ok }
        (issuedAt (startPos .csrClearBits)
          [rdEvent s.cfg m .csr (envRead x.env).1, wrEvent s.cfg m .csr ((envRead x.env).1 &&& ~~~w)])
        (s.putModule m { x with env := (envRead x.env).2 }))

/-- 40_register_csr.md R107. -/
def Obligations.CsrModifyReadsThenWrites : Prop :=
  (∀ (set clr : Word) (sc : Scope) (c : Ctx), windowOk sc.cfg = true →
    csrModify set clr sc c =
      .ok () { c with env := (envRead c.env).2 }
        (stepOf sc c (some .csr) (.rd sc.who (regOffset sc.cfg .csr) (envRead c.env).1) ++
          stepOf sc { c with env := (envRead c.env).2 } (some .csr)
            (.wr sc.who (regOffset sc.cfg .csr) (((envRead c.env).1 &&& ~~~clr) ||| set)))) ∧
  (∀ (set clr v : Word) (k : Nat), k < 32 →
    (csrMerge set clr v).getLsbD k =
      (if set.getLsbD k then true else if clr.getLsbD k then false else v.getLsbD k)) ∧
  (∀ (f : CsrMap → Fin 32) (sc : Scope) (c : Ctx),
    csrSet f sc c = csrModify (1#32 <<< (f sc.cfg.csrmap).val) 0 sc c ∧
      csrClear f sc c = csrModify 0 (1#32 <<< (f sc.cfg.csrmap).val) sc c)

/-! ## Polls and statuses -/

/-- 42_hbr_dma.md R152. -/
def Obligations.PollIsBounded : Prop :=
  ∀ (place : Nat → Place → Place) (r : Reg) (pred : Word → Bool) (n d : Nat) (sc : Scope) (c : Ctx),
    windowOk sc.cfg = true →
    ∃ a c' steps t, pollUntil place r pred n d sc c = .ok a c' steps ∧ t = shown steps ∧ c'.handle = c.handle ∧
      (∀ e ∈ t, e.event = .sleep d ∨ (e.reg = some r ∧ isRead e.event = true)) ∧
      match a with
      | some (i, v) =>
        1 ≤ i ∧ i ≤ n ∧ pred v = true ∧ (∃ vs, wordsFrom r t = vs ++ [v] ∧ vs.length + 1 = i ∧ ∀ w ∈ vs, pred w = false) ∧
          countEvents isRead t = i ∧ countEvents isSleep t = (if d > 0 then i - 1 else 0)
      | none =>
        (∀ w ∈ wordsFrom r t, pred w = false) ∧ (wordsFrom r t).length = n ∧ countEvents isRead t = n ∧
          countEvents isSleep t = (if d > 0 then n else 0)

/-- 30_encoding.md R86 to R88: the codes, and that they are negative for failures and distinct. -/
def Obligations.StatusCodesOfTheTable : Prop :=
  statusCode .ok = 0 ∧
  (∀ f : Failure, statusCode (.fail f) = -(10 * (siteCode f.site : Int) + (categoryCode f.category : Int))) ∧
  [Category.invalidArgument, .protocolTimeout, .resourceFailure, .dataIntegrityFailure, .hardwareBusyOrStuck].map
    categoryCode = [1, 2, 3, 4, 5] ∧
  [Site.moduleIndex, .buffer, .count, .pattern, .closed, .system, .serAck, .hbrGrant, .dspBlock, .dspRemainder, .dmaOpen,
    .dmaWatermark, .dmaTransfer, .dmaClose, .fifoWatermark, .fifoBurst, .extmemRead, .extmemWatermark, .extmemClear].map
    siteCode = [1, 2, 3, 4, 5, 6, 10, 20, 21, 22, 30, 31, 32, 33, 40, 41, 50, 51, 52] ∧
  [Site.fwSizeComm, .fwSizeSp, .commFpga, .spFpgaA, .spFpgaB, .dspCfg, .dspPudone, .dspTag, .dspStream, .find, .openDev, .map,
    .slotRead, .matchSlot].map siteCode = [60, 61, 62, 63, 64, 65, 66, 67, 68, 70, 71, 72, 73, 74] ∧
  (∀ f : Failure, statusCode (.fail f) < 0) ∧ (∀ a b : Status, statusCode a = statusCode b → a = b)

/-! ## Serial bus -/

/-- 41_serial_bus.md R126, R130, with R120 to R125: the line words, the samples, the counts, the phases, the acknowledge, the
handle. The acknowledge's polarity is the spec's general knowledge (G1, log 22). -/
def Obligations.SerialWriteFrame : Prop :=
  ∀ (s : State) (m : Nat) (x : Module) (b : Byte), s.Online m x → windowOk s.cfg = true →
    ∃ t, exec (.serWriteByte m b) s = .next t ∧ t.status = some .ok ∧
      t.output = some (.ack (decide (isLow s.cfg (envRead x.env).1))) ∧
      t.module? m = some { x with
        handle := { x.handle with lines := ⟨true, true, true⟩, ser := none }, env := (envRead x.env).2 } ∧
      wordsTo .serCtrl t.issued = (serWriteLines b).map (lineWord s.cfg) ∧
      wordsFrom .serStat t.issued = [(envRead x.env).1] ∧
      countEvents isWrite t.issued = 32 ∧ countEvents isRead t.issued = 1 ∧ countEvents isSleep t.issued = 33 ∧
      t.issued.length = 66 ∧
      phasesOf t.issued =
        ([SerPhase.start] ++ [7, 6, 5, 4, 3, 2, 1, 0].map SerPhase.bitLoop ++ [SerPhase.release, .ackWait, .stop]).map
          fun q => .running .serWriteByte (.serial q) []

/-- 41_serial_bus.md R126, R131, with R120 to R125: the line words, the eight samples, the byte, the buffer, the phases, the
handle. -/
def Obligations.SerialReadFrame : Prop :=
  ∀ (s : State) (m : Nat) (x : Module) (old : Word) (rest : List Word), s.Online m x → windowOk s.cfg = true →
    ∃ t b, exec (.serReadByte m (some (old :: rest))) s = .next t ∧ t.status = some .ok ∧
      SampledByte s.cfg (readMany 8 x.env).1 b ∧ t.output = some (.byte b) ∧ t.buf = some (b.setWidth 32 :: rest) ∧
      t.module? m = some { x with
        handle := { x.handle with lines := ⟨true, true, true⟩, ser := none }, env := (readMany 8 x.env).2 } ∧
      wordsTo .serCtrl t.issued = (serReadLines s.cfg.acksendSda).map (lineWord s.cfg) ∧
      wordsFrom .serStat t.issued = (readMany 8 x.env).1 ∧
      countEvents isWrite t.issued = 24 ∧ countEvents isRead t.issued = 8 ∧ countEvents isSleep t.issued = 32 ∧
      t.issued.length = 64 ∧
      phasesOf t.issued =
        ([SerPhase.start] ++ [7, 6, 5, 4, 3, 2, 1, 0].map SerPhase.bitLoop ++ [SerPhase.ackSend, .stop]).map
          fun q => .running .serReadByte (.serial q) []

/-- 41_serial_bus.md R132: with every byte of the prefix acknowledged, the line words are the frames of the prefix's bytes and
then of the reads, and the bytes read are in the buffer, each from its own eight samples; at the first byte not acknowledged
(G1, log 22) the sequence ends after that byte's frame with SER_ACK, the buffer unchanged. Either way the lines are left at the
levels of Stop, if a byte was transferred, and no transaction stands. -/
def Obligations.SerialSequence : Prop :=
  ∀ (s : State) (m : Nat) (x : Module) (lead : List Byte) (n : Nat) (buf : Buf), s.Online m x → windowOk s.cfg = true →
    n ≤ bufLen buf →
    ((∀ v ∈ (readMany lead.length x.env).1, isLow s.cfg v) →
      ∃ t, exec (.serReadSeq m lead n buf) s = .next t ∧ t.status = some .ok ∧
        t.output = some (.words ((bufWords t.buf).take n)) ∧ bufLen t.buf = bufLen buf ∧
        (bufWords t.buf).drop n = (bufWords buf).drop n ∧
        (∀ i < n, ∃ b : Byte, (bufWords t.buf)[i]? = some (b.setWidth 32) ∧
          SampledByte s.cfg ((readMany (lead.length + 8 * n) x.env).1.drop (lead.length + 8 * i)) b) ∧
        t.module? m = some { x with
          handle := (if lead = [] ∧ n = 0 then x.handle
            else { x.handle with lines := ⟨true, true, true⟩, ser := none }),
          env := (readMany (lead.length + 8 * n) x.env).2 } ∧
        wordsTo .serCtrl t.issued = (lead.flatMap serWriteLines ++
          (List.replicate n (serReadLines s.cfg.acksendSda)).flatten).map (lineWord s.cfg) ∧
        wordsFrom .serStat t.issued = (readMany (lead.length + 8 * n) x.env).1 ∧
        countEvents isWrite t.issued = 32 * lead.length + 24 * n ∧
        countEvents isRead t.issued = lead.length + 8 * n ∧ countEvents isSleep t.issued = 33 * lead.length + 32 * n) ∧
    (∀ j < lead.length, (∀ v ∈ (readMany j x.env).1, isLow s.cfg v) → ¬ isLow s.cfg (envRead (readMany j x.env).2).1 →
      ∃ t, exec (.serReadSeq m lead n buf) s = .next t ∧ t.status = some (.fail ⟨.protocolTimeout, .serAck⟩) ∧
        t.buf = buf ∧
        t.module? m = some { x with
          handle := { x.handle with lines := ⟨true, true, true⟩, ser := none }, env := (readMany (j + 1) x.env).2 } ∧
        wordsTo .serCtrl t.issued = ((lead.take (j + 1)).flatMap serWriteLines).map (lineWord s.cfg) ∧
        wordsFrom .serStat t.issued = (readMany (j + 1) x.env).1 ∧
        countEvents isWrite t.issued = 32 * (j + 1) ∧ countEvents isRead t.issued = j + 1 ∧
        countEvents isSleep t.issued = 33 * (j + 1))

/-- 41_serial_bus.md R134: a peer that answers with the levels it clocked in gets its byte back. -/
def Obligations.SerialRoundTrip : Prop :=
  ∀ (s t : State) (m : Nat) (x y : Module) (b : Byte) (old : Word) (rest more : List Word), s.Online m x →
    windowOk s.cfg = true → linesDistinct s.cfg = true → exec (.serWriteByte m b) s = .next t → t.module? m = some y →
    y.env.reads = peerWords s.cfg ((risingData s.cfg true (wordsTo .serCtrl t.issued)).take 8) ++ more →
    ∃ u, exec (.serReadByte m (some (old :: rest))) t = .next u ∧ u.status = some .ok ∧ u.output = some (.byte b) ∧
      u.buf = some (b.setWidth 32 :: rest)

/-- 41_serial_bus.md R133: serial number low byte first, the two thresholds, the fixed ADC description; too few bytes fail;
no state but the observation changes. -/
def Obligations.IdDecodeResult : Prop :=
  (∀ (s : State) (bytes : List Byte), bytes.length < 3 →
    exec (.idDecode bytes) s = .next (finish .idDecode { status := .fail ⟨.invalidArgument, .count⟩ } [] s)) ∧
  (∀ (s : State) (b0 b1 b2 : Byte) (more : List Byte) (serial : Nat) (layout : Layout),
    serial = b0.toNat + 256 * b1.toNat →
    layout = (if s.cfg.newLayoutMinRev ≤ b2.toNat then Layout.new else Layout.old) →
    (serial < s.cfg.legacyAdcSerialLimit →
      exec (.idDecode (b0 :: b1 :: b2 :: more)) s =
        .next (finish .idDecode { status := .ok, output := .ident serial b2.toNat layout ⟨12, 100⟩ } [] s)) ∧
    (s.cfg.legacyAdcSerialLimit ≤ serial → ∀ a, adcOf s.cfg layout more = .adc a →
      exec (.idDecode (b0 :: b1 :: b2 :: more)) s =
        .next (finish .idDecode { status := .ok, output := .ident serial b2.toNat layout a } [] s)) ∧
    (s.cfg.legacyAdcSerialLimit ≤ serial → ∀ f, adcOf s.cfg layout more = .fail f →
      exec (.idDecode (b0 :: b1 :: b2 :: more)) s = .next (finish .idDecode { status := .fail f } [] s)))

/-! ## HBR and processor memory -/

/-- 42_hbr_dma.md R150, R151, without grant polls: one write each, and the request held or released; a request while one is
held and a done while none is held are the model faults of 60_exceptions.md R261. exec gives these operations their effect;
`step` refuses them from a caller (log 15). -/
def Obligations.HbrRequestAndDone : Prop :=
  (∀ (s : State) (m : Nat) (x : Module), s.Online m x → windowOk s.cfg = true → x.handle.hbrHeld = false →
    s.cfg.hbrGrantPolls = 0 →
    exec (.hbrRequest m) s =
      .next (finish .hbrRequest { status := .ok }
        (issuedAt (startPos .hbrRequest) [wrEvent s.cfg m .hbrReq s.cfg.hbrReqVal])
        (s.putModule m { x with handle := { x.handle with hbrHeld := true } }))) ∧
  (∀ (s : State) (m : Nat) (x : Module), s.Online m x → windowOk s.cfg = true → x.handle.hbrHeld = true →
    exec (.hbrDone m) s =
      .next (finish .hbrDone { status := .ok }
        (issuedAt (startPos .hbrDone) [wrEvent s.cfg m .hbrDone s.cfg.hbrDoneVal])
        (s.putModule m { x with handle := { x.handle with hbrHeld := false } }))) ∧
  (∀ (s : State) (m : Nat) (x : Module), s.Online m x → windowOk s.cfg = true →
    (x.handle.hbrHeld = true → exec (.hbrRequest m) s = .fault .hbrNested) ∧
    (x.handle.hbrHeld = false → exec (.hbrDone m) s = .fault .hbrUnpaired))

/-- 42_hbr_dma.md R150, with grant polls: granted at some read within the bound, or timed out and released. -/
def Obligations.HbrRequestPollsForGrant : Prop :=
  ∀ (s : State) (m : Nat) (x : Module), s.Online m x → windowOk s.cfg = true → x.handle.hbrHeld = false →
    0 < s.cfg.hbrGrantPolls →
    (∀ bad v e, readMany (bad.length + 1) x.env = (bad ++ [v], e) → bad.length < s.cfg.hbrGrantPolls →
      (∀ w ∈ bad, w &&& s.cfg.hbrGrantMask ≠ s.cfg.hbrGrantMask) → v &&& s.cfg.hbrGrantMask = s.cfg.hbrGrantMask →
      Answers (exec (.hbrRequest m) s) s .hbrRequest m { x with handle := { x.handle with hbrHeld := true }, env := e }
        { status := .ok }
        ([wrEvent s.cfg m .hbrReq s.cfg.hbrReqVal] ++ pollEvents s.cfg m .hbrStat s.cfg.hbrGrantDelayNs bad ++
          [rdEvent s.cfg m .hbrStat v])) ∧
    (∀ bad e, readMany s.cfg.hbrGrantPolls x.env = (bad, e) →
      (∀ w ∈ bad, w &&& s.cfg.hbrGrantMask ≠ s.cfg.hbrGrantMask) →
      Answers (exec (.hbrRequest m) s) s .hbrRequest m { x with env := e }
        { status := .fail ⟨.protocolTimeout, .hbrGrant⟩ }
        ([wrEvent s.cfg m .hbrReq s.cfg.hbrReqVal] ++ pollEvents s.cfg m .hbrStat s.cfg.hbrGrantDelayNs bad ++
          [wrEvent s.cfg m .hbrDone s.cfg.hbrDoneVal]))

/-- 42_hbr_dma.md R153: under one request (which, without grant polls, succeeds), the CSR read-modify-write, the address, the
words, the done; a request that fails ends it with the request's status. -/
def Obligations.DspWriteUnderOneRequest : Prop :=
  ∀ (s : State) (m : Nat) (x : Module) (addr : Word) (count : Nat) (buf : Buf), s.Serves m x → 0 < count →
    count ≤ bufLen buf →
    ∃ r y, exec (.hbrRequest m) s = .next r ∧ r.module? m = some y ∧
      (s.cfg.hbrGrantPolls = 0 → r.status = some .ok) ∧
      ((r.status = some .ok ∧
        Answers (exec (.dspMemWrite m addr count buf) s) s .dspMemWrite m { x with env := (envRead y.env).2 }
          { status := .ok, buf := buf }
          (r.events ++ csrEvents s.cfg m (envRead y.env).1 0 (1#32 <<< s.cfg.csrmap.autoIncDisable.val) ++
            [wrEvent s.cfg m .dspAddr addr] ++ ((bufWords buf).take count).map (wrEvent s.cfg m .dspData) ++
            [wrEvent s.cfg m .hbrDone s.cfg.hbrDoneVal])) ∨
       (∃ f, r.status = some (.fail f) ∧
        Answers (exec (.dspMemWrite m addr count buf) s) s .dspMemWrite m { x with env := y.env }
          { status := .fail f, buf := buf } r.events))

/-- 42_hbr_dma.md R154, the one-word path. After a failed request the buffer's word is unspecified (log 8). -/
def Obligations.DspReadOneWord : Prop :=
  ∀ (s : State) (m : Nat) (x : Module) (addr old : Word) (rest : List Word), s.Serves m x →
    ∃ r y, exec (.hbrRequest m) s = .next r ∧ r.module? m = some y ∧
      (s.cfg.hbrGrantPolls = 0 → r.status = some .ok) ∧
      ((r.status = some .ok ∧
        Answers (exec (.dspMemRead m addr 1 (some (old :: rest))) s) s .dspMemRead m { x with env := (envRead y.env).2 }
          { status := .ok, buf := some ((envRead y.env).1 :: rest) }
          (r.events ++ [wrEvent s.cfg m .dspAddr addr, rdEvent s.cfg m .dspData (envRead y.env).1,
            wrEvent s.cfg m .hbrDone s.cfg.hbrDoneVal])) ∨
       (∃ f b e, r.status = some (.fail f) ∧
        Answers (exec (.dspMemRead m addr 1 (some (old :: rest))) s) s .dspMemRead m { x with env := e }
          { status := .fail f, buf := b } r.events))

/-- 42_hbr_dma.md R154, R156: a read of a few words, in remainder mode `autoinc`, is one single-word-path call under one
request; a request that fails is re-sited to DSP_REMAINDER. -/
def Obligations.DspReadFewWords : Prop :=
  ∀ (s : State) (m : Nat) (x : Module) (addr : Word) (count : Nat) (ws : List Word), s.Serves m x → 2 ≤ count →
    count < s.cfg.dspSingleMax → count < s.cfg.dspBlockWords → count ≤ ws.length → s.cfg.remainderMode = .autoinc →
    ∃ r y, exec (.hbrRequest m) s = .next r ∧ r.module? m = some y ∧
      (s.cfg.hbrGrantPolls = 0 → r.status = some .ok) ∧
      ((r.status = some .ok ∧
        Answers (exec (.dspMemRead m addr count (some ws)) s) s .dspMemRead m
          { x with env := (readMany count (envRead y.env).2).2 }
          { status := .ok, buf := some ((readMany count (envRead y.env).2).1 ++ ws.drop count) }
          (r.events ++ csrEvents s.cfg m (envRead y.env).1 0 (1#32 <<< s.cfg.csrmap.autoIncDisable.val) ++
            [wrEvent s.cfg m .dspAddr addr] ++
            (readMany count (envRead y.env).2).1.map (rdEvent s.cfg m .dspData) ++
            [wrEvent s.cfg m .hbrDone s.cfg.hbrDoneVal])) ∨
       (∃ f b e, r.status = some (.fail f) ∧
        Answers (exec (.dspMemRead m addr count (some ws)) s) s .dspMemRead m { x with env := e }
          { status := .fail ⟨f.category, .dspRemainder⟩, buf := b } r.events))

/-- 42_hbr_dma.md R154 to R157, 60_exceptions.md R262. A successful read of two words or more is its full blocks, one burst each
at its address, and its remainder: a burst, or the single-word path; the words the bursts deliver and then the words the
single-word path reads are in the buffer, in order. On every status the read is the operations it is made of, one after the
other: a block that fails ends it, with that block's category at DSP_BLOCK and nothing read after it; a remainder that fails
gives its category at DSP_REMAINDER. -/
def Obligations.DspReadSplitsIntoBlocks : Prop :=
  (∀ (s t : State) (m : Nat) (x : Module) (addr : Word) (count nb r : Nat) (buf : Buf), s.Online m x → 2 ≤ count →
    exec (.dspMemRead m addr count buf) s = .next t → t.status = some .ok → nb = count / s.cfg.dspBlockWords →
    r = count % s.cfg.dspBlockWords →
    countEvents isDmaOpen t.issued = nb + (if 0 < r ∧ s.cfg.dspSingleMax ≤ r then 1 else 0) ∧
    xferBytes t.issued =
      List.replicate nb (4 * s.cfg.dspBlockWords) ++ (if 0 < r ∧ s.cfg.dspSingleMax ≤ r then [4 * r] else []) ∧
    wordsTo .dspAddr t.issued =
      (List.range nb).map (fun k => addr + BitVec.ofNat 32 (k * s.cfg.dspBlockWords)) ++
        (if r = 0 then []
        else if r < s.cfg.dspSingleMax ∧ s.cfg.remainderMode = .perword then
          (List.range r).map fun k => addr + BitVec.ofNat 32 (nb * s.cfg.dspBlockWords) + BitVec.ofNat 32 k
        else [addr + BitVec.ofNat 32 (nb * s.cfg.dspBlockWords)]) ∧
    (wordsFrom .dspData t.issued).length = (if r < s.cfg.dspSingleMax then r else 0) ∧
    ∀ (ds : List (List Word)) (more : List XferAnswer), x.env.xfers = ds.map (fun d => ⟨.ok, d⟩) ++ more →
      ds.map List.length = List.replicate nb s.cfg.dspBlockWords ++ (if 0 < r ∧ s.cfg.dspSingleMax ≤ r then [r] else []) →
      t.buf = buf.map fun ws => ds.flatten ++ wordsFrom .dspData t.issued ++ ws.drop count) ∧
  (∀ (s : State) (m : Nat) (x : Module) (addr : Word) (count : Nat) (ws : List Word), s.Serves m x → 2 ≤ count →
    count ≤ ws.length →
    ∃ t res es u, exec (.dspMemRead m addr count (some ws)) s = .next t ∧ ranRead m addr count ws s = some (res, es, u) ∧
      t.trace = es ∧
      match res with
      | .ok got => t.status = some .ok ∧ t.buf = some (got ++ ws.drop count) ∧ t.system = u.system
      | .error f =>
        t.status = some (.fail f) ∧ (f.site = .dspBlock ∨ f.site = .dspRemainder) ∧
          (t.module? m).map Module.handle = (u.module? m).map Module.handle)

/-! ## DMA bursts -/

/-- 42_hbr_dma.md R160. -/
def Obligations.CloseRetriesOnce : Prop :=
  ∀ (ch : Channel) (sc : Scope) (c : Ctx), c.env.vendorLeft = none →
    ((envClose c.env).1 = .ok →
      closeChannel ch sc c = .ok (.ok ()) ⟨{ c.handle with dma := none }, (envClose c.env).2⟩
        (stepOf sc c none (.dmaClose ch .ok))) ∧
    ((envClose c.env).1 ≠ .ok →
      closeChannel ch sc c =
        .ok
          (match (envClose (envClose c.env).2).1 with
            | .ok => .ok ()
            | .inProgress => .error ⟨.hardwareBusyOrStuck, .dmaClose⟩
            | .error => .error ⟨.resourceFailure, .dmaClose⟩)
          ⟨{ c.handle with dma := none }, (envClose (envClose c.env).2).2⟩
          (stepOf sc c none (.dmaClose ch (envClose c.env).1) ++
            stepOf sc { c with env := (envClose c.env).2 } none (.devReset c.handle.dev) ++
            stepOf sc { c with env := (envClose c.env).2 } none (.dmaClose ch (envClose (envClose c.env).2).1)))

/-- 42_hbr_dma.md R158: for every kind, a failed open ends a burst, without priming, transfer or close. For external memory and
FIFO there is no priming: after an open, one transfer and one close sequence, and the first failure is the status; on success to
the host the words delivered are in the buffer. -/
def Obligations.DmaBurstTransfersAndCloses : Prop :=
  ∀ (s : State) (m : Nat) (x : Module) (kind : Kind) (port : Reg) (ws : List Word) (count : Nat) (dir : Dir),
    s.Serves m x → 0 < count → count ≤ ws.length →
    ((envDmaOpen x.env).1 = none →
      ∃ b e, (dir = .toModule → b = some ws ∧ e = (envDmaOpen x.env).2) ∧
        Answers (exec (.dmaBurst m kind port (some ws) count dir) s) s .dmaBurst m { x with env := e }
          { status := .fail ⟨.resourceFailure, .dmaOpen⟩, buf := b } [dmaOpenEvent s.cfg x.handle.dev none]) ∧
    (∀ ch o a, kind ≠ .dsp → envDmaOpen x.env = (some ch, o) → envXfer o = a →
      BurstEnds s m x port ws count dir ch [] a (exec (.dmaBurst m kind port (some ws) count dir) s))

/-- 42_hbr_dma.md R158, R159 for processor memory: the count is written and the watermark polled between open and transfer. Once
the watermark is seen the burst ends as any other, whatever its transfer and its close answer; where all succeed, the next state
is given whole. A watermark that never comes is the status, whatever the close answers, after the close sequence and without a
transfer. -/
def Obligations.DmaBurstPrimesProcessorMemory : Prop :=
  ∀ (s : State) (m : Nat) (x : Module) (port : Reg) (ws : List Word) (count : Nat) (dir : Dir) (ch : Channel)
    (o : Env), s.Serves m x → 0 < count → count ≤ ws.length → envDmaOpen x.env = (some ch, o) →
    (∀ bad v e, readMany (bad.length + 1) o = (bad ++ [v], e) → bad.length < s.cfg.dmaWmPolls →
      (∀ w ∈ bad, w &&& s.cfg.dmaWmMask = 0) → v &&& s.cfg.dmaWmMask ≠ 0 →
      (∀ a, envXfer e = a →
        BurstEnds s m x port ws count dir ch
          ([wrEvent s.cfg m .dmaCtrl (countWord count)] ++ pollEvents s.cfg m .dmaStat s.cfg.dmaWmDelayNs bad ++
            [rdEvent s.cfg m .dmaStat v]) a (exec (.dmaBurst m .dsp port (some ws) count dir) s)) ∧
      (∀ data e₂ e₃, envXfer e = (⟨.ok, data⟩, e₂) → data.length = count → envClose e₂ = (.ok, e₃) →
        Answers (exec (.dmaBurst m .dsp port (some ws) count dir) s) s .dmaBurst m
          { x with handle := { x.handle with dma := none }, env := e₃ }
          { status := .ok, buf := some (if dir = .toHost then data ++ ws.drop count else ws) }
          ([dmaOpenEvent s.cfg x.handle.dev (some ch), wrEvent s.cfg m .dmaCtrl (countWord count)] ++
            pollEvents s.cfg m .dmaStat s.cfg.dmaWmDelayNs bad ++ [rdEvent s.cfg m .dmaStat v] ++
            [dmaXferEvent s.cfg ch dir port ws count .ok, (none, .dmaClose ch .ok)]))) ∧
    (∀ bad e, readMany s.cfg.dmaWmPolls o = (bad, e) → (∀ w ∈ bad, w &&& s.cfg.dmaWmMask = 0) →
      ∃ t, exec (.dmaBurst m .dsp port (some ws) count dir) s = .next t ∧
        t.status = some (.fail ⟨.protocolTimeout, .dmaWatermark⟩) ∧
        t.events =
          [dmaOpenEvent s.cfg x.handle.dev (some ch), wrEvent s.cfg m .dmaCtrl (countWord count)] ++
            pollEvents s.cfg m .dmaStat s.cfg.dmaWmDelayNs bad ++ closeEvents x.handle.dev ch e ∧
        (∃ e₂, t.module? m = some { x with handle := { x.handle with dma := none }, env := e₂ }) ∧
        (dir = .toModule → t.buf = some ws))

/-! ## FIFO and external memory -/

/-- 42_hbr_dma.md R166, 60_exceptions.md R262: a count of 0 drains nothing; a watermark of at least the count is followed by one
burst, whose failure is re-sited to FIFO_BURST; a watermark that never comes opens no channel. -/
def Obligations.FifoDrainWaitsForWatermark : Prop :=
  ∀ (s : State) (m : Nat) (x : Module) (ws : List Word), s.Serves m x →
    (exec (.fifoDrain m 0 (some ws)) s = .next (finish .fifoDrain { status := .ok, buf := some ws } [] s)) ∧
    (∀ count bad v e ch o data e₂ e₃, 0 < count → count ≤ ws.length →
      readMany (bad.length + 1) x.env = (bad ++ [v], e) → bad.length < s.cfg.fifoWmPolls → (∀ w ∈ bad, w.toNat < count) →
      count ≤ v.toNat → envDmaOpen e = (some ch, o) → envXfer o = (⟨.ok, data⟩, e₂) → data.length = count →
      envClose e₂ = (.ok, e₃) →
      Answers (exec (.fifoDrain m count (some ws)) s) s .fifoDrain m
        { x with handle := { x.handle with dma := none }, env := e₃ }
        { status := .ok, buf := some (data ++ ws.drop count) }
        ([wrEvent s.cfg m .extfifoArm (countWord count)] ++ pollEvents s.cfg m .extfifoWm s.cfg.fifoWmDelayNs bad ++
          [rdEvent s.cfg m .extfifoWm v, dmaOpenEvent s.cfg x.handle.dev (some ch),
           dmaXferEvent s.cfg ch .toHost .extfifoData ws count .ok, (none, .dmaClose ch .ok)])) ∧
    (∀ count vs e, 0 < count → count ≤ ws.length → readMany vs.length x.env = (vs, e) →
      PollSeen s.cfg.fifoWmPolls (fun v => decide (count ≤ v.toNat)) vs →
      ∃ r t, exec (.dmaBurst m .fifo .extfifoData (some ws) count .toHost) (s.putModule m { x with env := e }) = .next r ∧
        exec (.fifoDrain m count (some ws)) s = .next t ∧
        t.events = [wrEvent s.cfg m .extfifoArm (countWord count)] ++
          pollTrace s.cfg m .extfifoWm s.cfg.fifoWmDelayNs (fun v => decide (count ≤ v.toNat)) vs ++ r.events ∧
        t.status = r.status.map (resitedStatus .fifoBurst) ∧ t.buf = r.buf ∧ t.module? m = r.module? m) ∧
    (∀ count bad e, 0 < count → count ≤ ws.length → readMany s.cfg.fifoWmPolls x.env = (bad, e) →
      (∀ w ∈ bad, w.toNat < count) →
      ∃ b e₂, Answers (exec (.fifoDrain m count (some ws)) s) s .fifoDrain m { x with env := e₂ }
        { status := .fail ⟨.protocolTimeout, .fifoWatermark⟩, buf := b }
        ([wrEvent s.cfg m .extfifoArm (countWord count)] ++ pollEvents s.cfg m .extfifoWm s.cfg.fifoWmDelayNs bad))

/-- 42_hbr_dma.md R171: the address, then every word, inside the ownership of the external memory. -/
def Obligations.ExtMemWriteTrace : Prop :=
  ∀ (s : State) (m : Nat) (x : Module) (addr : Word) (count : Nat) (buf : Buf) (v w : Word) (e : Env), s.Online m x →
    windowOk s.cfg = true → 0 < count → count ≤ bufLen buf → readMany 2 x.env = ([v, w], e) →
    Answers (exec (.extMemWrite m addr count buf) s) s .extMemWrite m { x with env := e } { status := .ok, buf := buf }
      (csrEvents s.cfg m v (1#32 <<< s.cfg.csrmap.pciExtmem.val) 0 ++ [wrEvent s.cfg m .extmemAddr addr] ++
        ((bufWords buf).take count).map (wrEvent s.cfg m .extmemData) ++
        csrEvents s.cfg m w 0 (1#32 <<< s.cfg.csrmap.pciExtmem.val))

/-- 42_hbr_dma.md R175: every external-memory operation that passes its checks sets the ownership bit first and clears it last,
whatever its status. -/
def Obligations.ExtMemOwnershipOnEveryPath : Prop :=
  ∀ (s t : State) (m : Nat) (x : Module) (i : Instr), s.Online m x → i.module? = some m →
    i.mnemonic ∈ [.extMemWrite, .extMemRead, .extMemClear] → argFailure s.cfg i = none → exec i s = .next t →
    ∃ v w mid, t.events = csrEvents s.cfg m v (1#32 <<< s.cfg.csrmap.pciExtmem.val) 0 ++ mid ++
      csrEvents s.cfg m w 0 (1#32 <<< s.cfg.csrmap.pciExtmem.val) ∧
      (∀ a ∈ mid, ∀ q off u, a ≠ (some .csr, .wr q off u))

/-- 42_hbr_dma.md R172, R175, 60_exceptions.md R262: address, arm, watermark poll (none where EXTMEM_WM_POLLS is 0), one burst,
all inside the ownership; on success the words are in the buffer; a burst that fails is re-sited to EXTMEM_READ, and a watermark
that never comes is EXTMEM_WATERMARK without a burst, the ownership cleared after either. -/
def Obligations.ExtMemReadSucceeds : Prop :=
  (∀ (s : State) (m : Nat) (x : Module) (addr : Word) (count : Nat) (ws bad data : List Word) (v u w : Word) (ch : Channel)
    (e₀ e₁ e₂ e₃ e₄ e₅ : Env), s.Serves m x → 0 < count → count ≤ ws.length → envRead x.env = (v, e₀) →
    readMany (bad.length + 1) e₀ = (bad ++ [u], e₁) → bad.length < s.cfg.extmemWmPolls →
    (∀ z ∈ bad, z &&& s.cfg.extmemWmMask = 0) → u &&& s.cfg.extmemWmMask ≠ 0 → envDmaOpen e₁ = (some ch, e₂) →
    envXfer e₂ = (⟨.ok, data⟩, e₃) → data.length = count → envClose e₃ = (.ok, e₄) → envRead e₄ = (w, e₅) →
    Answers (exec (.extMemRead m addr count (some ws)) s) s .extMemRead m
      { x with handle := { x.handle with dma := none }, env := e₅ }
      { status := .ok, buf := some (data ++ ws.drop count) }
      (csrEvents s.cfg m v (1#32 <<< s.cfg.csrmap.pciExtmem.val) 0 ++
        [wrEvent s.cfg m .extmemAddr addr, wrEvent s.cfg m .extmemFifoArm (countWord count)] ++
        pollEvents s.cfg m .dmaStat s.cfg.extmemWmDelayNs bad ++ [rdEvent s.cfg m .dmaStat u] ++
        [dmaOpenEvent s.cfg x.handle.dev (some ch), dmaXferEvent s.cfg ch .toHost .extmemData ws count .ok,
         (none, .dmaClose ch .ok)] ++ csrEvents s.cfg m w 0 (1#32 <<< s.cfg.csrmap.pciExtmem.val))) ∧
  (∀ (s : State) (m : Nat) (x : Module) (addr : Word) (count : Nat) (ws vs : List Word) (v : Word) (e : Env),
    s.Serves m x → 0 < count → count ≤ ws.length → readMany (vs.length + 1) x.env = (v :: vs, e) →
    (if s.cfg.extmemWmPolls = 0 then vs = []
      else PollSeen s.cfg.extmemWmPolls (fun z => z &&& s.cfg.extmemWmMask != 0) vs) →
    ∃ r t y w, exec (.dmaBurst m .ext .extmemData (some ws) count .toHost) (s.putModule m { x with env := e }) = .next r ∧
      r.module? m = some y ∧ exec (.extMemRead m addr count (some ws)) s = .next t ∧
      t.events = csrEvents s.cfg m v (1#32 <<< s.cfg.csrmap.pciExtmem.val) 0 ++
        [wrEvent s.cfg m .extmemAddr addr, wrEvent s.cfg m .extmemFifoArm (countWord count)] ++
        pollTrace s.cfg m .dmaStat s.cfg.extmemWmDelayNs (fun z => z &&& s.cfg.extmemWmMask != 0) vs ++ r.events ++
        csrEvents s.cfg m w 0 (1#32 <<< s.cfg.csrmap.pciExtmem.val) ∧
      t.status = r.status.map (resitedStatus .extmemRead) ∧ (t.module? m).map Module.handle = some y.handle ∧
      (r.status = some .ok → t.buf = r.buf ∧ w = (envRead y.env).1 ∧ t.module? m = some { y with env := (envRead y.env).2 })) ∧
  (∀ (s : State) (m : Nat) (x : Module) (addr : Word) (count : Nat) (ws vs : List Word) (v w : Word) (e : Env),
    s.Serves m x → 0 < count → count ≤ ws.length → 0 < s.cfg.extmemWmPolls →
    readMany (s.cfg.extmemWmPolls + 2) x.env = (v :: (vs ++ [w]), e) →
    PollMissed s.cfg.extmemWmPolls (fun z => z &&& s.cfg.extmemWmMask != 0) vs →
    ∃ b e₂, Answers (exec (.extMemRead m addr count (some ws)) s) s .extMemRead m { x with env := e₂ }
      { status := .fail ⟨.protocolTimeout, .extmemWatermark⟩, buf := b }
      (csrEvents s.cfg m v (1#32 <<< s.cfg.csrmap.pciExtmem.val) 0 ++
        [wrEvent s.cfg m .extmemAddr addr, wrEvent s.cfg m .extmemFifoArm (countWord count)] ++
        pollTrace s.cfg m .dmaStat s.cfg.extmemWmDelayNs (fun z => z &&& s.cfg.extmemWmMask != 0) vs ++
        csrEvents s.cfg m w 0 (1#32 <<< s.cfg.csrmap.pciExtmem.val)))

/-- 42_hbr_dma.md R173, R174: the start address then the count at the one clear port, then the clearing-active bit polled: seen
clear, or timed out; inside the ownership. -/
def Obligations.ExtMemClearPolls : Prop :=
  ∀ (s : State) (m : Nat) (x : Module) (addr : Word) (count : Nat) (v : Word) (e₀ : Env), s.Online m x →
    windowOk s.cfg = true → 0 < count → envRead x.env = (v, e₀) →
    (∀ bad u w e₁ e₂, readMany (bad.length + 1) e₀ = (bad ++ [u], e₁) → bad.length < s.cfg.extmemClrPolls →
      (∀ z ∈ bad, z.getLsbD s.cfg.csrmap.extmemClearing.val = true) → u.getLsbD s.cfg.csrmap.extmemClearing.val = false →
      envRead e₁ = (w, e₂) →
      Answers (exec (.extMemClear m addr count) s) s .extMemClear m { x with env := e₂ } { status := .ok }
        (csrEvents s.cfg m v (1#32 <<< s.cfg.csrmap.pciExtmem.val) 0 ++
          [wrEvent s.cfg m .extmemClr addr, wrEvent s.cfg m .extmemClr (countWord count)] ++
          pollEvents s.cfg m .csr s.cfg.extmemClrDelayNs bad ++ [rdEvent s.cfg m .csr u] ++
          csrEvents s.cfg m w 0 (1#32 <<< s.cfg.csrmap.pciExtmem.val))) ∧
    (∀ bad w e₁ e₂, readMany s.cfg.extmemClrPolls e₀ = (bad, e₁) →
      (∀ z ∈ bad, z.getLsbD s.cfg.csrmap.extmemClearing.val = true) → envRead e₁ = (w, e₂) →
      Answers (exec (.extMemClear m addr count) s) s .extMemClear m { x with env := e₂ }
        { status := .fail ⟨.protocolTimeout, .extmemClear⟩ }
        (csrEvents s.cfg m v (1#32 <<< s.cfg.csrmap.pciExtmem.val) 0 ++
          [wrEvent s.cfg m .extmemClr addr, wrEvent s.cfg m .extmemClr (countWord count)] ++
          pollEvents s.cfg m .csr s.cfg.extmemClrDelayNs bad ++
          csrEvents s.cfg m w 0 (1#32 <<< s.cfg.csrmap.pciExtmem.val)))

/-! ## Boot -/

/-- 43_boot.md R208, R206: an interface FPGA that is ready in the first attempt is configured by one clear, poll, stream and
verify, and its flag is set. -/
def Obligations.BootCommFirstAttempt : Prop :=
  ∀ (s : State) (m : Nat) (x : Module) (rev : Nat) (image bad : List Word) (v d : Word) (e : Env), s.Online m x →
    windowOk s.cfg = true → image.length = fwWordsComm s.cfg rev → 0 < s.cfg.fpgaAttempts →
    readMany (bad.length + 2) x.env = (bad ++ [v, d], e) → FpgaReady s.cfg .comm bad v d →
    Answers (exec (.bootCommFpga m rev image) s) s .bootCommFpga m
      { x with handle := { x.handle with boot := { x.handle.boot with commDone := true } }, env := e } { status := .ok }
      (fpgaEvents s.cfg m .comm image bad v d)

/-- 43_boot.md R205, R206, R208, R209: an attempt whose INIT poll times out or whose verify fails is made again from Clear: the
boot is its attempts, one after the other, the flag set and OK where the last of them configures the target within
FPGA_ATTEMPTS, the flag clear and COMM_FPGA where all FPGA_ATTEMPTS fail. In particular an interface FPGA that never reports INIT
costs every attempt its polls and streams nothing. -/
def Obligations.BootCommNeverReady : Prop :=
  (∀ (s : State) (m : Nat) (x : Module) (rev : Nat) (image : List Word) (fails : List FpgaRun) (last : Option FpgaRun) (e : Env),
    s.Online m x → windowOk s.cfg = true → image.length = fwWordsComm s.cfg rev → FpgaBoots s.cfg .comm fails last →
    readMany (bootReads fails last).length x.env = (bootReads fails last, e) →
    Answers (exec (.bootCommFpga m rev image) s) s .bootCommFpga m
      { x with handle := { x.handle with boot := { x.handle.boot with commDone := last.isSome } }, env := e }
      { status := if last.isSome then .ok else .fail ⟨.protocolTimeout, .commFpga⟩ }
      (bootEvents s.cfg m .comm image fails last)) ∧
  (∀ (s : State) (m : Nat) (x : Module) (rev : Nat) (image vs : List Word) (e : Env), s.Online m x → windowOk s.cfg = true →
    image.length = fwWordsComm s.cfg rev → readMany (s.cfg.fpgaAttempts * s.cfg.fpgaInitPolls) x.env = (vs, e) →
    (∀ w ∈ vs, w &&& s.cfg.patternComm.initMask ≠ s.cfg.patternComm.initMask) →
    ∃ t, exec (.bootCommFpga m rev image) s = .next t ∧ t.status = some (.fail ⟨.protocolTimeout, .commFpga⟩) ∧
      t.module? m =
        some { x with handle := { x.handle with boot := { x.handle.boot with commDone := false } }, env := e } ∧
      wordsTo .cfgCtrl t.issued =
        (List.replicate s.cfg.fpgaAttempts [s.cfg.patternComm.progLow, s.cfg.patternComm.progHigh]).flatten ∧
      wordsFrom .cfgStat t.issued = vs ∧ wordsTo .cfgData t.issued = [] ∧
      countEvents isWrite t.issued = 2 * s.cfg.fpgaAttempts ∧
      countEvents isRead t.issued = s.cfg.fpgaAttempts * s.cfg.fpgaInitPolls ∧
      (s.cfg.fpgaProgHoldNs = 0 → 0 < s.cfg.fpgaInitDelayNs →
        countEvents isSleep t.issued = s.cfg.fpgaAttempts * s.cfg.fpgaInitPolls))

/-- 43_boot.md R209, and R211, R226 for the other two: on every path the stage's own flag afterwards says whether the stage
returned OK, and the other flags are unchanged. -/
def Obligations.BootFlagsFollowStatus : Prop :=
  ∀ (s : State) (m : Nat) (x : Module) (rev : Nat) (image : List Word) (file : List Byte), s.Serves m x →
    (image.length = fwWordsComm s.cfg rev →
      ∃ t y, exec (.bootCommFpga m rev image) s = .next t ∧ t.module? m = some y ∧
        y.handle = { x.handle with boot := { x.handle.boot with commDone := decide (t.status = some .ok) } }) ∧
    (image.length = fwWordsSp s.cfg rev →
      ∃ t y, exec (.bootSpFpga m rev image) s = .next t ∧ t.module? m = some y ∧
        y.handle = { x.handle with boot := { x.handle.boot with spDone := decide (t.status = some .ok) } }) ∧
    (fileOk s.cfg file = true →
      ∃ t y, exec (.bootDsp m file) s = .next t ∧ t.module? m = some y ∧
        y.handle = { x.handle with boot := { x.handle.boot with dspDone := decide (t.status = some .ok) } })

/-- 43_boot.md R205, R211, R212: both pairs configured, each after whatever attempts failed before: two boots with the one
image, then the clock-domain reset pulse, and the flag is set. On every path, a pair that fails ends the boot with that pair's
status and without a clock-domain reset, and a first pair that fails leaves the second untouched. -/
def Obligations.BootSpPairsInOrder : Prop :=
  (∀ (s : State) (m : Nat) (x : Module) (rev : Nat) (image : List Word) (failsA failsB : List FpgaRun) (a b : FpgaRun)
    (e₁ e₂ : Env), s.Online m x → windowOk s.cfg = true → image.length = fwWordsSp s.cfg rev →
    FpgaBoots s.cfg .spA failsA (some a) → FpgaBoots s.cfg .spB failsB (some b) →
    readMany (bootReads failsA (some a)).length x.env = (bootReads failsA (some a), e₁) →
    readMany (bootReads failsB (some b)).length e₁ = (bootReads failsB (some b), e₂) →
    Answers (exec (.bootSpFpga m rev image) s) s .bootSpFpga m
      { x with handle := { x.handle with boot := { x.handle.boot with spDone := true } }, env := e₂ } { status := .ok }
      (bootEvents s.cfg m .spA image failsA (some a) ++ bootEvents s.cfg m .spB image failsB (some b) ++
        [wrEvent s.cfg m .clkrst s.cfg.clkrstAssert] ++ sleepEvents s.cfg.clkrstHoldNs ++
        [wrEvent s.cfg m .clkrst s.cfg.clkrstDeassert])) ∧
  (∀ (s t : State) (m : Nat) (x : Module) (rev : Nat) (image : List Word), s.Online m x →
    image.length = fwWordsSp s.cfg rev → exec (.bootSpFpga m rev image) s = .next t →
    (t.status = some .ok ∧ wordsTo .clkrst t.issued = [s.cfg.clkrstAssert, s.cfg.clkrstDeassert]) ∨
    (t.status = some (.fail ⟨.protocolTimeout, .spFpgaB⟩) ∧ wordsTo .clkrst t.issued = []) ∨
    (t.status = some (.fail ⟨.protocolTimeout, .spFpgaA⟩) ∧ wordsTo .clkrst t.issued = [] ∧
      ∀ e ∈ t.issued, ∀ a p ls, e.pos ≠ .running .bootSpFpga (.fpga .spB a p) ls))

/-- 43_boot.md R216. -/
def Obligations.RepackPairsBytes : Prop :=
  ∀ (f : List Byte) (p : Params),
    (f.length % 2 = 1 → repack f = none ∧ checkFile p f = (true, ⟨.dataIntegrityFailure, .dspStream⟩)) ∧
    (f.length % 2 = 0 → ∃ ws, repack f = some ws ∧ ws.length = f.length / 2 ∧
      ∀ i, i < ws.length →
        ws[i]? = some (((f.getD (2 * i) 0).setWidth 32 <<< 8) ||| (f.getD (2 * i + 1) 0).setWidth 32))

/-- 43_boot.md R219, 30_encoding.md R90: a stream of supported segments is written segment by segment, in order; it ends at a
boundary, or with a final segment, whatever follows that. -/
def Obligations.TagStreamWritesSegments : Prop :=
  ∀ (gs : List Segment) (last : Option Segment) (ignored ws : List Word) (m : Nat) (sc : Scope) (c : Ctx),
    sc.who = .module m → windowOk sc.cfg = true → sc.cfg.hbrGrantPolls = 0 → c.handle.hbrHeld = false →
    (∀ g ∈ gs, g.Ok sc.cfg ∧ g.info.kind ≠ .final) → (∀ g ∈ last, g.Ok sc.cfg ∧ g.info.kind = .final) →
    (last = none → ignored = []) → ws = gs.flatMap Segment.words ++ last.toList.flatMap Segment.words ++ ignored →
    ∃ t, tagStream ws.length ws sc c = .ok (.ok ()) c t ∧
      named (shown t) = (gs ++ last.toList).flatMap (Segment.events sc.cfg m)

/-- 43_boot.md R219, 70_reset_and_hazards.md R285: an unsupported tag, a truncated header and a truncated payload are failures that
write nothing. The tag stream is bounded by the stream's length; the bound the model's parser takes is never reached. -/
def Obligations.TagStreamRejects : Prop :=
  (∀ (fuel : Nat) (ws : List Word) (sc : Scope) (c : Ctx), ws.length ≤ fuel →
    tagStream fuel ws sc c = tagStream ws.length ws sc c) ∧
  ∀ (fuel : Nat) (tag count addr : Word) (more : List Word) (sc : Scope) (c : Ctx),
    (0 < more.length → more.length < 3 →
      tagStream fuel more sc c = .ok (.error ⟨.dataIntegrityFailure, .dspStream⟩) c []) ∧
    (more.length < sc.cfg.segHeaderExtra →
      tagStream (fuel + 1) (tag :: count :: addr :: more) sc c = .ok (.error ⟨.dataIntegrityFailure, .dspStream⟩) c []) ∧
    (sc.cfg.segHeaderExtra ≤ more.length → tagInfo sc.cfg tag = none →
      tagStream (fuel + 1) (tag :: count :: addr :: more) sc c = .ok (.error ⟨.dataIntegrityFailure, .dspTag⟩) c []) ∧
    (∀ g n, tagInfo sc.cfg tag = some g → g.kind ≠ .zero →
      n = (if g.kind = .final then sc.cfg.finalBlockWords else count.toNat) → sc.cfg.segHeaderExtra ≤ more.length →
      more.length < sc.cfg.segHeaderExtra + n * subwords g.width →
      tagStream (fuel + 1) (tag :: count :: addr :: more) sc c = .ok (.error ⟨.dataIntegrityFailure, .dspStream⟩) c [])

/-- 43_boot.md R218, R220 to R226: a file of the kernel alone, verified at the first try and running at the first poll: reset,
release, both configuration registers, every kernel word, the download bit cleared, one poll. -/
def Obligations.BootDspKernelOnly : Prop :=
  ∀ (s : State) (m : Nat) (x : Module) (file : List Byte) (ws : List Word) (v₀ v₁ v₂ f : Word) (e : Env), s.Serves m x →
    s.cfg.hbrGrantPolls = 0 → 0 < s.cfg.dspCfgAttempts → 0 < s.cfg.dspPudonePolls → repack file = some ws →
    ws.length = s.cfg.dspKernelWords * s.cfg.dspKernelSubwords →
    readMany 6 x.env = ([v₀, v₁, s.cfg.dspCfg0.value, s.cfg.dspCfg1.value, v₂, f], e) → f &&& s.cfg.dspPudoneMask ≠ 0 →
    Answers (exec (.bootDsp m file) s) s .bootDsp m
      { x with handle := { x.handle with boot := { x.handle.boot with dspDone := true } }, env := e } { status := .ok }
      (csrEvents s.cfg m v₀ (1#32 <<< s.cfg.csrmap.dspReset.val ||| 1#32 <<< s.cfg.csrmap.dspDownload.val) 0 ++
        [sleepEvent s.cfg.dspResetHoldNs] ++ csrEvents s.cfg m v₁ 0 (1#32 <<< s.cfg.csrmap.dspReset.val) ++
        cfgVerifyEvents s.cfg m s.cfg.dspCfg0 ++ cfgVerifyEvents s.cfg m s.cfg.dspCfg1 ++
        (List.range s.cfg.dspKernelWords).flatMap (fun i =>
          hbrGroupEvents s.cfg m (s.cfg.dspKernelAddr + BitVec.ofNat 32 i)
            ((ws.drop (i * s.cfg.dspKernelSubwords)).take s.cfg.dspKernelSubwords)) ++
        csrEvents s.cfg m v₂ 0 (1#32 <<< s.cfg.csrmap.dspDownload.val) ++
        hbrReadEvents s.cfg m s.cfg.dspPudoneAddr f)

/-- 43_boot.md R219 to R226, 60_exceptions.md R262. A boot that fails for anything but the stream has made every attempt, each
from Reset, and its status is a grant, configuration or power-up timeout; a stream failure ends the boot with the attempt it
occurs in. Without grant polls the boot is its attempts, one after the other: an attempt whose configuration registers never read
back their values (after DSP_CFG_ATTEMPTS tries) or whose power-up flag never stands (after DSP_PUDONE_POLLS polls, each with its
sleep) is made again from Reset; an attempt that meets a malformed or unsupported stream is the last. -/
def Obligations.BootDspRetriesFromReset : Prop :=
  (∀ (s t : State) (m : Nat) (x : Module) (file : List Byte) (f : Failure), s.Online m x → fileOk s.cfg file = true →
    exec (.bootDsp m file) s = .next t → t.status = some (.fail f) →
    ∃ n, 1 ≤ n ∧ n ≤ dspAttempts s.cfg ∧
      (∀ a, 1 ≤ a → a ≤ n → (t.issued.filter fun e => e.pos == .running .bootDsp (.dsp a .reset) []).length = 3) ∧
      (∀ e ∈ t.issued, ∃ a q ls, a ≤ n ∧ e.pos = .running .bootDsp (.dsp a q) ls) ∧
      (f ∈ [⟨.dataIntegrityFailure, .dspTag⟩, ⟨.dataIntegrityFailure, .dspStream⟩] ∨
        (f ∈ [⟨.protocolTimeout, .dspPudone⟩, ⟨.protocolTimeout, .dspCfg⟩, ⟨.protocolTimeout, .hbrGrant⟩] ∧
          n = dspAttempts s.cfg))) ∧
  (∀ (s : State) (m : Nat) (x : Module) (file : List Byte) (b : BootStream) (fails : List DspRun) (last : DspRun) (e : Env),
    s.Serves m x → s.cfg.hbrGrantPolls = 0 → repack file = some b.words → b.Ok s.cfg →
    (∀ r ∈ fails, r.Ok s.cfg b ∧ r.Retried) → last.Ok s.cfg b → fails.length < dspAttempts s.cfg →
    (last.Retried → fails.length + 1 = dspAttempts s.cfg) →
    readMany ((fails ++ [last]).flatMap DspRun.reads).length x.env = ((fails ++ [last]).flatMap DspRun.reads, e) →
    Answers (exec (.bootDsp m file) s) s .bootDsp m
      { x with handle := { x.handle with boot := { x.handle.boot with dspDone := decide (last.ends = .running) } }, env := e }
      { status := last.status b } ((fails ++ [last]).flatMap (DspRun.events s.cfg m b)))

/-- 43_boot.md R230: BOOT_MODULE is its selected stages in order, stopping at the first that fails, with that stage's status;
`booted` says whether all of them succeeded. The pattern's bit positions are the spec's general knowledge (G2, log 23). -/
def Obligations.BootModuleIsItsStages : Prop :=
  ∀ (s : State) (m : Nat) (x : Module) (rev : Nat) (images : Images) (pattern : Word), s.Serves m x →
    argFailure s.cfg (.bootModule m rev images pattern) = none →
    ∃ t st es u y z, exec (.bootModule m rev images pattern) s = .next t ∧
      runStages (bootStages m rev images pattern) s = some (st, es, u) ∧ u.module? m = some y ∧ t.module? m = some z ∧
      t.status = some st ∧ t.events = es ∧ z.env = y.env ∧
      z.handle = { y.handle with boot := { y.handle.boot with booted := decide (st = .ok) } }

/-! ## Discovery and close -/

/-- 44_discovery.md R240: the checks of SYS_INIT, in their order, before any event. -/
def Obligations.SysInitChecksFirst : Prop :=
  ∀ (s : State) (slotMap : List Nat) (flag : Bool), OffsetsOk s.cfg (.sysInit slotMap flag) →
    (s.system ≠ none →
      exec (.sysInit slotMap flag) s = .next (finish .sysInit { status := .fail ⟨.invalidArgument, .system⟩ } [] s)) ∧
    (s.system = none → s.cfg.maxModules.val < slotMap.length →
      exec (.sysInit slotMap flag) s = .next (finish .sysInit { status := .fail ⟨.invalidArgument, .count⟩ } [] s)) ∧
    (s.system = none → slotMap.length ≤ s.cfg.maxModules.val → ¬ slotMap.Nodup →
      exec (.sysInit slotMap flag) s = .next (finish .sysInit { status := .fail ⟨.invalidArgument, .matchSlot⟩ } [] s))

/-- 44_discovery.md R240, R246, 10_state.md R42: offline, the system is created without an event, every handle in its reset
state. The serial shadow of a new handle is a free value (log 14). -/
def Obligations.SysInitOffline : Prop :=
  ∀ (s : State) (slotMap : List Nat), s.system = none → slotMap.length ≤ s.cfg.maxModules.val → slotMap.Nodup →
    ∃ t, exec (.sysInit slotMap true) s = .next t ∧ t.status = some .ok ∧ t.issued = [] ∧ t.isOffline = true ∧
      t.moduleCount = slotMap.length ∧ t.disc = s.disc ∧ t.cfg = s.cfg ∧ t.calls = s.calls ∧ t.turns = s.turns ∧
      ∀ i slot, slotMap[i]? = some slot →
        ∃ l e, t.module? i = some ⟨⟨none, none, slot, true, {}, false, none, none, l⟩, .idle, e, none⟩ ∧ e.id = some i

/-- 44_discovery.md R240 to R246, 10_state.md R42: online, SYS_INIT completes, and its trace is Find, then Probe, then OpenModules.
Find calls until the limit or a call that finds nothing; the keys kept are the first of each bus/slot. Probe opens, maps, reads
and releases one device after the other. On OK every key was probed, Match gives the keys, OpenModules opens and maps them in
module order, and module `i` holds the device and the window the OPEN and MAP of key `i` gave, in its reset state. On a failure
no system exists; the trace ends with the failing phase's failing call, after which the device at hand is released and what
OpenModules had acquired is unmapped and closed, last first; the status is the failing phase's. -/
def Obligations.SysInitOnline : Prop :=
  ∀ (s : State) (slotMap : List Nat), s.system = none → slotMap.length ≤ s.cfg.maxModules.val → slotMap.Nodup →
    windowOk s.cfg = true → s.disc.vendorLeft = none →
    ∃ (t : State) (rs : List (Option DevKey)) (probes : List ProbeRun) (found : List DevKey)
      (es : List (Option Reg × Event)),
      exec (.sysInit slotMap false) s = .next t ∧ t.cfg = s.cfg ∧ t.calls = s.calls ∧ t.turns = s.turns ∧
      FindRan s.cfg rs ∧ found = firstPerSlot s.cfg (rs.filterMap id) ∧
      (∀ j r, probes[j]? = some r → OnProbe j r.read ∧ SlotRead s.cfg r.read r.bytes) ∧
      probes.map ProbeRun.key = found.take probes.length ∧
      t.events = findEvents s.cfg rs ++ probes.flatMap (ProbeRun.events s.cfg) ++ es ∧
      ((∃ keys hs, found ≠ [] ∧ probes.length = found.length ∧
          matchSlots (probes.map (ProbeRun.reported s.cfg)) slotMap = some keys ∧ hs.length = keys.length ∧
          es = (keys.zip hs).flatMap (fun k => acquireEvents s.cfg k.1 k.2) ∧ t.status = some .ok ∧ t.isOffline = false ∧
          t.moduleCount = slotMap.length ∧
          ∀ i slot d, slotMap[i]? = some slot → hs[i]? = some d →
            ∃ l e, t.module? i =
              some ⟨⟨some d.1, some d.2, slot, false, {}, false, none, none, l⟩, .idle, e, none⟩ ∧ e.id = some i) ∨
       (t.system = none ∧
        ((found = [] ∧ es = [] ∧ t.status = some (.fail ⟨.resourceFailure, .find⟩)) ∨
         (∃ key o, found[probes.length]? = some key ∧ es = acquireFailEvents s.cfg key o ∧
            t.status = some (.fail (acquireFailure o))) ∨
         (∃ key d read, found[probes.length]? = some key ∧ OnProbe probes.length read ∧ SlotReadFails s.cfg read ∧
            es = acquireEvents s.cfg key d ++ named read ++ releaseEvents d ∧
            t.status = some (.fail ⟨.protocolTimeout, .slotRead⟩)) ∨
         (found ≠ [] ∧ probes.length = found.length ∧
            matchSlots (probes.map (ProbeRun.reported s.cfg)) slotMap = none ∧ es = [] ∧
            t.status = some (.fail ⟨.invalidArgument, .matchSlot⟩)) ∨
         (∃ keys hs key o, found ≠ [] ∧ probes.length = found.length ∧
            matchSlots (probes.map (ProbeRun.reported s.cfg)) slotMap = some keys ∧ keys[hs.length]? = some key ∧
            es = (keys.zip hs).flatMap (fun k => acquireEvents s.cfg k.1 k.2) ++ acquireFailEvents s.cfg key o ++
              hs.reverse.flatMap releaseEvents ∧
            t.status = some (.fail (acquireFailure o))))))

/-- 44_discovery.md R243: every declared slot is bound to the first probed device that reported it; a slot nobody reported
fails the match. -/
def Obligations.MatchBindsFirstReporter : Prop :=
  ∀ (probed : List (DevKey × Nat)) (slotMap : List Nat),
    (matchSlots probed slotMap = none ↔ ∃ slot ∈ slotMap, ∀ d ∈ probed, Prod.snd d ≠ slot) ∧
    ∀ keys, matchSlots probed slotMap = some keys →
      keys.length = slotMap.length ∧
        ∀ (i slot : Nat) (key : DevKey), slotMap[i]? = some slot → keys[i]? = some key →
          ∃ j : Nat, probed[j]? = some (key, slot) ∧ ∀ k < j, ∀ d : DevKey × Nat, probed[k]? = some d → d.2 ≠ slot

/-- 44_discovery.md R247: an open module is unmapped and closed, and its window and device are gone. -/
def Obligations.ModuleCloseReleases : Prop :=
  ∀ (s : State) (m : Nat) (x : Module) (va : VAddr), s.Online m x → x.handle.win = some va → x.env.vendorLeft = none →
    exec (.moduleClose m) s =
      .next (finish .moduleClose { status := .ok }
        (issuedAt (startPos .moduleClose) [(none, .unmapBar x.handle.dev va), (none, .closeDev x.handle.dev)])
        (s.putModule m { x with handle := { x.handle with win := none, dev := none } }))
end

