-- ==== Sys2Proof/Laws/State.lean ====
section
/-! SUPPORT. The small lemmas of the state: one per field and update. -/

namespace Sys2Proof.Machine

section finish
variable (k : Mnemonic) (r : Reply) (t : List Issued) (s : State)

@[simp] theorem finish_cfg : (finish k r t s).cfg = s.cfg := rfl
@[simp] theorem finish_system : (finish k r t s).system = s.system := rfl
@[simp] theorem finish_disc : (finish k r t s).disc = s.disc := rfl
@[simp] theorem finish_calls : (finish k r t s).calls = s.calls := rfl
@[simp] theorem finish_turns : (finish k r t s).turns = s.turns := rfl
@[simp] theorem finish_last : (finish k r t s).last = some { op := k, reply := r, issued := t } := rfl
@[simp] theorem finish_module (m : Nat) : (finish k r t s).module? m = s.module? m := rfl
@[simp] theorem finish_moduleCount : (finish k r t s).moduleCount = s.moduleCount := rfl
@[simp] theorem finish_isOffline : (finish k r t s).isOffline = s.isOffline := rfl

end finish

section putModule
variable (m : Nat) (x : Module) (s : State)

@[simp] theorem putModule_cfg : (s.putModule m x).cfg = s.cfg := rfl
@[simp] theorem putModule_disc : (s.putModule m x).disc = s.disc := rfl
@[simp] theorem putModule_calls : (s.putModule m x).calls = s.calls := rfl
@[simp] theorem putModule_turns : (s.putModule m x).turns = s.turns := rfl
@[simp] theorem putModule_last : (s.putModule m x).last = s.last := rfl
@[simp] theorem putModule_system :
    (s.putModule m x).system = s.system.map fun y => { y with modules := y.modules.set m x } := rfl

@[simp] theorem putModule_isOffline : (s.putModule m x).isOffline = s.isOffline := by
  cases h : s.system <;> simp [State.isOffline, h]

@[simp] theorem putModule_moduleCount : (s.putModule m x).moduleCount = s.moduleCount := by
  cases h : s.system <;> simp [State.moduleCount, h]

/-- Reading another module's record. -/
theorem putModule_module_of_ne {k : Nat} (h : k ≠ m) : (s.putModule m x).module? k = s.module? k := by
  cases hs : s.system <;> simp [State.module?, hs, Ne.symm h]

/-- Reading the record written. -/
theorem putModule_module_self {y : Module} (h : s.module? m = some y) : (s.putModule m x).module? m = some x := by
  cases hs : s.system with
  | none => simp [State.module?, hs] at h
  | some z =>
    simp only [State.module?, hs] at h
    obtain ⟨hm, -⟩ := List.getElem?_eq_some_iff.mp h
    simp [State.module?, hs, hm]

end putModule

/-- A module index that names a module is below `moduleCount`. -/
theorem module_isSome_iff (s : State) (m : Nat) : (s.module? m).isSome = true ↔ m < s.moduleCount := by
  cases hs : s.system <;> simp [State.module?, State.moduleCount, hs]

/-- No module stands at an index from `moduleCount` on. -/
theorem module_eq_none_iff (s : State) (m : Nat) : s.module? m = none ↔ s.moduleCount ≤ m := by
  cases hs : s.system <;> simp [State.module?, State.moduleCount, hs]

@[simp] theorem reset_system : State.reset.system = none := rfl
@[simp] theorem reset_calls : State.reset.calls = [] := rfl
@[simp] theorem reset_last : State.reset.last = none := rfl
@[simp] theorem reset_turns : State.reset.turns = [] := rfl

section turns
variable (q : List Turn) (s : State)

@[simp] theorem withTurns_isOffline : ({ s with turns := q } : State).isOffline = s.isOffline := rfl
@[simp] theorem withTurns_moduleCount : ({ s with turns := q } : State).moduleCount = s.moduleCount := rfl
@[simp] theorem withTurns_module (m : Nat) : ({ s with turns := q } : State).module? m = s.module? m := rfl
@[simp] theorem withTurns_job (m : Nat) : ({ s with turns := q } : State).job? m = s.job? m := rfl

end turns

section pausedModule
variable (i : Instr) (start : Ctx) (pos : Place) (c : Ctx) (t : List Issued)

@[simp] theorem pausedModule_handle : (pausedModule i start pos c t).handle = c.handle := rfl
@[simp] theorem pausedModule_pos : (pausedModule i start pos c t).pos = .busy pos := rfl
@[simp] theorem pausedModule_env : (pausedModule i start pos c t).env = c.env := rfl
@[simp] theorem pausedModule_job : (pausedModule i start pos c t).job = some { op := i, start, trace := t } := rfl

end pausedModule

/-- The events of the steps. -/
@[simp] theorem shown_nil : shown [] = [] := rfl
@[simp] theorem shown_cons (g : Stage) (t : List Stage) : shown (g :: t) = g.issued :: shown t := rfl
@[simp] theorem shown_append (t u : List Stage) : shown (t ++ u) = shown t ++ shown u := List.map_append
@[simp] theorem shown_length (t : List Stage) : (shown t).length = t.length := List.length_map _
@[simp] theorem shown_stepOf (sc : Scope) (c : Ctx) (r : Option Reg) (e : Event) :
    shown (stepOf sc c r e) = [⟨sc.pos, r, e⟩] := rfl

/-- The queue of calls is popped from the front. -/
@[simp] theorem nextCall_nil {s : State} (h : s.calls = []) : nextCall s = none := by simp [nextCall, h]
@[simp] theorem nextCall_cons {s : State} {c : Call} {rest : List Call} (h : s.calls = c :: rest) :
    nextCall s = some (c, { s with calls := rest }) := by simp [nextCall, h]

end Sys2Proof.Machine
end

