-- ==== Sys2Proof/Laws/Ops.lean ====
section
/-! SUPPORT. What each way of composing an operation can do: inversion lemmas, a frame principle (`Op.Keeps`), and a completion
principle (`Op.Completes`). -/

namespace Sys2Proof.Machine

variable {α β : Type} {sc : Scope} {c : Ctx}

/-! ## Inversion -/

@[simp] theorem Op.pure_apply (a : α) : Op.pure a sc c = .ok a c [] := rfl
@[simp] theorem Op.withCfg_apply (f : Params → Op α) : Op.withCfg f sc c = f sc.cfg sc c := rfl
@[simp] theorem Op.getHandle_apply : Op.getHandle sc c = .ok c.handle c [] := rfl
@[simp] theorem Op.setHandle_apply (f : Handle → Handle) :
    Op.setHandle f sc c = .ok () { c with handle := f c.handle } [] := rfl
@[simp] theorem Op.emit_apply (r : Option Reg) (e : Event) : Op.emit r e sc c = .ok () c (stepOf sc c r e) := rfl
@[simp] theorem Op.fault_apply (f : Fault) : (Op.fault f : Op α) sc c = .fault f sc.pos c [] := rfl
@[simp] theorem Op.refuse_apply (r : Refusal) : (Op.refuse r : Op α) sc c = .refused r := rfl
@[simp] theorem Op.placed_apply (g : Place → Place) (x : Op α) : x.placed g sc c = x { sc with pos := g sc.pos } c := rfl
@[simp] theorem Op.inLoop_apply (k : Nat) (x : Op α) : x.inLoop k sc c = x { sc with pos := posLoop k sc.pos } c := rfl
@[simp] theorem Op.inPhase_apply (ph : Phase) (x : Op α) : Op.inPhase ph x sc c = x { sc with pos := posPhase ph sc.pos } c := rfl

/-- A composition ends well exactly when both parts do; the events follow one another. -/
theorem Op.bind_eq_ok {x : Op α} {f : α → Op β} {b : β} {c' : Ctx} {t : List Stage} :
    x.bind f sc c = .ok b c' t ↔
      ∃ a c₁ t₁ t₂, x sc c = .ok a c₁ t₁ ∧ f a sc c₁ = .ok b c' t₂ ∧ t = t₁ ++ t₂ := by
  unfold Op.bind
  constructor
  · intro h
    split at h
    · rename_i a c₁ t₁ hx
      split at h
      · rename_i b' c₂ t₂ hf
        cases h
        exact ⟨a, c₁, t₁, t₂, hx, hf, rfl⟩
      · cases h
      · cases h
    · cases h
    · cases h
  · rintro ⟨a, c₁, t₁, t₂, hx, hf, rfl⟩
    simp [hx, hf]

/-- A composition faults in its first part, or in its second after the steps of the first. -/
theorem Op.bind_eq_fault {x : Op α} {f : α → Op β} {r : Fault} {pos : Place} {c' : Ctx} {t : List Stage} :
    x.bind f sc c = .fault r pos c' t ↔
      x sc c = .fault r pos c' t ∨
      ∃ a c₁ t₁ t₂, x sc c = .ok a c₁ t₁ ∧ f a sc c₁ = .fault r pos c' t₂ ∧ t = t₁ ++ t₂ := by
  unfold Op.bind
  constructor
  · intro h
    split at h
    · rename_i a c₁ t₁ hx
      split at h
      · cases h
      · rename_i r' pos' c₂ t₂ hf
        cases h
        exact .inr ⟨a, c₁, t₁, t₂, hx, hf, rfl⟩
      · cases h
    · rename_i hx
      cases h
      exact .inl hx
    · cases h
  · rintro (hx | ⟨a, c₁, t₁, t₂, hx, hf, rfl⟩)
    · simp [hx]
    · simp [hx, hf]

/-- A composition run forward. -/
theorem Op.bind_of_ok {x : Op α} {f : α → Op β} {a : α} {b : β} {c₁ c₂ : Ctx} {t₁ t₂ : List Stage}
    (hx : x sc c = .ok a c₁ t₁) (hf : f a sc c₁ = .ok b c₂ t₂) : x.bind f sc c = .ok b c₂ (t₁ ++ t₂) :=
  Op.bind_eq_ok.mpr ⟨a, c₁, t₁, t₂, hx, hf, rfl⟩

theorem Op.andThen_eq_ok {x : Op Unit} {y : Op β} {b : β} {c' : Ctx} {t : List Stage} :
    x.andThen y sc c = .ok b c' t ↔ ∃ c₁ t₁ t₂, x sc c = .ok () c₁ t₁ ∧ y sc c₁ = .ok b c' t₂ ∧ t = t₁ ++ t₂ := by
  unfold Op.andThen
  rw [Op.bind_eq_ok]
  constructor
  · rintro ⟨⟨⟩, h⟩
    exact h
  · exact fun h => ⟨(), h⟩

theorem Op.andThen_of_ok {x : Op Unit} {y : Op β} {b : β} {c₁ c₂ : Ctx} {t₁ t₂ : List Stage}
    (hx : x sc c = .ok () c₁ t₁) (hy : y sc c₁ = .ok b c₂ t₂) : x.andThen y sc c = .ok b c₂ (t₁ ++ t₂) :=
  Op.bind_of_ok hx hy

theorem Op.map_eq_ok {f : α → β} {x : Op α} {b : β} {c' : Ctx} {t : List Stage} :
    x.map f sc c = .ok b c' t ↔ ∃ a, x sc c = .ok a c' t ∧ f a = b := by
  constructor
  · intro h
    obtain ⟨a, c₁, t₁, t₂, hx, hf, rfl⟩ := Op.bind_eq_ok.mp h
    simp only [Op.pure_apply, Res.ok.injEq] at hf
    obtain ⟨rfl, rfl, rfl⟩ := hf
    exact ⟨a, by simpa using hx, rfl⟩
  · rintro ⟨a, hx, rfl⟩
    have := Op.bind_of_ok (f := fun a => Op.pure (f a)) hx rfl
    simpa [Op.map] using this

theorem Op.map_of_ok {f : α → β} {x : Op α} {a : α} {c' : Ctx} {t : List Stage} (h : x sc c = .ok a c' t) :
    x.map f sc c = .ok (f a) c' t :=
  Op.map_eq_ok.mpr ⟨a, h, rfl⟩

/-- `s <- x; if s != OK: return s` either returns x's failure or goes on. -/
theorem Op.ifOk_eq_ok {x : Op (Except Failure α)} {f : α → Op (Except Failure β)} {b : Except Failure β} {c' : Ctx}
    {t : List Stage} :
    x.ifOk f sc c = .ok b c' t ↔
      (∃ e, x sc c = .ok (.error e) c' t ∧ b = .error e) ∨
      (∃ a c₁ t₁ t₂, x sc c = .ok (.ok a) c₁ t₁ ∧ f a sc c₁ = .ok b c' t₂ ∧ t = t₁ ++ t₂) := by
  unfold Op.ifOk
  rw [Op.bind_eq_ok]
  constructor
  · rintro ⟨r, c₁, t₁, t₂, hx, hf, rfl⟩
    cases r with
    | ok a => exact .inr ⟨a, c₁, t₁, t₂, hx, hf, rfl⟩
    | error e =>
      simp only [Op.pure_apply, Res.ok.injEq] at hf
      obtain ⟨rfl, rfl, rfl⟩ := hf
      exact .inl ⟨e, by simpa using hx, rfl⟩
  · rintro (⟨e, hx, rfl⟩ | ⟨a, c₁, t₁, t₂, hx, hf, rfl⟩)
    · exact ⟨.error e, c', t, [], hx, rfl, by simp⟩
    · exact ⟨.ok a, c₁, t₁, t₂, hx, hf, rfl⟩

theorem Op.ifOk_of_ok {x : Op (Except Failure α)} {f : α → Op (Except Failure β)} {a : α} {b : Except Failure β}
    {c₁ c₂ : Ctx} {t₁ t₂ : List Stage} (hx : x sc c = .ok (.ok a) c₁ t₁) (hf : f a sc c₁ = .ok b c₂ t₂) :
    x.ifOk f sc c = .ok b c₂ (t₁ ++ t₂) :=
  Op.ifOk_eq_ok.mpr (.inr ⟨a, c₁, t₁, t₂, hx, hf, rfl⟩)

theorem Op.ifOk_of_error {x : Op (Except Failure α)} {f : α → Op (Except Failure β)} {e : Failure}
    {c₁ : Ctx} {t₁ : List Stage} (hx : x sc c = .ok (.error e) c₁ t₁) : x.ifOk f sc c = .ok (.error e) c₁ t₁ :=
  Op.ifOk_eq_ok.mpr (.inl ⟨e, hx, rfl⟩)

/-! ## Primitives -/

theorem memRead_of_ok {r : Option Reg} {off : Nat} (h : offsetOk sc.cfg off = true) :
    memRead r off sc c =
      .ok (envRead c.env).1 { c with env := (envRead c.env).2 } (stepOf sc c r (.rd sc.who off (envRead c.env).1)) := by
  simp [memRead, h]

theorem memWrite_of_ok {r : Option Reg} {off : Nat} {v : Word} (h : offsetOk sc.cfg off = true) :
    memWrite r off v sc c = .ok () c (stepOf sc c r (.wr sc.who off v)) := by
  simp [memWrite, h]

/-- Every register of a usable window has an offset R65 admits. -/
theorem windowOk_reg {p : Params} (h : windowOk p = true) (r : Reg) : offsetOk p (regOffset p r) = true := by
  have hr : r ∈ allRegs := by cases r <;> decide
  exact List.all_eq_true.mp h r hr

theorem regRead_of_ok {r : Reg} (h : windowOk sc.cfg = true) :
    regRead r sc c = .ok (envRead c.env).1 { c with env := (envRead c.env).2 }
      (stepOf sc c (some r) (.rd sc.who (regOffset sc.cfg r) (envRead c.env).1)) :=
  memRead_of_ok (windowOk_reg h r)

theorem regWrite_of_ok {r : Reg} {v : Word} (h : windowOk sc.cfg = true) :
    regWrite r v sc c = .ok () c (stepOf sc c (some r) (.wr sc.who (regOffset sc.cfg r) v)) :=
  memWrite_of_ok (windowOk_reg h r)

@[simp] theorem sleep_apply (ns : Nat) : sleep ns sc c = .ok () c (stepOf sc c none (.sleep ns)) := rfl

theorem vendorCall_of_returns {answer : Env → α × Env} {event : Handle → α → Event} (h : c.env.vendorLeft = none) :
    vendorCall answer event sc c =
      .ok (answer c.env).1 { c with env := (answer c.env).2 } (stepOf sc c none (event c.handle (answer c.env).1)) := by
  have : { c.env with vendorLeft := none } = c.env := by rw [← h]
  simp [vendorCall, h, this]

/-- A vendor call faults exactly where the library no longer returns, and hangs there, issuing nothing. -/
theorem vendorCall_eq_fault {answer : Env → α × Env} {event : Handle → α → Event} {f : Fault} {pos : Place} {c' : Ctx}
    {t : List Stage} :
    vendorCall answer event sc c = .fault f pos c' t ↔
      c.env.vendorLeft = some 0 ∧ f = .vendorHang ∧ pos = sc.pos ∧ c' = c ∧ t = [] := by
  unfold vendorCall
  split
  · rename_i h
    simp only [Res.fault.injEq, h, true_and]
    constructor <;> (rintro ⟨rfl, rfl, rfl, rfl⟩; exact ⟨rfl, rfl, rfl, rfl⟩)
  · rename_i h
    simp only [reduceCtorEq, false_iff]
    exact fun hc => h hc.1

/-- A vendor call that ends well gave the environment's answer, and issued its one event. -/
theorem vendorCall_eq_ok {answer : Env → α × Env} {event : Handle → α → Event} {a : α} {c' : Ctx} {t : List Stage}
    (h : vendorCall answer event sc c = .ok a c' t) :
    c'.handle = c.handle ∧ t = stepOf sc c none (event c.handle a) ∧
      ∃ e, a = (answer e).1 ∧ c'.env = (answer e).2 ∧ e.id = c.env.id := by
  unfold vendorCall at h
  split at h
  · cases h
  · cases h
    exact ⟨rfl, rfl, _, rfl, rfl, rfl⟩

/-! ## Parameters the spec limits -/

theorem posRat_value_pos (q : PosRat) : 0 < q.value := by
  unfold PosRat.value
  positivity

/-- Every positive rational is one. -/
theorem posRat_covers {q : Rat} (h : 0 < q) : ∃ r : PosRat, r.value = q := by
  refine ⟨⟨q.num.toNat - 1, q.den - 1⟩, ?_⟩
  have hn : 0 < q.num := Rat.num_pos.mpr h
  have h₁ : ((q.num.toNat - 1 + 1 : Nat) : Rat) = q.num := by
    have : ((q.num.toNat - 1 + 1 : Nat) : Int) = q.num := by omega
    exact_mod_cast congrArg (Int.cast : Int → Rat) this
  have h₂ : q.den - 1 + 1 = q.den := Nat.sub_add_cancel q.den_pos
  unfold PosRat.value
  rw [h₁, h₂]
  exact Rat.num_div_den q

/-- The two bits of the done pair are different. -/
theorem doneBit2_ne (t : FpgaPattern) : t.doneBit2 ≠ t.doneBit.val := by
  have := t.doneBit.isLt
  have := t.doneGap.isLt
  unfold FpgaPattern.doneBit2
  omega

/-- `DONE_MASK` covers exactly the two bits (10_state.md R35). -/
theorem doneMask_getLsbD (t : FpgaPattern) (k : Nat) :
    t.doneMask.getLsbD k = (decide (k = t.doneBit.val) || decide (k = t.doneBit2)) := by
  have h : ∀ n < 32, ((1#32 <<< n).getLsbD k) = decide (k = n) := by
    intro n hn
    rw [BitVec.getLsbD_shiftLeft, BitVec.getLsbD_one]
    by_cases h : k = n
    · simp [h, hn]
    · by_cases h' : k < n
      · simp [h, h']
      · have : k - n ≠ 0 := by omega
        simp [h, this]
  have h₂ : t.doneBit2 < 32 := Nat.mod_lt _ (by decide)
  rw [FpgaPattern.doneMask, BitVec.getLsbD_or, h _ t.doneBit.isLt, h _ h₂]

/-- Every pair of different bits is one. -/
theorem doneBits_cover (a b : Fin 32) (h : a ≠ b) : ∃ g : Fin 31, (a.val + g.val + 1) % 32 = b.val := by
  have hab : a.val ≠ b.val := fun e => h (Fin.ext e)
  refine ⟨⟨(b.val + 31 - a.val) % 32, by omega⟩, ?_⟩
  show (a.val + (b.val + 31 - a.val) % 32 + 1) % 32 = b.val
  omega

/-! ## Refusing an operation for its offsets -/

theorem entryWords_le_lastRegWord (p : Params) (r : Reg) : entryWords (regEntry p r) ≤ lastRegWord p := by
  have hr : entryWords (regEntry p r) ∈ allRegs.map fun q => entryWords (regEntry p q) :=
    List.mem_map.mpr ⟨r, by cases r <;> decide, rfl⟩
  unfold lastRegWord
  generalize allRegs.map (fun q => entryWords (regEntry p q)) = l at hr
  induction l with
  | nil => cases hr
  | cons a l ih =>
    rcases List.mem_cons.mp hr with h | h
    · exact h ▸ le_max_left _ _
    · exact (ih h).trans (le_max_right _ _)

/-- The sort of a `REGMAP` value says whether the byte offset it stands for is one R65 admits. -/
theorem regAdmitted_eq (p : Params) (r : Reg) : regAdmitted p r = offsetOk p (regOffset p r) := by
  have hle := entryWords_le_lastRegWord p r
  have hw : 4 * lastRegWord p < winBytes p := by
    unfold winBytes
    omega
  unfold regAdmitted regOffset offsetOk
  cases h : regEntry p r with
  | word k =>
    rw [h] at hle
    have hk : 4 * k < winBytes p := by
      simp only [entryWords] at hle
      omega
    simp [hk]
  | unaligned k i =>
    have : (4 * k + i.val + 1) % 4 ≠ 0 := by
      have := i.isLt
      omega
    simp [this]
  | beyond k =>
    have : ¬ 4 * ((winBytes p + 3) / 4 + k) < winBytes p := by omega
    simp [this]

/-- Every map of offsets, with every window of at least one byte, is the map and the window of some parameters. -/
theorem regmap_covers (f : Reg → Nat) (w : Nat) (hw : 0 < w) :
    ∃ p : Params, winBytes p = w ∧ ∀ r, regOffset p r = f r := by
  let g : Reg → RegOffset := fun r =>
    if h : f r % 4 = 0 then if f r < w then .word (f r / 4) else .beyond (f r / 4 - (w + 3) / 4)
    else .unaligned (f r / 4) ⟨f r % 4 - 1, by omega⟩
  have hg : ∀ s r, regEntry { regmap := RegMap.ofFn g, winSlack := s } r = g r := by
    intro s r
    cases r <;> rfl
  have hl : ∀ s s', lastRegWord { regmap := RegMap.ofFn g, winSlack := s } =
      lastRegWord { regmap := RegMap.ofFn g, winSlack := s' } := by
    intro s s'
    simp only [lastRegWord, hg]
  have hlast : 4 * lastRegWord { regmap := RegMap.ofFn g, winSlack := 0 } + 1 ≤ w := by
    simp only [lastRegWord, hg]
    have he : ∀ r, 4 * entryWords (g r) + 1 ≤ w := by
      intro r
      dsimp only [g]
      split
      · split
        · simp only [entryWords]
          omega
        · simp only [entryWords]
          omega
      · simp only [entryWords]
        omega
    induction allRegs with
    | nil => simp only [List.map_nil, List.foldr_nil]; omega
    | cons r l ih =>
      have := he r
      simp only [List.map_cons, List.foldr_cons]
      omega
  generalize hk : w - 1 - 4 * lastRegWord { regmap := RegMap.ofFn g, winSlack := 0 } = slack
  have hwin : winBytes { regmap := RegMap.ofFn g, winSlack := slack } = w := by
    unfold winBytes
    rw [hl _ 0]
    dsimp only
    omega
  refine ⟨{ regmap := RegMap.ofFn g, winSlack := slack }, hwin, fun r => ?_⟩
  unfold regOffset
  rw [hg, hwin]
  dsimp only [g]
  by_cases h : f r % 4 = 0
  · by_cases hlt : f r < w
    · simp only [h, hlt, dif_pos, if_true]
      omega
    · simp only [h, hlt, dif_pos, if_false]
      omega
  · simp only [h, dif_neg, not_false_iff]
    omega

/-- The machine's own `REGMAP` is one R65 admits (log 9). -/
theorem windowOk_reset : windowOk State.reset.cfg = true := by
  rw [windowOk, List.all_eq_true]
  intro r _
  rw [← regAdmitted_eq]
  cases r <;> rfl

/-- An operation whose registers R65 admits runs. -/
theorem guardRegs_of_ok {rs : List Reg} {s : State} {o : Host.Outcome State Fault Refusal}
    (h : ∀ r ∈ rs, offsetOk s.cfg (regOffset s.cfg r) = true) : guardRegs rs s o = o := by
  have : rs.find? (fun r => !regAdmitted s.cfg r) = none := by
    rw [List.find?_eq_none]
    intro r hr
    simp [regAdmitted_eq, h r hr]
  simp [guardRegs, this]

theorem guardRegs_of_windowOk {rs : List Reg} {s : State} {o : Host.Outcome State Fault Refusal}
    (h : windowOk s.cfg = true) : guardRegs rs s o = o := guardRegs_of_ok fun r _ => windowOk_reg h r

/-- An operation that names a register R65 does not admit is refused for one of them, whatever it would do. -/
theorem guardRegs_refuses {rs : List Reg} {s : State} {o : Host.Outcome State Fault Refusal} {r : Reg} (hr : r ∈ rs)
    (h : offsetOk s.cfg (regOffset s.cfg r) = false) :
    ∃ q ∈ rs, offsetOk s.cfg (regOffset s.cfg q) = false ∧ guardRegs rs s o = .refused (.badOffset (regOffset s.cfg q)) := by
  unfold guardRegs
  cases hf : rs.find? (fun r => !regAdmitted s.cfg r) with
  | none =>
    have := List.find?_eq_none.mp hf r hr
    simp [regAdmitted_eq, h] at this
  | some q =>
    refine ⟨q, List.mem_of_find?_eq_some hf, ?_, rfl⟩
    simpa [regAdmitted_eq] using List.find?_some hf

/-- An operation that gives a next state was not refused for its registers. -/
theorem guardRegs_eq_next {rs : List Reg} {s t : State} {o : Host.Outcome State Fault Refusal} :
    guardRegs rs s o = .next t ↔ (∀ r ∈ rs, offsetOk s.cfg (regOffset s.cfg r) = true) ∧ o = .next t := by
  constructor
  · intro h
    have hr : ∀ r ∈ rs, offsetOk s.cfg (regOffset s.cfg r) = true := by
      intro r hr
      by_contra hc
      obtain ⟨q, -, -, hq⟩ := guardRegs_refuses (o := o) hr (by simpa using hc)
      rw [hq] at h
      cases h
    exact ⟨hr, (guardRegs_of_ok (o := o) hr).symm.trans h⟩
  · rintro ⟨hr, ho⟩
    exact (guardRegs_of_ok hr).trans ho

theorem guardOffset_of_ok {off : Nat} {s : State} {o : Host.Outcome State Fault Refusal} (h : offsetOk s.cfg off = true) :
    guardOffset off s o = o := by simp [guardOffset, h]

theorem guardOffset_eq_next {off : Nat} {s t : State} {o : Host.Outcome State Fault Refusal} :
    guardOffset off s o = .next t ↔ offsetOk s.cfg off = true ∧ o = .next t := by
  unfold guardOffset
  split <;> simp_all

theorem guarded_eq_next {g : Program} {s t : State} {o : Host.Outcome State Fault Refusal} :
    g.guarded s o = .next t ↔
      (∀ off ∈ g.raw.toList ++ g.regs.map (regOffset s.cfg), offsetOk s.cfg off = true) ∧ o = .next t := by
  unfold Program.guarded
  rw [guardRegs_eq_next]
  cases g.raw with
  | none => simp
  | some off =>
    dsimp only
    rw [guardOffset_eq_next]
    simp only [Option.toList_some, List.cons_append, List.nil_append, List.mem_cons, List.mem_map, forall_eq_or_imp,
      forall_exists_index, and_imp, forall_apply_eq_imp_iff₂]
    tauto

/-- A program whose offsets R65 admits runs. -/
theorem guarded_of_ok {g : Program} {s : State} {o : Host.Outcome State Fault Refusal}
    (h : ∀ off ∈ g.raw.toList ++ g.regs.map (regOffset s.cfg), offsetOk s.cfg off = true) : g.guarded s o = o := by
  unfold Program.guarded
  rw [guardRegs_of_ok fun r hr => h _ (by simp; exact .inr ⟨r, hr, rfl⟩)]
  cases hg : g.raw with
  | none => rfl
  | some off => exact guardOffset_of_ok (h off (by simp [hg]))

/-! ## Returning a status -/

/-- An operation that ends with a next state ended its parts well, and returned exactly its reply and its events. -/
theorem runOp_eq_next {k : Mnemonic} {res : Res Reply} {back : Ctx → State → State} {s s' : State} :
    runOp k res back s = .next s' ↔ ∃ r c t, res = .ok r c t ∧ s' = finish k r (shown t) (back c s) := by
  cases res with
  | ok r c t =>
    simp only [runOp, Host.Outcome.next.injEq, Res.ok.injEq]
    constructor
    · rintro rfl
      exact ⟨r, c, t, ⟨rfl, rfl, rfl⟩, rfl⟩
    · rintro ⟨_, _, _, ⟨rfl, rfl, rfl⟩, rfl⟩
      rfl
  | fault f pos c t => simp [runOp]
  | refused r => simp [runOp]

/-- The meaning of an operation is its program, for one that names a module. -/
theorem exec_eq_run {i : Instr} {s : State} {m : Nat} {g : Program} (h : programOf s.cfg i = some (m, g)) :
    exec i s = g.run m s := by
  cases i <;> cases h <;> rfl

/-- The module of an operation's program is the one it names. -/
theorem programOf_module {p : Params} {i : Instr} {m : Nat} {g : Program} (h : programOf p i = some (m, g)) :
    i.module? = some m := by
  cases i <;> cases h <;> rfl

theorem programOf_op {p : Params} {i : Instr} {m : Nat} {g : Program} (h : programOf p i = some (m, g)) :
    g.op = i.mnemonic := by
  cases i <;> cases h <;> rfl

/-- Every operation that names a module has a program. -/
theorem programOf_isSome {p : Params} {i : Instr} {m : Nat} (h : i.module? = some m) : ∃ g, programOf p i = some (m, g) := by
  cases i <;> cases h <;> exact ⟨_, rfl⟩

/-- An operation on a module that ends with a next state: no such module and a failure of the index check, or the module was
idle and served it. -/
theorem runOn_eq_next {g : Program} {m : Nat} {s s' : State} (h : g.runOn m s = .next s') :
    (s.module? m = none ∧ ∃ r c t,
      failWith ⟨.invalidArgument, .moduleIndex⟩ g.reads g.buf ⟨s.cfg, .probe 0, startPos g.op⟩
        ⟨scratchHandle s.disc none none, s.disc⟩ = .ok r c t ∧ s' = finish g.op r (shown t) { s with disc := c.env }) ∨
    (∃ x, s.module? m = some x ∧ x.pos = .idle ∧ ∃ r c t, g.result s.cfg s.isOffline m x.ctx = .ok r c t ∧
      s' = finish g.op r (shown t) (s.putModule m { x with handle := c.handle, pos := .idle, env := c.env })) := by
  unfold Program.runOn at h
  split at h
  · rename_i hm
    exact .inl ⟨hm, runOp_eq_next.mp h⟩
  · rename_i x hm
    split at h
    · rename_i hp
      exact .inr ⟨x, hm, hp, runOp_eq_next.mp h⟩
    · cases h

/-- On an online module whose checks pass, a program that runs `Ready` runs its body. -/
theorem runOn_online {g : Program} {m : Nat} {s : State} {x : Module} (h : s.Online m x) (hg : g.ready = true)
    (hc : firstFailure g.checks = none) {r : Reply} {c : Ctx} {t : List Stage}
    (hb : g.body ⟨s.cfg, .module m, startPos g.op⟩ x.ctx = .ok r c t) :
    g.runOn m s =
      .next (finish g.op r (shown t) (s.putModule m { x with handle := c.handle, pos := .idle, env := c.env })) := by
  obtain ⟨hm, hp, ho, hw⟩ := h
  have hw' : x.ctx.handle.win.isNone = false := by
    cases hx : x.handle.win <;> simp_all [Module.ctx]
  have hbody : mapped g.reads g.buf g.body ⟨s.cfg, .module m, startPos g.op⟩ x.ctx = .ok r c t := by
    have := Op.bind_of_ok (sc := ⟨s.cfg, .module m, startPos g.op⟩) (c := x.ctx) (x := Op.getHandle)
      (f := fun h => if h.win.isNone then failWith ⟨.invalidArgument, .closed⟩ g.reads g.buf else g.body) (b := r) (c₂ := c)
      (t₂ := t) rfl (by simpa [hw'] using hb)
    simpa [mapped] using this
  have hr : g.result s.cfg s.isOffline m x.ctx = .ok r c t := by
    simpa [Program.result, Program.code, preamble, hc, ho, hg] using hbody
  simp only [Program.runOn, hm, hp, if_true]
  exact runOp_eq_next.mpr ⟨r, c, t, hr, rfl⟩

/-! ## The frame principle -/

/-- A relation between the contexts before and after a part of an operation and the steps it made, that holds of doing nothing and
composes; and, for each fault, one between the contexts before a part and where it stops: stopping at once with a model fault of
60_exceptions.md R261, or where the vendor library no longer returns. -/
structure Composes (R : Ctx → Ctx → List Stage → Prop) (F : Fault → Ctx → Ctx → List Stage → Prop) : Prop where
  refl : ∀ c, R c c []
  trans : ∀ {c₁ c₂ c₃ t₁ t₂}, R c₁ c₂ t₁ → R c₂ c₃ t₂ → R c₁ c₃ (t₁ ++ t₂)
  stop : ∀ f c, f ≠ .vendorHang → F f c c []
  hang : ∀ c, c.env.vendorLeft = some 0 → F .vendorHang c c []
  transStop : ∀ {f c₁ c₂ c₃ t₁ t₂}, R c₁ c₂ t₁ → F f c₂ c₃ t₂ → F f c₁ c₃ (t₁ ++ t₂)

/-- Whenever the part ends well, `R` holds; whenever it stops with a fault, `F` does. -/
structure Op.Keeps (R : Ctx → Ctx → List Stage → Prop) (F : Fault → Ctx → Ctx → List Stage → Prop) (x : Op α) : Prop where
  ok : ∀ sc c a c' t, x sc c = .ok a c' t → R c c' t
  fault : ∀ sc c f pos c' t, x sc c = .fault f pos c' t → F f c c' t

section keeps
variable {R : Ctx → Ctx → List Stage → Prop} {F : Fault → Ctx → Ctx → List Stage → Prop} (hR : Composes R F)
include hR

theorem Op.keeps_pure (a : α) : (Op.pure a).Keeps R F :=
  ⟨by rintro sc c a' c' t ⟨⟩; exact hR.refl c, by rintro sc c f pos c' t ⟨⟩⟩

theorem Op.keeps_bind {x : Op α} {f : α → Op β} (hx : x.Keeps R F) (hf : ∀ a, (f a).Keeps R F) : (x.bind f).Keeps R F where
  ok sc c b c' t h := by
    obtain ⟨a, c₁, t₁, t₂, h₁, h₂, rfl⟩ := Op.bind_eq_ok.mp h
    exact hR.trans (hx.ok _ _ _ _ _ h₁) ((hf a).ok _ _ _ _ _ h₂)
  fault sc c r pos c' t h := by
    obtain h | ⟨a, c₁, t₁, t₂, h₁, h₂, rfl⟩ := Op.bind_eq_fault.mp h
    · exact hx.fault _ _ _ _ _ _ h
    · exact hR.transStop (hx.ok _ _ _ _ _ h₁) ((hf a).fault _ _ _ _ _ _ h₂)

theorem Op.keeps_andThen {x : Op Unit} {y : Op β} (hx : x.Keeps R F) (hy : y.Keeps R F) : (x.andThen y).Keeps R F :=
  Op.keeps_bind hR hx fun _ => hy

theorem Op.keeps_map {f : α → β} {x : Op α} (hx : x.Keeps R F) : (x.map f).Keeps R F :=
  Op.keeps_bind hR hx fun _ => Op.keeps_pure hR _

theorem Op.keeps_ifOk {x : Op (Except Failure α)} {f : α → Op (Except Failure β)} (hx : x.Keeps R F)
    (hf : ∀ a, (f a).Keeps R F) : (x.ifOk f).Keeps R F :=
  Op.keeps_bind hR hx fun r =>
    match r with
    | .ok a => hf a
    | .error _ => Op.keeps_pure hR _

theorem Op.keeps_getHandle : Op.getHandle.Keeps R F :=
  ⟨by rintro sc c a c' t ⟨⟩; exact hR.refl c, by rintro sc c f pos c' t ⟨⟩⟩

theorem Op.keeps_fault {f : Fault} (hf : f ≠ .vendorHang) : (Op.fault f : Op α).Keeps R F :=
  ⟨by rintro sc c a c' t ⟨⟩, by rintro sc c g pos c' t ⟨⟩; exact hR.stop f c hf⟩

omit hR in
theorem Op.keeps_withCfg {f : Params → Op α} (hf : ∀ p, (f p).Keeps R F) : (Op.withCfg f).Keeps R F :=
  ⟨fun sc => (hf sc.cfg).ok sc, fun sc => (hf sc.cfg).fault sc⟩

omit hR in
theorem Op.keeps_placed {g : Place → Place} {x : Op α} (hx : x.Keeps R F) : (x.placed g).Keeps R F :=
  ⟨fun _ => hx.ok _, fun _ => hx.fault _⟩

omit hR in
theorem Op.keeps_inLoop {k : Nat} {x : Op α} (hx : x.Keeps R F) : (x.inLoop k).Keeps R F := Op.keeps_placed hx

omit hR in
theorem Op.keeps_inPhase {ph : Phase} {x : Op α} (hx : x.Keeps R F) : (Op.inPhase ph x).Keeps R F := Op.keeps_placed hx

theorem Op.keeps_each {f : Nat → α → Op Unit} (hf : ∀ i a, (f i a).Keeps R F) (l : List α) :
    ∀ i, (Op.each f i l).Keeps R F := by
  induction l with
  | nil => exact fun i => Op.keeps_pure hR _
  | cons a rest ih => exact fun i => Op.keeps_andThen hR (hf i a) (ih (i + 1))

theorem Op.keeps_times {f : Nat → Op β} (hf : ∀ i, (f i).Keeps R F) (n : Nat) : ∀ i, (Op.times f i n).Keeps R F := by
  induction n with
  | zero => exact fun i => Op.keeps_pure hR _
  | succ n ih => exact fun i => Op.keeps_bind hR (hf i) fun b => Op.keeps_map hR (ih (i + 1))

theorem Op.keeps_eachOk {f : Nat → α → Op (Except Failure β)} (hf : ∀ i a, (f i a).Keeps R F) (l : List α) :
    ∀ i, (Op.eachOk f i l).Keeps R F := by
  induction l with
  | nil => exact fun i => Op.keeps_pure hR _
  | cons a rest ih =>
    exact fun i => Op.keeps_ifOk hR (hf i a) fun b => Op.keeps_ifOk hR (ih (i + 1)) fun bs => Op.keeps_pure hR _

theorem pollFrom_keeps {place : Nat → Place → Place} {r : Reg} {pred : Word → Bool} {d : Nat}
    (hr : (regRead r).Keeps R F) (hs : ∀ ns, (sleep ns).Keeps R F) (n : Nat) :
    ∀ i, (pollFrom place r pred d i n).Keeps R F := by
  induction n with
  | zero => exact fun i => Op.keeps_pure hR _
  | succ n ih =>
    refine fun i => Op.keeps_bind hR (Op.keeps_placed hr) fun v => ?_
    split
    · exact Op.keeps_pure hR _
    · refine Op.keeps_andThen hR (Op.keeps_placed ?_) (ih (i + 1))
      unfold sleepIfPositive
      split
      · exact hs d
      · exact Op.keeps_pure hR _

end keeps

/-! ## The completion principle -/

/-- From a usable window, with every vendor call returning and the request held exactly when `held`, the part ends well, and
so it is afterwards. -/
def Op.Completes (held : Bool) (x : Op α) : Prop :=
  ∀ sc c, windowOk sc.cfg = true → c.env.vendorLeft = none → c.handle.hbrHeld = held →
    ∃ a c' t, x sc c = .ok a c' t ∧ c'.env.vendorLeft = none ∧ c'.handle.hbrHeld = held

section completes
variable {held : Bool}

theorem Op.completes_pure (a : α) : (Op.pure a).Completes held :=
  fun _ c _ hv hh => ⟨a, c, [], rfl, hv, hh⟩

theorem Op.completes_bind {x : Op α} {f : α → Op β} (hx : x.Completes held) (hf : ∀ a, (f a).Completes held) :
    (x.bind f).Completes held := by
  intro sc c hw hv hh
  obtain ⟨a, c₁, t₁, h₁, hv₁, hh₁⟩ := hx sc c hw hv hh
  obtain ⟨b, c₂, t₂, h₂, hv₂, hh₂⟩ := hf a sc c₁ hw hv₁ hh₁
  exact ⟨b, c₂, t₁ ++ t₂, Op.bind_of_ok h₁ h₂, hv₂, hh₂⟩

theorem Op.completes_andThen {x : Op Unit} {y : Op β} (hx : x.Completes held) (hy : y.Completes held) :
    (x.andThen y).Completes held := Op.completes_bind hx fun _ => hy

theorem Op.completes_map {f : α → β} {x : Op α} (hx : x.Completes held) : (x.map f).Completes held :=
  Op.completes_bind hx fun _ => Op.completes_pure _

theorem Op.completes_ifOk {x : Op (Except Failure α)} {f : α → Op (Except Failure β)} (hx : x.Completes held)
    (hf : ∀ a, (f a).Completes held) : (x.ifOk f).Completes held :=
  Op.completes_bind hx fun r =>
    match r with
    | .ok a => hf a
    | .error _ => Op.completes_pure _

theorem Op.completes_withCfg {f : Params → Op α} (hf : ∀ p, (f p).Completes held) : (Op.withCfg f).Completes held :=
  fun sc c hw hv hh => hf sc.cfg sc c hw hv hh

theorem Op.completes_placed {g : Place → Place} {x : Op α} (hx : x.Completes held) : (x.placed g).Completes held :=
  fun sc c hw hv hh => hx { sc with pos := g sc.pos } c hw hv hh

theorem Op.completes_inLoop {k : Nat} {x : Op α} (hx : x.Completes held) : (x.inLoop k).Completes held :=
  Op.completes_placed hx

theorem Op.completes_inPhase {ph : Phase} {x : Op α} (hx : x.Completes held) : (Op.inPhase ph x).Completes held :=
  Op.completes_placed hx

theorem Op.completes_getHandle : Op.getHandle.Completes held := fun _ c _ hv hh => ⟨c.handle, c, [], rfl, hv, hh⟩

theorem Op.completes_setHandle {f : Handle → Handle} (hf : ∀ h, (f h).hbrHeld = h.hbrHeld) :
    (Op.setHandle f).Completes held :=
  fun _ c _ hv hh => ⟨(), { c with handle := f c.handle }, [], rfl, hv, (hf c.handle).trans hh⟩

theorem Op.completes_each {f : Nat → α → Op Unit} (hf : ∀ i a, (f i a).Completes held) (l : List α) :
    ∀ i, (Op.each f i l).Completes held := by
  induction l with
  | nil => exact fun i => Op.completes_pure _
  | cons a rest ih => exact fun i => Op.completes_andThen (hf i a) (ih (i + 1))

theorem Op.completes_times {f : Nat → Op β} (hf : ∀ i, (f i).Completes held) (n : Nat) :
    ∀ i, (Op.times f i n).Completes held := by
  induction n with
  | zero => exact fun i => Op.completes_pure _
  | succ n ih => exact fun i => Op.completes_bind (hf i) fun b => Op.completes_map (ih (i + 1))

theorem Op.completes_eachOk {f : Nat → α → Op (Except Failure β)} (hf : ∀ i a, (f i a).Completes held) (l : List α) :
    ∀ i, (Op.eachOk f i l).Completes held := by
  induction l with
  | nil => exact fun i => Op.completes_pure _
  | cons a rest ih =>
    exact fun i => Op.completes_ifOk (hf i a) fun b => Op.completes_ifOk (ih (i + 1)) fun bs => Op.completes_pure _

theorem envRead_vendorLeft (e : Env) : (envRead e).2.vendorLeft = e.vendorLeft := by
  unfold envRead envNext
  split <;> rfl

theorem regRead_completes (r : Reg) : (regRead r).Completes held := by
  intro sc c hw hv hh
  exact ⟨_, _, _, regRead_of_ok hw, (envRead_vendorLeft c.env).trans hv, hh⟩

theorem regWrite_completes (r : Reg) (v : Word) : (regWrite r v).Completes held := by
  intro sc c hw hv hh
  exact ⟨_, _, _, regWrite_of_ok hw, hv, hh⟩

theorem sleep_completes (ns : Nat) : (sleep ns).Completes held := fun _ c _ hv hh => ⟨_, c, _, rfl, hv, hh⟩

theorem sleepIfPositive_completes (ns : Nat) : (sleepIfPositive ns).Completes held := by
  unfold sleepIfPositive
  split
  · exact sleep_completes ns
  · exact Op.completes_pure _

theorem vendorCall_completes {answer : Env → α × Env} {event : Handle → α → Event}
    (ha : ∀ e, (answer e).2.vendorLeft = e.vendorLeft) : (vendorCall answer event).Completes held := by
  intro sc c hw hv hh
  exact ⟨_, _, _, vendorCall_of_returns hv, (ha c.env).trans hv, hh⟩

theorem envNext_vendorLeft {q : List α} {free : Option Nat → Nat → α} {pop : Env → List α → Env}
    (hp : ∀ e q, (pop e q).vendorLeft = e.vendorLeft) (e : Env) : (envNext q free pop e).2.vendorLeft = e.vendorLeft := by
  unfold envNext
  split
  · exact hp e _
  · rfl

theorem pollUntil_completes (place : Nat → Place → Place) (r : Reg) (pred : Word → Bool) (n d : Nat) :
    (pollUntil place r pred n d).Completes held := by
  suffices h : ∀ n i, (pollFrom place r pred d i n).Completes held from h n 1
  intro n
  induction n with
  | zero => exact fun i => Op.completes_pure _
  | succ n ih =>
    refine fun i => Op.completes_bind (Op.completes_placed (regRead_completes r)) fun v => ?_
    split
    · exact Op.completes_pure _
    · exact Op.completes_andThen (Op.completes_placed (sleepIfPositive_completes d)) (ih (i + 1))

theorem csrModify_completes (set clr : Word) : (csrModify set clr).Completes held :=
  Op.completes_bind (regRead_completes _) fun _ => regWrite_completes _ _

theorem csrSet_completes (f : CsrMap → Fin 32) : (csrSet f).Completes held :=
  Op.completes_withCfg fun _ => csrModify_completes _ _

theorem csrClear_completes (f : CsrMap → Fin 32) : (csrClear f).Completes held :=
  Op.completes_withCfg fun _ => csrModify_completes _ _

theorem spoil_completes (n : Nat) (b : Buf) : (spoil n b).Completes held := by
  intro sc c hw hv hh
  cases b with
  | none => exact ⟨_, c, [], rfl, hv, hh⟩
  | some ws => exact ⟨_, _, [], rfl, hv, hh⟩

theorem failWith_completes (f : Failure) (n : Nat) (b : Buf) : (failWith f n b).Completes held :=
  Op.completes_map (spoil_completes n b)

theorem replyWords_completes (n : Nat) (b : Buf) (r : Except Failure (List Word)) : (replyWords n b r).Completes held :=
  match r with
  | .ok _ => Op.completes_pure _
  | .error f => failWith_completes f n b

end completes

end Sys2Proof.Machine
end

