-- ==== Sys2Proof/Laws/Complete.lean ====
section
/-! SUPPORT. Every body ends well where nothing stops it: a usable window, vendor calls that return, no request held
(`Op.Completes false`). -/

namespace Sys2Proof.Machine

variable {α : Type} {held : Bool}

/-! ## HBR and DMA -/

theorem setHbr_apply (b : Bool) (sc : Scope) (c : Ctx) :
    setHbr b sc c = .ok () { c with handle := { c.handle with hbrHeld := b } } [] := rfl

/-- A done while the request is held writes `HBR_DONE` and releases it (42_hbr_dma.md R151). -/
theorem hbrDone_of_held {sc : Scope} {c : Ctx} (hw : windowOk sc.cfg = true) (hh : c.handle.hbrHeld = true) :
    hbrDone sc c = .ok () { c with handle := { c.handle with hbrHeld := false } }
      (stepOf sc c (some .hbrDone) (.wr sc.who (regOffset sc.cfg .hbrDone) sc.cfg.hbrDoneVal)) := by
  refine Op.bind_of_ok (x := Op.getHandle) (t₁ := []) rfl ?_
  simp only [hh, if_true]
  exact Op.andThen_of_ok (x := Op.withCfg fun p => regWrite .hbrDone p.hbrDoneVal) (t₂ := []) (regWrite_of_ok hw)
    (setHbr_apply false sc c)

/-- While no request is held, a request writes `HBR_REQ`, holds, and polls for the grant. -/
theorem hbrRequest_eq_of_free {sc : Scope} {c : Ctx} (hh : c.handle.hbrHeld = false) :
    hbrRequest sc c =
      (Op.withCfg fun p => regWrite .hbrReq p.hbrReqVal).andThen ((setHbr true).andThen hbrGrantPoll) sc c := by
  simp only [hbrRequest, Op.bind, Op.getHandle_apply, hh, if_false, Bool.false_eq_true]
  split <;> simp_all

/-- A request while none is held ends well, and the request is held afterwards exactly when it succeeded (42_hbr_dma.md R150). -/
theorem hbrRequest_of_free {sc : Scope} {c : Ctx} (hw : windowOk sc.cfg = true) (hv : c.env.vendorLeft = none)
    (hh : c.handle.hbrHeld = false) :
    ∃ r c' t, hbrRequest sc c = .ok r c' t ∧ c'.env.vendorLeft = none ∧ c'.handle.hbrHeld = isOk r := by
  have h₁ : (Op.withCfg fun p => regWrite .hbrReq p.hbrReqVal) sc c = .ok () c
      (stepOf sc c (some .hbrReq) (.wr sc.who (regOffset sc.cfg .hbrReq) sc.cfg.hbrReqVal)) := regWrite_of_ok hw
  suffices h : ∃ r c' t, hbrGrantPoll sc { c with handle := { c.handle with hbrHeld := true } } = .ok r c' t ∧
      c'.env.vendorLeft = none ∧ c'.handle.hbrHeld = isOk r by
    obtain ⟨r, c', t, hp, hv', hh'⟩ := h
    have h₂ := Op.andThen_of_ok h₁ (Op.andThen_of_ok (setHbr_apply true sc c) hp)
    exact ⟨r, c', _, (hbrRequest_eq_of_free hh).trans h₂, hv', hh'⟩
  unfold hbrGrantPoll
  rw [Op.withCfg_apply]
  split
  · obtain ⟨r, c', t, hp, hv', hh'⟩ := pollUntil_completes (held := true) posLoop .hbrStat (allSet sc.cfg.hbrGrantMask)
      sc.cfg.hbrGrantPolls sc.cfg.hbrGrantDelayNs sc { c with handle := { c.handle with hbrHeld := true } } hw hv rfl
    cases r with
    | some x => exact ⟨.ok (), c', t ++ [], Op.bind_of_ok hp rfl, hv', hh'⟩
    | none =>
      exact ⟨.error ⟨.protocolTimeout, .hbrGrant⟩, _, _,
        Op.bind_of_ok hp (Op.andThen_of_ok (hbrDone_of_held hw hh') rfl), hv', rfl⟩
  · exact ⟨.ok (), _, _, rfl, hv, rfl⟩

theorem withHbr_completes {x : Op α} (hx : x.Completes true) : (withHbr x).Completes false := by
  intro sc c hw hv hh
  obtain ⟨r, c₁, t₁, h₁, hv₁, hh₁⟩ := hbrRequest_of_free hw hv hh
  cases r with
  | error f => exact ⟨.error f, c₁, t₁, Op.ifOk_of_error h₁, hv₁, hh₁⟩
  | ok u =>
    obtain ⟨a, c₂, t₂, h₂, hv₂, hh₂⟩ := hx sc c₁ hw hv₁ hh₁
    exact ⟨.ok a, _, _, Op.ifOk_of_ok h₁ (Op.bind_of_ok h₂ (Op.map_of_ok (hbrDone_of_held hw hh₂))), hv₂, rfl⟩

theorem noAnswer_vendorLeft (e : Env) : (noAnswer e).2.vendorLeft = e.vendorLeft := rfl

theorem envDmaOpen_vendorLeft (e : Env) : (envDmaOpen e).2.vendorLeft = e.vendorLeft := by
  unfold envDmaOpen envNext
  split <;> rfl

theorem envXfer_vendorLeft (e : Env) : (envXfer e).2.vendorLeft = e.vendorLeft := by
  unfold envXfer envNext
  split <;> rfl

theorem envClose_vendorLeft (e : Env) : (envClose e).2.vendorLeft = e.vendorLeft := by
  unfold envClose envNext
  split <;> rfl

theorem setDma_completes (ch : Option Channel) : (setDma ch).Completes held := Op.completes_setHandle fun _ => rfl

theorem dmaPrime_completes (kind : Kind) (count : Nat) : (dmaPrime kind count).Completes held := by
  cases kind with
  | dsp => exact Op.completes_andThen (regWrite_completes _ _) <| Op.completes_withCfg fun p =>
      Op.completes_map (pollUntil_completes _ _ _ _ _)
  | ext => exact Op.completes_pure _
  | fifo => exact Op.completes_pure _

theorem deliver_completes (n : Nat) (data : List Word) : (deliver n data).Completes held :=
  fun _ _ _ hv hh => ⟨_, _, _, rfl, hv, hh⟩

theorem dmaTransfer_completes (ch : Channel) (port : Reg) (host : List Word) (count : Nat) (dir : Dir) :
    (dmaTransfer ch port host count dir).Completes held := by
  intro sc c hw hv hh
  have hx : (vendorCall envXfer fun _ a => .dmaXfer ch
      { dir, localAddress := regOffset sc.cfg port, hostBuffer := host, byteCount := 4 * count } sc.cfg.dmaTimeoutMs
      a.result).Completes held := vendorCall_completes envXfer_vendorLeft
  unfold dmaTransfer
  rw [Op.withCfg_apply, if_pos (windowOk_reg hw port)]
  refine Op.completes_bind hx (fun a => ?_) sc c hw hv hh
  split
  · split
    · exact Op.completes_map (deliver_completes _ _)
    · exact Op.completes_pure _
  · exact Op.completes_pure _
  · exact Op.completes_pure _

theorem dmaCloseCall_completes (ch : Channel) : (dmaCloseCall ch).Completes held :=
  vendorCall_completes envClose_vendorLeft

theorem closeRetry_completes (ch : Channel) : (closeRetry ch).Completes held :=
  Op.completes_andThen (vendorCall_completes noAnswer_vendorLeft) <|
    Op.completes_bind (dmaCloseCall_completes ch) fun _ => Op.completes_map (setDma_completes none)

theorem closeChannel_completes (ch : Channel) : (closeChannel ch).Completes held := by
  refine Op.completes_bind (dmaCloseCall_completes ch) fun c => ?_
  cases c with
  | ok => exact Op.completes_map (setDma_completes none)
  | inProgress => exact closeRetry_completes ch
  | error => exact closeRetry_completes ch

theorem dmaBurst_completes (kind : Kind) (port : Reg) (host : List Word) (count : Nat) (dir : Dir) :
    (dmaBurst kind port host count dir).Completes held := by
  refine Op.completes_withCfg fun p =>
    Op.completes_bind (vendorCall_completes envDmaOpen_vendorLeft) fun o => ?_
  split
  · exact Op.completes_pure _
  · exact Op.completes_andThen (setDma_completes _) <|
      Op.completes_bind (Op.completes_ifOk (dmaPrime_completes kind count) fun _ => dmaTransfer_completes _ _ _ _ _)
        fun _ => Op.completes_map (closeChannel_completes _)

/-! ## Processor memory, FIFO, external memory -/

theorem writeAll_completes (r : Reg) (ws : List Word) : (writeAll r ws).Completes held :=
  Op.completes_each (fun _ _ => Op.completes_inLoop (regWrite_completes _ _)) ws 0

theorem resited_completes {site : Site} {x : Op (Except Failure α)} (hx : x.Completes held) :
    (resited site x).Completes held := Op.completes_map hx

theorem dspReadOne_completes (a : Word) : (dspReadOne a).Completes false :=
  withHbr_completes <| Op.completes_andThen (regWrite_completes _ _) (regRead_completes _)

theorem blockRead_completes (a : Word) (host : List Word) (w : Nat) : (blockRead a host w).Completes false :=
  Op.completes_map <| withHbr_completes <| Op.completes_andThen (csrClear_completes _) <|
    Op.completes_andThen (regWrite_completes _ _) (dmaBurst_completes _ _ _ _ _)

theorem singleRead_completes (a : Word) (r : Nat) : (singleRead a r).Completes false := by
  refine Op.completes_withCfg fun p => ?_
  split
  · exact withHbr_completes <| Op.completes_andThen (csrClear_completes _) <|
      Op.completes_andThen (regWrite_completes _ _) <|
      Op.completes_times (fun _ => Op.completes_inLoop (regRead_completes _)) _ _
  · exact Op.completes_eachOk (fun _ _ => Op.completes_inLoop (dspReadOne_completes _)) _ _

theorem dspReadBody_completes (a : Word) (count : Nat) (host : List Word) : (dspReadBody a count host).Completes false := by
  refine Op.completes_withCfg fun p => ?_
  split
  · exact Op.completes_ifOk (dspReadOne_completes a) fun _ => Op.completes_pure _
  · refine Op.completes_ifOk
      (Op.completes_eachOk (fun _ _ => resited_completes (Op.completes_inLoop (blockRead_completes _ _ _))) _ _) fun _ => ?_
    refine Op.completes_ifOk ?_ fun _ => Op.completes_pure _
    unfold dspRemainder
    split
    · refine resited_completes ?_
      split
      · exact singleRead_completes _ _
      · exact blockRead_completes _ _ _
    · exact Op.completes_pure _

theorem fifoDrainBody_completes (count : Nat) (host : List Word) : (fifoDrainBody count host).Completes held := by
  unfold fifoDrainBody
  split
  · exact Op.completes_pure _
  · refine Op.completes_andThen (regWrite_completes _ _) <| Op.completes_withCfg fun p =>
      Op.completes_bind (pollUntil_completes _ _ _ _ _) fun r => ?_
    split
    · exact Op.completes_pure _
    · exact resited_completes (dmaBurst_completes _ _ _ _ _)

theorem withExtMem_completes {x : Op α} (hx : x.Completes held) : (withExtMem x).Completes held :=
  Op.completes_andThen (csrSet_completes _) <| Op.completes_bind hx fun _ => Op.completes_map (csrClear_completes _)

theorem extReadBody_completes (a : Word) (count : Nat) (host : List Word) : (extReadBody a count host).Completes held := by
  refine Op.completes_andThen (regWrite_completes _ _) <| Op.completes_andThen (regWrite_completes _ _) <|
    Op.completes_withCfg fun p => Op.completes_ifOk ?_ fun _ => resited_completes (dmaBurst_completes _ _ _ _ _)
  split
  · exact Op.completes_map (pollUntil_completes _ _ _ _ _)
  · exact Op.completes_pure _

theorem extClearBody_completes (a : Word) (count : Nat) : (extClearBody a count).Completes held :=
  Op.completes_andThen (regWrite_completes _ _) <| Op.completes_andThen (regWrite_completes _ _) <|
    Op.completes_withCfg fun _ => Op.completes_map (pollUntil_completes _ _ _ _ _)

/-! ## Boot -/

theorem setBoot_completes (f : Boot → Boot) : (setBoot f).Completes held := Op.completes_setHandle fun _ => rfl

theorem fpgaAttempt_completes (t : Target) (image : List Word) (a : Nat) : (fpgaAttempt t image a).Completes held := by
  refine Op.completes_andThen (Op.completes_inPhase <| Op.completes_withCfg fun p =>
    Op.completes_andThen (regWrite_completes _ _) <|
    Op.completes_andThen (sleepIfPositive_completes _) (regWrite_completes _ _)) <|
    Op.completes_bind (Op.completes_withCfg fun p => Op.completes_map (pollUntil_completes _ _ _ _ _)) fun ready => ?_
  split
  · exact Op.completes_andThen
      (Op.completes_withCfg fun p => Op.completes_each (fun _ _ => Op.completes_inPhase <|
        Op.completes_andThen (regWrite_completes _ _) (sleep_completes _)) _ _)
      (Op.completes_inPhase <| Op.completes_withCfg fun p => Op.completes_map (regRead_completes _))
  · exact Op.completes_pure _

theorem fpgaBoot_completes (t : Target) (image : List Word) (site : Site) : (fpgaBoot t image site).Completes held := by
  refine Op.completes_withCfg fun p => ?_
  suffices h : ∀ n a, (fpgaAttempts t image site a n).Completes held from h _ _
  intro n
  induction n with
  | zero => exact fun a => Op.completes_pure _
  | succ n ih =>
    refine fun a => Op.completes_bind (fpgaAttempt_completes t image a) fun ok => ?_
    split
    · exact Op.completes_pure _
    · exact ih (a + 1)

theorem clockDomainReset_completes : clockDomainReset.Completes held :=
  Op.completes_withCfg fun _ => Op.completes_andThen (regWrite_completes _ _) <|
    Op.completes_andThen (sleepIfPositive_completes _) (regWrite_completes _ _)

theorem hbrWriteGroup_completes (a : Word) (ws : List Word) : (hbrWriteGroup a ws).Completes false :=
  withHbr_completes <| Op.completes_andThen (regWrite_completes _ _) (writeAll_completes _ _)

theorem kernelDownload_completes (a : Nat) (w : List Word) : (kernelDownload a w).Completes false :=
  Op.completes_withCfg fun _ => Op.completes_eachOk (fun _ _ => Op.completes_inPhase (hbrWriteGroup_completes _ _)) _ _

theorem tagStream_completes (fuel : Nat) : ∀ ws, (tagStream fuel ws).Completes false := by
  induction fuel with
  | zero =>
    intro ws
    rcases ws with _ | ⟨_, _ | ⟨_, _ | ⟨_, _⟩⟩⟩ <;> exact Op.completes_pure _
  | succ fuel ih =>
    intro ws
    match ws with
    | [] => exact Op.completes_pure _
    | [_] => exact Op.completes_pure _
    | [_, _] => exact Op.completes_pure _
    | tag :: count :: addr :: more =>
      refine Op.completes_withCfg fun p => ?_
      split
      · exact Op.completes_pure _
      · split
        · exact Op.completes_pure _
        · dsimp only
          split
          · exact Op.completes_pure _
          · refine Op.completes_ifOk
              (Op.completes_eachOk (fun _ _ => Op.completes_inLoop (hbrWriteGroup_completes _ _)) _ _) fun _ => ?_
            split
            · exact Op.completes_pure _
            · exact ih _
            · exact ih _

theorem cfgVerify_completes (a j : Nat) (p : CfgPair) (n : Nat) : ∀ k, (cfgVerify a j p k n).Completes false := by
  induction n with
  | zero => exact fun k => Op.completes_pure _
  | succ n ih =>
    refine fun k => Op.completes_ifOk (Op.completes_inPhase <| Op.completes_withCfg fun q =>
      Op.completes_ifOk ?_ fun _ => dspReadOne_completes _) fun r => ?_
    · split
      · exact hbrWriteGroup_completes _ _
      · exact Op.completes_pure _
    · split
      · exact Op.completes_pure _
      · exact ih (k + 1)

theorem pollPudone_completes (a n : Nat) : ∀ k, (pollPudone a k n).Completes false := by
  induction n with
  | zero => exact fun k => Op.completes_pure _
  | succ n ih =>
    refine fun k => Op.completes_withCfg fun p =>
      Op.completes_ifOk (Op.completes_inPhase (dspReadOne_completes _)) fun v => ?_
    split
    · exact Op.completes_pure _
    · exact Op.completes_andThen (Op.completes_inPhase (sleep_completes _)) (ih (k + 1))

theorem dspAttempt_completes (w : List Word) (a : Nat) : (dspAttempt w a).Completes false :=
  Op.completes_withCfg fun _ =>
    Op.completes_andThen (Op.completes_inPhase <| Op.completes_andThen (csrModify_completes _ _) (sleep_completes _)) <|
    Op.completes_andThen (Op.completes_inPhase (csrClear_completes _)) <|
    Op.completes_ifOk (Op.completes_eachOk (fun _ _ => cfgVerify_completes _ _ _ _ _) _ _) fun _ =>
    Op.completes_ifOk (kernelDownload_completes a w) fun _ =>
    Op.completes_ifOk (Op.completes_inPhase (tagStream_completes _ _)) fun _ =>
    Op.completes_andThen (Op.completes_inPhase (csrClear_completes _)) (pollPudone_completes a _ 1)

theorem dspBootFrom_completes (w : List Word) (more : Nat) : ∀ a, (dspBootFrom w a more).Completes false := by
  induction more with
  | zero => exact fun a => dspAttempt_completes w a
  | succ more ih =>
    refine fun a => Op.completes_bind (dspAttempt_completes w a) fun r => ?_
    split
    · exact Op.completes_pure _
    · split
      · exact Op.completes_pure _
      · exact ih (a + 1)

theorem bootCommBody_completes (image : List Word) : (bootCommBody image).Completes held :=
  Op.completes_andThen (setBoot_completes _) <| Op.completes_bind (fpgaBoot_completes _ _ _) fun _ =>
    Op.completes_map (setBoot_completes _)

theorem bootSpBody_completes (image : List Word) : (bootSpBody image).Completes held :=
  Op.completes_andThen (setBoot_completes _) <| Op.completes_ifOk (fpgaBoot_completes _ _ _) fun _ =>
    Op.completes_ifOk (fpgaBoot_completes _ _ _) fun _ =>
    Op.completes_andThen clockDomainReset_completes (Op.completes_map (setBoot_completes _))

theorem bootDspBody_completes (w : List Word) : (bootDspBody w).Completes false := by
  refine Op.completes_andThen (setBoot_completes _) <| Op.completes_withCfg fun p =>
    Op.completes_bind (dspBootFrom_completes w _ 1) fun r => ?_
  split
  · exact Op.completes_map (setBoot_completes _)
  · exact Op.completes_pure _

theorem stageIf_completes (b : Bool) {x : Op (Except Failure Unit)} (hx : x.Completes held) :
    (stageIf b x).Completes held := by
  unfold stageIf
  split
  · exact hx
  · exact Op.completes_pure _

theorem bootModuleBody_completes (images : Images) (pattern : Word) : (bootModuleBody images pattern).Completes false :=
  Op.completes_andThen (setBoot_completes _) <|
    Op.completes_ifOk (stageIf_completes _ (bootCommBody_completes _)) fun _ =>
    Op.completes_ifOk (stageIf_completes _ (bootSpBody_completes _)) fun _ =>
    Op.completes_ifOk (stageIf_completes _ (bootDspBody_completes _)) fun _ => Op.completes_map (setBoot_completes _)

/-! ## Serial -/

theorem setSer_completes (f : SerRec → SerRec) : (setSer f).Completes held := Op.completes_setHandle fun _ => rfl

theorem settle_completes : settle.Completes held := Op.completes_withCfg fun _ => sleep_completes _

theorem drive_completes (l : Lines) : (drive l).Completes held :=
  Op.completes_andThen (Op.completes_withCfg fun _ => regWrite_completes _ _) <|
    Op.completes_andThen (Op.completes_setHandle fun _ => rfl) settle_completes

theorem sample_completes : sample.Completes held :=
  Op.completes_bind (regRead_completes _) fun _ => Op.completes_andThen settle_completes <|
    Op.completes_withCfg fun _ => Op.completes_pure _

theorem sendBit_completes (d : Bool) : (sendBit d).Completes held :=
  Op.completes_andThen (Op.completes_bind Op.completes_getHandle fun _ => drive_completes _) <|
    Op.completes_andThen (drive_completes _) (drive_completes _)

theorem recvBit_completes : recvBit.Completes held :=
  Op.completes_andThen (drive_completes _) <| Op.completes_bind sample_completes fun _ =>
    Op.completes_map (drive_completes _)

theorem serStart_completes : serStart.Completes held :=
  Op.completes_inPhase <| Op.completes_andThen (drive_completes _) (drive_completes _)

theorem serStop_completes : serStop.Completes held :=
  Op.completes_inPhase <| Op.completes_andThen (drive_completes _) <|
    Op.completes_andThen (drive_completes _) (drive_completes _)

theorem serAckSend_completes : serAckSend.Completes held :=
  Op.completes_inPhase <| Op.completes_withCfg fun _ => Op.completes_andThen (drive_completes _) <|
    Op.completes_andThen (drive_completes _) (drive_completes _)

theorem serAckWait_completes : serAckWait.Completes held :=
  Op.completes_inPhase <| Op.completes_andThen (drive_completes _) <| Op.completes_bind sample_completes fun _ =>
    Op.completes_andThen (drive_completes _) (setSer_completes _)

theorem endSer_completes (f : SerRec → α) (d : α) : (endSer f d).Completes held :=
  Op.completes_bind Op.completes_getHandle fun _ => Op.completes_map (Op.completes_setHandle fun _ => rfl)

theorem serWriteBody_completes (b : Byte) : (serWriteBody b).Completes held :=
  Op.completes_andThen (Op.completes_setHandle fun _ => rfl) <| Op.completes_andThen serStart_completes <|
    Op.completes_andThen (Op.completes_each (fun _ _ => Op.completes_inPhase <|
      Op.completes_andThen (setSer_completes _) (sendBit_completes _)) _ _) <|
    Op.completes_andThen (Op.completes_inPhase (drive_completes _)) <|
    Op.completes_andThen serAckWait_completes <|
    Op.completes_andThen serStop_completes (endSer_completes _ _)

theorem serReadBody_completes : serReadBody.Completes held :=
  Op.completes_andThen (Op.completes_setHandle fun _ => rfl) <| Op.completes_andThen serStart_completes <|
    Op.completes_andThen (Op.completes_each (fun _ _ => Op.completes_inPhase <|
      Op.completes_andThen (setSer_completes _) <|
      Op.completes_bind recvBit_completes fun _ => setSer_completes _) _ _) <|
    Op.completes_andThen serAckSend_completes <|
    Op.completes_andThen serStop_completes (endSer_completes _ _)

theorem serReadSeqBody_completes (lead : List Byte) (n : Nat) : (serReadSeqBody lead n).Completes held :=
  Op.completes_ifOk
    (Op.completes_eachOk (fun _ b => Op.completes_map (Op.completes_inLoop (serWriteBody_completes b))) _ _) fun _ =>
    Op.completes_map (Op.completes_times (fun _ => Op.completes_inLoop serReadBody_completes) _ _)

/-! ## An operation whose body completes -/

/-- On a module that serves, a program that runs `Ready`, whose checks pass and whose body completes, answers a next state. -/
theorem runOn_completes {g : Program} {m : Nat} {s : State} {x : Module} (h : s.Serves m x) (hg : g.ready = true)
    (hc : firstFailure g.checks = none) (hb : g.body.Completes false) : ∃ t, g.runOn m s = .next t := by
  obtain ⟨ho, hw, hh, hv⟩ := h
  obtain ⟨r, c, t, hr, -, -⟩ := hb ⟨s.cfg, .module m, startPos g.op⟩ x.ctx hw hv hh
  exact ⟨_, runOn_online ho hg hc hr⟩

end Sys2Proof.Machine
end

