-- ==== Sys2Proof/Laws/Frame.lean ====
section
/-! SUPPORT. The frame of every operation's body, once: a relation that the atomic actions keep is kept by every body. -/

namespace Sys2Proof.Machine

/-- What a relation must allow to be kept by the bodies that drive the window, the HBR and the DMA engine: a read of a register
the block may read, a write of one it may write, a sleep, answers consumed, a request, a done, a whole DMA burst. Each event comes
with the step that issues it, from the context before it. -/
structure Atoms (R : Ctx → Ctx → List Stage → Prop) (F : Fault → Ctx → Ctx → List Stage → Prop) : Prop extends Composes R F where
  rd : ∀ (sc : Scope) (c : Ctx) (e : Env) (r : Reg) (off : Nat) (v : Word),
    regReadable r = true → e.id = c.env.id → R c { c with env := e } (stepOf sc c (some r) (.rd sc.who off v))
  wr : ∀ (sc : Scope) (c : Ctx) (r : Reg) (off : Nat) (v : Word),
    regWritable r = true → r ≠ .hbrReq → r ≠ .hbrDone → R c c (stepOf sc c (some r) (.wr sc.who off v))
  sleep : ∀ (sc : Scope) (c : Ctx) (ns : Nat), R c c (stepOf sc c none (.sleep ns))
  env : ∀ (c : Ctx) (e : Env), e.id = c.env.id → R c { c with env := e } []
  request : ∀ (sc : Scope) (c : Ctx) (off : Nat) (v : Word), c.handle.hbrHeld = false →
    R c { c with handle := { c.handle with hbrHeld := true } } (stepOf sc c (some .hbrReq) (.wr sc.who off v))
  done : ∀ (sc : Scope) (c : Ctx) (off : Nat) (v : Word), c.handle.hbrHeld = true →
    R c { c with handle := { c.handle with hbrHeld := false } } (stepOf sc c (some .hbrDone) (.wr sc.who off v))
  burst : ∀ kind port host count dir, (dmaBurst kind port host count dir).Keeps R F

theorem envNext_id {α : Type} {q : List α} {free : Option Nat → Nat → α} {pop : Env → List α → Env}
    (hp : ∀ e q, (pop e q).id = e.id) (e : Env) : (envNext q free pop e).2.id = e.id := by
  unfold envNext
  split
  · exact hp e _
  · rfl

theorem envRead_id (e : Env) : (envRead e).2.id = e.id := by
  unfold envRead envNext
  split <;> rfl

/-- A register access that ends well is one event at the register's offset. -/
theorem regRead_eq_ok {r : Reg} {sc : Scope} {c : Ctx} {v : Word} {c' : Ctx} {t : List Stage}
    (h : regRead r sc c = .ok v c' t) :
    v = (envRead c.env).1 ∧ c' = { c with env := (envRead c.env).2 } ∧
      t = stepOf sc c (some r) (.rd sc.who (regOffset sc.cfg r) v) := by
  simp only [regRead, Op.withCfg_apply, memRead] at h
  split at h
  · cases h
    exact ⟨rfl, rfl, rfl⟩
  · cases h

theorem regWrite_eq_ok {r : Reg} {w : Word} {sc : Scope} {c : Ctx} {u : Unit} {c' : Ctx} {t : List Stage}
    (h : regWrite r w sc c = .ok u c' t) :
    c' = c ∧ t = stepOf sc c (some r) (.wr sc.who (regOffset sc.cfg r) w) := by
  simp only [regWrite, Op.withCfg_apply, memWrite] at h
  split at h
  · cases h
    exact ⟨rfl, rfl⟩
  · cases h

/-- A register access never faults. -/
theorem regRead_ne_fault {r : Reg} {sc : Scope} {c : Ctx} {f : Fault} {pos : Place} {c' : Ctx} {t : List Stage} :
    regRead r sc c ≠ .fault f pos c' t := by
  simp only [regRead, Op.withCfg_apply, memRead]
  split <;> exact nofun

theorem regWrite_ne_fault {r : Reg} {w : Word} {sc : Scope} {c : Ctx} {f : Fault} {pos : Place} {c' : Ctx}
    {t : List Stage} : regWrite r w sc c ≠ .fault f pos c' t := by
  simp only [regWrite, Op.withCfg_apply, memWrite]
  split <;> exact nofun

variable {R : Ctx → Ctx → List Stage → Prop} {F : Fault → Ctx → Ctx → List Stage → Prop}

section atoms
variable (hA : Atoms R F)
include hA

theorem Atoms.regRead {r : Reg} (hr : regReadable r = true) : (regRead r).Keeps R F where
  ok sc c v c' t h := by
    obtain ⟨rfl, rfl, rfl⟩ := regRead_eq_ok h
    exact hA.rd sc c _ _ _ _ hr (envRead_id _)
  fault _ _ _ _ _ _ h := absurd h regRead_ne_fault

theorem Atoms.regWrite {r : Reg} {v : Word} (hr : regWritable r = true) (h₁ : r ≠ .hbrReq) (h₂ : r ≠ .hbrDone) :
    (regWrite r v).Keeps R F where
  ok sc c u c' t h := by
    obtain ⟨rfl, rfl⟩ := regWrite_eq_ok h
    exact hA.wr _ _ _ _ _ hr h₁ h₂
  fault _ _ _ _ _ _ h := absurd h regWrite_ne_fault

theorem Atoms.sleepKeeps (ns : Nat) : (Machine.sleep ns).Keeps R F :=
  ⟨by rintro sc c u c' t ⟨⟩; exact hA.sleep _ _ _, by rintro sc c f pos c' t ⟨⟩⟩

theorem Atoms.sleepIfPositive (ns : Nat) : (sleepIfPositive ns).Keeps R F := by
  unfold Machine.sleepIfPositive
  split
  · exact hA.sleepKeeps ns
  · exact Op.keeps_pure hA.toComposes _

theorem Atoms.poll {place : Nat → Place → Place} {r : Reg} {pred : Word → Bool} {n d : Nat}
    (hr : regReadable r = true) : (pollUntil place r pred n d).Keeps R F :=
  pollFrom_keeps hA.toComposes (hA.regRead hr) hA.sleepKeeps n 1

theorem Atoms.csrModify (set clr : Word) : (csrModify set clr).Keeps R F :=
  Op.keeps_bind hA.toComposes (hA.regRead rfl) fun _ => hA.regWrite rfl (by decide) (by decide)

theorem Atoms.csrSet (f : CsrMap → Fin 32) : (csrSet f).Keeps R F := Op.keeps_withCfg fun _ => hA.csrModify _ _

theorem Atoms.csrClear (f : CsrMap → Fin 32) : (csrClear f).Keeps R F := Op.keeps_withCfg fun _ => hA.csrModify _ _

theorem Atoms.spoil (n : Nat) (b : Buf) : (spoil n b).Keeps R F where
  ok sc c b' c' t h := by
    unfold Machine.spoil at h
    split at h
    · cases h
      exact hA.refl c
    · cases h
      exact hA.env c _ rfl
  fault sc c f pos c' t h := by
    unfold Machine.spoil at h
    split at h <;> cases h

theorem Atoms.failWith (f : Failure) (n : Nat) (b : Buf) : (failWith f n b).Keeps R F := Op.keeps_map hA.toComposes (hA.spoil n b)

theorem Atoms.replyWords (n : Nat) (b : Buf) (r : Except Failure (List Word)) : (replyWords n b r).Keeps R F :=
  match r with
  | .ok _ => Op.keeps_pure hA.toComposes _
  | .error f => hA.failWith f n b

theorem Atoms.hbrDone : hbrDone.Keeps R F where
  ok sc c u c' t h := by
    obtain ⟨hd, c₁, t₁, t₂, h₁, h₂, rfl⟩ := Op.bind_eq_ok.mp h
    cases h₁
    split at h₂
    · rename_i hheld
      obtain ⟨c₂, t₃, t₄, h₃, h₄, rfl⟩ := Op.andThen_eq_ok.mp h₂
      obtain ⟨rfl, rfl⟩ := regWrite_eq_ok h₃
      cases h₄
      simpa using hA.done sc _ _ _ hheld
    · cases h₂
  fault sc c f pos c' t h := by
    obtain h | ⟨hd, c₁, t₁, t₂, h₁, h₂, rfl⟩ := Op.bind_eq_fault.mp h
    · cases h
    · cases h₁
      split at h₂
      · obtain h₃ | ⟨u, c₂, t₃, t₄, -, h₄, -⟩ := Op.bind_eq_fault.mp h₂
        · exact absurd h₃ regWrite_ne_fault
        · cases h₄
      · cases h₂
        exact hA.stop _ _ nofun

theorem Atoms.hbrGrantPoll : hbrGrantPoll.Keeps R F := by
  refine Op.keeps_withCfg fun p => ?_
  split
  · refine Op.keeps_bind hA.toComposes (hA.poll rfl) fun r => ?_
    split
    · exact Op.keeps_pure hA.toComposes _
    · exact Op.keeps_andThen hA.toComposes hA.hbrDone (Op.keeps_pure hA.toComposes _)
  · exact Op.keeps_pure hA.toComposes _

/-- The write of a request and the holding of it. -/
theorem Atoms.requestHeld {sc : Scope} {c c₁ : Ctx} {u : Unit} {t : List Stage} (hheld : c.handle.hbrHeld = false)
    (h : (Machine.regWrite .hbrReq sc.cfg.hbrReqVal) sc c = .ok u c₁ t) :
    R c { c₁ with handle := { c₁.handle with hbrHeld := true } } t := by
  obtain ⟨rfl, rfl⟩ := regWrite_eq_ok h
  exact hA.request sc _ _ _ hheld

theorem Atoms.hbrRequest : hbrRequest.Keeps R F where
  ok sc c u c' t h := by
    obtain ⟨hd, c₁, t₁, t₂, h₁, h₂, rfl⟩ := Op.bind_eq_ok.mp h
    cases h₁
    split at h₂
    · cases h₂
    · rename_i hheld
      obtain ⟨c₂, t₃, t₄, h₃, h₄, rfl⟩ := Op.andThen_eq_ok.mp h₂
      obtain ⟨c₃, t₅, t₆, h₅, h₆, rfl⟩ := Op.andThen_eq_ok.mp h₄
      cases h₅
      simpa using hA.trans (hA.requestHeld (by simpa using hheld) h₃) (hA.hbrGrantPoll.ok _ _ _ _ _ h₆)
  fault sc c f pos c' t h := by
    obtain h | ⟨hd, c₁, t₁, t₂, h₁, h₂, rfl⟩ := Op.bind_eq_fault.mp h
    · cases h
    · cases h₁
      split at h₂
      · cases h₂
        exact hA.stop _ _ nofun
      · rename_i hheld
        obtain h₃ | ⟨u, c₂, t₃, t₄, h₃, h₄, rfl⟩ := Op.bind_eq_fault.mp h₂
        · exact absurd h₃ regWrite_ne_fault
        · obtain h₅ | ⟨u, c₃, t₅, t₆, h₅, h₆, rfl⟩ := Op.bind_eq_fault.mp h₄
          · cases h₅
          · cases h₅
            simpa using hA.transStop (hA.requestHeld (by simpa using hheld) h₃) (hA.hbrGrantPoll.fault _ _ _ _ _ _ h₆)

theorem Atoms.withHbr {α : Type} {x : Op α} (hx : x.Keeps R F) : (withHbr x).Keeps R F :=
  Op.keeps_ifOk hA.toComposes hA.hbrRequest fun _ => Op.keeps_bind hA.toComposes hx fun _ => Op.keeps_map hA.toComposes hA.hbrDone

theorem Atoms.writeAll {r : Reg} (hr : regWritable r = true) (h₁ : r ≠ .hbrReq) (h₂ : r ≠ .hbrDone) (ws : List Word) :
    (writeAll r ws).Keeps R F :=
  Op.keeps_each hA.toComposes (fun _ _ => Op.keeps_inLoop (hA.regWrite hr h₁ h₂)) ws 0

theorem Atoms.resited {α : Type} {site : Site} {x : Op (Except Failure α)} (hx : x.Keeps R F) : (resited site x).Keeps R F :=
  Op.keeps_map hA.toComposes hx

theorem Atoms.dspReadOne (a : Word) : (dspReadOne a).Keeps R F :=
  hA.withHbr <| Op.keeps_andThen hA.toComposes (hA.regWrite rfl (by decide) (by decide)) (hA.regRead rfl)

theorem Atoms.blockRead (a : Word) (host : List Word) (w : Nat) : (blockRead a host w).Keeps R F :=
  Op.keeps_map hA.toComposes <| hA.withHbr <| Op.keeps_andThen hA.toComposes (hA.csrClear _) <|
    Op.keeps_andThen hA.toComposes (hA.regWrite rfl (by decide) (by decide)) (hA.burst _ _ _ _ _)

theorem Atoms.singleRead (a : Word) (r : Nat) : (singleRead a r).Keeps R F := by
  refine Op.keeps_withCfg fun p => ?_
  split
  · exact hA.withHbr <| Op.keeps_andThen hA.toComposes (hA.csrClear _) <|
      Op.keeps_andThen hA.toComposes (hA.regWrite rfl (by decide) (by decide)) <|
      Op.keeps_times hA.toComposes (fun _ => Op.keeps_inLoop (hA.regRead rfl)) _ _
  · exact Op.keeps_eachOk hA.toComposes (fun _ _ => Op.keeps_inLoop (hA.dspReadOne _)) _ _

theorem Atoms.dspReadBody (a : Word) (count : Nat) (host : List Word) : (dspReadBody a count host).Keeps R F := by
  refine Op.keeps_withCfg fun p => ?_
  split
  · exact Op.keeps_ifOk hA.toComposes (hA.dspReadOne a) fun _ => Op.keeps_pure hA.toComposes _
  · refine Op.keeps_ifOk hA.toComposes
      (Op.keeps_eachOk hA.toComposes (fun _ _ => hA.resited (Op.keeps_inLoop (hA.blockRead _ _ _))) _ _) fun _ => ?_
    refine Op.keeps_ifOk hA.toComposes ?_ fun _ => Op.keeps_pure hA.toComposes _
    unfold dspRemainder
    split
    · refine hA.resited ?_
      split
      · exact hA.singleRead _ _
      · exact hA.blockRead _ _ _
    · exact Op.keeps_pure hA.toComposes _

theorem Atoms.dspWriteBody (a : Word) (ws : List Word) :
    (Machine.withHbr <| (Machine.csrClear fun c => c.autoIncDisable).andThen <|
      (Machine.regWrite .dspAddr a).andThen (Machine.writeAll .dspData ws)).Keeps R F :=
  hA.withHbr <| Op.keeps_andThen hA.toComposes (hA.csrClear _) <|
    Op.keeps_andThen hA.toComposes (hA.regWrite rfl (by decide) (by decide)) (hA.writeAll rfl (by decide) (by decide) _)

theorem Atoms.fifoDrainBody (count : Nat) (host : List Word) : (fifoDrainBody count host).Keeps R F := by
  unfold Machine.fifoDrainBody
  split
  · exact Op.keeps_pure hA.toComposes _
  · refine Op.keeps_andThen hA.toComposes (hA.regWrite rfl (by decide) (by decide)) <| Op.keeps_withCfg fun p =>
      Op.keeps_bind hA.toComposes (hA.poll rfl) fun r => ?_
    split
    · exact Op.keeps_pure hA.toComposes _
    · exact hA.resited (hA.burst _ _ _ _ _)

theorem Atoms.withExtMem {α : Type} {x : Op α} (hx : x.Keeps R F) : (withExtMem x).Keeps R F :=
  Op.keeps_andThen hA.toComposes (hA.csrSet _) <| Op.keeps_bind hA.toComposes hx fun _ => Op.keeps_map hA.toComposes (hA.csrClear _)

theorem Atoms.extWriteBody (a : Word) (ws : List Word) :
    (Machine.withExtMem <| (Machine.regWrite .extmemAddr a).andThen (Machine.writeAll .extmemData ws)).Keeps R F :=
  hA.withExtMem <|
    Op.keeps_andThen hA.toComposes (hA.regWrite rfl (by decide) (by decide)) (hA.writeAll rfl (by decide) (by decide) _)

theorem Atoms.extReadBody (a : Word) (count : Nat) (host : List Word) : (extReadBody a count host).Keeps R F := by
  refine Op.keeps_andThen hA.toComposes (hA.regWrite rfl (by decide) (by decide)) <|
    Op.keeps_andThen hA.toComposes (hA.regWrite rfl (by decide) (by decide)) <| Op.keeps_withCfg fun p =>
    Op.keeps_ifOk hA.toComposes ?_ fun _ => hA.resited (hA.burst _ _ _ _ _)
  split
  · exact Op.keeps_map hA.toComposes (hA.poll rfl)
  · exact Op.keeps_pure hA.toComposes _

theorem Atoms.extClearBody (a : Word) (count : Nat) : (extClearBody a count).Keeps R F :=
  Op.keeps_andThen hA.toComposes (hA.regWrite rfl (by decide) (by decide)) <|
    Op.keeps_andThen hA.toComposes (hA.regWrite rfl (by decide) (by decide)) <| Op.keeps_withCfg fun _ =>
    Op.keeps_map hA.toComposes (hA.poll rfl)

theorem Atoms.fpgaAttempt (t : Target) (image : List Word) (a : Nat) : (fpgaAttempt t image a).Keeps R F := by
  refine Op.keeps_andThen hA.toComposes (Op.keeps_inPhase <| Op.keeps_withCfg fun p =>
    Op.keeps_andThen hA.toComposes (hA.regWrite rfl (by decide) (by decide)) <|
    Op.keeps_andThen hA.toComposes (hA.sleepIfPositive _) (hA.regWrite rfl (by decide) (by decide))) <|
    Op.keeps_bind hA.toComposes (Op.keeps_withCfg fun p => Op.keeps_map hA.toComposes (hA.poll rfl)) fun ready => ?_
  split
  · exact Op.keeps_andThen hA.toComposes
      (Op.keeps_withCfg fun p => Op.keeps_each hA.toComposes (fun _ _ => Op.keeps_inPhase <|
        Op.keeps_andThen hA.toComposes (hA.regWrite rfl (by decide) (by decide)) (hA.sleepKeeps _)) _ _)
      (Op.keeps_inPhase <| Op.keeps_withCfg fun p => Op.keeps_map hA.toComposes (hA.regRead rfl))
  · exact Op.keeps_pure hA.toComposes _

theorem Atoms.fpgaBoot (t : Target) (image : List Word) (site : Site) : (fpgaBoot t image site).Keeps R F := by
  refine Op.keeps_withCfg fun p => ?_
  suffices h : ∀ n a, (fpgaAttempts t image site a n).Keeps R F from h _ _
  intro n
  induction n with
  | zero => exact fun a => Op.keeps_pure hA.toComposes _
  | succ n ih =>
    refine fun a => Op.keeps_bind hA.toComposes (hA.fpgaAttempt t image a) fun ok => ?_
    split
    · exact Op.keeps_pure hA.toComposes _
    · exact ih (a + 1)

theorem Atoms.clockDomainReset : clockDomainReset.Keeps R F :=
  Op.keeps_withCfg fun _ => Op.keeps_andThen hA.toComposes (hA.regWrite rfl (by decide) (by decide)) <|
    Op.keeps_andThen hA.toComposes (hA.sleepIfPositive _) (hA.regWrite rfl (by decide) (by decide))

theorem Atoms.hbrWriteGroup (a : Word) (ws : List Word) : (hbrWriteGroup a ws).Keeps R F :=
  hA.withHbr <| Op.keeps_andThen hA.toComposes (hA.regWrite rfl (by decide) (by decide))
    (hA.writeAll rfl (by decide) (by decide) _)

theorem Atoms.kernelDownload (a : Nat) (w : List Word) : (kernelDownload a w).Keeps R F :=
  Op.keeps_withCfg fun _ => Op.keeps_eachOk hA.toComposes (fun _ _ => Op.keeps_inPhase (hA.hbrWriteGroup _ _)) _ _

theorem Atoms.tagStream (fuel : Nat) : ∀ ws, (tagStream fuel ws).Keeps R F := by
  induction fuel with
  | zero =>
    intro ws
    rcases ws with _ | ⟨_, _ | ⟨_, _ | ⟨_, _⟩⟩⟩ <;> exact Op.keeps_pure hA.toComposes _
  | succ fuel ih =>
    intro ws
    match ws with
    | [] => exact Op.keeps_pure hA.toComposes _
    | [_] => exact Op.keeps_pure hA.toComposes _
    | [_, _] => exact Op.keeps_pure hA.toComposes _
    | tag :: count :: addr :: more =>
      refine Op.keeps_withCfg fun p => ?_
      split
      · exact Op.keeps_pure hA.toComposes _
      · split
        · exact Op.keeps_pure hA.toComposes _
        · dsimp only
          split
          · exact Op.keeps_pure hA.toComposes _
          · refine Op.keeps_ifOk hA.toComposes
              (Op.keeps_eachOk hA.toComposes (fun _ _ => Op.keeps_inLoop (hA.hbrWriteGroup _ _)) _ _) fun _ => ?_
            split
            · exact Op.keeps_pure hA.toComposes _
            · exact ih _
            · exact ih _

theorem Atoms.cfgVerify (a j : Nat) (p : CfgPair) (n : Nat) : ∀ k, (cfgVerify a j p k n).Keeps R F := by
  induction n with
  | zero => exact fun k => Op.keeps_pure hA.toComposes _
  | succ n ih =>
    refine fun k => Op.keeps_ifOk hA.toComposes (Op.keeps_inPhase <| Op.keeps_withCfg fun q =>
      Op.keeps_ifOk hA.toComposes ?_ fun _ => hA.dspReadOne _) fun r => ?_
    · split
      · exact hA.hbrWriteGroup _ _
      · exact Op.keeps_pure hA.toComposes _
    · split
      · exact Op.keeps_pure hA.toComposes _
      · exact ih (k + 1)

theorem Atoms.pollPudone (a n : Nat) : ∀ k, (pollPudone a k n).Keeps R F := by
  induction n with
  | zero => exact fun k => Op.keeps_pure hA.toComposes _
  | succ n ih =>
    refine fun k => Op.keeps_withCfg fun p => Op.keeps_ifOk hA.toComposes (Op.keeps_inPhase (hA.dspReadOne _)) fun v => ?_
    split
    · exact Op.keeps_pure hA.toComposes _
    · exact Op.keeps_andThen hA.toComposes (Op.keeps_inPhase (hA.sleepKeeps _)) (ih (k + 1))

theorem Atoms.dspAttempt (w : List Word) (a : Nat) : (dspAttempt w a).Keeps R F :=
  Op.keeps_withCfg fun _ =>
    Op.keeps_andThen hA.toComposes
      (Op.keeps_inPhase <| Op.keeps_andThen hA.toComposes (hA.csrModify _ _) (hA.sleepKeeps _)) <|
    Op.keeps_andThen hA.toComposes (Op.keeps_inPhase (hA.csrClear _)) <|
    Op.keeps_ifOk hA.toComposes (Op.keeps_eachOk hA.toComposes (fun _ _ => hA.cfgVerify _ _ _ _ _) _ _) fun _ =>
    Op.keeps_ifOk hA.toComposes (hA.kernelDownload a w) fun _ =>
    Op.keeps_ifOk hA.toComposes (Op.keeps_inPhase (hA.tagStream _ _)) fun _ =>
    Op.keeps_andThen hA.toComposes (Op.keeps_inPhase (hA.csrClear _)) (hA.pollPudone a _ 1)

theorem Atoms.dspBootFrom (w : List Word) (more : Nat) : ∀ a, (dspBootFrom w a more).Keeps R F := by
  induction more with
  | zero => exact fun a => hA.dspAttempt w a
  | succ more ih =>
    refine fun a => Op.keeps_bind hA.toComposes (hA.dspAttempt w a) fun r => ?_
    split
    · exact Op.keeps_pure hA.toComposes _
    · split
      · exact Op.keeps_pure hA.toComposes _
      · exact ih (a + 1)

end atoms

/-! ## Boot bodies: they also write the boot record -/

section boot
variable (hA : Atoms R F) (hB : ∀ f, (setBoot f).Keeps R F)
include hA hB

theorem Atoms.bootCommBody (image : List Word) : (bootCommBody image).Keeps R F :=
  Op.keeps_andThen hA.toComposes (hB _) <| Op.keeps_bind hA.toComposes (hA.fpgaBoot _ _ _) fun _ => Op.keeps_map hA.toComposes (hB _)

theorem Atoms.bootSpBody (image : List Word) : (bootSpBody image).Keeps R F :=
  Op.keeps_andThen hA.toComposes (hB _) <| Op.keeps_ifOk hA.toComposes (hA.fpgaBoot _ _ _) fun _ =>
    Op.keeps_ifOk hA.toComposes (hA.fpgaBoot _ _ _) fun _ =>
    Op.keeps_andThen hA.toComposes hA.clockDomainReset (Op.keeps_map hA.toComposes (hB _))

theorem Atoms.bootDspBody (w : List Word) : (bootDspBody w).Keeps R F := by
  refine Op.keeps_andThen hA.toComposes (hB _) <| Op.keeps_withCfg fun p =>
    Op.keeps_bind hA.toComposes (hA.dspBootFrom w _ 1) fun r => ?_
  split
  · exact Op.keeps_map hA.toComposes (hB _)
  · exact Op.keeps_pure hA.toComposes _

omit hB in
theorem Atoms.stageIf (b : Bool) {x : Op (Except Failure Unit)} (hx : x.Keeps R F) : (stageIf b x).Keeps R F := by
  unfold Machine.stageIf
  split
  · exact hx
  · exact Op.keeps_pure hA.toComposes _

theorem Atoms.bootModuleBody (images : Images) (pattern : Word) : (bootModuleBody images pattern).Keeps R F :=
  Op.keeps_andThen hA.toComposes (hB _) <|
    Op.keeps_ifOk hA.toComposes (hA.stageIf _ (hA.bootCommBody hB _)) fun _ =>
    Op.keeps_ifOk hA.toComposes (hA.stageIf _ (hA.bootSpBody hB _)) fun _ =>
    Op.keeps_ifOk hA.toComposes (hA.stageIf _ (hA.bootDspBody hB _)) fun _ => Op.keeps_map hA.toComposes (hB _)

end boot

/-! ## Serial bodies: they also write the line shadow and the transaction record -/

section serial
variable (hA : Atoms R F) (hL : ∀ l, (Op.setHandle fun h => { h with lines := l }).Keeps R F)
  (hS : ∀ f : Handle → Option SerRec, (Op.setHandle fun h => { h with ser := f h }).Keeps R F)
include hA hL

omit hL in
theorem Atoms.settle : settle.Keeps R F := Op.keeps_withCfg fun _ => hA.sleepKeeps _

theorem Atoms.drive (l : Lines) : (drive l).Keeps R F :=
  Op.keeps_andThen hA.toComposes (Op.keeps_withCfg fun _ => hA.regWrite rfl (by decide) (by decide)) <|
    Op.keeps_andThen hA.toComposes (hL l) (hA.settle)

omit hL in
theorem Atoms.sample : sample.Keeps R F :=
  Op.keeps_bind hA.toComposes (hA.regRead rfl) fun _ => Op.keeps_andThen hA.toComposes (hA.settle) <|
    Op.keeps_withCfg fun _ => Op.keeps_pure hA.toComposes _

theorem Atoms.sendBit (d : Bool) : (sendBit d).Keeps R F :=
  Op.keeps_andThen hA.toComposes
    (Op.keeps_bind hA.toComposes (Op.keeps_getHandle hA.toComposes) fun _ => hA.drive hL _) <|
    Op.keeps_andThen hA.toComposes (hA.drive hL _) (hA.drive hL _)

theorem Atoms.recvBit : recvBit.Keeps R F :=
  Op.keeps_andThen hA.toComposes (hA.drive hL _) <| Op.keeps_bind hA.toComposes (hA.sample) fun _ =>
    Op.keeps_map hA.toComposes (hA.drive hL _)

theorem Atoms.serStart : serStart.Keeps R F :=
  Op.keeps_inPhase <| Op.keeps_andThen hA.toComposes (hA.drive hL _) (hA.drive hL _)

theorem Atoms.serStop : serStop.Keeps R F :=
  Op.keeps_inPhase <| Op.keeps_andThen hA.toComposes (hA.drive hL _) <|
    Op.keeps_andThen hA.toComposes (hA.drive hL _) (hA.drive hL _)

theorem Atoms.serAckSend : serAckSend.Keeps R F :=
  Op.keeps_inPhase <| Op.keeps_withCfg fun _ => Op.keeps_andThen hA.toComposes (hA.drive hL _) <|
    Op.keeps_andThen hA.toComposes (hA.drive hL _) (hA.drive hL _)

include hS

omit hA hL in
theorem Atoms.setSer (f : SerRec → SerRec) : (setSer f).Keeps R F := hS fun h => h.ser.map f

theorem Atoms.serAckWait : serAckWait.Keeps R F :=
  Op.keeps_inPhase <| Op.keeps_andThen hA.toComposes (hA.drive hL _) <| Op.keeps_bind hA.toComposes (hA.sample) fun _ =>
    Op.keeps_andThen hA.toComposes (hA.drive hL _) (Atoms.setSer hS _)

omit hL in
theorem Atoms.endSer {α : Type} (f : SerRec → α) (d : α) : (endSer f d).Keeps R F :=
  Op.keeps_bind hA.toComposes (Op.keeps_getHandle hA.toComposes) fun _ => Op.keeps_map hA.toComposes (hS fun _ => none)

theorem Atoms.serWriteBody (b : Byte) : (serWriteBody b).Keeps R F :=
  Op.keeps_andThen hA.toComposes (hS fun _ => _) <| Op.keeps_andThen hA.toComposes (hA.serStart hL) <|
    Op.keeps_andThen hA.toComposes (Op.keeps_each hA.toComposes (fun _ _ => Op.keeps_inPhase <|
      Op.keeps_andThen hA.toComposes (Atoms.setSer hS _) (hA.sendBit hL _)) _ _) <|
    Op.keeps_andThen hA.toComposes (Op.keeps_inPhase (hA.drive hL _)) <|
    Op.keeps_andThen hA.toComposes (hA.serAckWait hL hS) <|
    Op.keeps_andThen hA.toComposes (hA.serStop hL) (hA.endSer hS _ _)

theorem Atoms.serReadBody : serReadBody.Keeps R F :=
  Op.keeps_andThen hA.toComposes (hS fun _ => _) <| Op.keeps_andThen hA.toComposes (hA.serStart hL) <|
    Op.keeps_andThen hA.toComposes (Op.keeps_each hA.toComposes (fun _ _ => Op.keeps_inPhase <|
      Op.keeps_andThen hA.toComposes (Atoms.setSer hS _) <|
      Op.keeps_bind hA.toComposes (hA.recvBit hL) fun _ => Atoms.setSer hS _) _ _) <|
    Op.keeps_andThen hA.toComposes (hA.serAckSend hL) <|
    Op.keeps_andThen hA.toComposes (hA.serStop hL) (hA.endSer hS _ _)

theorem Atoms.serReadSeqBody (lead : List Byte) (n : Nat) : (serReadSeqBody lead n).Keeps R F :=
  Op.keeps_ifOk hA.toComposes
    (Op.keeps_eachOk hA.toComposes (fun _ b => Op.keeps_map hA.toComposes (Op.keeps_inLoop (hA.serWriteBody hL hS b))) _ _) fun _ =>
    Op.keeps_map hA.toComposes (Op.keeps_times hA.toComposes (fun _ => Op.keeps_inLoop (hA.serReadBody hL hS)) _ _)

end serial

end Sys2Proof.Machine
end

