-- ==== Sys2Proof/Laws/PerInstr.lean ====
section
/-! SUPPORT. Per-instruction law "TableRow": the command word of an operation matches its own row of spec/opcode_table.json
(mask and match, 30_encoding.md R81, R83), whatever its operands. -/

namespace Sys2Proof.Laws.TableRow

/-- `match` and `mask` of the row, copied from spec/opcode_table.json. -/
def row : Mnemonic → Word × Word
  | .regRead => (0x01000000, 0xFF00FFFF)
  | .regWrite => (0x02000000, 0xFF00FFFF)
  | .csrRead => (0x08000000, 0xFF00FFFF)
  | .csrWrite => (0x09000000, 0xFF00FFFF)
  | .csrSetBits => (0x0A000000, 0xFF00FFFF)
  | .csrClearBits => (0x0B000000, 0xFF00FFFF)
  | .serWriteByte => (0x10000000, 0xFF00FFFF)
  | .serReadByte => (0x11000000, 0xFF00FFFF)
  | .serReadSeq => (0x12000000, 0xFF00FFFF)
  | .idDecode => (0x13000000, 0xFFFFFFFF)
  | .hbrRequest => (0x20000000, 0xFF00FFFF)
  | .hbrDone => (0x21000000, 0xFF00FFFF)
  | .dspMemWrite => (0x22000000, 0xFF00FFFF)
  | .dspMemRead => (0x23000000, 0xFF00FFFF)
  | .dmaBurst => (0x28000000, 0xFF00FFFF)
  | .fifoReadWm => (0x30000000, 0xFF00FFFF)
  | .fifoDrain => (0x31000000, 0xFF00FFFF)
  | .extMemWrite => (0x38000000, 0xFF00FFFF)
  | .extMemRead => (0x39000000, 0xFF00FFFF)
  | .extMemClear => (0x3A000000, 0xFF00FFFF)
  | .bootCommFpga => (0x40000000, 0xFF00FFFF)
  | .bootSpFpga => (0x41000000, 0xFF00FFFF)
  | .bootDsp => (0x42000000, 0xFF00FFFF)
  | .bootModule => (0x43000000, 0xFF00FFFF)
  | .sysInit => (0x50000000, 0xFFFFFFFF)
  | .moduleClose => (0x51000000, 0xFF00FFFF)

/-- The word of the operation, under its row's mask, is its row's match. -/
def Statement (i : Instr) : Prop := i.word &&& (row i.mnemonic).2 = (row i.mnemonic).1

/-- The mask of a row that names a module keeps `OP` and `RSV` and drops `MOD`. -/
theorem masked (op mod : Byte) : (op ++ mod ++ 0#16) &&& 0xFF00FFFF#32 = op ++ 0#8 ++ 0#16 := by
  have h : 0xFF00FFFF#32 = 0xFF#8 ++ 0x00#8 ++ 0xFFFF#16 := rfl
  have ho : op &&& 0xFF#8 = op := BitVec.and_allOnes
  rw [h, BitVec.and_append, BitVec.and_append, ho]
  simp

/-- Every row but the two that name no module has that mask, and its match is the opcode alone. -/
theorem row_of_module (k : Mnemonic) (h : k.noModule = false) :
    row k = (k.opcode ++ 0#8 ++ 0#16, 0xFF00FFFF#32) := by
  cases k <;> first | rfl | decide | cases h

/-- The law for every operation that names a module. -/
theorem of_module {i : Instr} (h : i.mnemonic.noModule = false) : Statement i := by
  rw [Statement, row_of_module _ h]
  exact masked _ _

theorem regRead (m off : Nat) (buf : Buf) : Statement (.regRead m off buf) := of_module rfl
theorem regWrite (m off : Nat) (val : Word) : Statement (.regWrite m off val) := of_module rfl
theorem csrRead (m : Nat) (buf : Buf) : Statement (.csrRead m buf) := of_module rfl
theorem csrWrite (m : Nat) (val : Word) : Statement (.csrWrite m val) := of_module rfl
theorem csrSetBits (m : Nat) (mask : Word) : Statement (.csrSetBits m mask) := of_module rfl
theorem csrClearBits (m : Nat) (mask : Word) : Statement (.csrClearBits m mask) := of_module rfl
theorem serWriteByte (m : Nat) (b : Byte) : Statement (.serWriteByte m b) := of_module rfl
theorem serReadByte (m : Nat) (buf : Buf) : Statement (.serReadByte m buf) := of_module rfl
theorem serReadSeq (m : Nat) (lead : List Byte) (n : Nat) (buf : Buf) : Statement (.serReadSeq m lead n buf) := of_module rfl
theorem idDecode (bytes : List Byte) : Statement (.idDecode bytes) :=
  (by decide : (0x13#8 ++ 0#8 ++ 0#16) &&& 0xFFFFFFFF#32 = 0x13000000#32)
theorem hbrRequest (m : Nat) : Statement (.hbrRequest m) := of_module rfl
theorem hbrDone (m : Nat) : Statement (.hbrDone m) := of_module rfl
theorem dspMemWrite (m : Nat) (addr : Word) (count : Nat) (buf : Buf) : Statement (.dspMemWrite m addr count buf) := of_module rfl
theorem dspMemRead (m : Nat) (addr : Word) (count : Nat) (buf : Buf) : Statement (.dspMemRead m addr count buf) := of_module rfl
theorem dmaBurst (m : Nat) (kind : Kind) (port : Reg) (buf : Buf) (count : Nat) (dir : Dir) : Statement (.dmaBurst m kind port buf count dir) := of_module rfl
theorem fifoReadWm (m : Nat) (buf : Buf) : Statement (.fifoReadWm m buf) := of_module rfl
theorem fifoDrain (m : Nat) (count : Nat) (buf : Buf) : Statement (.fifoDrain m count buf) := of_module rfl
theorem extMemWrite (m : Nat) (addr : Word) (count : Nat) (buf : Buf) : Statement (.extMemWrite m addr count buf) := of_module rfl
theorem extMemRead (m : Nat) (addr : Word) (count : Nat) (buf : Buf) : Statement (.extMemRead m addr count buf) := of_module rfl
theorem extMemClear (m : Nat) (addr : Word) (count : Nat) : Statement (.extMemClear m addr count) := of_module rfl
theorem bootCommFpga (m rev : Nat) (image : List Word) : Statement (.bootCommFpga m rev image) := of_module rfl
theorem bootSpFpga (m rev : Nat) (image : List Word) : Statement (.bootSpFpga m rev image) := of_module rfl
theorem bootDsp (m : Nat) (file : List Byte) : Statement (.bootDsp m file) := of_module rfl
theorem bootModule (m rev : Nat) (images : Images) (pattern : Word) : Statement (.bootModule m rev images pattern) := of_module rfl
theorem sysInit (slotMap : List Nat) (offlineFlag : Bool) : Statement (.sysInit slotMap offlineFlag) :=
  (by decide : (0x50#8 ++ 0#8 ++ 0#16) &&& 0xFFFFFFFF#32 = 0x50000000#32)
theorem moduleClose (m : Nat) : Statement (.moduleClose m) := of_module rfl

end Sys2Proof.Laws.TableRow
end

