-- ==== Sys2Proof/Laws/Run.lean ====
section
/-! SUPPORT. Running a part of an operation forward on module `m` in a usable window (`Runs`): the value it gives, the context it
leaves, and the named events it issues, wherever the sequencer stands. One lemma per way of composing and per shared operation,
and the bridge to exec (`runOn_answers`). -/

namespace Sys2Proof.Machine

/-- At every sequencer position the part ends well from `c` with the value `a`, the context `c'` and the named events `es`. -/
def Runs {α : Type} (p : Params) (m : Nat) (x : Op α) (c : Ctx) (a : α) (c' : Ctx) (es : List (Option Reg × Event)) : Prop :=
  ∀ pos, ∃ t, x ⟨p, .module m, pos⟩ c = .ok a c' t ∧ named (shown t) = es

theorem named_append (t u : List Issued) : named (t ++ u) = named t ++ named u := List.map_append

variable {α β : Type} {p : Params} {m : Nat} {c c₁ c₂ : Ctx} {es fs : List (Option Reg × Event)}

theorem Runs.pure (a : α) : Runs p m (Op.pure a) c a c [] := fun _ => ⟨[], rfl, rfl⟩

theorem Runs.bind {x : Op α} {f : α → Op β} {a : α} {b : β} (hx : Runs p m x c a c₁ es) (hf : Runs p m (f a) c₁ b c₂ fs) :
    Runs p m (x.bind f) c b c₂ (es ++ fs) := fun pos => by
  obtain ⟨t, h, rfl⟩ := hx pos
  obtain ⟨u, h', rfl⟩ := hf pos
  exact ⟨t ++ u, Op.bind_of_ok h h', by rw [shown_append, named_append]⟩

theorem Runs.andThen {x : Op Unit} {y : Op β} {b : β} (hx : Runs p m x c () c₁ es) (hy : Runs p m y c₁ b c₂ fs) :
    Runs p m (x.andThen y) c b c₂ (es ++ fs) := hx.bind hy

theorem Runs.map {f : α → β} {x : Op α} {a : α} (hx : Runs p m x c a c₁ es) : Runs p m (x.map f) c (f a) c₁ es := fun pos => by
  obtain ⟨t, h, rfl⟩ := hx pos
  exact ⟨t, Op.map_of_ok h, rfl⟩

theorem Runs.ifOk {x : Op (Except Failure α)} {f : α → Op (Except Failure β)} {a : α} {b : Except Failure β}
    (hx : Runs p m x c (.ok a) c₁ es) (hf : Runs p m (f a) c₁ b c₂ fs) : Runs p m (x.ifOk f) c b c₂ (es ++ fs) := hx.bind hf

theorem Runs.ifError {x : Op (Except Failure α)} {f : α → Op (Except Failure β)} {e : Failure}
    (hx : Runs p m x c (.error e) c₁ es) : Runs p m (x.ifOk f) c (.error e) c₁ es := fun pos => by
  obtain ⟨t, h, rfl⟩ := hx pos
  exact ⟨t, Op.ifOk_of_error h, rfl⟩

theorem Runs.withCfg {f : Params → Op α} {a : α} (h : Runs p m (f p) c a c₁ es) : Runs p m (Op.withCfg f) c a c₁ es := h

theorem Runs.getHandle : Runs p m Op.getHandle c c.handle c [] := fun _ => ⟨[], rfl, rfl⟩

theorem Runs.setHandle (f : Handle → Handle) : Runs p m (Op.setHandle f) c () { c with handle := f c.handle } [] :=
  fun _ => ⟨[], rfl, rfl⟩

theorem Runs.placed {x : Op α} {a : α} {g : Place → Place} (h : Runs p m x c a c₁ es) : Runs p m (x.placed g) c a c₁ es :=
  fun pos => h (g pos)

theorem Runs.inLoop {x : Op α} {a : α} {k : Nat} (h : Runs p m x c a c₁ es) : Runs p m (x.inLoop k) c a c₁ es := h.placed

theorem Runs.inPhase {x : Op α} {a : α} {ph : Phase} (h : Runs p m x c a c₁ es) : Runs p m (Op.inPhase ph x) c a c₁ es :=
  h.placed

/-- A run whose events are known under another name. -/
theorem Runs.of_eq {x : Op α} {a : α} (h : Runs p m x c a c₁ es) (he : es = fs) : Runs p m x c a c₁ fs := he ▸ h

/-- A run whose value, context and events are known under other names. -/
theorem Runs.cast {x : Op α} {a b : α} (h : Runs p m x c a c₁ es) (ha : a = b) (hc : c₁ = c₂) (he : es = fs) :
    Runs p m x c b c₂ fs := by
  subst ha hc he
  exact h

/-! ## Primitives -/

theorem Runs.memRead {r : Option Reg} {off : Nat} (h : offsetOk p off = true) :
    Runs p m (memRead r off) c (envRead c.env).1 { c with env := (envRead c.env).2 }
      [(r, .rd (.module m) off (envRead c.env).1)] := fun _ => ⟨_, memRead_of_ok h, rfl⟩

theorem Runs.memWrite {r : Option Reg} {off : Nat} {v : Word} (h : offsetOk p off = true) :
    Runs p m (memWrite r off v) c () c [(r, .wr (.module m) off v)] := fun _ => ⟨_, memWrite_of_ok h, rfl⟩

theorem Runs.regRead (hw : windowOk p = true) (r : Reg) :
    Runs p m (regRead r) c (envRead c.env).1 { c with env := (envRead c.env).2 } [rdEvent p m r (envRead c.env).1] :=
  fun _ => ⟨_, regRead_of_ok hw, rfl⟩

theorem Runs.regWrite (hw : windowOk p = true) (r : Reg) (v : Word) :
    Runs p m (regWrite r v) c () c [wrEvent p m r v] := fun _ => ⟨_, regWrite_of_ok hw, rfl⟩

theorem Runs.sleep (ns : Nat) : Runs p m (sleep ns) c () c [sleepEvent ns] := fun _ => ⟨_, rfl, rfl⟩

theorem Runs.sleepIfPositive (ns : Nat) : Runs p m (sleepIfPositive ns) c () c (sleepEvents ns) := by
  unfold Machine.sleepIfPositive sleepEvents
  split
  · exact Runs.sleep ns
  · exact Runs.pure ()

theorem Runs.vendorCall {answer : Env → α × Env} {event : Handle → α → Event} (h : c.env.vendorLeft = none) :
    Runs p m (vendorCall answer event) c (answer c.env).1 { c with env := (answer c.env).2 }
      [(none, event c.handle (answer c.env).1)] := fun _ => ⟨_, vendorCall_of_returns h, rfl⟩

/-- A CSR read-modify-write (40_register_csr.md R107). -/
theorem Runs.csrModify (hw : windowOk p = true) (set clr : Word) :
    Runs p m (csrModify set clr) c () { c with env := (envRead c.env).2 } (csrEvents p m (envRead c.env).1 set clr) :=
  (Runs.regRead hw .csr).bind (Runs.regWrite hw .csr _)

theorem Runs.csrSet (hw : windowOk p = true) (f : CsrMap → Fin 32) :
    Runs p m (csrSet f) c () { c with env := (envRead c.env).2 }
      (csrEvents p m (envRead c.env).1 (fieldBit (f p.csrmap)) 0) := Runs.withCfg (Runs.csrModify hw _ _)

theorem Runs.csrClear (hw : windowOk p = true) (f : CsrMap → Fin 32) :
    Runs p m (csrClear f) c () { c with env := (envRead c.env).2 }
      (csrEvents p m (envRead c.env).1 0 (fieldBit (f p.csrmap))) := Runs.withCfg (Runs.csrModify hw _ _)

/-! ## Reads taken in a row -/

theorem readMany_length (n : Nat) : ∀ e, (readMany n e).1.length = n := by
  induction n with
  | zero => exact fun _ => rfl
  | succ n ih => exact fun e => by simp [readMany, ih]

theorem readMany_vendorLeft (n : Nat) : ∀ e, (readMany n e).2.vendorLeft = e.vendorLeft := by
  induction n with
  | zero => exact fun _ => rfl
  | succ n ih => exact fun e => (ih _).trans (envRead_vendorLeft e)

/-- Reading `n` and then `k` more is reading `n + k`. -/
theorem readMany_add (n k : Nat) : ∀ e,
    readMany (n + k) e = ((readMany n e).1 ++ (readMany k (readMany n e).2).1, (readMany k (readMany n e).2).2) := by
  induction n with
  | zero => exact fun e => by simp [readMany]
  | succ n ih => exact fun e => by simp [Nat.add_right_comm n 1 k, readMany, ih]

theorem readMany_cons {n : Nat} {e e' : Env} {v : Word} {vs : List Word} (h : readMany (n + 1) e = (v :: vs, e')) :
    (envRead e).1 = v ∧ readMany n (envRead e).2 = (vs, e') := by
  simp only [readMany, Prod.mk.injEq, List.cons.injEq] at h
  exact ⟨h.1.1, Prod.ext h.1.2 h.2⟩

/-! ## Polls (42_hbr_dma.md R152) -/

section poll
variable {place : Nat → Place → Place} {r : Reg} {pred : Word → Bool} {d : Nat}

/-- A poll that finds `v` after the words `bad`. -/
theorem Runs.pollFrom_satisfied (hw : windowOk p = true) {v : Word} (hv : pred v = true) :
    ∀ (bad : List Word) {c : Ctx} {e : Env} {i n : Nat}, readMany (bad.length + 1) c.env = (bad ++ [v], e) → bad.length < n →
      (∀ w ∈ bad, pred w = false) →
      Runs p m (pollFrom place r pred d i n) c (some (i + bad.length, v)) { c with env := e }
        (pollEvents p m r d bad ++ [rdEvent p m r v]) := by
  intro bad
  induction bad with
  | nil =>
    intro c e i n h hn _
    obtain ⟨n, rfl⟩ := Nat.exists_eq_succ_of_ne_zero (Nat.pos_iff_ne_zero.mp hn)
    obtain ⟨h₁, h₂⟩ := readMany_cons h
    have he : (envRead c.env).2 = e := (Prod.mk.inj h₂).2
    have hr := Runs.regRead (m := m) (c := c) hw r
    rw [h₁, he] at hr
    refine (hr.placed.bind (fs := []) ?_).of_eq (by simp [pollEvents])
    rw [if_pos hv]
    exact Runs.pure _
  | cons w bad ih =>
    intro c e i n h hn hbad
    obtain ⟨n, rfl⟩ := Nat.exists_eq_succ_of_ne_zero (Nat.pos_iff_ne_zero.mp (Nat.zero_lt_of_lt hn))
    obtain ⟨h₁, h₂⟩ := readMany_cons h
    have hr := Runs.regRead (m := m) (c := c) hw r
    rw [h₁] at hr
    have hih := ih (c := { c with env := (envRead c.env).2 }) (e := e) (i := i + 1) (n := n) h₂
      (by simpa using hn) fun z hz => hbad z (List.mem_cons_of_mem w hz)
    have hs := Runs.sleepIfPositive (p := p) (m := m) (c := { c with env := (envRead c.env).2 }) d
    have hrest := hs.placed (g := place i) |>.andThen hih
    have hi : i + 1 + bad.length = i + (w :: bad).length := by simp; omega
    rw [hi] at hrest
    refine (hr.placed.bind (fs := sleepEvents d ++ (pollEvents p m r d bad ++ [rdEvent p m r v])) ?_).of_eq
      (by simp [pollEvents])
    rw [if_neg (by simp [hbad w (List.mem_cons_self)])]
    exact hrest

/-- A poll that times out after the words `bad`. -/
theorem Runs.pollFrom_timeout (hw : windowOk p = true) :
    ∀ (n : Nat) {c : Ctx} {bad : List Word} {e : Env} {i : Nat}, readMany n c.env = (bad, e) → (∀ w ∈ bad, pred w = false) →
      Runs p m (pollFrom place r pred d i n) c none { c with env := e } (pollEvents p m r d bad) := by
  intro n
  induction n with
  | zero =>
    intro c bad e i h _
    cases h
    exact Runs.pure none
  | succ n ih =>
    intro c bad e i h hbad
    obtain ⟨w, ws, rfl⟩ : ∃ w ws, bad = w :: ws := by
      cases bad with
      | nil => simp [readMany] at h
      | cons w ws => exact ⟨w, ws, rfl⟩
    obtain ⟨h₁, h₂⟩ := readMany_cons h
    have hr := Runs.regRead (m := m) (c := c) hw r
    rw [h₁] at hr
    have hih := ih (c := { c with env := (envRead c.env).2 }) (i := i + 1) h₂ fun z hz => hbad z (List.mem_cons_of_mem w hz)
    have hs := Runs.sleepIfPositive (p := p) (m := m) (c := { c with env := (envRead c.env).2 }) d
    have hrest := hs.placed (g := place i) |>.andThen hih
    refine (hr.placed.bind (fs := sleepEvents d ++ pollEvents p m r d ws) ?_).of_eq (by simp [pollEvents])
    rw [if_neg (by simp [hbad w (List.mem_cons_self)])]
    exact hrest

theorem Runs.poll_satisfied (hw : windowOk p = true) {v : Word} {bad : List Word} {e : Env} {n : Nat}
    (h : readMany (bad.length + 1) c.env = (bad ++ [v], e)) (hn : bad.length < n) (hbad : ∀ w ∈ bad, pred w = false)
    (hv : pred v = true) :
    Runs p m (pollUntil place r pred n d) c (some (1 + bad.length, v)) { c with env := e }
      (pollEvents p m r d bad ++ [rdEvent p m r v]) := Runs.pollFrom_satisfied hw hv bad h hn hbad

theorem Runs.poll_timeout (hw : windowOk p = true) {bad : List Word} {e : Env} {n : Nat}
    (h : readMany n c.env = (bad, e)) (hbad : ∀ w ∈ bad, pred w = false) :
    Runs p m (pollUntil place r pred n d) c none { c with env := e } (pollEvents p m r d bad) :=
  Runs.pollFrom_timeout hw n h hbad

end poll

/-! ## Loops -/

/-- Writing every word of a list, in order. -/
theorem Runs.writeAll (hw : windowOk p = true) (r : Reg) (ws : List Word) :
    Runs p m (writeAll r ws) c () c (ws.map (wrEvent p m r)) := by
  suffices h : ∀ (ws : List Word) i, Runs p m (Op.each (fun i x => Op.inLoop i (Machine.regWrite r x)) i ws) c () c
      (ws.map (wrEvent p m r)) from h ws 0
  intro ws
  induction ws with
  | nil => exact fun _ => Runs.pure ()
  | cons w ws ih => exact fun i => ((Runs.regWrite hw r w).inLoop.andThen (ih (i + 1))).of_eq rfl

/-- Reading one register `n` times. -/
theorem Runs.readTimes (hw : windowOk p = true) (r : Reg) (n : Nat) : ∀ {c : Ctx} i,
    Runs p m (Op.times (fun i => Op.inLoop i (Machine.regRead r)) i n) c (readMany n c.env).1
      { c with env := (readMany n c.env).2 } ((readMany n c.env).1.map (rdEvent p m r)) := by
  induction n with
  | zero => exact fun _ => Runs.pure []
  | succ n ih =>
    intro c i
    exact ((Runs.regRead hw r).inLoop.bind (Runs.map (ih (i + 1)))).of_eq rfl

/-- A loop that runs every element without changing the context. -/
theorem Runs.eachOk_same {f : Nat → α → Op (Except Failure β)} {g : Nat → α → β}
    {ev : Nat → α → List (Option Reg × Event)} (l : List α) : ∀ i,
    (∀ k a, l[k]? = some a → Runs p m (f (i + k) a) c (.ok (g (i + k) a)) c (ev (i + k) a)) →
    Runs p m (Op.eachOk f i l) c (.ok (l.mapIdx fun k a => g (i + k) a)) c
      (l.mapIdx fun k a => ev (i + k) a).flatten := by
  induction l with
  | nil => exact fun i _ => Runs.pure _
  | cons a l ih =>
    intro i h
    have h₀ := h 0 a rfl
    have h₁ := ih (i + 1) fun k b hb => by
      have := h (k + 1) b (by simpa using hb)
      rwa [Nat.add_right_comm i 1 k, Nat.add_assoc]
    have h₂ := Runs.ifOk (f := fun b => (Op.eachOk f (i + 1) l).ifOk fun bs => Op.pure (.ok (b :: bs))) h₀
      (Runs.ifOk h₁ (Runs.pure _))
    have e : ∀ k : Nat, i + 1 + k = i + (k + 1) := fun k => by omega
    simpa [Op.eachOk, List.mapIdx_cons, e] using h₂

/-! ## HBR (42_hbr_dma.md R150, R151) -/

/-- A done while the request is held. -/
theorem Runs.hbrDone (hw : windowOk p = true) (hh : c.handle.hbrHeld = true) :
    Runs p m hbrDone c () { c with handle := { c.handle with hbrHeld := false } } [wrEvent p m .hbrDone p.hbrDoneVal] :=
  fun _ => ⟨_, hbrDone_of_held hw hh, rfl⟩

/-- The handle with the request held. -/
abbrev Ctx.holding (c : Ctx) : Ctx := { c with handle := { c.handle with hbrHeld := true } }

/-- A request while none is held runs its write and then the grant poll. -/
theorem Runs.hbrRequest (hw : windowOk p = true) (hh : c.handle.hbrHeld = false) {a : Except Failure Unit}
    (hp : Runs p m hbrGrantPoll c.holding a c₁ es) :
    Runs p m hbrRequest c a c₁ (wrEvent p m .hbrReq p.hbrReqVal :: es) := fun pos => by
  rw [hbrRequest_eq_of_free hh]
  exact (Runs.andThen (c₁ := c) (es := [wrEvent p m .hbrReq p.hbrReqVal]) (Runs.withCfg (Runs.regWrite hw _ _))
    (Runs.andThen (x := setHbr true) (es := []) (Runs.setHandle _) hp)) pos

/-- Without grant polls a request is one write. -/
theorem Runs.hbrRequest_noPoll (hw : windowOk p = true) (hp : p.hbrGrantPolls = 0) (hh : c.handle.hbrHeld = false) :
    Runs p m Machine.hbrRequest c (.ok ()) c.holding [wrEvent p m .hbrReq p.hbrReqVal] := by
  refine Runs.hbrRequest hw hh (Runs.withCfg ?_)
  rw [if_neg (by omega)]
  exact Runs.pure _

/-- Work under a request that succeeded. -/
theorem Runs.withHbr_ok (hw : windowOk p = true) {x : Op α} {a : α} (hr : Runs p m Machine.hbrRequest c (.ok ()) c₁ es)
    (hx : Runs p m x c₁ a c₂ fs) (hh : c₂.handle.hbrHeld = true) :
    Runs p m (withHbr x) c (.ok a) { c₂ with handle := { c₂.handle with hbrHeld := false } }
      (es ++ fs ++ [wrEvent p m .hbrDone p.hbrDoneVal]) :=
  (hr.ifOk (hx.bind (Runs.hbrDone hw hh).map)).of_eq (by simp)

/-- Work under a request that failed is not run. -/
theorem Runs.withHbr_error {x : Op α} {f : Failure} (hr : Runs p m Machine.hbrRequest c (.error f) c₁ es) :
    Runs p m (withHbr x) c (.error f) c₁ es := hr.ifError

/-- One processor word written (43_boot.md R215), without grant polls. -/
theorem Runs.hbrWriteGroup (hw : windowOk p = true) (hp : p.hbrGrantPolls = 0) (hh : c.handle.hbrHeld = false) (a : Word)
    (ws : List Word) : Runs p m (hbrWriteGroup a ws) c (.ok ()) c (hbrGroupEvents p m a ws) := by
  have h := Runs.withHbr_ok (m := m) hw (Runs.hbrRequest_noPoll hw hp hh)
    ((Runs.regWrite (c := c.holding) hw .dspAddr a).andThen (Runs.writeAll hw .dspData ws)) rfl
  have hc : ({ c.holding with handle := { c.holding.handle with hbrHeld := false } } : Ctx) = c := by
    rcases c with ⟨⟨⟩, _⟩
    simp_all
  rw [hc] at h
  exact h.of_eq (by simp [hbrGroupEvents])

/-- One processor word read (43_boot.md R217), without grant polls. -/
theorem Runs.dspReadOne (hw : windowOk p = true) (hp : p.hbrGrantPolls = 0) (hh : c.handle.hbrHeld = false) (a : Word) :
    Runs p m (dspReadOne a) c (.ok (envRead c.env).1) { c with env := (envRead c.env).2 }
      (hbrReadEvents p m a (envRead c.env).1) := by
  have h := Runs.withHbr_ok (m := m) hw (Runs.hbrRequest_noPoll hw hp hh)
    ((Runs.regWrite (c := c.holding) hw .dspAddr a).andThen (Runs.regRead hw .dspData)) rfl
  have hc : ({ handle := { c.handle with hbrHeld := false }, env := (envRead c.env).2 } : Ctx) =
      { c with env := (envRead c.env).2 } := by
    rcases c with ⟨⟨⟩, _⟩
    simp_all
  simp only [hc] at h
  exact h.of_eq (by simp [hbrReadEvents])

/-! ## DMA (42_hbr_dma.md R158 to R160) -/

/-- The status of a close sequence as the sub-step gives it. -/
def closeResult (e : Env) : Except Failure Unit :=
  match closeStatus e with
  | .ok => .ok ()
  | .fail f => .error f

/-- The environment after a close sequence. -/
def closedEnv (e : Env) : Env :=
  match (envClose e).1 with
  | .ok => (envClose e).2
  | .inProgress | .error => (envClose (envClose e).2).2

/-- The retry of a close: device reset, close. -/
theorem Runs.closeRetry (hv : c.env.vendorLeft = none) (ch : Channel) :
    Runs p m (closeRetry ch) c (secondClose (envClose c.env).1)
      ⟨{ c.handle with dma := none }, (envClose c.env).2⟩
      [(none, .devReset c.handle.dev), (none, .dmaClose ch (envClose c.env).1)] := by
  have h₂ : Runs p m (Machine.vendorCall noAnswer fun h (_ : Unit) => .devReset h.dev) c () c
      [(none, .devReset c.handle.dev)] := Runs.vendorCall hv
  have h₃ : Runs p m (dmaCloseCall ch) c (envClose c.env).1 { c with env := (envClose c.env).2 }
      [(none, .dmaClose ch (envClose c.env).1)] := Runs.vendorCall hv
  have h₄ : ∀ c : Ctx, Runs p m (setDma none) c () { c with handle := { c.handle with dma := none } } [] :=
    fun c => Runs.setHandle _
  have h₅ := h₂.andThen (h₃.bind (f := fun c => (setDma none).map fun _ => secondClose c)
    (Runs.map (f := fun _ => secondClose (envClose c.env).1) (h₄ _)))
  exact h₅

/-- The whole close sequence: one close, or close, reset, close. -/
theorem Runs.closeChannel (hv : c.env.vendorLeft = none) (ch : Channel) :
    Runs p m (closeChannel ch) c (closeResult c.env) ⟨{ c.handle with dma := none }, closedEnv c.env⟩
      (closeEvents c.handle.dev ch c.env) := by
  have h₁ : Runs p m (dmaCloseCall ch) c (envClose c.env).1 { c with env := (envClose c.env).2 }
      [(none, .dmaClose ch (envClose c.env).1)] := Runs.vendorCall hv
  have h₂ := Runs.closeRetry (p := p) (m := m) (c := { c with env := (envClose c.env).2 })
    ((envClose_vendorLeft _).trans hv) ch
  have h₄ : Runs p m (setDma none) { c with env := (envClose c.env).2 } ()
      ⟨{ c.handle with dma := none }, (envClose c.env).2⟩ [] := Runs.setHandle _
  unfold closeResult closedEnv closeEvents closeStatus
  unfold Machine.closeChannel
  cases hc : (envClose c.env).1 with
  | ok =>
    rw [hc] at h₁
    exact h₁.bind (Runs.map (f := fun _ => (.ok () : Except Failure Unit)) h₄)
  | inProgress =>
    rw [hc] at h₁
    refine Runs.cast (h₁.bind h₂) ?_ rfl rfl
    cases (envClose (envClose c.env).2).1 <;> rfl
  | error =>
    rw [hc] at h₁
    refine Runs.cast (h₁.bind h₂) ?_ rfl rfl
    cases (envClose (envClose c.env).2).1 <;> rfl

/-- `n` words delivered by a transfer that scripts exactly as many. -/
theorem Runs.deliver {n : Nat} {data : List Word} (h : data.length = n) : Runs p m (deliver n data) c data c [] := by
  intro pos
  refine ⟨[], ?_, rfl⟩
  subst h
  simp [Machine.deliver, envFreeWords]

/-- A transfer (42_hbr_dma.md R158): its event, and the words it delivers or its failure. -/
theorem Runs.dmaTransfer_fail (hw : windowOk p = true) (hv : c.env.vendorLeft = none) {ch : Channel} {port : Reg}
    {host : List Word} {count : Nat} {dir : Dir} {a : XferAnswer} {e : Env} (h : envXfer c.env = (a, e))
    (ha : a.result ≠ .ok) :
    Runs p m (dmaTransfer ch port host count dir) c
      (.error (if a.result = .timeout then ⟨.protocolTimeout, .dmaTransfer⟩ else ⟨.resourceFailure, .dmaTransfer⟩))
      { c with env := e } [dmaXferEvent p ch dir port host count a.result] := by
  have h₁ : Runs p m (Machine.vendorCall envXfer fun _ a =>
      .dmaXfer ch { dir, localAddress := regOffset p port, hostBuffer := host, byteCount := 4 * count } p.dmaTimeoutMs a.result)
      c a { c with env := e } [dmaXferEvent p ch dir port host count a.result] := by
    have := Runs.vendorCall (p := p) (m := m) (c := c) (answer := envXfer) (event := fun _ a =>
      .dmaXfer ch { dir, localAddress := regOffset p port, hostBuffer := host, byteCount := 4 * count } p.dmaTimeoutMs
        a.result) hv
    rwa [h] at this
  refine Runs.withCfg ?_
  rw [if_pos (windowOk_reg hw port)]
  refine (h₁.bind (fs := []) ?_).of_eq rfl
  split
  · contradiction
  · rename_i hr
    rw [if_pos hr]
    exact Runs.pure _
  · rename_i hr
    rw [if_neg (by simp [hr])]
    exact Runs.pure _

theorem Runs.dmaTransfer_ok (hw : windowOk p = true) (hv : c.env.vendorLeft = none) {ch : Channel} {port : Reg}
    {host data : List Word} {count : Nat} {dir : Dir} {e : Env} (h : envXfer c.env = (⟨.ok, data⟩, e))
    (hd : dir = .toHost → data.length = count) :
    Runs p m (dmaTransfer ch port host count dir) c (.ok (match dir with | .toHost => data | .toModule => []))
      { c with env := e } [dmaXferEvent p ch dir port host count .ok] := by
  have h₁ : Runs p m (Machine.vendorCall envXfer fun _ a =>
      .dmaXfer ch { dir, localAddress := regOffset p port, hostBuffer := host, byteCount := 4 * count } p.dmaTimeoutMs a.result)
      c ⟨.ok, data⟩ { c with env := e } [dmaXferEvent p ch dir port host count .ok] := by
    have := Runs.vendorCall (p := p) (m := m) (c := c) (answer := envXfer) (event := fun _ a =>
      .dmaXfer ch { dir, localAddress := regOffset p port, hostBuffer := host, byteCount := 4 * count } p.dmaTimeoutMs
        a.result) hv
    rwa [h] at this
  refine Runs.withCfg ?_
  rw [if_pos (windowOk_reg hw port)]
  refine (h₁.bind (fs := []) ?_).of_eq rfl
  cases dir with
  | toHost => exact Runs.map (f := Except.ok) (Runs.deliver (hd rfl))
  | toModule => exact Runs.pure _

/-- A burst whose channel does not open (42_hbr_dma.md R158). -/
theorem Runs.dmaBurst_noChannel (hv : c.env.vendorLeft = none) {kind : Kind} {port : Reg} {host : List Word} {count : Nat}
    {dir : Dir} {o : Env} (h : envDmaOpen c.env = (none, o)) :
    Runs p m (dmaBurst kind port host count dir) c (.error ⟨.resourceFailure, .dmaOpen⟩) { c with env := o }
      [dmaOpenEvent p c.handle.dev none] := by
  have h₁ := Runs.vendorCall (p := p) (m := m) (c := c) (answer := envDmaOpen)
    (event := fun h r => .dmaOpen h.dev (dmaDesc p) r) hv
  rw [h] at h₁
  refine Runs.withCfg (Runs.of_eq (h₁.bind (fs := []) ?_) rfl)
  exact Runs.pure _

/-- A burst whose channel opens: priming and transfer end with `st`, and the close sequence follows whatever it is
(42_hbr_dma.md R158). -/
theorem Runs.dmaBurst_channel (hv : c.env.vendorLeft = none) {kind : Kind} {port : Reg} {host : List Word} {count : Nat}
    {dir : Dir} {ch : Channel} {o e : Env} {st : Except Failure (List Word)} (h : envDmaOpen c.env = (some ch, o))
    (hb : Runs p m ((dmaPrime kind count).ifOk fun _ => dmaTransfer ch port host count dir)
      ⟨{ c.handle with dma := some ch }, o⟩ st ⟨{ c.handle with dma := some ch }, e⟩ es) (he : e.vendorLeft = none) :
    Runs p m (dmaBurst kind port host count dir) c (firstOf st (closeResult e)) ⟨{ c.handle with dma := none }, closedEnv e⟩
      (dmaOpenEvent p c.handle.dev (some ch) :: es ++ closeEvents c.handle.dev ch e) := by
  have h₁ := Runs.vendorCall (p := p) (m := m) (c := c) (answer := envDmaOpen)
    (event := fun h r => .dmaOpen h.dev (dmaDesc p) r) hv
  rw [h] at h₁
  have hc := Runs.closeChannel (p := p) (m := m) (c := ⟨{ c.handle with dma := some ch }, e⟩) he ch
  have hs : Runs p m (setDma (some ch)) ⟨c.handle, o⟩ () ⟨{ c.handle with dma := some ch }, o⟩ [] := Runs.setHandle _
  have := hs.andThen (hb.bind (f := fun st => (Machine.closeChannel ch).map (firstOf st)) (Runs.map (f := firstOf st) hc))
  exact Runs.withCfg ((h₁.bind this).of_eq (by simp [dmaOpenEvent, dmaDesc]))

/-- Priming that sees the watermark (42_hbr_dma.md R159). -/
theorem Runs.dmaPrime_ready (hw : windowOk p = true) {count : Nat} {bad : List Word} {v : Word} {e : Env}
    (h : readMany (bad.length + 1) c.env = (bad ++ [v], e)) (hn : bad.length < p.dmaWmPolls)
    (hbad : ∀ w ∈ bad, w &&& p.dmaWmMask = 0) (hv : v &&& p.dmaWmMask ≠ 0) :
    Runs p m (dmaPrime .dsp count) c (.ok ()) { c with env := e }
      (wrEvent p m .dmaCtrl (countWord count) :: (pollEvents p m .dmaStat p.dmaWmDelayNs bad ++ [rdEvent p m .dmaStat v])) := by
  refine (Runs.regWrite hw _ _).andThen (Runs.withCfg (Runs.map (f := _) (a := some (1 + bad.length, v)) ?_))
  exact Runs.poll_satisfied hw h hn (fun w hz => by simp [anySet, hbad w hz]) (by simpa [anySet] using hv)

/-- Priming that never sees the watermark (42_hbr_dma.md R159). -/
theorem Runs.dmaPrime_timeout (hw : windowOk p = true) {count : Nat} {bad : List Word} {e : Env}
    (h : readMany p.dmaWmPolls c.env = (bad, e)) (hbad : ∀ w ∈ bad, w &&& p.dmaWmMask = 0) :
    Runs p m (dmaPrime .dsp count) c (.error ⟨.protocolTimeout, .dmaWatermark⟩) { c with env := e }
      (wrEvent p m .dmaCtrl (countWord count) :: pollEvents p m .dmaStat p.dmaWmDelayNs bad) := by
  refine (Runs.regWrite hw _ _).andThen (Runs.withCfg (Runs.map (f := _) (a := none) ?_))
  exact Runs.poll_timeout hw h fun w hz => by simp [anySet, hbad w hz]

/-! ## Serial lines (41_serial_bus.md R120) -/

/-- One line change: a `SER_CTRL` write, the shadow, a settle delay. -/
theorem Runs.drive (hw : windowOk p = true) (l : Lines) :
    Runs p m (drive l) c () { c with handle := { c.handle with lines := l } }
      [wrEvent p m .serCtrl (lineWord p l), sleepEvent p.serSettleNs] :=
  ((Runs.withCfg (Runs.regWrite hw .serCtrl (lineWord p l))).andThen
    ((Runs.setHandle _).andThen (Runs.withCfg (Runs.sleep _)))).of_eq rfl

/-- One sample: a `SER_STAT` read and a settle delay. -/
theorem Runs.sample (hw : windowOk p = true) :
    Runs p m sample c (sdaIn p (envRead c.env).1) { c with env := (envRead c.env).2 }
      [rdEvent p m .serStat (envRead c.env).1, sleepEvent p.serSettleNs] := by
  have hs : Runs p m settle { c with env := (envRead c.env).2 } () { c with env := (envRead c.env).2 }
      [sleepEvent p.serSettleNs] := Runs.withCfg (Runs.sleep _)
  refine Runs.of_eq ((Runs.regRead hw .serStat).bind (hs.andThen (fs := []) ?_)) rfl
  exact Runs.withCfg (Runs.pure _)

/-! ## The FPGA cycle (43_boot.md R201 to R205) -/

/-- Program line low, then high. -/
theorem Runs.fpgaClear (hw : windowOk p = true) (t : Target) :
    Runs p m (fpgaClear t) c () c
      ([wrEvent p m .cfgCtrl (patternOf p t).progLow] ++ sleepEvents p.fpgaProgHoldNs ++
        [wrEvent p m .cfgCtrl (patternOf p t).progHigh]) :=
  Runs.withCfg (((Runs.regWrite hw _ _).andThen ((Runs.sleepIfPositive _).andThen (Runs.regWrite hw _ _))).of_eq (by simp))

/-- Every image word, each with its delay. -/
theorem Runs.fpgaStream (hw : windowOk p = true) (t : Target) (a : Nat) (image : List Word) :
    Runs p m (fpgaStream t a image) c () c
      (image.flatMap fun w => [wrEvent p m .cfgData w, sleepEvent p.fpgaWordDelayNs]) := by
  suffices h : ∀ (ws : List Word) i, Runs p m (Op.each (fun i w => Op.inPhase (.fpga t a (.stream i)) <|
      (Machine.regWrite .cfgData w).andThen (Machine.sleep p.fpgaWordDelayNs)) i ws) c () c
      (ws.flatMap fun w => [wrEvent p m .cfgData w, sleepEvent p.fpgaWordDelayNs]) from h image 0
  intro ws
  induction ws with
  | nil => exact fun _ => Runs.pure ()
  | cons w ws ih =>
    exact fun i => (((Runs.regWrite hw .cfgData w).andThen (Runs.sleep _)).inPhase.andThen (ih (i + 1))).of_eq
      (by simp)

/-- An attempt that configures its target. -/
theorem Runs.fpgaAttempt_done (hw : windowOk p = true) {t : Target} {image bad : List Word} {v d : Word} {a : Nat} {e : Env}
    (h : readMany (bad.length + 2) c.env = (bad ++ [v, d], e)) (hr : FpgaReady p t bad v d) :
    Runs p m (fpgaAttempt t image a) c true { c with env := e } (fpgaEvents p m t image bad v d) := by
  obtain ⟨hn, hbad, hv, hd⟩ := hr
  obtain ⟨e₁, h₁, h₂⟩ : ∃ e₁, readMany (bad.length + 1) c.env = (bad ++ [v], e₁) ∧ envRead e₁ = (d, e) := by
    rw [show bad.length + 2 = (bad.length + 1) + 1 from rfl, readMany_add] at h
    obtain ⟨ha, he⟩ := Prod.mk.inj h
    have ha' : (readMany (bad.length + 1) c.env).1 ++
        (readMany 1 (readMany (bad.length + 1) c.env).2).1 = (bad ++ [v]) ++ [d] := by simpa using ha
    obtain ⟨hb, hc⟩ := List.append_inj ha' (by simp [readMany_length])
    refine ⟨(readMany (bad.length + 1) c.env).2, Prod.ext hb rfl, Prod.ext ?_ ?_⟩
    · simpa [readMany] using hc
    · simpa [readMany] using he
  have hp := Runs.poll_satisfied (p := p) (m := m) (r := .cfgStat) (d := p.fpgaInitDelayNs)
    (place := fun k => posPhase (.fpga t a (.pollInit k))) (pred := allSet (patternOf p t).initMask) hw h₁ hn
    (fun w hz => by simpa [allSet] using hbad w hz) (by simpa [allSet] using hv)
  have hi : Runs p m (fpgaPollInit t a) c true { c with env := e₁ } _ := Runs.withCfg (Runs.map (f := Option.isSome) hp)
  have hf : Runs p m (fpgaVerify t) { c with env := e₁ } true { c with env := e } [rdEvent p m .cfgStat d] := by
    have := Runs.regRead (p := p) (m := m) (c := { c with env := e₁ }) hw .cfgStat
    rw [h₂] at this
    have := Runs.map (f := allSet (patternOf p t).doneMask) this
    have ht : allSet (patternOf p t).doneMask d = true := by simpa [allSet] using hd
    rw [ht] at this
    exact Runs.withCfg this
  have hs := Runs.fpgaStream (p := p) (m := m) (c := { c with env := e₁ }) hw t a image
  refine Runs.of_eq ((Runs.fpgaClear hw t).inPhase.andThen (hi.bind (f := fun ready =>
    if ready then (Machine.fpgaStream t a image).andThen (Op.inPhase (.fpga t a .verify) (Machine.fpgaVerify t))
    else Op.pure false) (hs.andThen hf.inPhase))) ?_
  simp [fpgaEvents]

/-- A cycle whose first attempt configures its target. -/
theorem Runs.fpgaBoot_first (hw : windowOk p = true) (hn : 0 < p.fpgaAttempts) {t : Target} {image bad : List Word}
    {v d : Word} {e : Env} {site : Site} (h : readMany (bad.length + 2) c.env = (bad ++ [v, d], e))
    (hr : FpgaReady p t bad v d) :
    Runs p m (fpgaBoot t image site) c (.ok ()) { c with env := e } (fpgaEvents p m t image bad v d) := by
  refine Runs.withCfg ?_
  obtain ⟨n, hn⟩ := Nat.exists_eq_succ_of_ne_zero (Nat.pos_iff_ne_zero.mp hn)
  rw [hn]
  refine Runs.of_eq ((Runs.fpgaAttempt_done hw h hr).bind (f := fun done =>
    if done then Op.pure (.ok ()) else fpgaAttempts t image site (1 + 1) n) (Runs.pure _)) ?_
  simp

/-! ## The bridge to exec -/

/-- On an online module whose checks pass, a program that runs `Ready` answers what its body runs to. -/
theorem runOn_answers {g : Program} {s : State} {x : Module} {r : Reply} (h : s.Online m x) (hg : g.ready = true)
    (hc : firstFailure g.checks = none) (hb : Runs s.cfg m g.body x.ctx r c es) :
    Answers (g.runOn m s) s g.op m { x with handle := c.handle, env := c.env } r es := by
  obtain ⟨t, ht, rfl⟩ := hb (startPos g.op)
  refine ⟨shown t, ?_, rfl⟩
  rw [runOn_online h hg hc ht, h.2.1]

/-- Writing back the record a module already has changes nothing. -/
theorem putModule_same {s : State} {x : Module} (h : s.module? m = some x) : s.putModule m x = s := by
  unfold State.putModule
  unfold State.module? at h
  cases hs : s.system with
  | none => simp [hs] at h
  | some y =>
    simp only [hs] at h
    have : y.modules.set m x = y.modules := by
      refine List.ext_getElem? fun k => ?_
      rw [List.getElem?_set]
      split
      · rename_i hk
        subst hk
        split
        · exact h.symm
        · rw [List.getElem?_eq_none (by omega)]
      · rfl
    cases s
    simp_all

end Sys2Proof.Machine
end

