-- ==== Sys2Proof/Laws/Turns.lean ====
section
/-! SUPPORT. What each move of a sequencer can do: where an operation stands after some of its steps, starting it, its next step, and
the step of the machine that gives each of them. -/

namespace Sys2Proof.Machine

variable {res : Res Reply} {k : Nat} {pos : Place} {c : Ctx} {u : List Issued}

/-! ## Where an operation stands (00_scope.md R7; 10_state.md R23) -/

theorem after_of_step {r : Reply} {c' : Ctx} {t : List Stage} {e : Stage} (h : t[k]? = some e) :
    (Res.ok r c' t).after k = .paused e.issued.pos e.pre (shown (t.take k)) := by
  simp [Res.after, h]

theorem after_of_return {r : Reply} {c' : Ctx} {t : List Stage} (h : t.length ≤ k) :
    (Res.ok r c' t).after k = .returned r c' (shown t) := by
  simp [Res.after, List.getElem?_eq_none h]

/-- An operation has returned exactly when it ends well and has made all its steps. -/
theorem after_eq_returned {r : Reply} :
    res.after k = .returned r c u ↔ ∃ t, res = .ok r c t ∧ t.length ≤ k ∧ u = shown t := by
  unfold Res.after
  split
  · rename_i r' c' t
    split
    · rename_i e h
      have := (List.getElem?_eq_some_iff.mp h).1
      simp only [reduceCtorEq, Res.ok.injEq, false_iff]
      rintro ⟨_, ⟨rfl, rfl, rfl⟩, hle, -⟩
      omega
    · rename_i h
      have hle := List.getElem?_eq_none_iff.mp h
      constructor
      · rintro ⟨⟩
        exact ⟨t, rfl, hle, rfl⟩
      · rintro ⟨_, ⟨⟩, -, rfl⟩
        rfl
  · split
    · simp
    · split <;> simp
  · simp

/-- An operation in progress has issued the events of its first `k` steps, or of all of them where it hangs. -/
theorem after_eq_paused (h : res.after k = .paused pos c u) :
    u.length ≤ k ∧ res.after u.length = .paused pos c u := by
  revert h
  unfold Res.after
  split
  · rename_i r' c' t
    split
    · rename_i e h
      have hlt := (List.getElem?_eq_some_iff.mp h).1
      rintro ⟨⟩
      simp [List.length_take, Nat.min_eq_left hlt.le, h]
    · exact nofun
  · rename_i f pos' c' t
    split
    · rename_i e h
      have hlt := (List.getElem?_eq_some_iff.mp h).1
      rintro ⟨⟩
      simp [List.length_take, Nat.min_eq_left hlt.le, h]
    · rename_i h
      have hle := List.getElem?_eq_none_iff.mp h
      split
      · rename_i hf
        rintro ⟨⟩
        simp [hle]
      · exact nofun
  · exact nofun

/-- An operation that hangs stands at the call that never returns from its last step on (93_implementation_defined.md U9). -/
theorem after_of_hang {t : List Stage} (h : t.length ≤ k) :
    (Res.fault .vendorHang pos c t).after k = .paused pos c (shown t) := by
  simp [Res.after, List.getElem?_eq_none h]

/-! ## The moves -/

/-- A move of a sequencer that gives a next state leaves the operation in progress or returned, and writes its module's record. -/
theorem resume_eq_next {i : Instr} {m : Nat} {g : Program} {start : Ctx} {s t : State} :
    resume i m g start k s = .next t ↔
      (∃ pos c u, (g.result s.cfg s.isOffline m start).after k = .paused pos c u ∧
        t = s.putModule m (pausedModule i start pos c u)) ∨
      (∃ r c u, (g.result s.cfg s.isOffline m start).after k = .returned r c u ∧
        t = finish g.op r u (s.putModule m { handle := c.handle, pos := .idle, env := c.env })) := by
  unfold resume
  split <;> rename_i h
  · simp [h, eq_comm]
  · simp [h, eq_comm]
  · simp [h]
  · simp [h]

/-- What a move of a sequencer changes: its module's record and, when it returns, the last observation; both are the same from every
state with the same parameters and the same `offline` (00_scope.md R6: the sequencers are independent). -/
theorem resume_changes {i : Instr} {m : Nat} {g : Program} {start : Ctx} {s t : State} (h : resume i m g start k s = .next t) :
    ∃ (x : Module) (l : Option Observation), t = { s.putModule m x with last := l.or s.last } ∧
      ∀ s' : State, s'.cfg = s.cfg → s'.isOffline = s.isOffline →
        resume i m g start k s' = .next { s'.putModule m x with last := l.or s'.last } := by
  obtain ⟨pos, c, u, hp, rfl⟩ | ⟨r, c, u, hp, rfl⟩ := resume_eq_next.mp h
  · refine ⟨pausedModule i start pos c u, none, rfl, fun s' hc ho => ?_⟩
    simp only [resume, hc, ho, hp]
    rfl
  · refine ⟨_, some { op := g.op, reply := r, issued := u }, rfl, fun s' hc ho => ?_⟩
    simp only [resume, hc, ho, hp]
    rfl

/-- A step of a sequencer that gives a next state: nothing, where no operation is in progress, or its operation's next step. -/
theorem advance_eq_next {m : Nat} {s t : State} : advance m s = .next t ↔
    (s.job? m = none ∧ t = s) ∨
    (∃ j g, s.job? m = some (j, g) ∧ resume j.op m g j.start (j.trace.length + 1) s = .next t) := by
  unfold advance
  split <;> rename_i h
  · simp [h, eq_comm]
  · simp [h]

/-- The operation in progress on a module, with its program. -/
theorem job_eq_some {m : Nat} {s : State} {j : Job} {g : Program} : s.job? m = some (j, g) ↔
    ∃ x n, s.module? m = some x ∧ x.job = some j ∧ programOf s.cfg j.op = some (n, g) := by
  simp only [State.job?, Option.bind_eq_some_iff, Option.map_eq_some_iff, Prod.mk.injEq, Prod.exists]
  constructor
  · rintro ⟨x, hx, j', hj, n, g', hg, rfl, rfl⟩
    exact ⟨x, n, hx, hj, hg⟩
  · rintro ⟨x, n, hx, hj, hg⟩
    exact ⟨x, hx, j, hj, n, g, hg, rfl, rfl⟩

/-- Starting an operation on an idle module whose offsets R65 admits puts it before its first step. -/
theorem startOp_eq_resume {i : Instr} {m : Nat} {g : Program} {s : State} {x : Module} (hi : programOf s.cfg i = some (m, g))
    (hx : s.module? m = some x) (hp : x.pos = .idle)
    (ho : ∀ off ∈ g.raw.toList ++ g.regs.map (regOffset s.cfg), offsetOk s.cfg off = true) :
    startOp i s = resume i m g x.ctx 0 s := by
  simp only [startOp, hi, hx, hp, if_true, guarded_of_ok ho]

/-- An operation no sequencer serves is run whole when it is started. -/
theorem startOp_eq_exec {i : Instr} {s : State} (h : ∀ m g, programOf s.cfg i = some (m, g) → s.module? m = none) :
    startOp i s = exec i s := by
  unfold startOp
  split
  · rfl
  · rename_i m g hi
    simp [h m g hi]

/-- A sequencer whose operation hangs has no enabled step, and a turn of it changes nothing (93_implementation_defined.md U9). -/
theorem hang_stays {i : Instr} {m : Nat} {g : Program} {start c : Ctx} {t : List Stage} {s : State} {x : Module}
    (hi : programOf s.cfg i = some (m, g)) (hx : s.module? m = some x)
    (hr : g.result s.cfg s.isOffline m start = .fault .vendorHang pos c t) :
    let u := s.putModule m (pausedModule i start pos c (shown t))
    u.enabled m = false ∧ advance m u = .next u := by
  intro u
  have hu : u.module? m = some (pausedModule i start pos c (shown t)) := putModule_module_self m _ s hx
  have hj : u.job? m = some (⟨i, start, shown t⟩, g) := job_eq_some.mpr ⟨_, m, hu, rfl, hi⟩
  have hres : g.result u.cfg u.isOffline m start = .fault .vendorHang pos c t := by simpa [u] using hr
  constructor
  · simp [State.enabled, hj, hres]
  · refine advance_eq_next.mpr (.inr ⟨_, _, hj, resume_eq_next.mpr (.inl ⟨pos, c, shown t, ?_, ?_⟩)⟩)
    · rw [hres]
      exact after_of_hang (by simp)
    · cases hs : s.system with
      | none => simp [State.module?, hs] at hx
      | some y => simp [u, State.putModule, hs]

/-! ## The step of the machine -/

theorem step_of_turn {s : State} {m : Nat} {rest : List Turn} (h : s.turns = .sequencer m :: rest) :
    step s = advance m { s with turns := rest } := by
  simp [step, h]

theorem step_of_start {s : State} {rest : List Turn} (h : s.turns = .start :: rest) :
    step s = withCall startOp .next { s with turns := rest } := by
  simp [step, h]

theorem step_of_free {s : State} (h : s.turns = []) : step s = freeStep s := by
  simp [step, h]

/-- A call that spells an operation the caller may issue is taken off the queue and run. -/
theorem withCall_of_call {f : Instr → State → Host.Outcome State Fault Refusal}
    {idle : State → Host.Outcome State Fault Refusal} {s : State} {c : Call} {rest : List Call} {i : Instr}
    (hc : s.calls = c :: rest) (hr : readCall c = .ok i) : withCall f idle s = f i { s with calls := rest } := by
  simp [withCall, nextCall_cons hc, hr]

theorem withCall_of_none {f : Instr → State → Host.Outcome State Fault Refusal}
    {idle : State → Host.Outcome State Fault Refusal} {s : State} (hc : s.calls = []) : withCall f idle s = idle s := by
  simp [withCall, nextCall_nil hc]

/-- Running an operation whole gives what its meaning gives, but for a hang. -/
theorem runWhole_of_ne_hang {i : Instr} {s : State} (h : exec i s ≠ .fault .vendorHang) : runWhole i s = exec i s := by
  unfold runWhole
  split <;> simp_all

end Sys2Proof.Machine
end

