-- ==== Sys2Proof/Tests/Slice0.lean ====
section
/-! SUPPORT. Small tests: well-formedness, words written out from the spec's encoding, and one-step runs of the spec's own
vectors (95_test_vectors.md) in its test environment. Expected values are the spec's. -/

namespace Sys2Proof.Tests

open Sys2Proof.Machine

-- One theorem at a time: a kernel evaluation waits for everything before it, and would hold a thread while it waits.
set_option Elab.async false

/-! ## WellFormed: an ill-formed term for each check -/

/-- 30_encoding.md R81: `MOD` has eight bits. -/
theorem test_wf_module_too_large : ¬ (Instr.csrRead 256 none).WellFormed := by decide

/-- 20_memory.md R65, vector L2-RC5: 0x4A is no multiple of 4. -/
theorem test_wf_offset_misaligned : ¬ (Instr.regRead 0 0x4A none).WellFormed := by decide

theorem test_wf_good : (Instr.regRead 255 0x48 none).WellFormed := by decide

/-! ## Decoding: words written out from 30_encoding.md R81, R83 (`OP` `MOD` `RSV`) -/

/-- OP 0000_0001, MOD 0000_0001. -/
theorem test_decode_reg_read :
    decode ⟨0b0000_0001_0000_0001_0000_0000_0000_0000#32, { off := 16, buf := some [7] }⟩ = .ok (.regRead 1 16 (some [7])) := by
  decide

theorem test_decode_reg_write :
    decode ⟨0x02010000, { off := 16, val := 0xDEADBEEF }⟩ = .ok (.regWrite 1 16 0xDEADBEEF) := by decide
theorem test_decode_csr_read : decode ⟨0x08000000, { buf := some [0] }⟩ = .ok (.csrRead 0 (some [0])) := by decide
theorem test_decode_csr_write : decode ⟨0x09020000, { val := 5 }⟩ = .ok (.csrWrite 2 5) := by decide

/-- OP 0000_1010 (vector L3-1 step 4). -/
theorem test_decode_csr_set_bits :
    decode ⟨0b0000_1010_0000_0000_0000_0000_0000_0000#32, { mask := 4 }⟩ = .ok (.csrSetBits 0 4) := by decide
theorem test_decode_csr_clear_bits : decode ⟨0x0B000000, { mask := 4 }⟩ = .ok (.csrClearBits 0 4) := by decide

/-- OP 0001_0000, MOD 1111_1111. -/
theorem test_decode_ser_write_byte :
    decode ⟨0b0001_0000_1111_1111_0000_0000_0000_0000#32, { b := 0xA5 }⟩ = .ok (.serWriteByte 255 0xA5) := by decide
theorem test_decode_ser_read_byte : decode ⟨0x11000000, { buf := some [0] }⟩ = .ok (.serReadByte 0 (some [0])) := by decide
theorem test_decode_ser_read_seq :
    decode ⟨0x12000000, { lead := [0xA0], n := 2, buf := some [0, 0] }⟩ = .ok (.serReadSeq 0 [0xA0] 2 (some [0, 0])) := by
  decide
theorem test_decode_id_decode : decode ⟨0x13000000, { bytes := [5, 0, 11] }⟩ = .ok (.idDecode [5, 0, 11]) := by decide
theorem test_decode_hbr_request : decode ⟨0x20030000, {}⟩ = .ok (.hbrRequest 3) := by decide
theorem test_decode_hbr_done : decode ⟨0x21030000, {}⟩ = .ok (.hbrDone 3) := by decide
theorem test_decode_dsp_mem_write :
    decode ⟨0x22000000, { addr := 0x100, count := 1, buf := some [7] }⟩ = .ok (.dspMemWrite 0 0x100 1 (some [7])) := by decide

/-- OP 0010_0011 (vector L3-2 step 2). -/
theorem test_decode_dsp_mem_read :
    decode ⟨0b0010_0011_0000_0000_0000_0000_0000_0000#32, { addr := 0x40000, count := 8202 }⟩ =
      .ok (.dspMemRead 0 0x40000 8202 none) := by decide
theorem test_decode_dma_burst :
    decode ⟨0x28000000, { kind := .ext, port := .extmemData, count := 4, dir := .toModule }⟩ =
      .ok (.dmaBurst 0 .ext .extmemData none 4 .toModule) := by decide
theorem test_decode_fifo_read_wm : decode ⟨0x30000000, { buf := some [1] }⟩ = .ok (.fifoReadWm 0 (some [1])) := by decide

/-- OP 0011_0001 (vector L3-4 step 2). -/
theorem test_decode_fifo_drain :
    decode ⟨0b0011_0001_0000_0000_0000_0000_0000_0000#32, { count := 64 }⟩ = .ok (.fifoDrain 0 64 none) := by decide
theorem test_decode_ext_mem_write :
    decode ⟨0x38000000, { addr := 0x10, count := 1, buf := some [5] }⟩ = .ok (.extMemWrite 0 0x10 1 (some [5])) := by decide
theorem test_decode_ext_mem_read :
    decode ⟨0x39000000, { addr := 0x10, count := 4 }⟩ = .ok (.extMemRead 0 0x10 4 none) := by decide

/-- OP 0011_1010 (vector L3-4 step 1). -/
theorem test_decode_ext_mem_clear :
    decode ⟨0b0011_1010_0000_0000_0000_0000_0000_0000#32, { count := 1024 }⟩ = .ok (.extMemClear 0 0 1024) := by decide
theorem test_decode_boot_comm_fpga :
    decode ⟨0x40000000, { rev := 3, image := [1, 2] }⟩ = .ok (.bootCommFpga 0 3 [1, 2]) := by decide
theorem test_decode_boot_sp_fpga :
    decode ⟨0x41000000, { rev := 3, image := [1, 2] }⟩ = .ok (.bootSpFpga 0 3 [1, 2]) := by decide
theorem test_decode_boot_dsp : decode ⟨0x42000000, { file := [1, 2] }⟩ = .ok (.bootDsp 0 [1, 2]) := by decide

/-- OP 0100_0011 (vectors L3-1 step 5, L3-3). -/
theorem test_decode_boot_module :
    decode ⟨0b0100_0011_0000_0000_0000_0000_0000_0000#32, { rev := 3, images := { comm := [1] }, pattern := 0x0D }⟩ =
      .ok (.bootModule 0 3 { comm := [1] } 0x0D) := by decide

/-- OP 0101_0000 (vector L3-1 step 1). -/
theorem test_decode_sys_init :
    decode ⟨0b0101_0000_0000_0000_0000_0000_0000_0000#32, { slotMap := [3, 5], offlineFlag := true }⟩ =
      .ok (.sysInit [3, 5] true) := by decide
theorem test_decode_module_close : decode ⟨0x51000000, {}⟩ = .ok (.moduleClose 0) := by decide

/-- 30_encoding.md R84 (a), (b), (c). -/
theorem test_decode_unknown_op : decode ⟨0x03000000, {}⟩ = .error (.unknownOp 0x03) := by decide
theorem test_decode_reserved : decode ⟨0x01000001, {}⟩ = .error .reservedNotZero := by decide
theorem test_decode_mod_not_zero : decode ⟨0x13010000, {}⟩ = .error .moduleNotZero := by decide

/-! ## The test environment of 95_test_vectors.md; offsets and the values it leaves open are the tests' own -/

def cfg : Params :=
  { maxModules := 16, winSlack := 4015
    regmap :=
      { cfgData := .word 0, cfgCtrl := .word 1, cfgStat := .word 2, hbrReq := .word 3, hbrDone := .word 4, hbrStat :=
        .word 5, dspAddr := .word 6, dspData := .word 7, dmaCtrl := .word 8, dmaStat := .word 9, csr := .word 10,
        extmemAddr := .word 11, extmemData := .word 12, extmemFifoArm := .word 13, extmemClr := .word 14, extfifoArm
        := .word 15, extfifoWm := .word 16, extfifoData := .word 17, serCtrl := .word 18, serStat := .word 19, clkrst
        := .word 20 }
    csrmap := { autoIncDisable := 0, pciExtmem := 1, extmemClearing := 2, dspReset := 3, dspDownload := 4 }
    sermap := { scl := 0, sdaOut := 1, sdaOe := 2, sdaIn := 0 }
    cpns := ⟨0, 0⟩, serSettleNs := 500, hbrReqVal := 0x11, hbrDoneVal := 0x22, hbrGrantMask := 1, hbrGrantDelayNs := 0
    dmaWmMask := 1, extmemWmMask := 2, fifoWmDelayNs := 0, extmemWmDelayNs := 0
    patternComm := ⟨0xC0, 0xC1, 0x1, 1, 0⟩, patternSpA := ⟨0xA0, 0xA1, 0x1, 1, 0⟩, patternSpB := ⟨0xB0, 0xB1, 0x1, 1, 0⟩
    clkrstAssert := 1, clkrstDeassert := 0, clkrstHoldNs := 0
    fwWordsComm := [(9, 2)], fwWordsSp := [(9, 2)], dspCfg0 := ⟨0x10, 0xAA⟩, dspCfg1 := ⟨0x11, 0xBB⟩
    dspKernelAddr := 0x1000, finalBlockWords := 2
    tagMap := [(1, some ⟨.init, .program, .w48⟩), (2, some ⟨.zero, .data, .w32⟩), (3, some ⟨.final, .data, .w16⟩), (9, none)]
    dspPudoneAddr := 0x2000, dspPudoneMask := 1, pciVendorId := 1, pciDeviceId := 2, barIndex := 2
    slotReadLead := [], slotReadCount := 1, slotDecode := [([4], 4), ([6], 6)], findLimit := 8
    busSlot := [(50, 1), (51, 1), (52, 2)] }

def handle : Handle :=
  { dev := some 7, win := some 100, slot := 2, offline := false, boot := {}, hbrHeld := false, dma := none, ser := none,
    lines := ⟨false, false, false⟩ }

/-- Module 0 online and mapped, its environment `e`. -/
def online (e : Env) (c : Params := cfg) : State :=
  { cfg := c, system := some { offline := false, modules := [{ handle, pos := .idle, env := e }] }, disc := { id := none },
    calls := [], last := none }

/-- Modules 0 and 1 offline (vector L3-1). -/
def offline : State :=
  { cfg := cfg, disc := { id := none }, calls := [], last := none
    system := some { offline := true, modules :=
      [{ handle := { handle with dev := none, win := none, slot := 3, offline := true }, pos := .idle, env := { id := some 0 } },
       { handle := { handle with dev := none, win := none, slot := 5, offline := true }, pos := .idle, env := { id := some 1 } }] } }

def env (reads : List Word) : Env := { id := some 0, reads := reads }

/-- What a test looks at: the status code, output, buffer and events of the operation that ran. -/
def seen : Host.Outcome State Fault Refusal → Option (Int × Output × Buf × List Event)
  | .next s => s.last.map fun o => (statusCode o.reply.status, o.reply.output, o.reply.buf, o.issued.map Issued.event)
  | .fault _ => none
  | .refused _ => none

def codeAndEvents (o : Host.Outcome State Fault Refusal) : Option (Int × List Event) := (seen o).map fun x => (x.1, x.2.2.2)

/-- The handle of module 0 afterwards. -/
def after : Host.Outcome State Fault Refusal → Option Handle
  | .next s => (s.module? 0).map Module.handle
  | .fault _ => none
  | .refused _ => none

def refusal : Host.Outcome State Fault Refusal → Option Refusal
  | .refused r => some r
  | .next _ => none
  | .fault _ => none

def rd (r : Reg) (v : Word) : Event := .rd (.module 0) (regOffset cfg r) v
def wr (r : Reg) (v : Word) : Event := .wr (.module 0) (regOffset cfg r) v
def desc : DmaDesc := ⟨true, true, 32⟩

/-! ## Register bus and CSR (L2-RC) -/

/-- L2-RC1. -/
theorem test_rc1 : seen (exec (.regRead 0 0x48 (some [0, 9])) (online (env [0x12345678]))) =
    some (0, .word 0x12345678, some [0x12345678, 9], [.rd (.module 0) 0x48 0x12345678]) := by decide +kernel

/-- L2-RC3, L2-RC4: the buffer check precedes offline; L2-RC5: 0x4A refused. -/
theorem test_rc4_rc5 : (seen (exec (.regRead 0 0x48 none) offline)).map (·.1) = some (-21) ∧
    refusal (exec (.regRead 0 0x4A (some [0])) (online (env []))) = some (.badOffset 0x4A) := by decide +kernel

/-- The parameters with another `REGMAP` value for the CSR and for `DMA_CTRL`. -/
def mapped (o : RegOffset) : Params := { cfg with regmap := { cfg.regmap with csr := o, dmaCtrl := o } }

/-- 20_memory.md R65: a bad `REGMAP` value refuses the operation that names it, offline, before its checks and on a path that
does not reach the access; an operation that does not name it runs. -/
theorem test_bad_regmap :
    refusal (exec (.csrRead 0 none) { offline with cfg := mapped (.unaligned 10 1) }) = some (.badOffset 0x2A) ∧
      refusal (exec (.dmaBurst 0 .dsp .dspData none 0 .toHost) (online (env []) (mapped (.beyond 0)))) =
        some (.badOffset 0x1000) ∧
      (seen (exec (.serWriteByte 0 1) { offline with cfg := mapped (.beyond 0) })).isSome = true := by decide +kernel

/-- L2-RC2, and L3-1 step 6. -/
theorem test_rc2 : codeAndEvents (exec (.regRead 2 0x10 (some [0])) offline) = some (-11, []) := by decide +kernel

/-- L2-RC6. -/
theorem test_rc6 : codeAndEvents (exec (.regWrite 0 0x50 0xDEADBEEF) (online (env []))) =
    some (0, [.wr (.module 0) 0x50 0xDEADBEEF]) := by decide +kernel

/-- L2-RC8, L2-RC10, L2-RC12, L2-RC14. -/
theorem test_rc8 : codeAndEvents (exec (.csrSetBits 0 1) (online (env [0x10]))) = some (0, [rd .csr 0x10, wr .csr 0x11]) := by
  decide +kernel
theorem test_rc10 : codeAndEvents (exec (.csrClearBits 0 0x10) (online (env [0x11]))) =
    some (0, [rd .csr 0x11, wr .csr 0x01]) := by decide +kernel
theorem test_rc12 : csrMerge 4 4 0 = 4 := by decide +kernel
theorem test_rc14 : seen (exec (.csrRead 0 (some [0])) (online (env [4]))) = some (0, .word 4, some [4], [rd .csr 4]) := by
  decide +kernel
theorem test_rc13 : codeAndEvents (exec (.csrWrite 0 0) (online (env []))) = some (0, [wr .csr 0]) := by decide +kernel

/-! ## Serial bus (L2-S) -/

/-- The `SER_CTRL` values of a trace, in order. -/
def lineValues : Option (Int × Output × Buf × List Event) → List Word
  | some (_, _, _, es) => es.filterMap fun e => match e with
    | .wr _ 0x48 v => some v
    | _ => none
  | none => []

/-- Writes, reads and sleeps of a trace (41_serial_bus.md R126). -/
def counts : Option (Int × Output × Buf × List Event) → Nat × Nat × Nat
  | some (_, _, _, es) =>
    (es.countP fun e => match e with | .wr .. => true | _ => false,
     es.countP fun e => match e with | .rd .. => true | _ => false,
     es.countP fun e => match e with | .sleep 500 => true | _ => false)
  | none => (0, 0, 0)

/-- L2-S1: the line values, the counts of R126, the acknowledge. -/
theorem test_s1 :
    let o := seen (exec (.serWriteByte 0 0xA5) (online (env [0])))
    lineValues o = [7, 5, 4, 6, 7, 6, 4, 5, 4, 6, 7, 6, 4, 5, 4, 4, 5, 4, 6, 7, 6, 4, 5, 4, 6, 7, 2, 3, 2, 4, 5, 7] ∧
      counts o = (32, 1, 33) ∧ o.map (·.2.1) = some (.ack true) := by decide +kernel

/-- L2-S3. -/
theorem test_s3 :
    let o := seen (exec (.serReadByte 0 (some [1])) (online (env [0, 0, 0, 0, 1, 0, 1, 1])))
    lineValues o = [7, 5, 2, 3, 2, 3, 2, 3, 2, 3, 2, 3, 2, 3, 2, 3, 2, 3, 4, 5, 4, 4, 5, 7] ∧ counts o = (24, 8, 32) ∧
      o.map (fun x => (x.2.1, x.2.2.1)) = some (.byte 0x0B, some [0x0B]) := by decide +kernel

/-- L2-S4: the second prefix byte is not acknowledged. -/
theorem test_s4 :
    let o := seen (exec (.serReadSeq 0 [0xA0, 0x00] 2 (some [8, 9])) (online (env [0, 1])))
    counts o = (64, 2, 66) ∧ o.map (fun x => (x.1, x.2.2.1)) = some (-102, some [8, 9]) := by decide +kernel

/-- L1-7, L2-S6. -/
theorem test_id_decode :
    (idReply cfg [0x05, 0x00, 0x0B]).output = .ident 5 11 .new ⟨12, 100⟩ ∧
      (idReply cfg [0x12, 0x01, 0x0B]).output = .ident 274 11 .new ⟨12, 100⟩ ∧
      statusCode (idReply cfg [0x05, 0x00]).status = -31 := by decide +kernel

/-! ## HBR path and processor memory (L2-H); blocks of 4 words, single-word threshold 3 -/

/-- L2-H1: no CSR access. -/
theorem test_h1 : seen (exec (.dspMemRead 0 0x100 1 (some [0])) (online (env [0x77]))) =
    some (0, .none, some [0x77], [wr .hbrReq 0x11, wr .dspAddr 0x100, rd .dspData 0x77, wr .hbrDone 0x22]) := by decide +kernel

def small : Params := { cfg with dspBlockMore := 3, dspSingleMax := 3, dmaWmPolls := 2 }

def burstEnv (reads : List Word) : Env :=
  { id := some 0, reads := reads, dmaOpens := [some 3], xfers := [⟨.ok, [10, 11, 12, 13]⟩], closes := [.ok] }

/-- L2-H3 in shape: one block, then a single-word remainder of two. -/
theorem test_h3 : seen (exec (.dspMemRead 0 0x40000 6 (some [0, 0, 0, 0, 0, 0])) (online (burstEnv [0x21, 1, 0x20, 5, 6]) small)) =
    some (0, .none, some [10, 11, 12, 13, 5, 6],
      [wr .hbrReq 0x11, rd .csr 0x21, wr .csr 0x20, wr .dspAddr 0x40000, .dmaOpen (some 7) desc (some 3), wr .dmaCtrl 4,
       rd .dmaStat 1, .dmaXfer 3 ⟨.toHost, 0x1C, [0, 0, 0, 0, 0, 0], 16⟩ 5000 .ok, .dmaClose 3 .ok, wr .hbrDone 0x22,
       wr .hbrReq 0x11, rd .csr 0x20, wr .csr 0x20, wr .dspAddr 0x40004, rd .dspData 5, rd .dspData 6, wr .hbrDone 0x22]) := by
  decide +kernel

/-- L2-H6, L2-H7 in shape: the second block's transfer times out; the remainder's fails; nothing is read after either. -/
theorem test_h6_h7 :
    let e (x : XferResult) : Env :=
      { id := some 0, reads := [1, 1, 1, 1, 1, 1], dmaOpens := [some 3, some 3, some 3],
        xfers := [⟨.ok, [1, 2, 3, 4]⟩, ⟨x, []⟩], closes := [.ok, .ok, .ok] }
    let read (n : Nat) (x : XferResult) := exec (.dspMemRead 0 0 n (some (List.replicate n 0))) (online (e x) small)
    (codeAndEvents (read 11 .timeout)).map (fun x => (x.1, x.2.length, x.2.getLast?)) =
        some (-212, 20, some (wr .hbrDone 0x22)) ∧
      (codeAndEvents (read 7 .vendorError)).map (fun x => (x.1, x.2.length, x.2.getLast?)) =
        some (-223, 20, some (wr .hbrDone 0x22)) := by decide +kernel

/-- L2-H9. -/
theorem test_h9 : codeAndEvents (exec (.dspMemWrite 0 0x100 2 (some [7, 9])) (online (env [1]))) =
    some (0, [wr .hbrReq 0x11, rd .csr 1, wr .csr 0, wr .dspAddr 0x100, wr .dspData 7, wr .dspData 9, wr .hbrDone 0x22]) := by
  decide +kernel

/-- L2-H10: the grant never comes. -/
theorem test_h10 : codeAndEvents (exec (.dspMemRead 0 0x100 1 (some [0]))
      (online (env [0, 0, 0]) { cfg with hbrGrantPolls := 3 })) =
    some (-202, [wr .hbrReq 0x11, rd .hbrStat 0, rd .hbrStat 0, rd .hbrStat 0, wr .hbrDone 0x22]) := by decide +kernel

/-- L2-H12: from the caller the word is refused; exec has the effect R150 gives. -/
theorem test_h12 : refusal (step ((online (env [])).withFetchWord 32 0x20000000)) = some .callerIssuedInternal ∧
    (after (exec (.hbrRequest 0) (online (env [])))).map Handle.hbrHeld = some true := by decide +kernel

/-- 60_exceptions.md R261: a done while none is held. -/
theorem test_hbr_done_unpaired :
    (match exec (.hbrDone 0) (online (env [])) with
      | .fault f => some f
      | .next _ => none
      | .refused _ => none) = some .hbrUnpaired := by decide +kernel

/-! ## DMA burst engine (L2-D) -/

def dmaEnv (x : XferResult) (cs : List CloseResult) : Env :=
  { id := some 0, dmaOpens := [some 3], xfers := [⟨x, [1, 2, 3, 4]⟩], closes := cs }

def burst4 : Instr := .dmaBurst 0 .ext .extmemData (some [0, 0, 0, 0]) 4 .toHost

/-- L2-D1. -/
theorem test_d1 : seen (exec burst4 (online (dmaEnv .ok [.ok]))) =
    some (0, .none, some [1, 2, 3, 4],
      [.dmaOpen (some 7) desc (some 3), .dmaXfer 3 ⟨.toHost, 0x30, [0, 0, 0, 0], 16⟩ 5000 .ok, .dmaClose 3 .ok]) := by decide +kernel

/-- L2-D6, L2-D8: a second close failure is reported only when nothing failed before. -/
theorem test_d6_d8 :
    ((seen (exec burst4 (online (dmaEnv .ok [.inProgress, .inProgress])))).map (·.1) = some (-335)) ∧
      (seen (exec burst4 (online (dmaEnv .timeout [.error, .error])))).map (·.1) = some (-322) := by decide +kernel

/-! ## FIFO and external memory (L2-F, L2-E) -/

/-- L2-F1. -/
theorem test_f1 : seen (exec (.fifoReadWm 0 (some [0])) (online (env [1234]))) =
    some (0, .word 1234, some [1234], [rd .extfifoWm 1234]) := by decide +kernel

/-- L2-F3 with a count of 4. -/
theorem test_f3 : seen (exec (.fifoDrain 0 4 (some [0, 0, 0, 0])) (online (burstEnv [1, 3, 5]))) =
    some (0, .none, some [10, 11, 12, 13],
      [wr .extfifoArm 4, rd .extfifoWm 1, rd .extfifoWm 3, rd .extfifoWm 5, .dmaOpen (some 7) desc (some 3),
       .dmaXfer 3 ⟨.toHost, 0x44, [0, 0, 0, 0], 16⟩ 5000 .ok, .dmaClose 3 .ok]) := by decide +kernel

/-- L2-F4 with a bound of 2; L2-F5. -/
theorem test_f4_f5 :
    codeAndEvents (exec (.fifoDrain 0 4 (some [0, 0, 0, 0])) (online (env [3, 3]) { cfg with fifoWmPolls := 2 })) =
        some (-402, [wr .extfifoArm 4, rd .extfifoWm 3, rd .extfifoWm 3]) ∧
      (codeAndEvents (exec (.fifoDrain 0 4 (some [0, 0, 0, 0])) (online { dmaEnv .timeout [.ok] with reads := [4] }))).map
        (·.1) = some (-412) := by decide +kernel

/-- L2-E1. -/
theorem test_e1 : codeAndEvents (exec (.extMemWrite 0 0x10 1 (some [5])) (online (env [0, 2]))) =
    some (0, [rd .csr 0, wr .csr 2, wr .extmemAddr 0x10, wr .extmemData 5, rd .csr 2, wr .csr 0]) := by decide +kernel

/-- L2-E4. -/
theorem test_e4 : codeAndEvents (exec (.extMemRead 0 0x10 4 (some [0, 0, 0, 0]))
      (online { dmaEnv .vendorError [.ok] with reads := [0, 2, 2] })) =
    some (-503, [rd .csr 0, wr .csr 2, wr .extmemAddr 0x10, wr .extmemFifoArm 4, rd .dmaStat 2,
      .dmaOpen (some 7) desc (some 3), .dmaXfer 3 ⟨.toHost, 0x30, [0, 0, 0, 0], 16⟩ 5000 .vendorError, .dmaClose 3 .ok,
      rd .csr 2, wr .csr 0]) := by decide +kernel

/-- L2-E3 with a bound of 2; EXTMEM_WM_POLLS of 0 polls nothing (42_hbr_dma.md R172). -/
theorem test_e3 :
    codeAndEvents (exec (.extMemRead 0 0x10 4 (some [0, 0, 0, 0])) (online (env [0, 0, 0, 2]) { cfg with extmemWmPolls := 2 })) =
        some (-512, [rd .csr 0, wr .csr 2, wr .extmemAddr 0x10, wr .extmemFifoArm 4, rd .dmaStat 0, rd .dmaStat 0, rd .csr 2,
          wr .csr 0]) ∧
      (codeAndEvents (exec (.extMemRead 0 0x10 4 (some [0, 0, 0, 0]))
        (online { dmaEnv .ok [.ok] with reads := [0, 2] } { cfg with extmemWmPolls := 0 }))).map (fun x => (x.1, x.2.length)) =
        some (0, 9) := by decide +kernel

/-- L2-E5. -/
theorem test_e5 : codeAndEvents (exec (.extMemClear 0 0 1024) (online (env [0, 6, 6, 2, 2]))) =
    some (0, [rd .csr 0, wr .csr 2, wr .extmemClr 0, wr .extmemClr 1024, rd .csr 6, .sleep 100000, rd .csr 6, .sleep 100000,
      rd .csr 2, rd .csr 2, wr .csr 0]) := by decide +kernel

/-! ## Boot (L2-B) -/

/-- L2-B1. -/
theorem test_b1 :
    let o := exec (.bootCommFpga 0 9 [0x51, 0x52]) (online (env [1, 6]))
    codeAndEvents o = some (0, [wr .cfgCtrl 0xC0, wr .cfgCtrl 0xC1, rd .cfgStat 1, wr .cfgData 0x51, .sleep 2000,
      wr .cfgData 0x52, .sleep 2000, rd .cfgStat 6]) ∧ (after o).map (·.boot.commDone) = some true := by decide +kernel

/-- L2-B3 with two attempts; then a success in the second attempt. -/
theorem test_b3 :
    let o (v : Word) := exec (.bootCommFpga 0 9 [0x51, 0x52]) (online (env [1, 0, 1, v]) { cfg with fpgaAttempts := 2 })
    let cycle (v : Word) := [wr .cfgCtrl 0xC0, wr .cfgCtrl 0xC1, rd .cfgStat 1, wr .cfgData 0x51, .sleep 2000,
      wr .cfgData 0x52, .sleep 2000, rd .cfgStat v]
    codeAndEvents (o 2) = some (-622, cycle 0 ++ cycle 2) ∧ (after (o 2)).map (·.boot.commDone) = some false ∧
      codeAndEvents (o 6) = some (0, cycle 0 ++ cycle 6) := by decide +kernel

/-- L2-B6 with one attempt, L2-B2. -/
theorem test_b6 :
    codeAndEvents (exec (.bootSpFpga 0 9 [0x51, 0x52]) (online (env [1, 0]) { cfg with fpgaAttempts := 1 })) =
      some (-632, [wr .cfgCtrl 0xA0, wr .cfgCtrl 0xA1, rd .cfgStat 1, wr .cfgData 0x51, .sleep 2000, wr .cfgData 0x52,
        .sleep 2000, rd .cfgStat 0]) ∧
      codeAndEvents (exec (.bootCommFpga 0 9 [1]) (online (env []))) = some (-604, []) := by decide +kernel

/-- L2-B16. -/
theorem test_b16 : repack [0x12, 0x34, 0xAB, 0xCD] = some [0x1234, 0xABCD] := by decide +kernel

def oneKernelWord : Params := { cfg with dspKernelWords := 1 }

/-- A configuration write and read-back under its two HBR pairs. -/
def cfgEvents (a v : Word) : List Event :=
  [wr .hbrReq 0x11, wr .dspAddr a, wr .dspData v, wr .hbrDone 0x22, wr .hbrReq 0x11, wr .dspAddr a, rd .dspData v,
    wr .hbrDone 0x22]

/-- L2-B10 with a kernel of one word. -/
theorem test_b10 :
    let o := exec (.bootDsp 0 [0, 1, 0, 2, 0, 3]) (online (env [0, 0x18, 0xAA, 0xBB, 0x10, 1]) oneKernelWord)
    codeAndEvents o = some (0, [rd .csr 0, wr .csr 0x18, .sleep 1000000, rd .csr 0x18, wr .csr 0x10] ++
      cfgEvents 0x10 0xAA ++ cfgEvents 0x11 0xBB ++
      [wr .hbrReq 0x11, wr .dspAddr 0x1000, wr .dspData 1, wr .dspData 2, wr .dspData 3, wr .hbrDone 0x22,
       rd .csr 0x10, wr .csr 0, wr .hbrReq 0x11, wr .dspAddr 0x2000, rd .dspData 1, wr .hbrDone 0x22]) ∧
      (after o).map (·.boot.dspDone) = some true := by decide +kernel

/-- L2-B11, L2-B13 in shape, with a kernel of one word, one try and one poll: a power-up flag that does not stand is retried from
Reset; an unsupported tag is not. -/
theorem test_b11_b13 :
    let c := { oneKernelWord with dspCfgAttempts := 1, dspPudonePolls := 1, dspMoreAttempts := 1 }
    let one : List Word := [0, 0, 0xAA, 0xBB, 0, 0]
    (codeAndEvents (exec (.bootDsp 0 [0, 1, 0, 2, 0, 3]) (online (env (one ++ one)) c))).map (fun x => (x.1, x.2.length)) =
        some (-662, 68) ∧
      (codeAndEvents (exec (.bootDsp 0 [0, 1, 0, 2, 0, 3, 0, 9, 0, 1, 1, 0]) (online (env (one ++ one)) c))).map
        (fun x => (x.1, x.2.length)) = some (-674, 27) := by decide +kernel

def group (a : Word) (ws : List Word) : List Event :=
  [wr .hbrReq 0x11, wr .dspAddr a] ++ ws.map (wr .dspData) ++ [wr .hbrDone 0x22]

/-- The tag stream's status and events, in a processor boot. -/
def streamSeen (ws : List Word) : Option (Except Failure Unit × List Event) :=
  match tagStream ws.length ws ⟨cfg, .module 0, startPos .bootDsp⟩ ⟨handle, env []⟩ with
  | .ok a _ t => some (a, (shown t).map Issued.event)
  | .fault .. => none
  | .refused _ => none

/-- L2-B14. -/
theorem test_b14 :
    (match streamSeen [1, 1, 0x100, 4, 5, 6, 2, 2, 0x200, 3, 0, 0x300, 7, 8, 9] with
      | some (.ok (), t) => t == group 0x100 [4, 5, 6] ++ group 0x200 [0, 0] ++ group 0x201 [0, 0] ++ group 0x300 [7] ++
          group 0x301 [8]
      | _ => false) = true := by decide +kernel

/-- L2-B13, L2-B15: unsupported tag; short payload; no segment write. -/
theorem test_b13_b15 :
    (match streamSeen [9, 1, 0x100], streamSeen [1, 2, 0x100, 4, 5, 6] with
      | some (.error f, []), some (.error g, []) => f == ⟨.dataIntegrityFailure, .dspTag⟩ && g == streamFailure
      | _, _ => false) = true := by decide +kernel

/-- L2-B17, L2-B18, L2-B19. -/
theorem test_b17_b18_b19 :
    codeAndEvents (exec (.bootModule 0 9 {} 0x80) (online (env []))) = some (-41, []) ∧
      (after (exec (.bootModule 0 9 {} 0) (online (env [])))).map (·.boot.booted) = some true ∧
      codeAndEvents (exec (.bootModule 0 9 { comm := [1, 2], sp := [1, 2, 3] } 0x0D) (online (env []))) = some (-614, []) := by
  decide +kernel

/-- L3-3 in shape: the interface FPGA boots, the first signal-processing pair does not (one attempt each). -/
theorem test_l3_3 :
    let o := exec (.bootModule 0 9 { comm := [1, 2], sp := [3, 4] } 0x05)
      (online (env [1, 6, 1, 0]) { cfg with fpgaAttempts := 1 })
    (seen o).map (·.1) = some (-632) ∧
      (after o).map Handle.boot = some { commDone := true, spDone := false, dspDone := false, booted := false } := by decide +kernel

/-! ## Discovery and close (L2-I) -/

/-- The step's state, for a session of two calls. -/
def stateOf : Host.Outcome State Fault Refusal → State
  | .next s => s
  | .fault _ => State.reset
  | .refused _ => State.reset

def fresh (e : Env) : State := { State.reset with cfg := cfg, disc := e }

/-- L2-I1, L2-I2, L2-I3. -/
theorem test_i1_i2_i3 :
    let s := stateOf (exec (.sysInit [3, 5] true) (fresh { id := none }))
    s.moduleCount = 2 ∧ s.isOffline = true ∧ (s.module? 1).map (fun x => (x.handle.win, x.handle.slot)) = some (none, 5) ∧
      codeAndEvents (exec (.sysInit [3, 5] true) s) = some (-61, []) ∧
      codeAndEvents (exec (.sysInit [3, 3] false) (fresh { id := none })) = some (-741, []) := by decide +kernel

/-- L2-I5: two keys on one bus/slot; one probe; the events other than the slot read's. -/
theorem test_i5 :
    let o := exec (.sysInit [4] false) (fresh
      { id := none, finds := [some 50, some 51, none], opens := [some 70, some 71], maps := [some 90, some 91],
        reads := [0, 0, 0, 0, 0, 1, 0, 0] })
    counts (seen o) = (24, 8, 32) ∧
      (codeAndEvents o).map (fun x => (x.1, x.2.filter fun e => match e with
        | .wr .. | .rd .. | .sleep _ => false
        | _ => true)) =
        some (0, [.find 1 2 0 (some 50), .find 1 2 1 (some 51), .find 1 2 2 none, .openDev 50 (some 70),
          .mapBar 70 2 (some 90), .unmapBar (some 70) 90, .closeDev (some 70), .openDev 50 (some 71),
          .mapBar 71 2 (some 91)]) ∧
      (after o).map (fun h => (h.dev, h.win, h.slot)) = some (some 71, some 91, 4) := by decide +kernel

/-- L2-I6, the reopening: module 1's `mapBar` fails and everything is unwound in reverse order. -/
theorem test_i6 :
    (match openModules [] [50, 52] ⟨cfg, .probe 0, startPos .sysInit⟩
        ⟨handle, { id := none, opens := [some 70, some 71], maps := [some 90, none] }⟩ with
      | .ok (.error f) _ t => some (f, (shown t).map Issued.event)
      | _ => none) =
      some (⟨.resourceFailure, .map⟩, [.openDev 50 (some 70), .mapBar 70 2 (some 90), .openDev 52 (some 71),
        .mapBar 71 2 none, .closeDev (some 71), .unmapBar (some 70) 90, .closeDev (some 70)]) := by decide +kernel

/-- L2-I8, L2-RC7: closing twice, then a write to the closed module. -/
theorem test_i8 :
    let o := exec (.moduleClose 0) (online (env []))
    codeAndEvents o = some (0, [.unmapBar (some 7) 100, .closeDev (some 7)]) ∧
      codeAndEvents (exec (.moduleClose 0) (stateOf o)) = some (0, []) ∧
      codeAndEvents (exec (.regWrite 0 0x50 1) (stateOf o)) = some (-51, []) := by decide +kernel

/-! ## Offline (L1-1, L3-1) and the step -/

/-- L3-1 steps 2 to 5: no events, buffers unchanged, boot flags untouched. -/
theorem test_l3_1_writes :
    codeAndEvents (exec (.regWrite 1 0x10 0xDEADBEEF) offline) = some (0, []) ∧
      codeAndEvents (exec (.csrSetBits 0 4) offline) = some (0, []) := by decide +kernel
theorem test_l3_1_read : seen (exec (.regRead 1 0x10 (some [7])) offline) = some (0, .word 7, some [7], []) := by
  decide +kernel
theorem test_offline_ack : seen (exec (.serWriteByte 0 1) offline) = some (0, .ack true, none, []) := by decide +kernel

/-! ## The step: the caller's calls, and the sequencers side by side (00_scope.md R6) -/

/-- The step takes the oldest call. -/
theorem test_step_takes_call :
    seen (step { online (env [4]) with calls := [⟨0x08000000, { buf := some [0] }⟩, ⟨0x09000000, {}⟩] }) =
      some (0, .word 4, some [4], [rd .csr 4]) := by decide +kernel

/-- Two modules online. -/
def two : State :=
  { online (env [4]) with
    system := some { offline := false, modules := [{ handle, pos := .idle, env := env [4] },
      { handle := { handle with slot := 5 }, pos := .idle, env := { id := some 1, reads := [5] } }] } }

/-- CSR_SET_BITS issued for both modules of `two`. -/
def twoCalls : State := { two with calls := [⟨0x0A000000, { mask := 1 }⟩, ⟨0x0A010000, { mask := 2 }⟩] }

/-- How many events the operation in progress on a module has issued, and whether its sequencer is idle. -/
def progress (m : Nat) (o : Host.Outcome State Fault Refusal) : Option (Option Nat × Bool) :=
  match o with
  | .next s => (s.module? m).map fun x => (x.job.map fun j => j.trace.length, x.pos == .idle)
  | .fault _ => none
  | .refused _ => none

/-- 00_scope.md R6: the operations on two modules interleave, between the read and the write of each; the second module's returns
first, and each has its own events and the word of its own module. -/
theorem test_interleaving :
    let run (q : List Turn) := core.run q.length { twoCalls with turns := q }
    let q : List Turn := [.start, .start, .sequencer 0, .sequencer 1]
    (progress 0 (run q) = some (some 1, false) ∧ progress 1 (run q) = some (some 1, false)) ∧
      (progress 1 (run (q ++ [.sequencer 1])) = some (none, true) ∧
        codeAndEvents (run (q ++ [.sequencer 1])) =
          some (0, [.rd (.module 1) 0x28 5, .wr (.module 1) 0x28 7]) ∧
        progress 0 (run (q ++ [.sequencer 1])) = some (some 1, false)) ∧
      (codeAndEvents (run (q ++ [.sequencer 1, .sequencer 0])) =
          some (0, [.rd (.module 0) 0x28 4, .wr (.module 0) 0x28 5]) ∧
        progress 0 (run (q ++ [.sequencer 1, .sequencer 0])) = some (none, true)) := by decide +kernel

/-- 93_implementation_defined.md U9: a close whose vendor call never returns stops its own sequencer; the other module is read after
it, and a turn of the first changes nothing. -/
theorem test_hang_stops_one_sequencer :
    let s := { two with calls := [⟨0x51000000, {}⟩, ⟨0x08010000, { buf := some [0] }⟩] }.putModule 0
      { handle, pos := .idle, env := { env [] with vendorLeft := some 0 } }
    progress 0 (core.run 2 s) = some (some 0, false) ∧
      seen (core.run 2 s) = some (0, .word 5, some [5], [.rd (.module 1) 0x28 5]) ∧
      progress 0 (core.run 3 s) = some (some 0, false) := by decide +kernel

/-- 10_state.md R24: between the request and the done of a processor read the request is held. -/
theorem test_held_in_mid_operation :
    let s := { online (env [0x77]) with calls := [⟨0x23000000, { addr := 0x100, count := 1, buf := some [0] }⟩] }
    let held (q : List Turn) := (after (core.run q.length { s with turns := q })).map Handle.hbrHeld
    held [.start] = some false ∧ held [.start, .sequencer 0] = some true ∧
      held [.start, .sequencer 0, .sequencer 0, .sequencer 0] = some true ∧
      held [.start, .sequencer 0, .sequencer 0, .sequencer 0, .sequencer 0] = some false := by decide +kernel

/-! ## Witnesses: for each obligation with hypotheses, a state and operands that meet all of them -/

def mod0 (e : Env) : Machine.Module := { handle, pos := .idle, env := e }

theorem windowOk_cfg : windowOk cfg = true := by decide

/-- Module 0 of `online e c` is online. -/
theorem isOnline (e : Env) (c : Params) : (online e c).Online 0 (mod0 e) := ⟨rfl, rfl, rfl, rfl⟩

/-- Module 0 of `online e c` serves, if the window is usable and the vendor library returns. -/
theorem serves (e : Env) (c : Params) (hw : windowOk c = true) (hv : e.vendorLeft = none) : (online e c).Serves 0 (mod0 e) :=
  ⟨isOnline e c, hw, rfl, hv⟩

theorem next_of_seen {o : Host.Outcome State Fault Refusal} (h : (seen o).isSome = true) : ∃ t, o = .next t := by
  cases o with
  | next t => exact ⟨t, rfl⟩
  | fault _ => cases h
  | refused _ => cases h

def called (w : Word) (a : Operands) (s : State) : State := { s with calls := [⟨w, a⟩] }

/-- DecodeEncodeRoundTrip: the largest index `MOD` holds. -/
theorem witness_round_trip : (Instr.dspMemRead 255 0x40000 8202 none).ModuleFits := by decide

/-- DecodedWordIsTheEncoding. -/
theorem witness_decoded_word : decode ⟨0x0BFF0000, { mask := 4 }⟩ = .ok (.csrClearBits 255 4) := by decide

/-- RefusedEncodings, each clause; the last at the boundary `MOD = moduleCount`. -/
theorem witness_refused_encodings :
    (cmdOp 0x03000000 ∉ tableOpcodes) ∧ (cmdOp 0x01000001 ∈ tableOpcodes ∧ cmdRsv 0x01000001 ≠ 0) ∧
    (cmdOp 0x13010000 ∈ [0x13#8, 0x50#8] ∧ cmdRsv 0x13010000 = 0 ∧ cmdMod 0x13010000 ≠ 0) ∧
    (cmdOp 0x21FF0000 ∈ [0x20#8, 0x21#8] ∧ cmdRsv 0x21FF0000 = 0) ∧
    (cmdOp 0x01010000 ∈ tableOpcodes ∧ cmdOp 0x01010000 ∉ [0x13#8, 0x50#8] ∧ cmdRsv 0x01010000 = 0 ∧
      (online (env [])).moduleCount ≤ (cmdMod 0x01010000).toNat ∧ OffsetsOk cfg (.regRead 1 0 none)) := by decide

/-- StepRunsDecodedOperation, RefusedEncodings: a call and no turn; no call and an operation in progress; neither. -/
theorem witness_step :
    decode ⟨0x08000000, { buf := some [0] }⟩ = .ok (.csrRead 0 (some [0])) ∧
      (∀ m, Instr.csrRead 0 (some [0]) ≠ .hbrRequest m ∧ Instr.csrRead 0 (some [0]) ≠ .hbrDone m) ∧
      (∃ t, exec (.csrRead 0 (some [0])) (online (env [4])) = .next t) ∧ (online (env [])).turns = [] ∧
      (online (env [])).calls = [] ∧ ((List.range 2).map (stateOf (core.run 1 { twoCalls with turns := [.start] })).enabled =
        [true, false]) ∧ (∀ m, (online (env [])).enabled m = false) := by
  refine ⟨by decide, fun m => ⟨nofun, nofun⟩, next_of_seen (by decide +kernel), rfl, rfl, by decide +kernel, fun m => ?_⟩
  cases m <;> rfl

/-- SequencerTurnsRunTheOperation: a read-modify-write of two events, stopped before the second. -/
theorem witness_turns :
    decode ⟨0x0A000000, { mask := 1 }⟩ = .ok (.csrSetBits 0 1) ∧ (Instr.csrSetBits 0 1).module? = some 0 ∧
      two.module? 0 = some (mod0 (env [4])) ∧ (mod0 (env [4])).job = none ∧
      (∃ t, exec (.csrSetBits 0 1) { two with turns := [.sequencer 1] } = .next t) ∧
      ((stateOf (exec (.csrSetBits 0 1) two)).issued[1]?).isSome = true :=
  ⟨by decide, rfl, rfl, rfl, next_of_seen (by decide +kernel), by decide +kernel⟩

/-- ResetHoldsNoSystem: an operation on a register, in the reset state itself. -/
theorem witness_reset : (Instr.csrRead 0 none).module? = some 0 ∧
    ∀ off ∈ (Instr.csrRead 0 none).rawOffset?, offsetOk State.reset.cfg off = true := ⟨rfl, nofun⟩

/-- StepKeepsInvariant, StepTraceIsPairedAndClean: a read of processor memory by block and remainder. -/
theorem witness_invariant :
    let s := called 0x23000000 { addr := 0x40000, count := 6, buf := some [0, 0, 0, 0, 0, 0] }
      (online (burstEnv [0x21, 1, 0x20, 5, 6]) small)
    s.Inv ∧ s.turns = [] ∧ s.calls ≠ [] ∧ ∃ t, step s = .next t :=
  ⟨by decide +kernel, rfl, by decide, next_of_seen (by decide +kernel)⟩

/-- StepKeepsInvariant, StepTraceIsPairedAndClean: that read in mid-operation, after its first request, and its next step. -/
theorem witness_invariant_in_step :
    let s := stateOf (core.run 2 { called 0x23000000 { addr := 0x40000, count := 6, buf := some [0, 0, 0, 0, 0, 0] }
      (online (burstEnv [0x21, 1, 0x20, 5, 6]) small) with turns := [.start, .sequencer 0, .sequencer 0] })
    s.Inv ∧ s.turns ≠ [] ∧ progress 0 (step s) = some (some 2, false) ∧
      (s.module? 0).map (fun x => x.handle.hbrHeld) = some true := by decide +kernel

/-- ChecksComeFirst, both clauses. -/
theorem witness_checks :
    ((Instr.csrRead 1 none).module? = some 1 ∧ (online (env [])).module? 1 = none) ∧
      (online (env [])).module? 0 = some (mod0 (env [])) ∧ OffsetsOk cfg (.regRead 0 0xFFC none) ∧
      argFailure cfg (.regRead 0 0xFFC none) = some ⟨.invalidArgument, .buffer⟩ := by decide

/-- OfflineIsSilent. -/
theorem witness_offline :
    (offline.module? 1).map Module.pos = some .idle ∧ OffsetsOk cfg (.regRead 1 0 (some [7])) ∧
      argFailure cfg (.regRead 1 0 (some [7])) = none ∧ offline.isOffline = true := by decide

/-- ClosedModuleFails, both clauses. -/
theorem witness_closed :
    let x := { mod0 (env []) with handle := { handle with win := none, dev := none } }
    let s := (online (env [])).putModule 0 x
    s.module? 0 = some x ∧ x.pos = .idle ∧ s.isOffline = false ∧ x.handle.win = none ∧
      argFailure s.cfg (.csrWrite 0 1) = none ∧ Instr.csrWrite 0 1 ≠ .moduleClose 0 ∧
      argFailure s.cfg (.moduleClose 0) = none := by decide

/-- StopsByName: an offset at each bound, raw and of `REGMAP`; a busy sequencer; a vendor library that no longer returns. -/
theorem witness_stops :
    ((∃ off ∈ offsetsOf cfg (.regWrite 0 0x1000 1), off % 4 ≠ 0 ∨ winBytes cfg ≤ off) ∧
      ∃ off ∈ offsetsOf (mapped (.unaligned 0 0)) (.csrRead 0 none), off % 4 ≠ 0 ∨ winBytes (mapped (.unaligned 0 0)) ≤ off) ∧
      (let x := { mod0 (env []) with pos := .busy (startPos .bootDsp) }
       ((online (env [])).putModule 0 x).module? 0 = some x ∧ x.pos ≠ .idle) ∧
      (online { env [] with vendorLeft := some 0 }).Online 0 (mod0 { env [] with vendorLeft := some 0 }) ∧
      0 < 4 ∧ 4 ≤ bufLen (some [0, 0, 0, 0]) := by decide

/-- StopsByName, the hangs inside an operation: a block first; a burst as the whole remainder; the watermark seen; none polled;
SYS_INIT's first call; a hang after one vendor call; a call that hangs, issued. -/
theorem witness_hangs :
    (0 < 4 / small.dspBlockWords ∧ small.dspSingleMax ≤ 3 % small.dspBlockWords ∧ small.hbrGrantPolls = 0) ∧
      readMany 1 (env [4]) = ([4], env []) ∧ PollSeen cfg.fifoWmPolls (fun v => decide (4 ≤ v.toNat)) [4] ∧
      readMany ([2#32].length + 1) (env [0, 2]) = ([0, 2], env []) ∧
      PollSeen cfg.extmemWmPolls (fun v => v &&& cfg.extmemWmMask != 0) [2] ∧
      { cfg with extmemWmPolls := 0 }.extmemWmPolls = 0 ∧ 0 < cfg.findLimit ∧
      ((seen (exec (.moduleClose 0) (online { env [] with vendorLeft := some 2 }))).isSome = true) ∧
      (decode ⟨0x51000000, {}⟩ = .ok (.moduleClose 0) ∧
        exec (.moduleClose 0) (online { env [] with vendorLeft := some 0 }) = .fault .vendorHang) := by
  refine ⟨by decide, by decide, ?_, by decide, ?_, rfl, by decide, by decide +kernel, by decide, rfl⟩ <;> simp [PollSeen, cfg]

/-- ServingModuleCompletes, with the boundary count. -/
theorem witness_serving :
    (online (env [])).Serves 0 (mod0 (env [])) ∧ OffsetsOk cfg (.dspMemRead 0 0 1 (some [0])) ∧
      argFailure cfg (.dspMemRead 0 0 1 (some [0])) = none ∧ Instr.dspMemRead 0 0 1 (some [0]) ≠ .hbrDone 0 :=
  ⟨serves _ _ windowOk_cfg rfl, by decide, by decide, nofun⟩

/-- OtherModulesUntouched, HandleFrame, BufferFrame, WindowAccessesAreAllowed, OutcomeDependsOnOwnModule,
ModuleOperationsCommute: two modules, an operation on each; and one in progress on each. -/
theorem witness_frames :
    two.module? 0 = some (mod0 (env [4])) ∧ 0 < two.moduleCount ∧ 1 < two.moduleCount ∧
      (∃ a, exec (.csrSetBits 0 1) two = .next a) ∧ (∃ b, exec (.csrRead 1 (some [9])) two = .next b) ∧
      (let s := stateOf (core.run 2 { twoCalls with turns := [.start, .start] })
       progress 0 (core.run 2 { s with turns := [.sequencer 0, .sequencer 1] }) = some (some 1, false) ∧
         progress 1 (core.run 2 { s with turns := [.sequencer 0, .sequencer 1] }) = some (some 1, false)) ∧
      (let s := stateOf (core.run 1 { twoCalls with turns := [.start] })
       progress 0 (step { s with turns := [.sequencer 0] }) = some (some 1, false) ∧
         ∃ b, exec (.csrRead 1 (some [9])) s = .next b) :=
  ⟨rfl, by decide, by decide, next_of_seen (by decide +kernel), next_of_seen (by decide +kernel), by decide +kernel,
    by decide +kernel, next_of_seen (by decide +kernel)⟩

/-- HandleFrame: an operation after which the module's record is there. -/
theorem witness_handle_frame : (after (exec (.moduleClose 0) (online (env [])))).map Handle.win = some none := by
  decide +kernel

/-- RegisterBusAccesses, at the last offset; CsrAndWatermarkReads, CsrWritesAndModifies, SerialWriteFrame, SerialReadFrame and
the other statements on an online module with a usable window. -/
theorem witness_online :
    (online (env [])).Online 0 (mod0 (env [])) ∧ 0xFFC % 4 = 0 ∧ 0xFFC < winBytes cfg ∧ windowOk cfg = true := by decide

/-- CsrModifyReadsThenWrites, PollIsBounded. -/
theorem witness_window : windowOk (⟨cfg, .module 0, startPos .csrWrite⟩ : Scope).cfg = true ∧ 31 < 32 := by decide

/-- SerialSequence: every byte of the prefix acknowledged; the second of two not acknowledged. -/
theorem witness_serial_sequence :
    (∀ v ∈ (readMany 2 (env [0, 0])).1, isLow cfg v) ∧
      (1 < 2 ∧ (∀ v ∈ (readMany 1 (env [0, 1])).1, isLow cfg v) ∧ ¬ isLow cfg (envRead (readMany 1 (env [0, 1])).2).1) ∧
      2 ≤ bufLen (some [8, 9]) := by
  simp [readMany, envRead, envNext, env, isLow, cfg, bufLen, bufWords]

/-- SerialRoundTrip: the environment after the write holds the peer's words. -/
theorem witness_serial_round_trip :
    let s := online (env [0, 1, 0, 1, 0, 0, 1, 0, 1])
    let t := stateOf (exec (.serWriteByte 0 0xA5) s)
    linesDistinct cfg = true ∧ s.Online 0 (mod0 (env [0, 1, 0, 1, 0, 0, 1, 0, 1])) ∧
      (t.module? 0).map (fun y => y.env.reads) =
        some (peerWords cfg ((risingData cfg true (wordsTo .serCtrl t.issued)).take 8) ++ []) := by decide +kernel

/-- IdDecodeResult: each clause, at the boundary serial numbers and lengths. -/
theorem witness_id_decode :
    [0x12#8, 0x01#8].length < 3 ∧ 0x12 + 256 * 0x01 < cfg.legacyAdcSerialLimit ∧ cfg.legacyAdcSerialLimit ≤ 0x13 + 256 * 0x01 ∧
      adcOf { cfg with adcDecode := [((.new, []), .adc ⟨14, 250⟩)] } .new [] = .adc ⟨14, 250⟩ ∧
      adcOf { cfg with adcDecode := [((.new, []), .fail ⟨.invalidArgument, .count⟩)] } .new [] =
        .fail ⟨.invalidArgument, .count⟩ := by decide

/-- HbrRequestAndDone: no request held; one held. -/
theorem witness_hbr :
    let x := { mod0 (env []) with handle := { handle with hbrHeld := true } }
    (mod0 (env [])).handle.hbrHeld = false ∧ cfg.hbrGrantPolls = 0 ∧ ((online (env [])).putModule 0 x).Online 0 x ∧
      x.handle.hbrHeld = true := by decide

/-- HbrRequestPollsForGrant: granted at the last poll; never. -/
theorem witness_hbr_polls :
    let c := { cfg with hbrGrantPolls := 2 }
    (readMany ([0#32].length + 1) (env [0, 1]) = ([0] ++ [1], env []) ∧ [0#32].length < c.hbrGrantPolls ∧
      (∀ w ∈ [0#32], w &&& c.hbrGrantMask ≠ c.hbrGrantMask) ∧ 1#32 &&& c.hbrGrantMask = c.hbrGrantMask) ∧
    (readMany c.hbrGrantPolls (env [0, 0]) = ([0, 0], env []) ∧
      ∀ w ∈ [0#32, 0#32], w &&& c.hbrGrantMask ≠ c.hbrGrantMask) := by
  simp [readMany, envRead, envNext, env, cfg]

/-- DspWriteUnderOneRequest, DspReadOneWord, DspReadFewWords. -/
theorem witness_dsp :
    let c := { cfg with dspBlockMore := 3 }
    (online (env []) c).Serves 0 (mod0 (env [])) ∧ 0 < 1 ∧ 1 ≤ bufLen (some [7]) ∧ 2 ≤ 3 ∧ 3 < c.dspSingleMax ∧
      3 < c.dspBlockWords ∧ 3 ≤ [1#32, 2, 3].length ∧ c.remainderMode = .autoinc := by decide

/-- DspReadSplitsIntoBlocks: one block and a remainder, read with status OK. -/
theorem witness_dsp_blocks :
    let s := online (burstEnv [0x21, 1, 0x20, 5, 6]) small
    s.Online 0 (mod0 (burstEnv [0x21, 1, 0x20, 5, 6])) ∧
      (stateOf (exec (.dspMemRead 0 0x40000 6 (some [0, 0, 0, 0, 0, 0])) s)).status = some .ok ∧
      (burstEnv [0x21, 1, 0x20, 5, 6]).xfers = [[10, 11, 12, 13]].map (fun d => ⟨.ok, d⟩) ++ [] ∧
      ([[10, 11, 12, 13]] : List (List Word)).map List.length = List.replicate (6 / small.dspBlockWords) small.dspBlockWords ++
        (if 0 < 6 % small.dspBlockWords ∧ small.dspSingleMax ≤ 6 % small.dspBlockWords then [6 % small.dspBlockWords] else []) ∧
      s.Serves 0 (mod0 (burstEnv [0x21, 1, 0x20, 5, 6])) := by decide +kernel

/-- CloseRetriesOnce, both clauses. -/
theorem witness_close :
    (envClose (dmaEnv .ok [.ok])).1 = .ok ∧ (envClose (dmaEnv .ok [.inProgress, .error])).1 ≠ .ok ∧
      (dmaEnv .ok [.ok]).vendorLeft = none := by decide

/-- DmaBurstTransfersAndCloses: an open that fails (any kind); one that gives a channel. -/
theorem witness_burst :
    (online (dmaEnv .ok [.ok])).Serves 0 (mod0 (dmaEnv .ok [.ok])) ∧ Kind.ext ≠ .dsp ∧ 0 < 4 ∧ 4 ≤ [0#32, 0, 0, 0].length ∧
      (envDmaOpen { env [] with dmaOpens := [none] }).1 = none ∧ (envDmaOpen (dmaEnv .ok [.ok])).1 = some 3 ∧
      (envXfer (envDmaOpen (dmaEnv .ok [.ok])).2).1 = ⟨.ok, [1, 2, 3, 4]⟩ := by decide

/-- DmaBurstPrimesProcessorMemory: the watermark at the last poll, the transfer and the close answered; a transfer that fails
after it, and the first close too; a watermark that never comes. -/
theorem witness_primed_burst :
    let e := { dmaEnv .ok [.ok] with reads := [0, 1], dmaOpens := [] }
    let e' := { dmaEnv .ok [.ok] with dmaOpens := [] }
    envDmaOpen { dmaEnv .ok [.ok] with reads := [0, 1] } = (some 3, e) ∧ (readMany ([0#32].length + 1) e = ([0] ++ [1], e')) ∧
      [0#32].length < small.dmaWmPolls ∧ (∀ w ∈ [0#32], w &&& small.dmaWmMask = 0) ∧ 1#32 &&& small.dmaWmMask ≠ 0 ∧
      envXfer e' = (⟨.ok, [1, 2, 3, 4]⟩, { e' with xfers := [] }) ∧
      envClose { e' with xfers := [] } = (.ok, { e' with xfers := [], closes := [] }) ∧
      (let f := { e' with xfers := [⟨.timeout, []⟩], closes := [.error, .ok] }
       envXfer f = (⟨.timeout, []⟩, { f with xfers := [] }) ∧ (envClose { f with xfers := [] }).1 ≠ .ok) ∧
      (readMany small.dmaWmPolls (env [0, 0])).1 = [0, 0] ∧ ∀ w ∈ [0#32, 0#32], w &&& small.dmaWmMask = 0 := by
  simp [readMany, envRead, envNext, envDmaOpen, envXfer, envClose, env, small, cfg, dmaEnv]

/-- FifoDrainWaitsForWatermark: the watermark at the count itself; one below it at every poll. -/
theorem witness_fifo :
    let c := { cfg with fifoWmPolls := 2 }
    (readMany ([3#32].length + 1) { burstEnv [3, 4] with id := some 0 } = ([3] ++ [4], burstEnv []) ∧
      [3#32].length < c.fifoWmPolls ∧ (∀ w ∈ [3#32], w.toNat < 4) ∧ 4 ≤ (4#32).toNat ∧
      (envDmaOpen (burstEnv [])).1 = some 3 ∧ (envXfer (burstEnv [])).1 = ⟨.ok, [10, 11, 12, 13]⟩ ∧
      (envClose (burstEnv [])).1 = .ok) ∧
    (readMany [3#32, 4].length (env [3, 4]) = ([3, 4], env []) ∧
      PollSeen c.fifoWmPolls (fun v => decide (4 ≤ v.toNat)) [3, 4]) ∧
    (readMany c.fifoWmPolls (env [3, 3]) = ([3, 3], env []) ∧ ∀ w ∈ [3#32, 3#32], w.toNat < 4) := by
  simp [readMany, envRead, envNext, envDmaOpen, envXfer, envClose, env, burstEnv, PollSeen]

/-- ExtMemWriteTrace, ExtMemOwnershipOnEveryPath. -/
theorem witness_ext_mem :
    readMany 2 (env [0, 2]) = ([0, 2], env []) ∧ 0 < 1 ∧ 1 ≤ bufLen (some [5]) ∧
      (Instr.extMemWrite 0 0x10 1 (some [5])).mnemonic ∈ [Mnemonic.extMemWrite, .extMemRead, .extMemClear] ∧
      argFailure cfg (.extMemWrite 0 0x10 1 (some [5])) = none ∧
      ∃ t, exec (.extMemWrite 0 0x10 1 (some [5])) (online (env [0, 2])) = .next t :=
  ⟨by decide, by decide, by decide, by decide, by decide, next_of_seen (by decide +kernel)⟩

/-- ExtMemReadSucceeds. -/
theorem witness_ext_mem_read :
    let e := { dmaEnv .ok [.ok] with reads := [0, 0, 2, 2] }
    envRead e = (0, { e with reads := [0, 2, 2] }) ∧
      readMany ([0#32].length + 1) { e with reads := [0, 2, 2] } = ([0] ++ [2], { e with reads := [2] }) ∧
      [0#32].length < cfg.extmemWmPolls ∧ (∀ z ∈ [0#32], z &&& cfg.extmemWmMask = 0) ∧ 2#32 &&& cfg.extmemWmMask ≠ 0 ∧
      (envDmaOpen { e with reads := [2] }).1 = some 3 ∧ (envXfer e).1 = ⟨.ok, [1, 2, 3, 4]⟩ ∧ (envClose e).1 = .ok := by
  simp [readMany, envRead, envNext, envDmaOpen, envXfer, envClose, cfg, dmaEnv]

/-- ExtMemReadSucceeds, the other clauses: the watermark seen at the last poll; no poll at all; a watermark that never comes. -/
theorem witness_ext_mem_read_fails :
    let c := { cfg with extmemWmPolls := 2 }
    (readMany ([0#32, 2].length + 1) (env [0, 0, 2]) = (0 :: [0, 2], env []) ∧
      PollSeen c.extmemWmPolls (fun z => z &&& c.extmemWmMask != 0) [0, 2]) ∧
    (readMany ([] : List Word).length.succ (env [0]) = (0 :: [], env []) ∧ { cfg with extmemWmPolls := 0 }.extmemWmPolls = 0) ∧
    (readMany (c.extmemWmPolls + 2) (env [0, 0, 1, 2]) = (0 :: ([0, 1] ++ [2]), env []) ∧
      PollMissed c.extmemWmPolls (fun z => z &&& c.extmemWmMask != 0) [0, 1]) := by
  simp [readMany, envRead, envNext, env, cfg, PollSeen, PollMissed]

/-- ExtMemClearPolls: clear at the last poll; never. -/
theorem witness_ext_mem_clear :
    let c := { cfg with extmemClrPolls := 2 }
    (readMany ([6#32].length + 1) (env [6, 2]) = ([6] ++ [2], env []) ∧ [6#32].length < c.extmemClrPolls ∧
      (∀ z ∈ [6#32], z.getLsbD c.csrmap.extmemClearing.val = true) ∧
      (2#32).getLsbD c.csrmap.extmemClearing.val = false) ∧
    (readMany c.extmemClrPolls (env [6, 6]) = ([6, 6], env []) ∧
      ∀ z ∈ [6#32, 6#32], z.getLsbD c.csrmap.extmemClearing.val = true) := by
  simp [readMany, envRead, envNext, env, cfg]

/-- BootCommFirstAttempt, BootSpPairsInOrder: INIT at the second poll, then the done pair. -/
theorem witness_fpga_ready :
    FpgaReady cfg .comm [0] 1 6 ∧ FpgaReady cfg .spA [0] 1 6 ∧ FpgaReady cfg .spB [] 1 7 ∧
      readMany ([0#32].length + 2) (env [0, 1, 6]) = ([0] ++ [1, 6], env []) ∧ [0x51#32, 0x52].length = fwWordsComm cfg 9 ∧
      [0x51#32, 0x52].length = fwWordsSp cfg 9 ∧ 0 < cfg.fpgaAttempts := by
  simp [readMany, envRead, envNext, env, cfg, FpgaReady, patternOf, fwWordsComm, fwWordsSp, tableOr, FpgaPattern.doneMask,
    FpgaPattern.doneBit2]

/-- BootCommNeverReady, BootSpPairsInOrder: an INIT timeout, a verify that fails, then an attempt that succeeds at the last poll;
and no success. -/
theorem witness_fpga_attempts :
    let c := { cfg with fpgaInitPolls := 2, fpgaAttempts := 3 }
    let fails : List FpgaRun := [⟨[0, 0], none⟩, ⟨[1], some 2⟩]
    FpgaBoots c .comm fails (some ⟨[0, 1], some 6⟩) ∧ FpgaBoots c .spA fails (some ⟨[0, 1], some 6⟩) ∧
      FpgaBoots c .spB [] (some ⟨[1], some 7⟩) ∧ FpgaBoots { c with fpgaAttempts := 2 } .comm fails none ∧
      readMany (bootReads fails (some ⟨[0, 1], some 6⟩)).length (env [0, 0, 1, 2, 0, 1, 6]) =
        (bootReads fails (some ⟨[0, 1], some 6⟩), env []) := by
  simp [readMany, envRead, envNext, env, cfg, FpgaBoots, FpgaRun.Fails, FpgaRun.Succeeds, PollSeen, PollMissed, initSeen,
    doneSeen, patternOf, FpgaPattern.doneMask, FpgaPattern.doneBit2, bootReads, FpgaRun.reads]

/-- BootCommNeverReady: two attempts of one poll. -/
theorem witness_fpga_never :
    let c := { cfg with fpgaAttempts := 2, fpgaInitPolls := 1 }
    readMany (c.fpgaAttempts * c.fpgaInitPolls) (env [0, 2]) = ([0, 2], env []) ∧
      (∀ w ∈ [0#32, 2#32], w &&& c.patternComm.initMask ≠ c.patternComm.initMask) ∧ c.fpgaProgHoldNs = 0 ∧
      0 < c.fpgaInitDelayNs := by
  simp [readMany, envRead, envNext, env, cfg]

/-- BootSpPairsInOrder, second clause; BootFlagsFollowStatus. -/
theorem witness_boot :
    (∃ t, exec (.bootSpFpga 0 9 [0x51, 0x52]) (online (env [1, 0]) { cfg with fpgaAttempts := 1 }) = .next t) ∧
      fileOk oneKernelWord [0, 1, 0, 2, 0, 3] = true :=
  ⟨next_of_seen (by decide +kernel), by decide⟩

/-- RepackPairsBytes: an odd length, an even one. -/
theorem witness_repack : [1#8].length % 2 = 1 ∧ [1#8, 2#8].length % 2 = 0 := by decide

def initSegment : Segment := ⟨1, 1, 0x100, [], ⟨.init, .program, .w48⟩, [4, 5, 6]⟩
def finalSegment : Segment := ⟨3, 0, 0x300, [], ⟨.final, .data, .w16⟩, [7, 8]⟩

/-- TagStreamWritesSegments: a segment, a final one, a word that is ignored. -/
theorem witness_tag_stream :
    windowOk cfg = true ∧ cfg.hbrGrantPolls = 0 ∧ handle.hbrHeld = false ∧
      (initSegment.Ok cfg ∧ initSegment.info.kind ≠ .final) ∧ (finalSegment.Ok cfg ∧ finalSegment.info.kind = .final) ∧
      [1, 1, 0x100, 4, 5, 6, 3, 0, 0x300, 7, 8, 9] =
        [initSegment].flatMap Segment.words ++ (some finalSegment).toList.flatMap Segment.words ++ [9] := by decide

/-- TagStreamRejects: each clause, at its boundary. -/
theorem witness_tag_rejects :
    let c := { cfg with segHeaderExtra := 1 }
    (0 < [1#32, 1].length ∧ [1#32, 1].length < 3) ∧ ([] : List Word).length < c.segHeaderExtra ∧
      (c.segHeaderExtra ≤ [0#32].length ∧ tagInfo c 9 = none) ∧
      (tagInfo c 1 = some ⟨.init, .program, .w48⟩ ∧ SegKind.init ≠ .zero ∧
        [0#32, 1, 2].length < c.segHeaderExtra + (1#32).toNat * subwords .w48) := by decide

/-- TagStreamRejects, the bound. -/
theorem witness_tag_bound : [1#32, 2, 3].length ≤ 3 := by decide

/-- BootDspKernelOnly. -/
theorem witness_boot_dsp :
    (online (env [0, 0x18, 0xAA, 0xBB, 0x10, 1]) oneKernelWord).Serves 0 (mod0 (env [0, 0x18, 0xAA, 0xBB, 0x10, 1])) ∧
      oneKernelWord.hbrGrantPolls = 0 ∧ 0 < oneKernelWord.dspCfgAttempts ∧ 0 < oneKernelWord.dspPudonePolls ∧
      repack [0, 1, 0, 2, 0, 3] = some [1, 2, 3] ∧
      [1#32, 2, 3].length = oneKernelWord.dspKernelWords * oneKernelWord.dspKernelSubwords ∧
      readMany 6 (env [0, 0x18, 0xAA, 0xBB, 0x10, 1]) =
        ([0, 0x18, oneKernelWord.dspCfg0.value, oneKernelWord.dspCfg1.value, 0x10, 1], env []) ∧
      1#32 &&& oneKernelWord.dspPudoneMask ≠ 0 := by decide

/-- BootDspRetriesFromReset: a boot whose attempts end with DSP_CFG. -/
theorem witness_boot_dsp_fails :
    let c := { oneKernelWord with dspCfgAttempts := 0, dspMoreAttempts := 1 }
    fileOk c [0, 1, 0, 2, 0, 3] = true ∧
      (stateOf (exec (.bootDsp 0 [0, 1, 0, 2, 0, 3]) (online (env [0, 0, 0, 0]) c))).status =
        some (.fail ⟨.protocolTimeout, .dspCfg⟩) := by decide +kernel

def kernelFile : BootStream := { kernel := [1, 2, 3], segments := [], last := none, rest := [], bad := none }
def tagFile : BootStream := { kernelFile with rest := [9, 1, 0x100], bad := some ⟨.dataIntegrityFailure, .dspTag⟩ }
/-- The second pair never reads back; then the power-up flag stands at the second poll. -/
def cfgFails : DspRun := ⟨0, 0, [0xAA], [0, 1], none, [], .cfg1⟩
def runs : DspRun := ⟨0, 0, [0, 0xAA], [0xBB], some 0, [0, 1], .running⟩
def meetsTag : DspRun := ⟨0, 0, [0xAA], [0xBB], none, [], .stream⟩

/-- BootDspRetriesFromReset, second clause: a failed attempt, then the processor runs; then an unsupported tag; a last attempt
that fails. -/
theorem witness_dsp_attempts :
    let c := { oneKernelWord with dspCfgAttempts := 2, dspPudonePolls := 2, dspMoreAttempts := 1 }
    (repack [0, 1, 0, 2, 0, 3] = some kernelFile.words ∧ kernelFile.Ok c ∧ cfgFails.Ok c kernelFile ∧ cfgFails.Retried ∧
      runs.Ok c kernelFile ∧ ¬ runs.Retried ∧ [cfgFails].length < dspAttempts c ∧
      readMany ([cfgFails, runs].flatMap DspRun.reads).length (env ([cfgFails, runs].flatMap DspRun.reads)) =
        ([cfgFails, runs].flatMap DspRun.reads, env [])) ∧
    (repack [0, 1, 0, 2, 0, 3, 0, 9, 0, 1, 1, 0] = some tagFile.words ∧ tagFile.Ok c ∧ cfgFails.Ok c tagFile ∧
      meetsTag.Ok c tagFile ∧ ¬ meetsTag.Retried) ∧ [cfgFails].length + 1 = dspAttempts c := by
  refine ⟨⟨by decide, ?_, ?_, by decide, ?_, by decide, by decide, by decide⟩, ⟨by decide, ?_, ?_, ?_, by decide⟩, by decide⟩ <;>
    simp [BootStream.Ok, StreamRejected, DspRun.Ok, PollSeen, PollMissed, cfgHolds, pudoneSeen, kernelFile, tagFile, cfgFails, runs,
      meetsTag, oneKernelWord, cfg, segHeaderWords, tagInfo, tableOr]

/-- BootModuleIsItsStages: two stages selected. -/
theorem witness_boot_module :
    (online (env [1, 6, 1, 0])).Serves 0 (mod0 (env [1, 6, 1, 0])) ∧
      argFailure cfg (.bootModule 0 9 { comm := [1, 2], sp := [3, 4] } 0x05) = none := by decide

/-- SysInitChecksFirst: each clause, one slot more than MAX_MODULES in the second. -/
theorem witness_sys_init_checks :
    OffsetsOk cfg (.sysInit [3, 5] false) ∧ (online (env [])).system ≠ none ∧ (fresh (env [])).system = none ∧
      { cfg with maxModules := 1 }.maxModules.val < [3, 5].length ∧ [3, 3].length ≤ cfg.maxModules.val ∧ ¬ [3, 3].Nodup := by
  decide

/-- SysInitOffline, SysInitOnline. -/
theorem witness_sys_init :
    (fresh (env [])).system = none ∧ [3, 5].length ≤ cfg.maxModules.val ∧ [3, 5].Nodup ∧ windowOk cfg = true ∧
      (fresh (env [])).disc.vendorLeft = none := by decide

/-- MatchBindsFirstReporter: a match, and none. -/
theorem witness_match : matchSlots [(50, 4), (51, 4), (52, 6)] [6, 4] = some [52, 50] ∧ matchSlots [(50, 4)] [5] = none := by
  decide

/-- ModuleCloseReleases. -/
theorem witness_module_close :
    (online (env [])).Online 0 (mod0 (env [])) ∧ (mod0 (env [])).handle.win = some 100 ∧ (env []).vendorLeft = none := by
  decide

end Sys2Proof.Tests
end

section
/-! SUPPORT. What exec answers for an operation that names a module, in the terms of its program. -/

namespace Sys2Proof.Machine

/-! ## What the program of an operation says (00_scope.md R12; log 9) -/

/-- The reserved bits of a boot pattern are those from bit 7 on (30_encoding.md R89). -/
theorem patternReserved_eq (w : Word) : patternReserved w = decide (w.toNat / 128 ≠ 0) := by
  have hlt := w.isLt
  have hmask : ~~~0x7F#32 = BitVec.allOnes 32 <<< 7 := by decide
  have hzero : w >>> 7 <<< 7 = 0#32 ↔ w.toNat / 128 = 0 := by
    rw [← BitVec.toNat_inj, BitVec.toNat_shiftLeft, BitVec.toNat_ushiftRight, Nat.shiftRight_eq_div_pow,
      Nat.shiftLeft_eq, BitVec.toNat_ofNat]
    omega
  rw [patternReserved, hmask, ← BitVec.shiftLeft_ushiftRight, Bool.eq_iff_iff, bne_iff_ne, decide_eq_true_iff]
  exact not_congr hzero

/-- A check of a decidable condition, alone. -/
theorem firstFailure_decide (P : Prop) [Decidable P] (f : Failure) :
    firstFailure [(decide P, f)] = if P then some f else none := by simp [firstFailure]

theorem firstFailure_count (n : Nat) :
    firstFailure [checkCount n] = if n = 0 then some ⟨.invalidArgument, .count⟩ else none := by
  simp [firstFailure, checkCount]

theorem firstFailure_count_buf (b : Buf) (n : Nat) :
    firstFailure [checkCount n, checkBuf b n] =
      if n = 0 then some ⟨.invalidArgument, .count⟩
      else if bufLen b < n then some ⟨.invalidArgument, .buffer⟩ else none := by
  simp [firstFailure, checkCount, checkBuf]

section program
variable {p : Params} {i : Instr} {m : Nat} {g : Program} (h : programOf p i = some (m, g))
include h

theorem programOf_offsets : g.raw.toList ++ g.regs.map (regOffset p) = offsetsOf p i := by
  cases i <;> cases h <;> rfl

theorem programOf_buf : g.buf = bufOperand i := by cases i <;> cases h <;> rfl

theorem programOf_offlineOut : g.offlineOut = offlineOutput i := by cases i <;> cases h <;> rfl

/-- The checks of a program are the ArgChecks lines of its operation's rule, in their order. -/
theorem programOf_checks : firstFailure g.checks = argFailure p i := by
  cases i <;> cases h
  case regWrite | csrWrite | csrSetBits | csrClearBits | serWriteByte | hbrRequest | hbrDone | moduleClose => rfl
  case regRead | csrRead | serReadByte | serReadSeq | fifoReadWm | fifoDrain => exact firstFailure_decide ..
  case dspMemWrite | dspMemRead | dmaBurst | extMemWrite | extMemRead => exact firstFailure_count_buf ..
  case extMemClear => exact firstFailure_count ..
  case bootCommFpga => simp [argFailure, bootCommFpgaProgram, checkComm, firstFailure]
  case bootSpFpga => simp [argFailure, bootSpFpgaProgram, checkSp, firstFailure]
  case bootDsp => simp [argFailure, bootDspProgram, checkFile, firstFailure, ← Bool.not_eq_true, ite_not]
  case bootModule =>
    simp [argFailure, bootModuleProgram, bootModuleChecks, checkComm, checkSp, checkFile, firstFailure, patternReserved_eq,
      patternComm, patternSp, patternDsp, streamFailure]

end program

/-- The operations without a program are those that name no module. -/
theorem programOf_eq_none_iff {p : Params} {i : Instr} : programOf p i = none ↔ i.module? = none := by
  cases i <;> simp [programOf, Instr.module?]

/-! ## What exec answers on a module -/

section exec
variable {i : Instr} {m : Nat} {g : Program} {s t : State} {x : Module}

/-- An operation whose offsets R65 admits runs its program. -/
theorem exec_eq_runOn (hi : programOf s.cfg i = some (m, g)) (ho : OffsetsOk s.cfg i) : exec i s = g.runOn m s := by
  rw [exec_eq_run hi]
  exact guarded_of_ok (by rwa [programOf_offsets hi])

/-- An operation that gives a next state was admitted, and its program gave that state. -/
theorem exec_eq_next_iff (hi : programOf s.cfg i = some (m, g)) :
    exec i s = .next t ↔ OffsetsOk s.cfg i ∧ g.runOn m s = .next t := by
  rw [exec_eq_run hi, Program.run, guarded_eq_next, programOf_offsets hi]

/-- Where no module stands at the index, the program ends in the failure of the index check. -/
theorem runOn_of_no_module (hx : s.module? m = none) :
    g.runOn m s = runSystem g.op (failWith ⟨.invalidArgument, .moduleIndex⟩ g.reads g.buf) s := by
  simp [Program.runOn, hx]

/-- On an idle module the program runs to its end. -/
theorem runOn_of_idle (hx : s.module? m = some x) (hp : x.pos = .idle) :
    g.runOn m s = runOp g.op (g.result s.cfg s.isOffline m x.ctx)
      (fun c s => s.putModule m { x with handle := c.handle, pos := .idle, env := c.env }) s := by
  simp [Program.runOn, hx, hp]

/-- A busy sequencer gives no move (70_reset_and_hazards.md R283). -/
theorem runOn_of_busy (hx : s.module? m = some x) (hp : x.pos ≠ .idle) : g.runOn m s = .refused .sequencerBusy := by
  simp [Program.runOn, hx, hp]

/-- A failing reply draws free words and changes nothing else. -/
theorem failWith_eq_ok (f : Failure) (n : Nat) (b : Buf) (sc : Scope) (c : Ctx) :
    ∃ b' e, failWith f n b sc c = .ok { status := .fail f, buf := b' } { c with env := e } [] := by
  cases b with
  | none => exact ⟨none, c.env, rfl⟩
  | some ws => exact ⟨_, _, rfl⟩

end exec

/-! ## Offsets admitted or not (20_memory.md R65) -/

/-- The guard of the registers looks at the parameters alone: it lets everything pass, or refuses everything for one of them. -/
theorem guardRegs_cases (rs : List Reg) (p : Params) :
    (∀ r ∈ rs, offsetOk p (regOffset p r) = true) ∨
    ∃ r ∈ rs, offsetOk p (regOffset p r) = false ∧
      ∀ (s : State) o, s.cfg = p → guardRegs rs s o = .refused (.badOffset (regOffset p r)) := by
  cases hf : rs.find? fun r => !regAdmitted p r with
  | none => exact .inl fun r hr => by simpa [regAdmitted_eq] using List.find?_eq_none.mp hf r hr
  | some r =>
    refine .inr ⟨r, List.mem_of_find?_eq_some hf, by simpa [regAdmitted_eq] using List.find?_some hf, ?_⟩
    rintro s o rfl
    simp [guardRegs, hf]

/-- So does the guard of a program. -/
theorem guarded_cases (g : Program) (p : Params) :
    (∀ off ∈ g.raw.toList ++ g.regs.map (regOffset p), offsetOk p off = true) ∨
    ∃ off ∈ g.raw.toList ++ g.regs.map (regOffset p), offsetOk p off = false ∧
      ∀ (s : State) o, s.cfg = p → g.guarded s o = .refused (.badOffset off) := by
  obtain hregs | ⟨r, hr, hoff, hg⟩ := guardRegs_cases g.regs p
  · cases hraw : g.raw with
    | none => exact .inl (by simpa using hregs)
    | some off =>
      cases hoff : offsetOk p off with
      | true => exact .inl (by simpa [hoff] using hregs)
      | false =>
        refine .inr ⟨off, by simp, hoff, ?_⟩
        rintro s o rfl
        simp [Program.guarded, guardRegs_of_ok hregs, hraw, guardOffset, hoff]
  · exact .inr ⟨_, List.mem_append_right _ (List.mem_map_of_mem hr), hoff, fun s o hs => hg s _ hs⟩

/-- An operation whose offsets are not all admitted is refused for one of them, in every state with these parameters. -/
theorem offsets_cases (p : Params) (i : Instr) :
    OffsetsOk p i ∨ ∃ off ∈ offsetsOf p i, offsetOk p off = false ∧
      ∀ s : State, s.cfg = p → exec i s = .refused (.badOffset off) := by
  cases hi : programOf p i with
  | some mg =>
    obtain ⟨m, g⟩ := mg
    have h := guarded_cases g p
    rw [programOf_offsets hi] at h
    refine h.imp_right ?_
    rintro ⟨off, hmem, hoff, hg⟩
    exact ⟨off, hmem, hoff, fun s hs => by rw [exec_eq_run (hs ▸ hi)]; exact hg s _ hs⟩
  | none =>
    cases i with
    | idDecode bytes => exact .inl (List.forall_mem_nil _)
    | sysInit slotMap flag =>
      obtain h | ⟨r, hr, hoff, hg⟩ := guardRegs_cases (sysInitRegs flag) p
      · exact .inl (List.forall_mem_map.mpr h)
      · exact .inr ⟨_, List.mem_map_of_mem hr, hoff, fun s hs => hg s _ hs⟩
    | _ => cases hi

/-! ## Checks, and offline (00_scope.md R12, 60_exceptions.md R263, 40_register_csr.md R108) -/

/-- A record written back with another environment changes no handle. -/
theorem sameHandles_putModule {m : Nat} {x : Module} {s : State} (hx : s.module? m = some x) (hp : x.pos = .idle) (e : Env)
    (k : Mnemonic) (r : Reply) (t : List Issued) :
    SameHandles s (finish k r t (s.putModule m { x with pos := .idle, env := e })) := by
  refine ⟨rfl, rfl, rfl, by simp, by simp, by simp, fun k => ?_⟩
  by_cases hk : k = m
  · subst hk
    simp [putModule_module_self _ _ _ hx, hx, hp]
  · simp [putModule_module_of_ne _ _ _ hk]

theorem failsQuietly_of_no_module {i : Instr} {m : Nat} {s : State} (hi : i.module? = some m) (ho : OffsetsOk s.cfg i)
    (hx : s.module? m = none) : FailsQuietly i.mnemonic ⟨.invalidArgument, .moduleIndex⟩ s (exec i s) := by
  obtain ⟨g, hg⟩ := programOf_isSome (p := s.cfg) hi
  obtain ⟨b, e, hf⟩ := failWith_eq_ok ⟨.invalidArgument, .moduleIndex⟩ g.reads g.buf ⟨s.cfg, .probe 0, startPos g.op⟩
    ⟨scratchHandle s.disc none none, s.disc⟩
  have hrun : exec i s = .next (finish g.op { status := .fail ⟨.invalidArgument, .moduleIndex⟩, buf := b } []
      { s with disc := e }) := by
    rw [exec_eq_runOn hg ho, runOn_of_no_module hx]
    exact runOp_eq_next.mpr ⟨_, _, _, hf, rfl⟩
  exact ⟨_, b, hrun, by simp [programOf_op hg], rfl, rfl, rfl, rfl, rfl, rfl, fun _ => ⟨rfl, rfl, rfl⟩⟩

theorem failsQuietly_of_argFailure {i : Instr} {m : Nat} {s : State} {x : Module} {f : Failure} (hi : i.module? = some m)
    (ho : OffsetsOk s.cfg i) (hx : s.module? m = some x) (hp : x.pos = .idle) (hf : argFailure s.cfg i = some f) :
    FailsQuietly i.mnemonic f s (exec i s) := by
  obtain ⟨g, hg⟩ := programOf_isSome (p := s.cfg) hi
  obtain ⟨b, e, hfail⟩ := failWith_eq_ok f g.reads g.buf ⟨s.cfg, .module m, startPos g.op⟩ x.ctx
  have hres : g.result s.cfg s.isOffline m x.ctx = .ok { status := .fail f, buf := b } ⟨x.handle, e⟩ [] := by
    rw [← programOf_checks hg] at hf
    simpa [Program.result, Program.code, preamble, hf, Module.ctx] using hfail
  have hrun : exec i s = .next (finish g.op { status := .fail f, buf := b } []
      (s.putModule m { x with pos := .idle, env := e })) := by
    rw [exec_eq_runOn hg ho, runOn_of_idle hx hp]
    exact runOp_eq_next.mpr ⟨_, _, _, hres, rfl⟩
  exact ⟨_, b, hrun, by simp [programOf_op hg], sameHandles_putModule hx hp e _ _ _⟩

/-- Settles O10: the index check fails in `runSystem`, an argument check in the preamble, and either reply only draws free
words. -/
theorem checksComeFirst : Obligations.ChecksComeFirst := by
  intro i m s hi ho
  exact ⟨failsQuietly_of_no_module hi ho, fun x f hx hp hf => failsQuietly_of_argFailure hi ho hx hp hf⟩

/-- Settles O11: offline the preamble returns at once, and the record written back is the one that stood there. -/
theorem offlineIsSilent : Obligations.OfflineIsSilent := by
  intro i m s x hi ho hx hp hf hoff
  obtain ⟨g, hg⟩ := programOf_isSome (p := s.cfg) hi
  have hres : g.result s.cfg s.isOffline m x.ctx =
      .ok { status := .ok, output := offlineOutput i, buf := bufOperand i } x.ctx [] := by
    rw [← programOf_checks hg] at hf
    simp [Program.result, Program.code, preamble, hf, hoff, programOf_buf hg, programOf_offlineOut hg]
  have hback : s.putModule m { x with handle := x.ctx.handle, pos := .idle, env := x.ctx.env } = s := by
    rw [← hp]
    exact putModule_same hx
  rw [exec_eq_runOn hg ho, runOn_of_idle hx hp, ← programOf_op hg]
  exact runOp_eq_next.mpr ⟨_, _, _, hres, by rw [hback, shown_nil]⟩

/-! ## Reset (44_discovery.md R246) -/

/-- An operation whose raw offset is admitted has admitted offsets in a usable window. -/
theorem offsetsOk_of_windowOk {p : Params} {i : Instr} (hw : windowOk p = true)
    (hraw : ∀ off ∈ i.rawOffset?, offsetOk p off = true) : OffsetsOk p i := by
  intro off hoff
  obtain h | h := List.mem_append.mp hoff
  · exact hraw off (by simpa using h)
  · obtain ⟨r, -, rfl⟩ := List.mem_map.mp h
    exact windowOk_reg hw r

/-- Settles O7: at reset no index names a module and the window is usable. -/
theorem resetHoldsNoSystem : Obligations.ResetHoldsNoSystem := by
  refine ⟨nofun, rfl, rfl, fun i m hi hraw => ?_, ?_⟩
  · exact failsQuietly_of_no_module hi (offsetsOk_of_windowOk windowOk_reset hraw) rfl
  · rintro p rfl
    and_intros <;> rfl

end Sys2Proof.Machine
end

section
/-! SUPPORT. A caller's call as a step starts it, and an operation moved on by its sequencer's turns (00_scope.md R6, R7). -/

namespace Sys2Proof.Machine

/-! ## The call a step starts -/

/-- A call that decodes to an operation a caller may issue is read as that operation. -/
theorem readCall_of_decode {c : Call} {i : Instr} (hd : decode c = .ok i) (hi : ∀ k, i ≠ .hbrRequest k ∧ i ≠ .hbrDone k) :
    readCall c = .ok i := by
  have hmay : callerMayIssue i = true := by
    cases i with
    | hbrRequest m => exact absurd rfl (hi m).1
    | hbrDone m => exact absurd rfl (hi m).2
    | _ => rfl
  simp [readCall, hd, hmay]

/-! ## Several steps -/

/-- Several steps of the machine, over its own state. -/
def runSteps (k : Nat) (s : State) : Host.Outcome State Fault Refusal := Sys2Proof.core.run k s

/-- A step that gives a next state, and the steps after it. -/
theorem runSteps_of_next {k : Nat} {s s' : State} (h : step s = .next s') : runSteps (k + 1) s = runSteps k s' := by
  have hstep : Sys2Proof.core.step s = .next s' := h
  simp only [runSteps, Host.Core.run, hstep]
  rfl

/-- Steps that give a next state begin with one that does. -/
theorem runSteps_succ_eq_next {k : Nat} {s u : State} (h : runSteps (k + 1) s = .next u) :
    ∃ s', step s = .next s' ∧ runSteps k s' = .next u := by
  simp only [runSteps, Host.Core.run] at h
  split at h
  · rename_i s' hs
    exact ⟨s', hs, h⟩
  · cases h
  · cases h

/-- One step alone. -/
theorem runSteps_one (s : State) : runSteps 1 s = step s := by
  simp only [runSteps, Host.Core.run]
  split <;> (rename_i h; exact h.symm)

/-- One step more than steps that give a next state. -/
theorem runSteps_succ_of_next {k : Nat} {s u : State} (h : runSteps k s = .next u) : runSteps (k + 1) s = step u := by
  induction k generalizing s with
  | zero =>
    cases h
    exact runSteps_one _
  | succ k ih =>
    obtain ⟨s', hs, hk⟩ := runSteps_succ_eq_next h
    exact (runSteps_of_next hs).trans (ih hk)

/-! ## An operation in turns -/

@[simp] theorem finish_issued (k : Mnemonic) (r : Reply) (t : List Issued) (s : State) : (finish k r t s).issued = t := rfl

/-- Writing a module's record twice is writing it once. -/
@[simp] theorem putModule_putModule (m : Nat) (x y : Module) (s : State) :
    (s.putModule m x).putModule m y = s.putModule m y := by
  cases hs : s.system <;> simp [State.putModule, hs]

/-- A move of a sequencer does not look at the record its module had. -/
theorem resume_putModule (i : Instr) (m : Nat) (g : Program) (start : Ctx) (k : Nat) (y : Module) (s : State) :
    resume i m g start k (s.putModule m y) = resume i m g start k s := by
  simp [resume]

section turns
variable {s : State} {i : Instr} {m : Nat} {g : Program} {r : Reply} {c' : Ctx} {t : List Stage}

/-- Before its last step is made, an operation is in progress at the place of its next event. -/
theorem resume_of_step {start : Ctx} (hres : g.result s.cfg s.isOffline m start = .ok r c' t) {n : Nat} (hn : n < t.length) :
    resume i m g start n s =
      .next (s.putModule m (pausedModule i start t[n].issued.pos t[n].pre (shown (t.take n)))) := by
  simp only [resume, hres, after_of_step (List.getElem?_eq_getElem hn)]

/-- With its last step an operation returns. -/
theorem resume_of_return {start : Ctx} (hres : g.result s.cfg s.isOffline m start = .ok r c' t) :
    resume i m g start t.length s =
      .next (finish g.op r (shown t) (s.putModule m { handle := c'.handle, pos := .idle, env := c'.env })) := by
  simp only [resume, hres, after_of_return le_rfl]

variable {c : Call} {rest : List Call} {x : Module} (hc : s.calls = c :: rest) (hd : readCall c = .ok i)
  (hg : programOf s.cfg i = some (m, g)) (ho : OffsetsOk s.cfg i) (hx : s.module? m = some x) (hp : x.pos = .idle)
  (hres : g.result s.cfg s.isOffline m x.ctx = .ok r c' t)

include hc hd hg ho hx hp in
/-- The start alone puts the operation before its first step. -/
theorem step_start_eq_resume (q : List Turn) :
    step { s with turns := .start :: q } = resume i m g x.ctx 0 { s with calls := rest, turns := q } :=
  calc step { s with turns := .start :: q }
      = withCall startOp .next { s with turns := q } := step_of_start rfl
    _ = startOp i { s with calls := rest, turns := q } := withCall_of_call (s := { s with turns := q }) hc hd
    _ = resume i m g x.ctx 0 { s with calls := rest, turns := q } :=
      startOp_eq_resume (s := { s with calls := rest, turns := q }) hg hx hp (by rwa [programOf_offsets hg])

include hg hx in
/-- A turn of a sequencer that stands in an operation after `n` events makes the operation's next step. -/
theorem step_turn_eq_resume {n : Nat} {start c₁ : Ctx} {pos : Place} {u : List Issued} (hn : u.length = n) (q : List Turn) :
    step (State.putModule m (pausedModule i start pos c₁ u) { s with turns := .sequencer m :: q }) =
      resume i m g start (n + 1) { s with turns := q } := by
  have hjob : (State.putModule m (pausedModule i start pos c₁ u) { s with turns := q }).job? m = some (⟨i, start, u⟩, g) :=
    job_eq_some.mpr ⟨_, m, putModule_module_self (s := { s with turns := q }) m _ hx, rfl, hg⟩
  calc step (State.putModule m (pausedModule i start pos c₁ u) { s with turns := .sequencer m :: q })
      = advance m (State.putModule m (pausedModule i start pos c₁ u) { s with turns := q }) := step_of_turn rfl
    _ = resume i m g start (n + 1) (State.putModule m (pausedModule i start pos c₁ u) { s with turns := q }) := by
      simp only [advance, hjob, hn]
    _ = resume i m g start (n + 1) { s with turns := q } := resume_putModule ..

include hc hd hg ho hx hp hres in
/-- After its start and `n` turns, `n` no more than its steps, the operation stands where `n` of its steps lead. -/
theorem runSteps_turns_eq_resume {n : Nat} (hn : n ≤ t.length) (more : List Turn) :
    runSteps (n + 1) { s with turns := .start :: List.replicate n (.sequencer m) ++ more } =
      resume i m g x.ctx n { s with calls := rest, turns := more } := by
  induction n generalizing more with
  | zero => exact (runSteps_one _).trans (step_start_eq_resume hc hd hg ho hx hp more)
  | succ n ih =>
    have hlt : n < t.length := hn
    have hturns : (.start :: List.replicate (n + 1) (.sequencer m) ++ more : List Turn) =
        .start :: List.replicate n (.sequencer m) ++ .sequencer m :: more := by simp [List.replicate_succ']
    have hstands := (ih hlt.le (.sequencer m :: more)).trans
      (resume_of_step (s := { s with calls := rest, turns := .sequencer m :: more }) hres hlt)
    rw [hturns, runSteps_succ_of_next hstands]
    exact step_turn_eq_resume (s := { s with calls := rest }) hg hx (by simp [hlt.le]) more

end turns

/-- Settles O6, by induction on the number of turns: each takes the sequencer from the place of one event to the place of the
next (`step_turn_eq_resume`), and the last one returns. -/
theorem sequencerTurnsRunTheOperation : Obligations.SequencerTurnsRunTheOperation := by
  intro s t c rest i m x more hc hd hi hm hx hj hrun
  obtain ⟨g, hg⟩ := programOf_isSome (p := s.cfg) hm
  obtain ⟨ho, hon⟩ := (exec_eq_next_iff (s := { s with calls := rest, turns := more }) hg).mp hrun
  obtain ⟨hnone, -⟩ | ⟨y, hy, hp, r, c', u, hres, rfl⟩ := runOn_eq_next hon
  · cases hnone.symm.trans hx
  cases hy.symm.trans hx
  have hturns := @runSteps_turns_eq_resume s i m g r c' u c rest x hc (readCall_of_decode hd hi) hg ho hx hp hres
  simp only [finish_issued, shown_length]
  constructor
  · refine (hturns le_rfl more).trans ?_
    rw [resume_of_return (s := { s with calls := rest, turns := more }) hres, hj]
    rfl
  · intro n e he
    obtain ⟨g', hg', rfl⟩ : ∃ g', u[n]? = some g' ∧ g'.issued = e := by simpa [shown] using he
    obtain ⟨hn, rfl⟩ := List.getElem?_eq_some_iff.mp hg'
    refine ⟨u[n].pre.handle, u[n].pre.env, (hturns hn.le more).trans ?_⟩
    rw [resume_of_step (s := { s with calls := rest, turns := more }) hres hn]
    simp only [pausedModule, shown, List.map_take]
    rfl

/-! ## A step given to nobody -/

/-- A sequencer with an enabled step is one of a module. -/
theorem lt_moduleCount_of_enabled {s : State} {m : Nat} (h : s.enabled m = true) : m < s.moduleCount := by
  cases hj : s.job? m with
  | none => simp [State.enabled, hj] at h
  | some jg =>
    obtain ⟨x, -, hx, -, -⟩ := job_eq_some.mp hj
    exact (module_isSome_iff s m).mp (by simp [hx])

/-- The first enabled sequencer is the least one with an enabled step. -/
theorem firstEnabled_eq_some {s : State} {m : Nat} (h : s.enabled m = true) (hfirst : ∀ k < m, s.enabled k = false) :
    s.firstEnabled = some m :=
  List.find?_range_eq_some.mpr ⟨h, List.mem_range.mpr (lt_moduleCount_of_enabled h), fun k hk => by simp [hfirst k hk]⟩

theorem firstEnabled_eq_none {s : State} (h : ∀ m, s.enabled m = false) : s.firstEnabled = none := by
  simp [State.firstEnabled, List.find?_eq_none, h]

/-- Settles O5: the oldest call is run whole, and where there is none the first enabled sequencer moves. -/
theorem stepRunsDecodedOperation : Obligations.StepRunsDecodedOperation := by
  refine ⟨?_, ?_, ?_⟩
  · intro s c rest i hturns hcalls hdec hi hhang
    rw [step_of_free hturns, freeStep, withCall_of_call hcalls (readCall_of_decode hdec hi)]
    by_cases hexec : exec i { s with calls := rest } = .fault .vendorHang
    · have hprog : programOf s.cfg i = none := programOf_eq_none_iff.mpr (hhang.resolve_left (not_not_intro hexec))
      simp [runWhole, hexec, hang, hprog]
    · exact runWhole_of_ne_hang hexec
  · intro s m hturns hcalls hm hfirst
    rw [step_of_free hturns, freeStep, withCall_of_none hcalls, firstEnabled_eq_some hm hfirst, step_of_turn rfl, ← hturns]
  · intro s hturns hcalls hnone
    rw [step_of_free hturns, freeStep, withCall_of_none hcalls, firstEnabled_eq_none hnone]

end Sys2Proof.Machine
end

section
/-! SUPPORT. The sequencers share no state (00_scope.md R6, 60_exceptions.md R268): what an operation on one module, or a step of its
sequencer, answers is fixed by the parameters, `offline` and that module's record, and it changes that record alone. -/

namespace Sys2Proof.Machine

/-! ## What changes -/

/-- What an operation on a module, or a step of its sequencer, changes: the module's record, discovery's environment (only where no
module stands at the index), the last observation. None is no change. -/
structure Change where
  module : Option Module := none
  disc : Option Env := none
  last : Option Observation := none

/-- The change made to module `m` of a state. -/
def Change.apply (d : Change) (m : Nat) (s : State) : State :=
  { s with
    system := d.module.elim s.system fun x => (s.putModule m x).system
    disc := d.disc.getD s.disc
    last := d.last.or s.last }

section apply
variable (d e : Change) (m n : Nat) (s : State)

@[simp] theorem apply_cfg : (d.apply m s).cfg = s.cfg := rfl
@[simp] theorem apply_calls : (d.apply m s).calls = s.calls := rfl
@[simp] theorem apply_turns : (d.apply m s).turns = s.turns := rfl
@[simp] theorem apply_disc : (d.apply m s).disc = d.disc.getD s.disc := rfl
@[simp] theorem apply_last : (d.apply m s).last = d.last.or s.last := rfl

@[simp] theorem apply_isOffline : (d.apply m s).isOffline = s.isOffline := by
  obtain ⟨_ | x, _, _⟩ := d
  · rfl
  · exact putModule_isOffline m x s

@[simp] theorem apply_moduleCount : (d.apply m s).moduleCount = s.moduleCount := by
  obtain ⟨_ | x, _, _⟩ := d
  · rfl
  · exact putModule_moduleCount m x s

@[simp] theorem apply_system_isSome : (d.apply m s).system.isSome = s.system.isSome := by
  obtain ⟨_ | x, _, _⟩ := d <;> simp [Change.apply]

/-- A change of one module's record leaves every other one. -/
theorem apply_module_of_ne {k : Nat} (h : k ≠ m) : (d.apply m s).module? k = s.module? k := by
  obtain ⟨_ | x, _, _⟩ := d
  · rfl
  · exact putModule_module_of_ne m x s h

/-- The record after a change depends on the record before it. -/
theorem apply_module_congr {s s' : State} (h : s'.module? m = s.module? m) :
    (d.apply m s').module? m = (d.apply m s).module? m := by
  obtain ⟨_ | x, _, _⟩ := d
  · exact h
  · show (s'.putModule m x).module? m = (s.putModule m x).module? m
    cases hx : s.module? m with
    | none =>
      have hnone : ∀ q : State, q.module? m = none → (q.putModule m x).module? m = none := fun q hq => by
        rw [module_eq_none_iff] at hq ⊢
        simpa using hq
      rw [hnone s' (h.trans hx), hnone s hx]
    | some y => rw [putModule_module_self m x s' (h.trans hx), putModule_module_self m x s hx]

/-- Changes of different modules commute, but for the last observation. -/
theorem apply_comm (h : m ≠ n) (hd : d.disc = none) (l : Option Observation) :
    { d.apply m (e.apply n s) with last := l } = { e.apply n (d.apply m s) with last := l } := by
  obtain ⟨x, _, _⟩ := d
  obtain ⟨y, _, _⟩ := e
  cases hd
  cases x <;> cases y <;> cases hs : s.system <;>
    simp [Change.apply, hs, List.set_comm _ _ h]

end apply

/-- An outcome known by its change, in a state. -/
def enact (o : Host.Outcome Change Fault Refusal) (m : Nat) (s : State) : Host.Outcome State Fault Refusal :=
  match o with
  | .next d => .next (d.apply m s)
  | .fault f => .fault f
  | .refused r => .refused r

theorem enact_eq_next {o : Host.Outcome Change Fault Refusal} {m : Nat} {s t : State} :
    enact o m s = .next t ↔ ∃ d, o = .next d ∧ t = d.apply m s := by
  cases o <;> simp [enact, eq_comm]

/-! ## What an outcome depends on (00_scope.md R7) -/

/-- The states agree on what a sequencer of module `m` sees. -/
structure SameOn (m : Nat) (s s' : State) : Prop where
  cfg : s'.cfg = s.cfg
  offline : s'.isOffline = s.isOffline
  module : s'.module? m = s.module? m

theorem SameOn.symm {m : Nat} {s s' : State} (h : SameOn m s s') : SameOn m s' s := ⟨h.cfg.symm, h.offline.symm, h.module.symm⟩

theorem SameOn.apply {m n : Nat} (h : m ≠ n) (d : Change) (s : State) : SameOn m s (d.apply n s) :=
  ⟨apply_cfg d n s, apply_isOffline d n s, apply_module_of_ne d n s h⟩

theorem SameOn.job {m : Nat} {s s' : State} (h : SameOn m s s') : s'.job? m = s.job? m := by
  simp [State.job?, h.module, h.cfg]

/-- Where an operation stands after `k` steps is the same in every state with these parameters and this `offline`. -/
theorem resume_local (i : Instr) (m : Nat) (g : Program) (start : Ctx) (k : Nat) (s : State) :
    ∃ o, (∀ d, o = .next d → d.disc = none) ∧ ∀ s', SameOn m s s' → resume i m g start k s' = enact o m s' := by
  cases h : (g.result s.cfg s.isOffline m start).after k with
  | paused pos c t =>
    refine ⟨.next { module := some (pausedModule i start pos c t) }, by rintro _ ⟨⟩; rfl, fun s' hs => ?_⟩
    simp only [resume, hs.cfg, hs.offline, h]
    rfl
  | returned r c t =>
    refine ⟨.next { module := some { handle := c.handle, pos := .idle, env := c.env }
                    last := some { op := g.op, reply := r, issued := t } }, by rintro _ ⟨⟩; rfl, fun s' hs => ?_⟩
    simp only [resume, hs.cfg, hs.offline, h]
    rfl
  | fault f =>
    refine ⟨.fault f, by simp, fun s' hs => ?_⟩
    simp only [resume, hs.cfg, hs.offline, h]
    rfl
  | refused r =>
    refine ⟨.refused r, by simp, fun s' hs => ?_⟩
    simp only [resume, hs.cfg, hs.offline, h]
    rfl

/-- A step of a sequencer is the same in every state that agrees on what it sees, and leaves discovery's environment. -/
theorem advance_local (m : Nat) (s : State) :
    ∃ o, (∀ d, o = .next d → d.disc = none) ∧ ∀ s', SameOn m s s' → advance m s' = enact o m s' := by
  cases h : s.job? m with
  | none => exact ⟨.next {}, by rintro _ ⟨⟩; rfl, fun s' hs => by simp only [advance, hs.job, h]; rfl⟩
  | some jg =>
    obtain ⟨o, hd, ho⟩ := resume_local jg.1.op m jg.2 jg.1.start (jg.1.trace.length + 1) s
    exact ⟨o, hd, fun s' hs => by simpa only [advance, hs.job, h] using ho s' hs⟩

/-- An operation on a module is the same in every state that agrees on what its sequencer sees, gives its own observation, and leaves
discovery's environment. Where no module stands at the index, that environment answers. -/
theorem exec_local {i : Instr} {m : Nat} (hi : i.module? = some m) (s : State) :
    ∃ o, (∀ d, o = .next d → d.last.isSome = true ∧ (m < s.moduleCount → d.disc = none)) ∧
      ∀ s', SameOn m s s' → (s'.disc = s.disc ∨ m < s.moduleCount) → exec i s' = enact o m s' := by
  obtain ⟨g, hg⟩ := programOf_isSome (p := s.cfg) hi
  obtain hok | ⟨off, -, -, href⟩ := offsets_cases s.cfg i
  case inr => exact ⟨.refused (.badOffset off), by simp, fun s' hs _ => href s' hs.cfg⟩
  have hrun : ∀ {s'}, SameOn m s s' → exec i s' = g.runOn m s' := fun hs =>
    exec_eq_runOn (hs.cfg ▸ hg) (hs.cfg ▸ hok)
  cases hx : s.module? m with
  | none =>
    have hcount : ¬ m < s.moduleCount := by simpa using (module_eq_none_iff s m).mp hx
    obtain ⟨b, e, hfail⟩ := failWith_eq_ok ⟨.invalidArgument, .moduleIndex⟩ g.reads g.buf ⟨s.cfg, .probe 0, startPos g.op⟩
      ⟨scratchHandle s.disc none none, s.disc⟩
    refine ⟨.next { disc := some e
                    last := some ⟨g.op, { status := .fail ⟨.invalidArgument, .moduleIndex⟩, buf := b }, []⟩ },
      by rintro _ ⟨⟩; exact ⟨rfl, fun h => absurd h hcount⟩, fun s' hs hdisc => ?_⟩
    have hdisc' := hdisc.resolve_right hcount
    rw [hrun hs, runOn_of_no_module (hs.module.trans hx), runSystem, hs.cfg, hdisc', hfail]
    rfl
  | some x =>
    have hcount : m < s.moduleCount := (module_isSome_iff s m).mp (by simp [hx])
    by_cases hp : x.pos = .idle
    case neg =>
      exact ⟨.refused .sequencerBusy, by simp, fun s' hs _ => (hrun hs).trans (runOn_of_busy (hs.module.trans hx) hp)⟩
    have hend : ∀ {s'}, SameOn m s s' → exec i s' = runOp g.op (g.result s.cfg s.isOffline m x.ctx)
        (fun c s => s.putModule m { x with handle := c.handle, pos := .idle, env := c.env }) s' := fun hs => by
      rw [hrun hs, runOn_of_idle (hs.module.trans hx) hp, hs.cfg, hs.offline]
    cases hres : g.result s.cfg s.isOffline m x.ctx with
    | ok r c t =>
      refine ⟨.next { module := some { x with handle := c.handle, pos := .idle, env := c.env }
                      last := some { op := g.op, reply := r, issued := shown t } },
        by rintro _ ⟨⟩; exact ⟨rfl, fun _ => rfl⟩, fun s' hs _ => ?_⟩
      rw [hend hs, hres]
      rfl
    | fault f pos c t => exact ⟨.fault f, by simp, fun s' hs _ => by rw [hend hs, hres]; rfl⟩
    | refused r => exact ⟨.refused r, by simp, fun s' hs _ => by rw [hend hs, hres]; rfl⟩

/-! ## Frames, dependence, commutation -/

/-- Settles O15: both a step of a sequencer and an operation are changes of one module. -/
theorem otherModulesUntouched : Obligations.OtherModulesUntouched := by
  constructor
  · intro m s t rest hturns hstep
    obtain ⟨o, hdisc, ho⟩ := advance_local m { s with turns := rest }
    rw [step_of_turn hturns, ho _ ⟨rfl, rfl, rfl⟩] at hstep
    obtain ⟨d, hd, rfl⟩ := enact_eq_next.mp hstep
    exact ⟨rfl, rfl, rfl, by simp [hdisc d hd], by simp, by simp, by simp, fun k hk => by simp [apply_module_of_ne _ _ _ hk]⟩
  · intro i m s t hi hexec
    obtain ⟨o, hdisc, ho⟩ := exec_local hi s
    rw [ho s ⟨rfl, rfl, rfl⟩ (.inl rfl)] at hexec
    obtain ⟨d, hd, rfl⟩ := enact_eq_next.mp hexec
    exact ⟨rfl, rfl, rfl, by simp, by simp, by simp, fun k hk => apply_module_of_ne _ _ _ hk,
      fun hm => by simp [(hdisc d hd).2 hm]⟩

/-- Settles O19: the outcome is one change, one fault or one refusal, in either state. -/
theorem outcomeDependsOnOwnModule : Obligations.OutcomeDependsOnOwnModule := by
  intro i m s s' x hi hx hx' hcfg hoff
  obtain ⟨o, hlast, ho⟩ := exec_local hi s
  have hm : m < s.moduleCount := (module_isSome_iff s m).mp (by simp [hx])
  rw [ho s ⟨rfl, rfl, rfl⟩ (.inr hm), ho s' ⟨hcfg, hoff, hx'.trans hx.symm⟩ (.inr hm)]
  cases o with
  | next d =>
    obtain ⟨l, hl⟩ := Option.isSome_iff_exists.mp (hlast d rfl).1
    exact ⟨by simp [hl], apply_module_congr d m (hx'.trans hx.symm)⟩
  | fault f => rfl
  | refused r => rfl

/-- A turn given before a state's other turns moves its sequencer as in that state. -/
theorem step_turn_eq_next {m : Nat} {s a : State} {q : List Turn} (h : step { s with turns := .sequencer m :: q } = .next a) :
    ∃ d : Change, d.disc = none ∧ a = d.apply m { s with turns := q } ∧
      ∀ s', SameOn m s s' → ∀ q', step { s' with turns := .sequencer m :: q' } = .next (d.apply m { s' with turns := q' }) := by
  obtain ⟨o, hdisc, ho⟩ := advance_local m s
  have hadv : ∀ s', SameOn m s s' → ∀ q', step { s' with turns := .sequencer m :: q' } = enact o m { s' with turns := q' } :=
    fun s' hs q' => (step_of_turn rfl).trans (ho _ ⟨hs.cfg, hs.offline, hs.module⟩)
  obtain ⟨d, rfl, rfl⟩ := enact_eq_next.mp ((hadv s ⟨rfl, rfl, rfl⟩ q).symm.trans h)
  exact ⟨d, hdisc d rfl, rfl, hadv⟩

/-- An operation on a module that answers a next state makes one change, the same in every state its sequencer does not tell apart. -/
theorem exec_eq_next {i : Instr} {m : Nat} {s a : State} (hi : i.module? = some m) (h : exec i s = .next a) :
    ∃ d : Change, d.last.isSome = true ∧ (m < s.moduleCount → d.disc = none) ∧ a = d.apply m s ∧
      ∀ s', SameOn m s s' → (s'.disc = s.disc ∨ m < s.moduleCount) → exec i s' = .next (d.apply m s') := by
  obtain ⟨o, hd, ho⟩ := exec_local hi s
  obtain ⟨d, rfl, rfl⟩ := enact_eq_next.mp ((ho s ⟨rfl, rfl, rfl⟩ (.inl rfl)).symm.trans h)
  exact ⟨d, (hd d rfl).1, (hd d rfl).2, rfl, ho⟩

/-- Settles O20: each move makes the change it makes alone, since the other one leaves what its sequencer sees, and the changes
commute. -/
theorem moduleOperationsCommute : Obligations.ModuleOperationsCommute := by
  refine ⟨?_, ?_, ?_⟩
  · intro m n s a rest hmn hrun
    obtain ⟨s₁, h₁, hrun₁⟩ := runSteps_succ_eq_next hrun
    obtain ⟨d, hd, rfl, hd'⟩ := step_turn_eq_next h₁
    have h₂ := (runSteps_one _).symm.trans hrun₁
    obtain ⟨e, he, rfl, he'⟩ := step_turn_eq_next (s := d.apply m s) (q := rest) h₂
    have h₃ := he' s (SameOn.apply hmn.symm d s).symm (.sequencer m :: rest)
    have h₄ := hd' (e.apply n s) (SameOn.apply hmn e s) rest
    refine ⟨_, (runSteps_of_next h₃).trans ((runSteps_one _).trans h₄), ?_⟩
    exact apply_comm d e m n { s with turns := rest } hmn hd _
  · intro m n j s a b rest hmn hj hstep hexec
    obtain ⟨d, hd, rfl, hd'⟩ := step_turn_eq_next hstep
    obtain ⟨e, he, -, rfl, he'⟩ := exec_eq_next hj hexec
    obtain ⟨l, hl⟩ := Option.isSome_iff_exists.mp he
    refine ⟨_, _, he' _ (SameOn.apply hmn.symm d _) (.inl (by simp [hd])), hd' (e.apply n s) (SameOn.apply hmn e s) rest, ?_⟩
    exact ⟨apply_comm d e m n { s with turns := rest } hmn hd _, by simp [hl]⟩
  · intro i j m n s a b hi hj hmn hm hn hai hbj
    obtain ⟨d, hdl, hd, rfl, hd'⟩ := exec_eq_next hi hai
    obtain ⟨e, hel, -, rfl, he'⟩ := exec_eq_next hj hbj
    obtain ⟨k, hk⟩ := Option.isSome_iff_exists.mp hdl
    obtain ⟨l, hl⟩ := Option.isSome_iff_exists.mp hel
    have hcomm := apply_comm d e m n s hmn (hd hm) none
    have hsystem := congrArg State.system hcomm
    have hdisc := congrArg State.disc hcomm
    exact ⟨_, _, he' _ (SameOn.apply hmn.symm d s) (.inr hn), hd' _ (SameOn.apply hmn e s) (.inr hm),
      hsystem.symm, hdisc.symm, rfl, rfl, rfl, by simp [hl], by simp [hk]⟩

end Sys2Proof.Machine
end

section
/-! SUPPORT. What every part of an operation is made of (`Op.Built`), and what follows from that alone: a vendor call uses up one of
the calls that return, nothing else does, and an operation hangs only where none is left (93_implementation_defined.md U9; log 16). -/

namespace Sys2Proof.Machine

variable {α β : Type}

/-! ## What the parts of an operation are made of -/

theorem envFind_vendorLeft (e : Env) : (envFind e).2.vendorLeft = e.vendorLeft := by
  unfold envFind envNext
  split <;> rfl

theorem envOpen_vendorLeft (e : Env) : (envOpen e).2.vendorLeft = e.vendorLeft := by
  unfold envOpen envNext
  split <;> rfl

theorem envMap_vendorLeft (e : Env) : (envMap e).2.vendorLeft = e.vendorLeft := by
  unfold envMap envNext
  split <;> rfl

/-- A part made of the primitives of 00_scope.md R10, of answers drawn from the environment, of model faults and refusals, by the ways
of composing. -/
inductive Op.Built : {α : Type} → Op α → Prop where
  | pure {α : Type} (a : α) : Op.Built (Op.pure a)
  | bind {α β : Type} {x : Op α} {f : α → Op β} : Op.Built x → (∀ a, Op.Built (f a)) → Op.Built (x.bind f)
  | withCfg {α : Type} {f : Params → Op α} : (∀ p, Op.Built (f p)) → Op.Built (Op.withCfg f)
  | placed {α : Type} {g : Place → Place} {x : Op α} : Op.Built x → Op.Built (x.placed g)
  | getHandle : Op.Built Op.getHandle
  | setHandle (f : Handle → Handle) : Op.Built (Op.setHandle f)
  | memRead (r : Option Reg) (off : Nat) : Op.Built (memRead r off)
  | memWrite (r : Option Reg) (off : Nat) (v : Word) : Op.Built (memWrite r off v)
  | sleep (ns : Nat) : Op.Built (sleep ns)
  | vendorCall {α : Type} {answer : Env → α × Env} {event : Handle → α → Event} :
      (∀ e, (answer e).2.vendorLeft = e.vendorLeft) → (∀ h a, isVendor (event h a) = true) →
      Op.Built (vendorCall answer event)
  | draw {α : Type} {f : Env → α × Env} : (∀ e, (f e).2.vendorLeft = e.vendorLeft) →
      Op.Built fun _ c => .ok (f c.env).1 { c with env := (f c.env).2 } []
  | fault {α : Type} {f : Fault} : f ≠ .vendorHang → Op.Built (Op.fault f : Op α)
  | refuse {α : Type} (r : Refusal) : Op.Built (Op.refuse r : Op α)
  | onProbe {α : Type} {j : Nat} {h : DevHandle} {va : VAddr} {x : Op α} : Op.Built x → Op.Built (onProbe j h va x)

namespace Op.Built

theorem map {f : α → β} {x : Op α} (hx : x.Built) : (x.map f).Built := .bind hx fun _ => .pure _

theorem andThen {x : Op Unit} {y : Op β} (hx : x.Built) (hy : y.Built) : (x.andThen y).Built := .bind hx fun _ => hy

theorem ifOk {x : Op (Except Failure α)} {f : α → Op (Except Failure β)} (hx : x.Built) (hf : ∀ a, (f a).Built) :
    (x.ifOk f).Built :=
  .bind hx fun r =>
    match r with
    | .ok a => hf a
    | .error _ => .pure _

theorem ite {p : Prop} [Decidable p] {x y : Op α} (hx : x.Built) (hy : y.Built) : (if p then x else y).Built := by
  split <;> assumption

theorem inLoop {k : Nat} {x : Op α} (hx : x.Built) : (x.inLoop k).Built := .placed hx

theorem inPhase {ph : Phase} {x : Op α} (hx : x.Built) : (Op.inPhase ph x).Built := .placed hx

theorem each {f : Nat → α → Op Unit} (hf : ∀ i a, (f i a).Built) (l : List α) (i : Nat) : (Op.each f i l).Built := by
  induction l generalizing i with
  | nil => exact .pure _
  | cons a l ih => exact .andThen (hf i a) (ih (i + 1))

theorem times {f : Nat → Op β} (hf : ∀ i, (f i).Built) (i n : Nat) : (Op.times f i n).Built := by
  induction n generalizing i with
  | zero => exact .pure _
  | succ n ih => exact .bind (hf i) fun _ => .map (ih (i + 1))

theorem eachOk {f : Nat → α → Op (Except Failure β)} (hf : ∀ i a, (f i a).Built) (l : List α) (i : Nat) :
    (Op.eachOk f i l).Built := by
  induction l generalizing i with
  | nil => exact .pure _
  | cons a l ih => exact .ifOk (hf i a) fun _ => .ifOk (ih (i + 1)) fun _ => .pure _

/-! ## The shared operations -/

theorem regRead (r : Reg) : (regRead r).Built := .withCfg fun _ => .memRead _ _

theorem regWrite (r : Reg) (v : Word) : (regWrite r v).Built := .withCfg fun _ => .memWrite _ _ _

theorem sleepIfPositive (ns : Nat) : (sleepIfPositive ns).Built := .ite (.sleep ns) (.pure _)

theorem pollUntil (place : Nat → Place → Place) (r : Reg) (pred : Word → Bool) (n d : Nat) :
    (pollUntil place r pred n d).Built := by
  suffices h : ∀ n i, (pollFrom place r pred d i n).Built from h n 1
  intro n
  induction n with
  | zero => exact fun _ => .pure _
  | succ n ih =>
    exact fun i => .bind (.placed (.regRead r)) fun _ => .ite (.pure _) (.andThen (.placed (.sleepIfPositive d)) (ih (i + 1)))

theorem csrModify (set clr : Word) : (csrModify set clr).Built := .bind (.regRead _) fun _ => .regWrite _ _

theorem csrSet (f : CsrMap → Fin 32) : (csrSet f).Built := .withCfg fun _ => .csrModify _ _

theorem csrClear (f : CsrMap → Fin 32) : (csrClear f).Built := .withCfg fun _ => .csrModify _ _

theorem spoil (n : Nat) (b : Buf) : (spoil n b).Built := by
  cases b with
  | none => exact .pure none
  | some ws =>
    exact .draw (f := fun e => (some ((envFreeWords (min n ws.length) e).1 ++ ws.drop (min n ws.length)),
      (envFreeWords (min n ws.length) e).2)) fun _ => rfl

theorem failWith (f : Failure) (n : Nat) (b : Buf) : (failWith f n b).Built := .map (.spoil n b)

theorem replyWords (n : Nat) (b : Buf) (r : Except Failure (List Word)) : (replyWords n b r).Built :=
  match r with
  | .ok _ => .pure _
  | .error f => .failWith f n b

/-! ## Host bus request, bursts, processor memory, FIFO, external memory -/

theorem setHbr (held : Bool) : (setHbr held).Built := .setHandle _

theorem hbrDone : hbrDone.Built :=
  .bind .getHandle fun _ => .ite (.andThen (.withCfg fun _ => .regWrite _ _) (.setHbr _)) (.fault nofun)

theorem hbrGrantPoll : hbrGrantPoll.Built :=
  .withCfg fun _ => .ite
    (.bind (.pollUntil _ _ _ _ _) fun r =>
      match r with
      | some _ => .pure _
      | none => .andThen .hbrDone (.pure _))
    (.pure _)

theorem hbrRequest : hbrRequest.Built :=
  .bind .getHandle fun _ => .ite (.fault nofun) <|
    .andThen (.withCfg fun _ => .regWrite _ _) (.andThen (.setHbr _) .hbrGrantPoll)

theorem withHbr {x : Op α} (hx : x.Built) : (withHbr x).Built := .ifOk .hbrRequest fun _ => .bind hx fun _ => .map .hbrDone

theorem setDma (ch : Option Channel) : (setDma ch).Built := .setHandle _

theorem dmaPrime (kind : Kind) (count : Nat) : (dmaPrime kind count).Built :=
  match kind with
  | .dsp => .andThen (.regWrite _ _) (.withCfg fun _ => .map (.pollUntil _ _ _ _ _))
  | .ext | .fifo => .pure _

theorem deliver (n : Nat) (data : List Word) : (deliver n data).Built :=
  .draw (f := fun e => (data.take n ++ (envFreeWords (n - data.length) e).1, (envFreeWords (n - data.length) e).2)) fun _ => rfl

theorem dmaTransfer (ch : Channel) (port : Reg) (host : List Word) (count : Nat) (dir : Dir) :
    (dmaTransfer ch port host count dir).Built := by
  refine .withCfg fun p => .ite (.bind (.vendorCall envXfer_vendorLeft fun _ _ => rfl) fun a => ?_) (.refuse _)
  cases a.result with
  | ok =>
    cases dir with
    | toHost => exact .map (.deliver _ _)
    | toModule => exact .pure _
  | timeout => exact .pure _
  | vendorError => exact .pure _

theorem dmaCloseCall (ch : Channel) : (dmaCloseCall ch).Built := .vendorCall envClose_vendorLeft fun _ _ => rfl

theorem closeRetry (ch : Channel) : (closeRetry ch).Built :=
  .andThen (.vendorCall noAnswer_vendorLeft fun _ _ => rfl) (.bind (.dmaCloseCall ch) fun _ => .map (.setDma none))

theorem closeChannel (ch : Channel) : (closeChannel ch).Built :=
  .bind (.dmaCloseCall ch) fun r =>
    match r with
    | .ok => .map (.setDma none)
    | .inProgress | .error => .closeRetry ch

theorem dmaBurst (kind : Kind) (port : Reg) (host : List Word) (count : Nat) (dir : Dir) :
    (dmaBurst kind port host count dir).Built :=
  .withCfg fun _ => .bind (.vendorCall envDmaOpen_vendorLeft fun _ _ => rfl) fun o =>
    match o with
    | none => .pure _
    | some ch => .andThen (.setDma _) <|
        .bind (.ifOk (.dmaPrime kind count) fun _ => .dmaTransfer ch port host count dir) fun _ => .map (.closeChannel ch)

theorem writeAll (r : Reg) (ws : List Word) : (writeAll r ws).Built := .each (fun _ _ => .inLoop (.regWrite _ _)) ws 0

theorem resited {site : Site} {x : Op (Except Failure α)} (hx : x.Built) : (resited site x).Built := .map hx

theorem dspReadOne (a : Word) : (dspReadOne a).Built := .withHbr (.andThen (.regWrite _ _) (.regRead _))

theorem blockRead (a : Word) (host : List Word) (w : Nat) : (blockRead a host w).Built :=
  .map (.withHbr (.andThen (.csrClear _) (.andThen (.regWrite _ _) (.dmaBurst _ _ _ _ _))))

theorem singleRead (a : Word) (r : Nat) : (singleRead a r).Built := by
  refine .withCfg fun p => ?_
  cases p.remainderMode with
  | autoinc =>
    exact .withHbr (.andThen (.csrClear _) (.andThen (.regWrite _ _) (.times (fun _ => .inLoop (.regRead _)) 0 r)))
  | perword => exact .eachOk (fun _ _ => .inLoop (.dspReadOne _)) _ 0

theorem dspRemainder (a : Word) (host : List Word) (base r singleMax : Nat) : (dspRemainder a host base r singleMax).Built :=
  .ite (.resited (.ite (.singleRead _ _) (.blockRead _ _ _))) (.pure _)

theorem dspReadBody (a : Word) (count : Nat) (host : List Word) : (dspReadBody a count host).Built :=
  .withCfg fun _ => .ite (.ifOk (.dspReadOne a) fun _ => .pure _) <|
    .ifOk (.eachOk (fun _ _ => .resited (.inLoop (.blockRead _ _ _))) _ 0) fun _ =>
      .ifOk (.dspRemainder _ _ _ _ _) fun _ => .pure _

theorem fifoDrainBody (count : Nat) (host : List Word) : (fifoDrainBody count host).Built :=
  .ite (.pure _) <| .andThen (.regWrite _ _) <| .withCfg fun _ => .bind (.pollUntil _ _ _ _ _) fun r =>
    match r with
    | none => .pure _
    | some _ => .resited (.dmaBurst _ _ _ _ _)

theorem withExtMem {x : Op α} (hx : x.Built) : (withExtMem x).Built :=
  .andThen (.csrSet _) (.bind hx fun _ => .map (.csrClear _))

theorem extReadBody (a : Word) (count : Nat) (host : List Word) : (extReadBody a count host).Built :=
  .andThen (.regWrite _ _) <| .andThen (.regWrite _ _) <| .withCfg fun _ =>
    .ifOk (.ite (.map (.pollUntil _ _ _ _ _)) (.pure _)) fun _ => .resited (.dmaBurst _ _ _ _ _)

theorem extClearBody (a : Word) (count : Nat) : (extClearBody a count).Built :=
  .andThen (.regWrite _ _) <| .andThen (.regWrite _ _) <| .withCfg fun _ => .map (.pollUntil _ _ _ _ _)

/-! ## Boot -/

theorem setBoot (f : Boot → Boot) : (setBoot f).Built := .setHandle _

theorem fpgaAttempt (t : Target) (image : List Word) (a : Nat) : (fpgaAttempt t image a).Built :=
  .andThen (.inPhase <| .withCfg fun _ => .andThen (.regWrite _ _) (.andThen (.sleepIfPositive _) (.regWrite _ _))) <|
    .bind (.withCfg fun _ => .map (.pollUntil _ _ _ _ _)) fun _ => .ite
      (.andThen (.withCfg fun _ => .each (fun _ _ => .inPhase (.andThen (.regWrite _ _) (.sleep _))) image 0)
        (.inPhase <| .withCfg fun _ => .map (.regRead _)))
      (.pure _)

theorem fpgaBoot (t : Target) (image : List Word) (site : Site) : (fpgaBoot t image site).Built := by
  suffices h : ∀ n a, (fpgaAttempts t image site a n).Built from .withCfg fun _ => h _ _
  intro n
  induction n with
  | zero => exact fun _ => .pure _
  | succ n ih => exact fun a => .bind (.fpgaAttempt t image a) fun _ => .ite (.pure _) (ih (a + 1))

theorem clockDomainReset : clockDomainReset.Built :=
  .withCfg fun _ => .andThen (.regWrite _ _) (.andThen (.sleepIfPositive _) (.regWrite _ _))

theorem hbrWriteGroup (a : Word) (ws : List Word) : (hbrWriteGroup a ws).Built :=
  .withHbr (.andThen (.regWrite _ _) (.writeAll _ _))

theorem kernelDownload (a : Nat) (w : List Word) : (kernelDownload a w).Built :=
  .withCfg fun _ => .eachOk (fun _ _ => .inPhase (.hbrWriteGroup _ _)) _ 0

theorem tagStream (fuel : Nat) (ws : List Word) : (tagStream fuel ws).Built := by
  induction fuel generalizing ws with
  | zero => rcases ws with _ | ⟨_, _ | ⟨_, _ | ⟨_, _⟩⟩⟩ <;> exact .pure _
  | succ fuel ih =>
    match ws with
    | [] | [_] | [_, _] => exact .pure _
    | tag :: count :: addr :: more =>
      refine .withCfg fun p => .ite (.pure _) ?_
      cases tagInfo p tag with
      | none => exact .pure _
      | some t =>
        refine .ite (.pure _) (.ifOk (.eachOk (fun _ _ => .inLoop (.hbrWriteGroup _ _)) _ 0) fun _ => ?_)
        cases t.kind with
        | final => exact .pure _
        | zero => exact ih _
        | init => exact ih _

theorem cfgVerify (a j : Nat) (c : CfgPair) (k n : Nat) : (cfgVerify a j c k n).Built := by
  induction n generalizing k with
  | zero => exact .pure _
  | succ n ih =>
    refine .ifOk (.inPhase <| .withCfg fun p => .ifOk ?_ fun _ => .dspReadOne _) fun _ => .ite (.pure _) (ih (k + 1))
    cases p.cfgVerifyMode with
    | writeRead => exact .hbrWriteGroup _ _
    | readOnly => exact .pure _

theorem pollPudone (a k n : Nat) : (pollPudone a k n).Built := by
  induction n generalizing k with
  | zero => exact .pure _
  | succ n ih =>
    exact .withCfg fun _ => .ifOk (.inPhase (.dspReadOne _)) fun _ =>
      .ite (.pure _) (.andThen (.inPhase (.sleep _)) (ih (k + 1)))

theorem dspAttempt (w : List Word) (a : Nat) : (dspAttempt w a).Built :=
  .withCfg fun _ => .andThen (.inPhase (.andThen (.csrModify _ _) (.sleep _))) <|
    .andThen (.inPhase (.csrClear _)) <|
    .ifOk (.eachOk (fun _ _ => .cfgVerify _ _ _ _ _) _ 0) fun _ => .ifOk (.kernelDownload a w) fun _ =>
    .ifOk (.inPhase (.tagStream _ _)) fun _ => .andThen (.inPhase (.csrClear _)) (.pollPudone a 1 _)

theorem dspBootFrom (w : List Word) (a more : Nat) : (dspBootFrom w a more).Built := by
  induction more generalizing a with
  | zero => exact .dspAttempt w a
  | succ more ih =>
    exact .bind (.dspAttempt w a) fun r =>
      match r with
      | .ok _ => .pure _
      | .error _ => .ite (.pure _) (ih (a + 1))

theorem bootCommBody (image : List Word) : (bootCommBody image).Built :=
  .andThen (.setBoot _) (.bind (.fpgaBoot _ _ _) fun _ => .map (.setBoot _))

theorem bootSpBody (image : List Word) : (bootSpBody image).Built :=
  .andThen (.setBoot _) <| .ifOk (.fpgaBoot _ _ _) fun _ => .ifOk (.fpgaBoot _ _ _) fun _ =>
    .andThen .clockDomainReset (.map (.setBoot _))

theorem bootDspBody (w : List Word) : (bootDspBody w).Built :=
  .andThen (.setBoot _) <| .withCfg fun _ => .bind (.dspBootFrom w 1 _) fun r =>
    match r with
    | .ok _ => .map (.setBoot _)
    | .error _ => .pure _

theorem stageIf (selected : Bool) {x : Op (Except Failure Unit)} (hx : x.Built) : (stageIf selected x).Built :=
  .ite hx (.pure _)

theorem bootModuleBody (images : Images) (pattern : Word) : (bootModuleBody images pattern).Built :=
  .andThen (.setBoot _) <| .ifOk (.stageIf _ (.bootCommBody _)) fun _ => .ifOk (.stageIf _ (.bootSpBody _)) fun _ =>
    .ifOk (.stageIf _ (.bootDspBody _)) fun _ => .map (.setBoot _)

/-! ## Serial lines -/

theorem setSer (f : SerRec → SerRec) : (setSer f).Built := .setHandle _

theorem settle : settle.Built := .withCfg fun _ => .sleep _

theorem drive (l : Lines) : (drive l).Built := .andThen (.withCfg fun _ => .regWrite _ _) (.andThen (.setHandle _) .settle)

theorem sample : sample.Built := .bind (.regRead _) fun _ => .andThen .settle (.withCfg fun _ => .pure _)

theorem serStart : serStart.Built := .inPhase (.andThen (.drive _) (.drive _))

theorem serStop : serStop.Built := .inPhase (.andThen (.drive _) (.andThen (.drive _) (.drive _)))

theorem sendBitAt (b : Byte) (i : Nat) : (sendBitAt b i).Built :=
  .inPhase <| .andThen (.setSer _) <| .andThen (.bind .getHandle fun _ => .drive _) (.andThen (.drive _) (.drive _))

theorem recvBitAt (i : Nat) : (recvBitAt i).Built :=
  .inPhase <| .andThen (.setSer _) <|
    .bind (.andThen (.drive _) (.bind .sample fun _ => .map (.drive _))) fun _ => .setSer _

theorem serAckWait : serAckWait.Built :=
  .inPhase <| .andThen (.drive _) <| .bind .sample fun _ => .andThen (.drive _) (.setSer _)

theorem serAckSend : serAckSend.Built :=
  .inPhase <| .withCfg fun _ => .andThen (.drive _) (.andThen (.drive _) (.drive _))

theorem endSer (f : SerRec → α) (d : α) : (endSer f d).Built := .bind .getHandle fun _ => .map (.setHandle _)

theorem serWriteBody (b : Byte) : (serWriteBody b).Built :=
  .andThen (.setHandle _) <| .andThen .serStart <| .andThen (.each (fun _ _ => .sendBitAt _ _) _ 0) <|
    .andThen (.inPhase (.drive _)) <| .andThen .serAckWait <| .andThen .serStop (.endSer _ _)

theorem serReadBody : serReadBody.Built :=
  .andThen (.setHandle _) <| .andThen .serStart <| .andThen (.each (fun _ _ => .recvBitAt _) _ 0) <|
    .andThen .serAckSend <| .andThen .serStop (.endSer _ _)

theorem serReadSeqBody (lead : List Byte) (n : Nat) : (serReadSeqBody lead n).Built :=
  .ifOk (.eachOk (fun _ _ => .map (.inLoop (.serWriteBody _))) lead 0) fun _ =>
    .map (.times (fun _ => .inLoop .serReadBody) 0 n)

/-! ## Discovery and close -/

theorem unmapCall (h : Option DevHandle) (va : VAddr) : (unmapCall h va).Built := .vendorCall noAnswer_vendorLeft fun _ _ => rfl

theorem closeCall (h : Option DevHandle) : (closeCall h).Built := .vendorCall noAnswer_vendorLeft fun _ _ => rfl

theorem moduleCloseBody : moduleCloseBody.Built := by
  refine .bind .getHandle fun h => ?_
  cases h.win with
  | none => exact .pure _
  | some va => exact .andThen (.unmapCall _ _) (.andThen (.closeCall _) (.map (.setHandle _)))

theorem findCall (k : Nat) : (findCall k).Built :=
  .withCfg fun _ => .vendorCall envFind_vendorLeft fun _ _ => rfl

theorem findFrom (k n : Nat) (keys : List DevKey) : (findFrom k n keys).Built := by
  induction n generalizing k keys with
  | zero => exact .pure _
  | succ n ih =>
    exact .bind (.inLoop (.findCall k)) fun r =>
      match r with
      | none => .pure _
      | some _ => .withCfg fun _ => ih (k + 1) _

theorem openDevice (key : DevKey) : (openDevice key).Built :=
  .bind (.vendorCall envOpen_vendorLeft fun _ _ => rfl) fun o =>
    match o with
    | none => .pure _
    | some _ => .bind (.withCfg fun _ => .vendorCall envMap_vendorLeft fun _ _ => rfl) fun v =>
      match v with
      | none => .map (.closeCall _)
      | some _ => .pure _

theorem releaseDevice (d : DevHandle × VAddr) : (releaseDevice d).Built := .andThen (.unmapCall _ _) (.closeCall _)

theorem probeOne (j : Nat) (key : DevKey) : (probeOne j key).Built :=
  .inLoop <| .ifOk (.openDevice key) fun _ => .withCfg fun _ =>
    .bind (.onProbe (.serReadSeqBody _ _)) fun _ => .map (.releaseDevice _)

theorem unwind (held : List (DevHandle × VAddr)) : (unwind held).Built := by
  induction held with
  | nil => exact .pure _
  | cons d held ih => exact .andThen (.releaseDevice d) ih

theorem openModules (keys : List DevKey) (held : List (DevHandle × VAddr)) : (openModules held keys).Built := by
  induction keys generalizing held with
  | nil => exact .pure _
  | cons key keys ih =>
    exact .bind (.inLoop (.openDevice key)) fun r =>
      match r with
      | .ok d => ih (d :: held)
      | .error _ => .map (.unwind held)

theorem discover (slotMap : List Nat) : (discover slotMap).Built := by
  refine .ifOk (.withCfg fun _ => .map (.findFrom 0 _ [])) fun found => .ifOk (.eachOk .probeOne found 0) fun probed => ?_
  cases matchSlots probed slotMap with
  | none => exact .pure _
  | some keys => exact .openModules keys []

/-! ## Every program -/

/-- The body of every operation's program. -/
theorem body {p : Params} {i : Instr} {m : Nat} {g : Program} (h : programOf p i = some (m, g)) : g.body.Built := by
  cases i <;> cases h
  case regRead => exact .map (.memRead _ _)
  case regWrite => exact .map (.memWrite _ _ _)
  case csrRead => exact .map (.regRead _)
  case csrWrite => exact .map (.regWrite _ _)
  case csrSetBits => exact .map (.csrModify _ _)
  case csrClearBits => exact .map (.csrModify _ _)
  case serWriteByte => exact .map (.serWriteBody _)
  case serReadByte => exact .map .serReadBody
  case serReadSeq => exact .map (.serReadSeqBody _ _)
  case hbrRequest => exact .map .hbrRequest
  case hbrDone => exact .map .hbrDone
  case dspMemWrite =>
    exact .map (.withHbr (.andThen (.csrClear _) (.andThen (.regWrite _ _) (.writeAll _ _))))
  case dspMemRead => exact .bind (.dspReadBody _ _ _) fun _ => .replyWords _ _ _
  case dmaBurst => exact .bind (.dmaBurst _ _ _ _ _) fun _ => .replyWords _ _ _
  case fifoReadWm => exact .map (.regRead _)
  case fifoDrain => exact .bind (.fifoDrainBody _ _) fun _ => .replyWords _ _ _
  case extMemWrite => exact .map (.withExtMem (.andThen (.regWrite _ _) (.writeAll _ _)))
  case extMemRead => exact .bind (.withExtMem (.extReadBody _ _ _)) fun _ => .replyWords _ _ _
  case extMemClear => exact .map (.withExtMem (.extClearBody _ _))
  case bootCommFpga => exact .map (.bootCommBody _)
  case bootSpFpga => exact .map (.bootSpBody _)
  case bootDsp => exact .map (.bootDspBody _)
  case bootModule => exact .map (.bootModuleBody _ _)
  case moduleClose => exact .moduleCloseBody

/-- The preamble adds failures and the offline reply. -/
protected theorem code {g : Program} (h : g.body.Built) (offline : Bool) : (g.code offline).Built := by
  unfold Program.code preamble
  cases firstFailure g.checks with
  | some f => exact .failWith _ _ _
  | none => exact .ite (.pure _) (.ite (.bind .getHandle fun _ => .ite (.failWith _ _ _) h) h)

end Op.Built

/-! ## Vendor calls are counted (log 16) -/

/-- Where the library still returns from `n` calls, every vendor event of the steps used up one of them. -/
def Spends (c c' : Ctx) (t : List Stage) : Prop :=
  ∀ n, c.env.vendorLeft = some n → ∃ k, c'.env.vendorLeft = some k ∧ countEvents isVendor (shown t) + k = n

/-- A part that hangs does so where the library returns from no more calls. -/
def HangsSpent (f : Fault) (_ c' : Ctx) (_ : List Stage) : Prop := f = .vendorHang → c'.env.vendorLeft = some 0

theorem countEvents_append (f : Event → Bool) (t u : List Issued) : countEvents f (t ++ u) = countEvents f t + countEvents f u :=
  List.countP_append

/-- Steps without a vendor event that leave the count of calls. -/
theorem spends_of_same {c c' : Ctx} {t : List Stage} (h : c'.env.vendorLeft = c.env.vendorLeft)
    (ht : countEvents isVendor (shown t) = 0) : Spends c c' t := fun n hn => ⟨n, h.trans hn, by omega⟩

theorem composes_spends : Composes Spends HangsSpent where
  refl _ := spends_of_same rfl rfl
  trans h₁ h₂ n hn := by
    obtain ⟨k, hk, h₁⟩ := h₁ n hn
    obtain ⟨l, hl, h₂⟩ := h₂ k hk
    exact ⟨l, hl, by rw [shown_append, countEvents_append]; omega⟩
  stop _ _ hf h := absurd h hf
  hang _ h _ := h
  transStop _ h := h

/-- A vendor call that returns uses up one. -/
theorem vendorCall_spends {answer : Env → α × Env} {event : Handle → α → Event}
    (ha : ∀ e, (answer e).2.vendorLeft = e.vendorLeft) (he : ∀ h a, isVendor (event h a) = true) :
    (vendorCall answer event).Keeps Spends HangsSpent where
  ok sc c a c' t h n hn := by
    cases n with
    | zero => simp [vendorCall, hn] at h
    | succ n =>
      simp only [vendorCall, hn] at h
      cases h
      exact ⟨n, ha _, by simp [stepOf, countEvents, he, Nat.add_comm]⟩
  fault sc c f pos c' t h _ := by
    obtain ⟨hzero, -, -, rfl, -⟩ := vendorCall_eq_fault.mp h
    exact hzero

theorem memRead_spends (r : Option Reg) (off : Nat) : (memRead r off).Keeps Spends HangsSpent where
  ok sc c v c' t h := by
    unfold memRead at h
    split at h <;> cases h
    exact spends_of_same (envRead_vendorLeft c.env) rfl
  fault sc c f pos c' t h := by
    unfold memRead at h
    split at h <;> cases h

theorem memWrite_spends (r : Option Reg) (off : Nat) (v : Word) : (memWrite r off v).Keeps Spends HangsSpent where
  ok sc c u c' t h := by
    unfold memWrite at h
    split at h <;> cases h
    exact spends_of_same rfl rfl
  fault sc c f pos c' t h := by
    unfold memWrite at h
    split at h <;> cases h

/-- A part run on a probe's window spends what it spends on any. -/
theorem onProbe_spends {j : Nat} {d : DevHandle} {va : VAddr} {x : Op α} (hx : x.Keeps Spends HangsSpent) :
    (onProbe j d va x).Keeps Spends HangsSpent where
  ok sc c a c' t h := by
    unfold onProbe at h
    split at h <;> cases h
    rename_i hr
    have hspends := hx.ok _ _ _ _ _ hr
    exact hspends
  fault sc c f pos c' t h := by
    unfold onProbe at h
    split at h <;> cases h
    rename_i hr
    have hspent := hx.fault _ _ _ _ _ _ hr
    exact hspent

/-- Every part of an operation spends as many calls as it issues vendor events, and hangs only where none is left. -/
theorem Op.Built.spends {x : Op α} (hx : x.Built) : x.Keeps Spends HangsSpent := by
  induction hx with
  | pure a => exact Op.keeps_pure composes_spends a
  | bind _ _ hx hf => exact Op.keeps_bind composes_spends hx hf
  | withCfg _ hf => exact Op.keeps_withCfg hf
  | placed _ hx => exact Op.keeps_placed hx
  | getHandle => exact Op.keeps_getHandle composes_spends
  | setHandle f => exact ⟨by rintro _ c _ _ _ ⟨⟩; exact spends_of_same rfl rfl, by rintro _ _ _ _ _ _ ⟨⟩⟩
  | memRead r off => exact memRead_spends r off
  | memWrite r off v => exact memWrite_spends r off v
  | sleep ns => exact ⟨by rintro _ c _ _ _ ⟨⟩; exact spends_of_same rfl rfl, by rintro _ _ _ _ _ _ ⟨⟩⟩
  | vendorCall ha he => exact vendorCall_spends ha he
  | draw hf => exact ⟨by rintro _ c _ _ _ ⟨⟩; exact spends_of_same (hf _) rfl, by rintro _ _ _ _ _ _ ⟨⟩⟩
  | fault hf => exact Op.keeps_fault composes_spends hf
  | refuse r => exact ⟨by rintro _ _ _ _ _ ⟨⟩, by rintro _ _ _ _ _ _ ⟨⟩⟩
  | onProbe _ hx => exact onProbe_spends hx
/-- An operation on a module, or SYS_INIT, issues no more vendor calls than return. -/
theorem countEvents_le_of_spends {c c' : Ctx} {t : List Stage} {n : Nat} (h : Spends c c' t) (hn : c.env.vendorLeft = some n) :
    countEvents isVendor (shown t) ≤ n := by
  obtain ⟨k, -, hk⟩ := h n hn
  omega

/-- How a program ends keeps the count. -/
theorem result_spends {p q : Params} {i : Instr} {m k : Nat} {g : Program} (hg : programOf q i = some (k, g)) (off : Bool)
    {c c' : Ctx} {r : Reply} {t : List Stage} (h : g.result p off m c = .ok r c' t) : Spends c c' t :=
  ((Op.Built.body hg).code off).spends.ok _ _ _ _ _ h

/-- A program hangs where the library returns from no more calls. -/
theorem vendorLeft_of_result_hangs {p q : Params} {i : Instr} {m k : Nat} {g : Program} (hg : programOf q i = some (k, g))
    {off : Bool} {c c' : Ctx} {pos : Place} {t : List Stage} (h : g.result p off m c = .fault .vendorHang pos c' t) :
    c'.env.vendorLeft = some 0 :=
  ((Op.Built.body hg).code off).spends.fault _ _ _ _ _ _ h rfl

end Sys2Proof.Machine
end

section
/-! SUPPORT. Where an operation stops: a bad offset, a busy sequencer, a vendor call that never returns (20_memory.md R65,
70_reset_and_hazards.md R283, R285; 93_implementation_defined.md U9). -/

namespace Sys2Proof.Machine

variable {α β : Type} {sc : Scope} {c c₁ : Ctx}

/-! ## Parts that hang -/

/-- Run there, the part ends at a vendor call that never returns. -/
def Op.HangsAt (x : Op α) (sc : Scope) (c : Ctx) : Prop := ∃ pos c' t, x sc c = .fault .vendorHang pos c' t

/-- A composition hangs where its first part does. -/
theorem Op.HangsAt.first {x : Op α} {f : α → Op β} (h : x.HangsAt sc c) : (x.bind f).HangsAt sc c := by
  obtain ⟨pos, c', t, h⟩ := h
  exact ⟨pos, c', t, Op.bind_eq_fault.mpr (.inl h)⟩

/-- A composition hangs where its second part does, after the first. -/
theorem Op.HangsAt.after {x : Op α} {f : α → Op β} {a : α} {t : List Stage} (h : x sc c = .ok a c₁ t)
    (hf : (f a).HangsAt sc c₁) : (x.bind f).HangsAt sc c := by
  obtain ⟨pos, c', t', hf⟩ := hf
  exact ⟨pos, c', t ++ t', Op.bind_eq_fault.mpr (.inr ⟨a, c₁, t, t', h, hf, rfl⟩)⟩

theorem Op.HangsAt.map {f : α → β} {x : Op α} (h : x.HangsAt sc c) : (x.map f).HangsAt sc c := h.first

theorem Op.HangsAt.andThen {x : Op Unit} {y : Op β} (h : x.HangsAt sc c) : (x.andThen y).HangsAt sc c := h.first

theorem Op.HangsAt.ifOk {x : Op (Except Failure α)} {f : α → Op (Except Failure β)} (h : x.HangsAt sc c) :
    (x.ifOk f).HangsAt sc c := h.first

theorem Op.HangsAt.withCfg {f : Params → Op α} (h : (f sc.cfg).HangsAt sc c) : (Op.withCfg f).HangsAt sc c := h

theorem Op.HangsAt.inLoop {k : Nat} {x : Op α} (h : x.HangsAt { sc with pos := posLoop k sc.pos } c) :
    (x.inLoop k).HangsAt sc c := h

/-- A vendor call hangs where the library no longer returns. -/
theorem vendorCall_hangs {answer : Env → α × Env} {event : Handle → α → Event} (h : c.env.vendorLeft = some 0) :
    (vendorCall answer event).HangsAt sc c := ⟨_, _, _, vendorCall_eq_fault.mpr ⟨h, rfl, rfl, rfl, rfl⟩⟩

theorem dmaBurst_hangs (h : c.env.vendorLeft = some 0) {kind : Kind} {port : Reg} {host : List Word} {count : Nat} {dir : Dir} :
    (dmaBurst kind port host count dir).HangsAt sc c := .withCfg (vendorCall_hangs h).first

theorem moduleCloseBody_hangs (h : c.env.vendorLeft = some 0) (hw : c.handle.win.isSome = true) :
    moduleCloseBody.HangsAt sc c := by
  obtain ⟨va, hva⟩ := Option.isSome_iff_exists.mp hw
  refine .after Op.getHandle_apply ?_
  rw [hva]
  exact (vendorCall_hangs h).andThen

/-- Discovery hangs in its first call. -/
theorem discover_hangs (h : c.env.vendorLeft = some 0) (hn : 0 < sc.cfg.findLimit) (slotMap : List Nat) :
    (discover slotMap).HangsAt sc c := by
  have hfind : (findFrom 0 sc.cfg.findLimit []).HangsAt sc c := by
    rw [← Nat.succ_pred_eq_of_pos hn]
    exact .first (.inLoop (.withCfg (vendorCall_hangs h)))
  exact .ifOk (.withCfg hfind.map)

section module
variable {p : Params} {m : Nat} {pos : Place} {es : List (Option Reg × Event)}

/-- A part that runs, then one that hangs. -/
theorem Runs.hangsAfter {x : Op α} {f : α → Op β} {a : α} (hx : Runs p m x c a c₁ es)
    (hf : (f a).HangsAt ⟨p, .module m, pos⟩ c₁) : (x.bind f).HangsAt ⟨p, .module m, pos⟩ c := by
  obtain ⟨t, hx, -⟩ := hx pos
  exact .after hx hf

theorem Runs.hangsAndThen {x : Op Unit} {y : Op β} (hx : Runs p m x c () c₁ es) (hy : y.HangsAt ⟨p, .module m, pos⟩ c₁) :
    (x.andThen y).HangsAt ⟨p, .module m, pos⟩ c := hx.hangsAfter hy

theorem Runs.hangsIfOk {x : Op (Except Failure α)} {f : α → Op (Except Failure β)} {a : α} (hx : Runs p m x c (.ok a) c₁ es)
    (hf : (f a).HangsAt ⟨p, .module m, pos⟩ c₁) : (x.ifOk f).HangsAt ⟨p, .module m, pos⟩ c := hx.hangsAfter hf

/-- A poll that sees its predicate hold ends satisfied. -/
theorem Runs.poll_seen (hw : windowOk p = true) {place : Nat → Place → Place} {r : Reg} {pred : Word → Bool} {n d : Nat}
    {vs : List Word} {e : Env} (hr : readMany vs.length c.env = (vs, e)) (hs : PollSeen n pred vs) :
    ∃ q es, Runs p m (pollUntil place r pred n d) c (some q) { c with env := e } es := by
  obtain ⟨hn, hbad, hlast⟩ := hs
  obtain rfl | ⟨bad, v, rfl⟩ := List.eq_nil_or_concat' vs
  · simp at hlast
  · simp only [List.length_append, List.length_singleton, List.dropLast_concat, List.getLast?_concat, Option.any_some] at *
    exact ⟨_, _, Runs.poll_satisfied hw hr hn hbad hlast⟩

/-- Reads leave the count of vendor calls. -/
theorem vendorLeft_of_readMany {n : Nat} {e e' : Env} {vs : List Word} (h : readMany n e = (vs, e')) :
    e'.vendorLeft = e.vendorLeft := by
  rw [← readMany_vendorLeft n e, h]

variable (hw : windowOk p = true) (hv : c.env.vendorLeft = some 0)
include hw hv

/-- A block read, without grant polls and with no request held, hangs in its burst. -/
theorem blockRead_hangs (hp : p.hbrGrantPolls = 0) (hh : c.handle.hbrHeld = false) (a : Word) (host : List Word) (w : Nat) :
    (blockRead a host w).HangsAt ⟨p, .module m, pos⟩ c := by
  refine .map (Runs.hangsIfOk (Runs.hbrRequest_noPoll hw hp hh) (.first ?_))
  refine Runs.hangsAndThen (Runs.csrClear hw _) (Runs.hangsAndThen (Runs.regWrite hw _ _) (dmaBurst_hangs ?_))
  exact (envRead_vendorLeft c.env).trans hv

/-- A read of two words or more hangs in its first block, or else in a remainder read by a burst. -/
theorem dspReadBody_hangs (hp : p.hbrGrantPolls = 0) (hh : c.handle.hbrHeld = false) {count : Nat} (h₂ : 2 ≤ count)
    (hburst : 0 < count / p.dspBlockWords ∨ p.dspSingleMax ≤ count % p.dspBlockWords) (addr : Word) (host : List Word) :
    (dspReadBody addr count host).HangsAt ⟨p, .module m, pos⟩ c := by
  have hblock : ∀ {pos a host w}, (blockRead a host w).HangsAt ⟨p, .module m, pos⟩ c := blockRead_hangs hw hv hp hh _ _ _
  have hdiv := Nat.div_add_mod count p.dspBlockWords
  refine .withCfg ?_
  rw [if_neg (by omega)]
  dsimp only
  cases hn : count / p.dspBlockWords with
  | zero =>
    rw [hn, Nat.mul_zero, Nat.zero_add] at hdiv
    have hsingle := hburst.resolve_left (by omega)
    have hnone : Runs p m (dspBlocks addr host p.dspBlockWords 0) c (.ok []) c [] := Runs.pure _
    refine hnone.hangsIfOk (.ifOk ?_)
    rw [dspRemainder, if_pos (by omega), if_neg (by omega)]
    exact hblock.map
  | succ n =>
    refine .ifOk ?_
    rw [dspBlocks, List.range_succ_eq_map]
    exact .ifOk (.map (.inLoop hblock))

theorem fifoDrainBody_hangs {count : Nat} (hc : 0 < count) {vs : List Word} {e : Env}
    (hr : readMany vs.length c.env = (vs, e)) (hs : PollSeen p.fifoWmPolls (fun v => decide (count ≤ v.toNat)) vs)
    (host : List Word) : (fifoDrainBody count host).HangsAt ⟨p, .module m, pos⟩ c := by
  obtain ⟨q, es, hpoll⟩ := Runs.poll_seen (m := m) (place := posLoop) (r := .extfifoWm) (d := p.fifoWmDelayNs) hw hr hs
  rw [fifoDrainBody, if_neg hc.ne']
  refine Runs.hangsAndThen (Runs.regWrite hw _ _) (.withCfg (hpoll.hangsAfter (.map (dmaBurst_hangs ?_))))
  exact (vendorLeft_of_readMany hr).trans hv

theorem extReadBody_hangs {count : Nat} {vs : List Word} {e : Env} (hr : readMany vs.length c.env = (vs, e))
    (hs : if p.extmemWmPolls = 0 then vs = [] else PollSeen p.extmemWmPolls (fun v => v &&& p.extmemWmMask != 0) vs)
    (addr : Word) (host : List Word) : (extReadBody addr count host).HangsAt ⟨p, .module m, pos⟩ c := by
  refine Runs.hangsAndThen (Runs.regWrite hw _ _) (Runs.hangsAndThen (Runs.regWrite hw _ _) (.withCfg ?_))
  by_cases hpolls : p.extmemWmPolls = 0
  · rw [if_neg (by simp [hpolls])]
    exact Runs.hangsIfOk (Runs.pure _) (.map (dmaBurst_hangs hv))
  · rw [if_neg hpolls] at hs
    obtain ⟨q, es, hpoll⟩ := Runs.poll_seen (m := m) (place := posLoop) (r := .dmaStat) (d := p.extmemWmDelayNs) hw hr hs
    rw [if_pos (Nat.pos_of_ne_zero hpolls)]
    exact Runs.hangsIfOk hpoll.map (.map (dmaBurst_hangs ((vendorLeft_of_readMany hr).trans hv)))

omit hv in
theorem withExtMem_hangs {x : Op α} (hx : x.HangsAt ⟨p, .module m, pos⟩ { c with env := (envRead c.env).2 }) :
    (withExtMem x).HangsAt ⟨p, .module m, pos⟩ c := Runs.hangsAndThen (Runs.csrSet hw _) hx.first

end module

/-! ## Operations that hang on a module -/

section exec
variable {i : Instr} {m : Nat} {g : Program} {s : State} {x : Module}

/-- On a mapped module online, with its checks passed, a program hangs where its body does. -/
theorem code_hangs (hchecks : firstFailure g.checks = none) (hw : c.handle.win.isSome = true) (hb : g.body.HangsAt sc c) :
    (g.code false).HangsAt sc c := by
  have hmapped : (mapped g.reads g.buf g.body).HangsAt sc c := by
    refine .after Op.getHandle_apply ?_
    rwa [if_neg (by simp [Option.isSome_iff_ne_none.mp hw])]
  simp only [Program.code, preamble, hchecks, Bool.false_eq_true, if_false]
  split
  · exact hmapped
  · exact hb

/-- So does the operation. -/
theorem exec_hangs (hs : s.Online m x) (hg : programOf s.cfg i = some (m, g)) (ho : OffsetsOk s.cfg i)
    (hf : argFailure s.cfg i = none) (hb : g.body.HangsAt ⟨s.cfg, .module m, startPos g.op⟩ x.ctx) :
    exec i s = .fault .vendorHang := by
  obtain ⟨hx, hp, hoff, hwin⟩ := hs
  obtain ⟨pos, c', t, hres⟩ := code_hangs ((programOf_checks hg).trans hf) hwin hb
  have hres' : g.result s.cfg s.isOffline m x.ctx = .fault .vendorHang pos c' t := by rwa [Program.result, hoff]
  rw [exec_eq_runOn hg ho, runOn_of_idle hx hp, hres']
  rfl

/-- An operation that hangs on a module was admitted there and hung. -/
theorem exec_eq_fault {f : Fault} (hg : programOf s.cfg i = some (m, g)) (hx : s.module? m = some x)
    (h : exec i s = .fault f) : ∃ pos c t, g.result s.cfg s.isOffline m x.ctx = .fault f pos c t := by
  obtain ho | ⟨off, -, -, href⟩ := offsets_cases s.cfg i
  case inr => exact absurd ((href s rfl).symm.trans h) (by simp)
  rw [exec_eq_runOn hg ho] at h
  by_cases hp : x.pos = .idle
  · rw [runOn_of_idle hx hp] at h
    cases hres : g.result s.cfg s.isOffline m x.ctx with
    | fault f' pos c t =>
      rw [hres] at h
      cases h
      exact ⟨pos, c, t, rfl⟩
    | ok r c t => simp [runOp, hres] at h
    | refused r => simp [runOp, hres] at h
  · simp [runOn_of_busy hx hp] at h

/-- A bad offset is no multiple of 4, or not below `WIN_BYTES` (20_memory.md R65). -/
theorem offsetOk_eq_false_iff {p : Params} {off : Nat} : offsetOk p off = false ↔ off % 4 ≠ 0 ∨ winBytes p ≤ off := by
  simp only [offsetOk, Bool.and_eq_false_iff, beq_eq_false_iff_ne, decide_eq_false_iff_not, not_lt]

/-- An operation with a bad offset is refused for one. -/
theorem exec_of_bad_offset (h : ∃ off ∈ offsetsOf s.cfg i, offsetOk s.cfg off = false) :
    ∃ off ∈ offsetsOf s.cfg i, offsetOk s.cfg off = false ∧ exec i s = .refused (.badOffset off) := by
  obtain hok | ⟨off, hmem, hoff, href⟩ := offsets_cases s.cfg i
  · obtain ⟨off, hmem, hoff⟩ := h
    simp [hok off hmem] at hoff
  · exact ⟨off, hmem, hoff, href s rfl⟩

/-- A busy sequencer refuses every operation with admitted offsets. -/
theorem exec_of_busy (hi : i.module? = some m) (ho : OffsetsOk s.cfg i) (hx : s.module? m = some x) (hp : x.pos ≠ .idle) :
    exec i s = .refused .sequencerBusy := by
  obtain ⟨g, hg⟩ := programOf_isSome (p := s.cfg) hi
  rw [exec_eq_runOn hg ho, runOn_of_busy hx hp]

/-- An operation issues no more vendor calls than its module's library returns from. -/
theorem exec_vendor_le {n : Nat} {t : State} (hi : i.module? = some m) (hx : s.module? m = some x)
    (hn : x.env.vendorLeft = some n) (h : exec i s = .next t) : countEvents isVendor t.issued ≤ n := by
  obtain ⟨g, hg⟩ := programOf_isSome (p := s.cfg) hi
  obtain ⟨hnone, -⟩ | ⟨y, hy, -, r, c, u, hres, rfl⟩ := runOn_eq_next ((exec_eq_next_iff hg).mp h).2
  · cases hnone.symm.trans hx
  · cases hy.symm.trans hx
    exact countEvents_le_of_spends (result_spends hg _ hres) hn

/-- SYS_INIT issues no event, or those of discovery. -/
theorem sysInit_issued {slotMap : List Nat} {flag : Bool} {t : State} (h : exec (.sysInit slotMap flag) s = .next t) :
    t.issued = [] ∨ ∃ r c u,
      discover slotMap ⟨s.cfg, .probe 0, startPos .sysInit⟩ ⟨scratchHandle s.disc none none, s.disc⟩ = .ok r c u ∧
        t.issued = shown u := by
  obtain ⟨-, h⟩ := guardRegs_eq_next.mp h
  split at h
  · cases h
    exact .inl rfl
  · split at h
    · cases h
      exact .inl rfl
    · split at h
      · rename_i hd
        cases h
        exact .inr ⟨_, _, _, hd, rfl⟩
      · rename_i hd
        cases h
        exact .inr ⟨_, _, _, hd, rfl⟩
      · cases h
      · cases h

theorem sysInit_vendor_le {slotMap : List Nat} {flag : Bool} {n : Nat} {t : State} (hn : s.disc.vendorLeft = some n)
    (h : exec (.sysInit slotMap flag) s = .next t) : countEvents isVendor t.issued ≤ n := by
  obtain ht | ⟨r, c, u, hd, ht⟩ := sysInit_issued h
  · simp [ht, countEvents]
  · rw [ht]
    exact countEvents_le_of_spends ((Op.Built.discover slotMap).spends.ok _ _ _ _ _ hd) hn

/-- SYS_INIT online hangs in its first vendor call. -/
theorem sysInit_hangs {slotMap : List Nat} (hs : s.system = none) (hlen : slotMap.length ≤ s.cfg.maxModules.val)
    (hdup : slotMap.Nodup) (hw : windowOk s.cfg = true) (hn : 0 < s.cfg.findLimit) (hv : s.disc.vendorLeft = some 0) :
    exec (.sysInit slotMap false) s = .fault .vendorHang := by
  have hchecks : firstFailure (sysInitChecks s slotMap) = none := by
    simp [firstFailure, sysInitChecks, hs, hdup, hlen]
  obtain ⟨pos, c, t, hd⟩ := discover_hangs (sc := ⟨s.cfg, .probe 0, startPos .sysInit⟩)
    (c := ⟨scratchHandle s.disc none none, s.disc⟩) hv hn slotMap
  refine (guardRegs_of_windowOk hw).trans ?_
  simp [hchecks, hd]

/-- A step whose call hangs on a module leaves that module standing at the call that never returns, which no turn moves on. -/
theorem step_of_hang {call : Call} {rest : List Call} (hturns : s.turns = []) (hcalls : s.calls = call :: rest)
    (hr : readCall call = .ok i) (hi : i.module? = some m) (hx : s.module? m = some x)
    (h : exec i { s with calls := rest } = .fault .vendorHang) :
    ∃ pos c t, c.env.vendorLeft = some 0 ∧
      let u := { s with calls := rest }.putModule m (pausedModule i x.ctx pos c t)
      step s = .next u ∧ u.enabled m = false ∧
        ∀ q, step { u with turns := .sequencer m :: q } = .next { u with turns := q } := by
  obtain ⟨g, hg⟩ := programOf_isSome (p := s.cfg) hi
  obtain ⟨pos, c, t, hres⟩ := exec_eq_fault (s := { s with calls := rest }) hg hx h
  have hstays := fun q => hang_stays (s := { s with calls := rest, turns := q }) hg hx hres
  refine ⟨pos, c, shown t, vendorLeft_of_result_hangs hg hres, ?_, (hstays s.turns).1, fun q => ?_⟩
  · rw [step_of_free hturns, freeStep, withCall_of_call hcalls hr]
    have hhang : runWhole i { s with calls := rest } =
        resume i m g x.ctx t.length { s with calls := rest } := by
      have hprog : programOf ({ s with calls := rest } : State).cfg i = some (m, g) := hg
      have hmod : ({ s with calls := rest } : State).module? m = some x := hx
      simp only [runWhole, h, hang, hprog, hmod, hres, Res.steps]
    exact hhang.trans (resume_eq_next.mpr (.inl ⟨pos, c, shown t, by rw [hres]; exact after_of_hang le_rfl, rfl⟩))
  · exact (step_of_turn rfl).trans (hstays q).2

end exec

/-- A count that is not 0 and a buffer that holds it pass their checks. -/
theorem count_and_buffer_pass {count : Nat} {buf : Buf} {f f' : Failure} (hc : 0 < count) (hb : count ≤ bufLen buf) :
    (if count = 0 then some f else if bufLen buf < count then some f' else none) = none := by
  rw [if_neg hc.ne', if_neg hb.not_gt]

/-- Settles O13: the guard of the offsets and the busy sequencer refuse; each operation named reaches a vendor call that never returns;
every vendor event uses up a call that returns (`Op.Built.spends`); and a hang is where its sequencer then stays. -/
theorem stopsByName : Obligations.StopsByName := by
  refine ⟨?_, fun i m s x => exec_of_busy, ?_, fun s slotMap => sysInit_hangs, fun i m n s t x => exec_vendor_le,
    fun slotMap flag n s t => sysInit_vendor_le, ?_⟩
  · intro i s
    simpa only [offsetOk_eq_false_iff] using exec_of_bad_offset (i := i) (s := s)
  · intro s m x hs hw hv
    have ho : ∀ {i : Instr}, i.rawOffset? = none → OffsetsOk s.cfg i := fun hi => offsetsOk_of_windowOk hw (by simp [hi])
    refine ⟨?_, ?_, ?_, ?_, ?_⟩
    · exact exec_hangs hs rfl (ho rfl) rfl (moduleCloseBody_hangs hv hs.2.2.2)
    · intro kind port buf count dir hc hb
      exact exec_hangs hs rfl (ho rfl) (count_and_buffer_pass hc hb) (.first (dmaBurst_hangs hv))
    · intro addr count buf hh hp hc hb hburst
      exact exec_hangs hs rfl (ho rfl) (count_and_buffer_pass (Nat.zero_lt_of_lt hc) hb)
        (.first (dspReadBody_hangs hw hv hp hh hc hburst _ _))
    · intro count buf vs e hc hb hr hseen
      exact exec_hangs hs rfl (ho rfl) (if_neg hb.not_gt) (.first (fifoDrainBody_hangs hw hv hc hr hseen _))
    · intro addr count buf v vs e hc hb hr hseen
      have hread := (readMany_cons hr).2
      exact exec_hangs hs rfl (ho rfl) (count_and_buffer_pass hc hb) (.first (withExtMem_hangs hw
        (extReadBody_hangs hw ((envRead_vendorLeft x.env).trans hv) hread hseen _ _)))
  · intro s call rest i m x hturns hcalls hdec hi hm hx hexec
    obtain ⟨pos, c, t, hv, hstep, hidle, hstays⟩ := step_of_hang hturns hcalls (readCall_of_decode hdec hi) hm hx hexec
    refine ⟨c.handle, pos, c.env, t, _, rfl, hstep, hv, hidle, hstays, fun j hj ho => ?_⟩
    exact exec_of_busy hj ho (putModule_module_self (s := { s with calls := rest }) m _ hx) (by simp)

end Sys2Proof.Machine
end

section
/-! SUPPORT. What every part of an operation may do (`Op.Made`): which fields of the handle it may leave changed, which registers
its rule names for its accesses, and in whose window; and what follows from that for an operation run to its end (10_state.md R21,
R31; 20_memory.md R65; 60_exceptions.md R268, R270). -/

namespace Sys2Proof.Machine

variable {α β : Type}

/-! ## Rights -/

/-- The fields of a module handle (10_state.md R21). -/
inductive Field where
  | dev | win | slot | offline | boot | hbrHeld | dma | ser | lines
  deriving DecidableEq

/-- The handles agree on the field. -/
def Field.Same (q : Field) (h h' : Handle) : Prop :=
  match q with
  | .dev => h'.dev = h.dev
  | .win => h'.win = h.win
  | .slot => h'.slot = h.slot
  | .offline => h'.offline = h.offline
  | .boot => h'.boot = h.boot
  | .hbrHeld => h'.hbrHeld = h.hbrHeld
  | .dma => h'.dma = h.dma
  | .ser => h'.ser = h.ser
  | .lines => h'.lines = h.lines

theorem Field.Same.refl (q : Field) (h : Handle) : q.Same h h := by cases q <;> rfl

theorem Field.Same.trans {q : Field} {h₁ h₂ h₃ : Handle} (h : q.Same h₁ h₂) (h' : q.Same h₂ h₃) : q.Same h₁ h₃ := by
  cases q <;> exact Eq.trans h' h

/-- What a part of an operation may be permitted beyond reading, writing and sleeping: to leave a field of the handle changed (and,
for the channel's field, to run a DMA burst), to write HBR_REQ and HBR_DONE, to drive the window of a probe. -/
inductive Right where
  | write (q : Field)
  | request
  | probe
  deriving DecidableEq

/-- A register the block may write, other than HBR_REQ and HBR_DONE (10_state.md R30). -/
def isPlainReg (r : Reg) : Bool := regWritable r && r != .hbrReq && r != .hbrDone

/-- An event of a DMA channel (42_hbr_dma.md R158, R160). -/
def isChannelEvent : Event → Bool
  | .dmaOpen .. | .dmaXfer .. | .dmaClose .. | .devReset _ => true
  | .rd .. | .wr .. | .sleep _ | .find .. | .openDev .. | .mapBar .. | .unmapBar .. | .closeDev _ => false

/-- A part made of the primitives of 00_scope.md R10, each access to a register in its direction or at a raw offset, that does
beyond that only what the rights `S` permit. A part that takes the host bus request and gives it back needs no right to change
`hbrHeld`. -/
inductive Op.Made : (Right → Prop) → {α : Type} → Op α → Prop where
  | pure {S : Right → Prop} {α : Type} (a : α) : Op.Made S (Op.pure a)
  | bind {S : Right → Prop} {α β : Type} {x : Op α} {f : α → Op β} :
      Op.Made S x → (∀ a, Op.Made S (f a)) → Op.Made S (x.bind f)
  | withCfg {S : Right → Prop} {α : Type} {f : Params → Op α} : (∀ p, Op.Made S (f p)) → Op.Made S (Op.withCfg f)
  | placed {S : Right → Prop} {α : Type} {g : Place → Place} {x : Op α} : Op.Made S x → Op.Made S (x.placed g)
  | getHandle {S : Right → Prop} : Op.Made S Op.getHandle
  | setHandle {S : Right → Prop} {f : Handle → Handle} :
      (∀ q, ¬ S (.write q) → ∀ h, q.Same h (f h)) → Op.Made S (Op.setHandle f)
  | regRead {S : Right → Prop} {r : Reg} : regReadable r = true → Op.Made S (regRead r)
  | regWrite {S : Right → Prop} {r : Reg} {v : Word} :
      regWritable r = true → (r = .hbrReq ∨ r = .hbrDone → S .request) → Op.Made S (regWrite r v)
  | rawRead {S : Right → Prop} (off : Nat) : Op.Made S (memRead none off)
  | rawWrite {S : Right → Prop} (off : Nat) (v : Word) : Op.Made S (memWrite none off v)
  | sleep {S : Right → Prop} (ns : Nat) : Op.Made S (sleep ns)
  | vendorCall {S : Right → Prop} {α : Type} {answer : Env → α × Env} {event : Handle → α → Event} :
      (∀ e, (answer e).2.id = e.id) → (∀ h a, isVendor (event h a) = true) →
      (∀ h a, isChannelEvent (event h a) = true → S (.write .dma)) → Op.Made S (vendorCall answer event)
  | draw {S : Right → Prop} {α : Type} {f : Env → α × Env} : (∀ e, (f e).2.id = e.id) →
      Op.Made S fun _ c => .ok (f c.env).1 { c with env := (f c.env).2 } []
  | fault {S : Right → Prop} {α : Type} (f : Fault) : Op.Made S (Op.fault f : Op α)
  | refuse {S : Right → Prop} {α : Type} (r : Refusal) : Op.Made S (Op.refuse r : Op α)
  | released {S : Right → Prop} {α : Type} {x : Op α} : Op.Made (fun r => S r ∨ r = .write .hbrHeld) x →
      (∀ sc c a c' t, x sc c = .ok a c' t → c'.handle.hbrHeld = c.handle.hbrHeld) → Op.Made S x
  | onProbe {S : Right → Prop} {α : Type} {j : Nat} {h : DevHandle} {va : VAddr} {x : Op α} :
      S .probe → Op.Made S x → Op.Made S (onProbe j h va x)

/-- Further rights permit no less. -/
theorem Op.Made.mono {S S' : Right → Prop} {x : Op α} (hx : x.Made S) (h : ∀ r, S r → S' r) : x.Made S' := by
  induction hx generalizing S' with
  | pure a => exact .pure a
  | bind _ _ hx hf => exact .bind (hx h) fun a => hf a h
  | withCfg _ hf => exact .withCfg fun p => hf p h
  | placed _ hx => exact .placed (hx h)
  | getHandle => exact .getHandle
  | setHandle hf => exact .setHandle fun q hq => hf q fun hs => hq (h _ hs)
  | regRead hr => exact .regRead hr
  | regWrite hr hq => exact .regWrite hr fun hreg => h _ (hq hreg)
  | rawRead off => exact .rawRead off
  | rawWrite off v => exact .rawWrite off v
  | sleep ns => exact .sleep ns
  | vendorCall ha hv hd => exact .vendorCall ha hv fun k a hc => h _ (hd k a hc)
  | draw hf => exact .draw hf
  | fault f => exact .fault f
  | refuse r => exact .refuse r
  | released _ hheld hx => exact .released (hx fun r hr => hr.imp_left (h r)) hheld
  | onProbe hp _ hx => exact .onProbe (h _ hp) (hx h)

/-! ## How a part ends -/

/-- Whenever the part ends well, `Q` holds of its value and of the context it ends in. -/
def Op.Ends (Q : α → Ctx → Prop) (x : Op α) : Prop := ∀ sc c a c' t, x sc c = .ok a c' t → Q a c'

theorem Op.Ends.bind {Q : β → Ctx → Prop} {x : Op α} {f : α → Op β} (hf : ∀ a, (f a).Ends Q) : (x.bind f).Ends Q := by
  intro sc c b c' t h
  obtain ⟨a, c₁, t₁, t₂, -, h₂, -⟩ := Op.bind_eq_ok.mp h
  exact hf a sc c₁ b c' t₂ h₂

theorem Op.Ends.andThen {Q : β → Ctx → Prop} {x : Op Unit} {y : Op β} (hy : y.Ends Q) : (x.andThen y).Ends Q :=
  .bind fun _ => hy

theorem Op.Ends.map {Q : β → Ctx → Prop} {f : α → β} {x : Op α} (hx : x.Ends fun a c => Q (f a) c) : (x.map f).Ends Q := by
  intro sc c b c' t h
  obtain ⟨a, ha, rfl⟩ := Op.map_eq_ok.mp h
  exact hx sc c a c' t ha

theorem Op.Ends.withCfg {Q : α → Ctx → Prop} {f : Params → Op α} (hf : ∀ p, (f p).Ends Q) : (Op.withCfg f).Ends Q :=
  fun sc => hf sc.cfg sc

/-! ## The host bus request is given back (42_hbr_dma.md R150, R151) -/

theorem setHbr_ends (held : Bool) : (setHbr held).Ends fun _ c => c.handle.hbrHeld = held := by
  rintro sc c u c' t ⟨⟩
  rfl

/-- After a done no request is held. -/
theorem hbrDone_ends : hbrDone.Ends fun _ c => c.handle.hbrHeld = false := by
  refine Op.Ends.bind fun h => ?_
  split
  · exact Op.Ends.andThen (setHbr_ends false)
  · rintro sc c u c' t ⟨⟩

/-- A grant poll that fails has released the request. -/
theorem hbrGrantPoll_ends : hbrGrantPoll.Ends fun r c => isOk r = false → c.handle.hbrHeld = false := by
  refine Op.Ends.withCfg fun p => ?_
  split
  · refine Op.Ends.bind fun r => ?_
    cases r with
    | some v =>
      rintro sc c r c' t ⟨⟩ hr
      cases hr
    | none => exact Op.Ends.map fun sc c u c' t h _ => hbrDone_ends sc c u c' t h
  · rintro sc c r c' t ⟨⟩ hr
    cases hr

/-- A request that fails has been released. -/
theorem hbrRequest_ends : hbrRequest.Ends fun r c => isOk r = false → c.handle.hbrHeld = false := by
  refine Op.Ends.bind fun h => ?_
  split
  · rintro sc c r c' t ⟨⟩
  · exact Op.Ends.andThen (Op.Ends.andThen hbrGrantPoll_ends)

/-- A request is made while none is held. -/
theorem hbrHeld_of_hbrRequest_ok {sc : Scope} {c c' : Ctx} {r : Except Failure Unit} {t : List Stage}
    (h : hbrRequest sc c = .ok r c' t) : c.handle.hbrHeld = false := by
  obtain ⟨hd, c₁, t₁, t₂, h₁, h₂, -⟩ := Op.bind_eq_ok.mp h
  cases h₁
  split at h₂
  · cases h₂
  · rename_i hheld
    simpa using hheld

/-- Work under a request starts and ends with none held. -/
theorem hbrHeld_of_withHbr_ok {x : Op α} {sc : Scope} {c c' : Ctx} {r : Except Failure α} {t : List Stage}
    (h : withHbr x sc c = .ok r c' t) : c'.handle.hbrHeld = c.handle.hbrHeld := by
  obtain ⟨e, h₁, -⟩ | ⟨u, c₁, t₁, t₂, h₁, h₂, -⟩ := Op.ifOk_eq_ok.mp h
  · rw [hbrHeld_of_hbrRequest_ok h₁, hbrRequest_ends _ _ _ _ _ h₁ rfl]
  · have hends : (x.bind fun a => hbrDone.map fun _ => (.ok a : Except Failure α)).Ends fun _ c => c.handle.hbrHeld = false :=
      Op.Ends.bind fun _ => Op.Ends.map hbrDone_ends
    rw [hbrHeld_of_hbrRequest_ok h₁, hends _ _ _ _ _ h₂]

/-! ## What the parts of an operation are permitted -/

theorem envFind_id (e : Env) : (envFind e).2.id = e.id := by
  apply envNext_id
  intros
  rfl
theorem envOpen_id (e : Env) : (envOpen e).2.id = e.id := by
  apply envNext_id
  intros
  rfl
theorem envMap_id (e : Env) : (envMap e).2.id = e.id := by
  apply envNext_id
  intros
  rfl
theorem envDmaOpen_id (e : Env) : (envDmaOpen e).2.id = e.id := by
  apply envNext_id
  intros
  rfl
theorem envXfer_id (e : Env) : (envXfer e).2.id = e.id := by
  apply envNext_id
  intros
  rfl
theorem envClose_id (e : Env) : (envClose e).2.id = e.id := by
  apply envNext_id
  intros
  rfl

namespace Op.Made

variable {S : Right → Prop}

theorem map {f : α → β} {x : Op α} (hx : x.Made S) : (x.map f).Made S := .bind hx fun _ => .pure _

theorem andThen {x : Op Unit} {y : Op β} (hx : x.Made S) (hy : y.Made S) : (x.andThen y).Made S := .bind hx fun _ => hy

theorem ifOk {x : Op (Except Failure α)} {f : α → Op (Except Failure β)} (hx : x.Made S) (hf : ∀ a, (f a).Made S) :
    (x.ifOk f).Made S :=
  .bind hx fun r =>
    match r with
    | .ok a => hf a
    | .error _ => .pure _

theorem ite {P : Prop} [Decidable P] {x y : Op α} (hx : x.Made S) (hy : y.Made S) : (if P then x else y).Made S := by
  split <;> assumption

theorem inLoop {k : Nat} {x : Op α} (hx : x.Made S) : (x.inLoop k).Made S := .placed hx

theorem inPhase {ph : Phase} {x : Op α} (hx : x.Made S) : (Op.inPhase ph x).Made S := .placed hx

theorem each {f : Nat → α → Op Unit} (hf : ∀ i a, (f i a).Made S) (l : List α) (i : Nat) : (Op.each f i l).Made S := by
  induction l generalizing i with
  | nil => exact .pure _
  | cons a l ih => exact .andThen (hf i a) (ih (i + 1))

theorem times {f : Nat → Op β} (hf : ∀ i, (f i).Made S) (i n : Nat) : (Op.times f i n).Made S := by
  induction n generalizing i with
  | zero => exact .pure _
  | succ n ih => exact .bind (hf i) fun _ => .map (ih (i + 1))

theorem eachOk {f : Nat → α → Op (Except Failure β)} (hf : ∀ i a, (f i a).Made S) (l : List α) (i : Nat) :
    (Op.eachOk f i l).Made S := by
  induction l generalizing i with
  | nil => exact .pure _
  | cons a l ih => exact .ifOk (hf i a) fun _ => .ifOk (ih (i + 1)) fun _ => .pure _

/-- A write of one field of the handle. -/
theorem write {q₀ : Field} {f : Handle → Handle} (hS : S (.write q₀)) (hf : ∀ q ≠ q₀, ∀ h, q.Same h (f h)) :
    (Op.setHandle f).Made S :=
  .setHandle fun q hq => hf q fun h => hq (h ▸ hS)

/-! ## The shared operations -/

theorem sleepIfPositive (ns : Nat) : (sleepIfPositive ns).Made S := .ite (.sleep ns) (.pure _)

theorem pollUntil (place : Nat → Place → Place) {r : Reg} (hr : regReadable r = true) (pred : Word → Bool) (n d : Nat) :
    (pollUntil place r pred n d).Made S := by
  suffices h : ∀ n i, (pollFrom place r pred d i n).Made S from h n 1
  intro n
  induction n with
  | zero => exact fun _ => .pure _
  | succ n ih =>
    exact fun i => .bind (.placed (.regRead hr)) fun _ =>
      .ite (.pure _) (.andThen (.placed (.sleepIfPositive d)) (ih (i + 1)))

theorem plainWrite {r : Reg} {v : Word} (hr : isPlainReg r = true) : (Machine.regWrite r v).Made S := by
  simp only [isPlainReg, Bool.and_eq_true, bne_iff_ne] at hr
  obtain ⟨⟨hw, h₁⟩, h₂⟩ := hr
  exact .regWrite hw fun h => absurd h (not_or.mpr ⟨h₁, h₂⟩)

theorem csrModify (set clr : Word) : (csrModify set clr).Made S := .bind (.regRead rfl) fun _ => .plainWrite rfl

theorem csrSet (f : CsrMap → Fin 32) : (csrSet f).Made S := .withCfg fun _ => .csrModify _ _

theorem csrClear (f : CsrMap → Fin 32) : (csrClear f).Made S := .withCfg fun _ => .csrModify _ _

theorem spoil (n : Nat) (b : Buf) : (spoil n b).Made S := by
  cases b with
  | none => exact .pure none
  | some ws =>
    exact .draw (f := fun e => (some ((envFreeWords (min n ws.length) e).1 ++ ws.drop (min n ws.length)),
      (envFreeWords (min n ws.length) e).2)) fun _ => rfl

theorem failWith (f : Failure) (n : Nat) (b : Buf) : (failWith f n b).Made S := .map (.spoil n b)

theorem replyWords (n : Nat) (b : Buf) (r : Except Failure (List Word)) : (replyWords n b r).Made S :=
  match r with
  | .ok _ => .pure _
  | .error f => .failWith f n b

theorem writeAll {r : Reg} (hr : isPlainReg r = true) (ws : List Word) : (writeAll r ws).Made S :=
  .each (fun _ _ => .inLoop (.plainWrite hr)) ws 0

theorem resited {site : Site} {x : Op (Except Failure α)} (hx : x.Made S) : (resited site x).Made S := .map hx

/-! ## Host bus request -/

section request
variable (hq : S .request)
include hq

theorem hbrDone (hh : S (.write .hbrHeld)) : hbrDone.Made S :=
  .bind .getHandle fun _ => .ite
    (.andThen (.withCfg fun _ => .regWrite rfl fun _ => hq) (.write hh fun q hne h => by cases q <;> trivial)) (.fault _)

theorem hbrGrantPoll (hh : S (.write .hbrHeld)) : hbrGrantPoll.Made S :=
  .withCfg fun _ => .ite
    (.bind (.pollUntil _ rfl _ _ _) fun r =>
      match r with
      | some _ => .pure _
      | none => .andThen (.hbrDone hq hh) (.pure _))
    (.pure _)

theorem hbrRequest (hh : S (.write .hbrHeld)) : hbrRequest.Made S :=
  .bind .getHandle fun _ => .ite (.fault _) <|
    .andThen (.withCfg fun _ => .regWrite rfl fun _ => hq) <|
      .andThen (.write hh fun q hne h => by cases q <;> trivial) (.hbrGrantPoll hq hh)

/-- Work under a request needs no right to change `hbrHeld`: the request is given back. -/
theorem withHbr {x : Op α} (hx : x.Made S) : (withHbr x).Made S :=
  have hq' : S .request ∨ Right.request = .write .hbrHeld := .inl hq
  .released
    (.ifOk (.hbrRequest hq' (.inr rfl)) fun _ => .bind (hx.mono fun _ => .inl) fun _ => .map (.hbrDone hq' (.inr rfl)))
    fun _ _ _ _ _ => hbrHeld_of_withHbr_ok

end request

/-! ## Bursts -/

section burst
variable (hd : S (.write .dma))
include hd

theorem setDma (ch : Option Channel) : (setDma ch).Made S := .write hd fun q hne h => by cases q <;> trivial

omit hd in
theorem dmaPrime (kind : Kind) (count : Nat) : (dmaPrime kind count).Made S :=
  match kind with
  | .dsp => .andThen (.plainWrite rfl) (.withCfg fun _ => .map (.pollUntil _ rfl _ _ _))
  | .ext | .fifo => .pure _

omit hd in
theorem deliver (n : Nat) (data : List Word) : (deliver n data).Made S :=
  .draw (f := fun e => (data.take n ++ (envFreeWords (n - data.length) e).1, (envFreeWords (n - data.length) e).2)) fun _ => rfl

theorem dmaTransfer (ch : Channel) (port : Reg) (host : List Word) (count : Nat) (dir : Dir) :
    (dmaTransfer ch port host count dir).Made S := by
  refine .withCfg fun p => .ite
    (.bind (.vendorCall envXfer_id (fun _ _ => rfl) fun _ _ _ => hd) fun a => ?_) (.refuse _)
  cases a.result with
  | ok =>
    cases dir with
    | toHost => exact .map (.deliver _ _)
    | toModule => exact .pure _
  | timeout => exact .pure _
  | vendorError => exact .pure _

theorem dmaCloseCall (ch : Channel) : (dmaCloseCall ch).Made S :=
  .vendorCall envClose_id (fun _ _ => rfl) fun _ _ _ => hd

theorem closeRetry (ch : Channel) : (closeRetry ch).Made S :=
  .andThen (.vendorCall (fun _ => rfl) (fun _ _ => rfl) fun _ _ _ => hd) <|
    .bind (.dmaCloseCall hd ch) fun _ => .map (.setDma hd none)

theorem closeChannel (ch : Channel) : (closeChannel ch).Made S :=
  .bind (.dmaCloseCall hd ch) fun r =>
    match r with
    | .ok => .map (.setDma hd none)
    | .inProgress | .error => .closeRetry hd ch

theorem dmaBurst (kind : Kind) (port : Reg) (host : List Word) (count : Nat) (dir : Dir) :
    (dmaBurst kind port host count dir).Made S :=
  .withCfg fun _ => .bind (.vendorCall envDmaOpen_id (fun _ _ => rfl) fun _ _ _ => hd) fun o =>
    match o with
    | none => .pure _
    | some ch => .andThen (.setDma hd _) <|
        .bind (.ifOk (.dmaPrime kind count) fun _ => .dmaTransfer hd ch port host count dir) fun _ => .map (.closeChannel hd ch)

end burst

/-! ## Processor memory, FIFO, external memory -/

theorem dspReadOne (hq : S .request) (a : Word) : (dspReadOne a).Made S :=
  .withHbr hq (.andThen (.plainWrite rfl) (.regRead rfl))

section processor
variable (hq : S .request) (hd : S (.write .dma))
include hq hd

theorem blockRead (a : Word) (host : List Word) (w : Nat) : (blockRead a host w).Made S :=
  .map (.withHbr hq (.andThen (.csrClear _) (.andThen (.plainWrite rfl) (.dmaBurst hd _ _ _ _ _))))

omit hd in
theorem singleRead (a : Word) (r : Nat) : (singleRead a r).Made S := by
  refine .withCfg fun p => ?_
  cases p.remainderMode with
  | autoinc =>
    exact .withHbr hq <| .andThen (.csrClear _) <|
      .andThen (.plainWrite rfl) (.times (fun _ => .inLoop (.regRead rfl)) 0 r)
  | perword => exact .eachOk (fun _ _ => .inLoop (.dspReadOne hq _)) _ 0

theorem dspReadBody (a : Word) (count : Nat) (host : List Word) : (dspReadBody a count host).Made S :=
  .withCfg fun _ => .ite (.ifOk (.dspReadOne hq a) fun _ => .pure _) <|
    .ifOk (.eachOk (fun _ _ => .resited (.inLoop (.blockRead hq hd _ _ _))) _ 0) fun _ =>
      .ifOk (.ite (.resited (.ite (.singleRead hq _ _) (.blockRead hq hd _ _ _))) (.pure _)) fun _ => .pure _

end processor

theorem fifoDrainBody (hd : S (.write .dma)) (count : Nat) (host : List Word) : (fifoDrainBody count host).Made S :=
  .ite (.pure _) <| .andThen (.plainWrite rfl) <| .withCfg fun _ => .bind (.pollUntil _ rfl _ _ _) fun r =>
    match r with
    | none => .pure _
    | some _ => .resited (.dmaBurst hd _ _ _ _ _)

theorem withExtMem {x : Op α} (hx : x.Made S) : (withExtMem x).Made S :=
  .andThen (.csrSet _) (.bind hx fun _ => .map (.csrClear _))

theorem extReadBody (hd : S (.write .dma)) (a : Word) (count : Nat) (host : List Word) : (extReadBody a count host).Made S :=
  .andThen (.plainWrite rfl) <| .andThen (.plainWrite rfl) <| .withCfg fun _ =>
    .ifOk (.ite (.map (.pollUntil _ rfl _ _ _)) (.pure _)) fun _ => .resited (.dmaBurst hd _ _ _ _ _)

theorem extClearBody (a : Word) (count : Nat) : (extClearBody a count).Made S :=
  .andThen (.plainWrite rfl) <| .andThen (.plainWrite rfl) <| .withCfg fun _ =>
    .map (.pollUntil _ rfl _ _ _)

/-! ## Boot -/

theorem fpgaAttempt (t : Target) (image : List Word) (a : Nat) : (fpgaAttempt t image a).Made S :=
  .andThen (.inPhase <| .withCfg fun _ =>
      .andThen (.plainWrite rfl) (.andThen (.sleepIfPositive _) (.plainWrite rfl))) <|
    .bind (.withCfg fun _ => .map (.pollUntil _ rfl _ _ _)) fun _ => .ite
      (.andThen
        (.withCfg fun _ => .each (fun _ _ => .inPhase (.andThen (.plainWrite rfl) (.sleep _))) image 0)
        (.inPhase <| .withCfg fun _ => .map (.regRead rfl)))
      (.pure _)

theorem fpgaBoot (t : Target) (image : List Word) (site : Site) : (fpgaBoot t image site).Made S := by
  suffices h : ∀ n a, (fpgaAttempts t image site a n).Made S from .withCfg fun _ => h _ _
  intro n
  induction n with
  | zero => exact fun _ => .pure _
  | succ n ih => exact fun a => .bind (.fpgaAttempt t image a) fun _ => .ite (.pure _) (ih (a + 1))

theorem clockDomainReset : clockDomainReset.Made S :=
  .withCfg fun _ => .andThen (.plainWrite rfl) (.andThen (.sleepIfPositive _) (.plainWrite rfl))

section dspBoot
variable (hq : S .request)
include hq

theorem hbrWriteGroup (a : Word) (ws : List Word) : (hbrWriteGroup a ws).Made S :=
  .withHbr hq (.andThen (.plainWrite rfl) (.writeAll rfl _))

theorem kernelDownload (a : Nat) (w : List Word) : (kernelDownload a w).Made S :=
  .withCfg fun _ => .eachOk (fun _ _ => .inPhase (.hbrWriteGroup hq _ _)) _ 0

theorem tagStream (fuel : Nat) (ws : List Word) : (tagStream fuel ws).Made S := by
  induction fuel generalizing ws with
  | zero => rcases ws with _ | ⟨_, _ | ⟨_, _ | ⟨_, _⟩⟩⟩ <;> exact .pure _
  | succ fuel ih =>
    match ws with
    | [] | [_] | [_, _] => exact .pure _
    | tag :: count :: addr :: more =>
      refine .withCfg fun p => .ite (.pure _) ?_
      cases tagInfo p tag with
      | none => exact .pure _
      | some t =>
        refine .ite (.pure _) (.ifOk (.eachOk (fun _ _ => .inLoop (.hbrWriteGroup hq _ _)) _ 0) fun _ => ?_)
        cases t.kind with
        | final => exact .pure _
        | zero => exact ih _
        | init => exact ih _

theorem cfgVerify (a j : Nat) (c : CfgPair) (k n : Nat) : (cfgVerify a j c k n).Made S := by
  induction n generalizing k with
  | zero => exact .pure _
  | succ n ih =>
    refine .ifOk (.inPhase <| .withCfg fun p => .ifOk ?_ fun _ => .dspReadOne hq _) fun _ => .ite (.pure _) (ih (k + 1))
    cases p.cfgVerifyMode with
    | writeRead => exact .hbrWriteGroup hq _ _
    | readOnly => exact .pure _

theorem pollPudone (a k n : Nat) : (pollPudone a k n).Made S := by
  induction n generalizing k with
  | zero => exact .pure _
  | succ n ih =>
    exact .withCfg fun _ => .ifOk (.inPhase (.dspReadOne hq _)) fun _ =>
      .ite (.pure _) (.andThen (.inPhase (.sleep _)) (ih (k + 1)))

theorem dspAttempt (w : List Word) (a : Nat) : (dspAttempt w a).Made S :=
  .withCfg fun _ => .andThen (.inPhase (.andThen (.csrModify _ _) (.sleep _))) <|
    .andThen (.inPhase (.csrClear _)) <|
    .ifOk (.eachOk (fun _ _ => .cfgVerify hq _ _ _ _ _) _ 0) fun _ => .ifOk (.kernelDownload hq a w) fun _ =>
    .ifOk (.inPhase (.tagStream hq _ _)) fun _ => .andThen (.inPhase (.csrClear _)) (.pollPudone hq a 1 _)

theorem dspBootFrom (w : List Word) (a more : Nat) : (dspBootFrom w a more).Made S := by
  induction more generalizing a with
  | zero => exact .dspAttempt hq w a
  | succ more ih =>
    exact .bind (.dspAttempt hq w a) fun r =>
      match r with
      | .ok _ => .pure _
      | .error _ => .ite (.pure _) (ih (a + 1))

end dspBoot

section boot
variable (hb : S (.write .boot))
include hb

theorem setBoot (f : Boot → Boot) : (setBoot f).Made S := .write hb fun q hne h => by cases q <;> trivial

theorem bootCommBody (image : List Word) : (bootCommBody image).Made S :=
  .andThen (.setBoot hb _) (.bind (.fpgaBoot _ _ _) fun _ => .map (.setBoot hb _))

theorem bootSpBody (image : List Word) : (bootSpBody image).Made S :=
  .andThen (.setBoot hb _) <| .ifOk (.fpgaBoot _ _ _) fun _ => .ifOk (.fpgaBoot _ _ _) fun _ =>
    .andThen .clockDomainReset (.map (.setBoot hb _))

theorem bootDspBody (hq : S .request) (w : List Word) : (bootDspBody w).Made S :=
  .andThen (.setBoot hb _) <| .withCfg fun _ => .bind (.dspBootFrom hq w 1 _) fun r =>
    match r with
    | .ok _ => .map (.setBoot hb _)
    | .error _ => .pure _

theorem bootModuleBody (hq : S .request) (images : Images) (pattern : Word) : (bootModuleBody images pattern).Made S :=
  .andThen (.setBoot hb _) <| .ifOk (.ite (.bootCommBody hb _) (.pure _)) fun _ =>
    .ifOk (.ite (.bootSpBody hb _) (.pure _)) fun _ => .ifOk (.ite (.bootDspBody hb hq _) (.pure _)) fun _ =>
    .map (.setBoot hb _)

end boot

/-! ## Serial lines -/

section serial
variable (hs : S (.write .ser)) (hl : S (.write .lines))

include hs in
theorem writeSer (f : Handle → Option SerRec) : (Op.setHandle fun h => { h with ser := f h }).Made S :=
  .write hs fun q hne h => by cases q <;> trivial

include hs in
theorem setSer (f : SerRec → SerRec) : (setSer f).Made S := .writeSer hs fun h => h.ser.map f

theorem settle : settle.Made S := .withCfg fun _ => .sleep _

theorem sample : sample.Made S := .bind (.regRead rfl) fun _ => .andThen .settle (.withCfg fun _ => .pure _)

include hl

theorem drive (l : Lines) : (drive l).Made S :=
  .andThen (.withCfg fun _ => .plainWrite rfl) <|
    .andThen (.write hl fun q hne h => by cases q <;> trivial) .settle

theorem serStart : serStart.Made S := .inPhase (.andThen (.drive hl _) (.drive hl _))

theorem serStop : serStop.Made S := .inPhase (.andThen (.drive hl _) (.andThen (.drive hl _) (.drive hl _)))

theorem serAckSend : serAckSend.Made S :=
  .inPhase <| .withCfg fun _ => .andThen (.drive hl _) (.andThen (.drive hl _) (.drive hl _))

include hs

theorem sendBitAt (b : Byte) (i : Nat) : (sendBitAt b i).Made S :=
  .inPhase <| .andThen (.setSer hs _) <|
    .andThen (.bind .getHandle fun _ => .drive hl _) (.andThen (.drive hl _) (.drive hl _))

theorem recvBitAt (i : Nat) : (recvBitAt i).Made S :=
  .inPhase <| .andThen (.setSer hs _) <|
    .bind (.andThen (.drive hl _) (.bind .sample fun _ => .map (.drive hl _))) fun _ => .setSer hs _

theorem serAckWait : serAckWait.Made S :=
  .inPhase <| .andThen (.drive hl _) <| .bind .sample fun _ => .andThen (.drive hl _) (.setSer hs _)

omit hl in
theorem endSer (f : SerRec → α) (d : α) : (endSer f d).Made S := .bind .getHandle fun _ => .map (.writeSer hs _)

theorem serWriteBody (b : Byte) : (serWriteBody b).Made S :=
  .andThen (.writeSer hs _) <| .andThen (.serStart hl) <| .andThen (.each (fun _ _ => .sendBitAt hs hl _ _) _ 0) <|
    .andThen (.inPhase (.drive hl _)) <| .andThen (.serAckWait hs hl) <| .andThen (.serStop hl) (.endSer hs _ _)

theorem serReadBody : serReadBody.Made S :=
  .andThen (.writeSer hs _) <| .andThen (.serStart hl) <| .andThen (.each (fun _ _ => .recvBitAt hs hl _) _ 0) <|
    .andThen (.serAckSend hl) <| .andThen (.serStop hl) (.endSer hs _ _)

theorem serReadSeqBody (lead : List Byte) (n : Nat) : (serReadSeqBody lead n).Made S :=
  .ifOk (.eachOk (fun _ _ => .map (.inLoop (.serWriteBody hs hl _))) lead 0) fun _ =>
    .map (.times (fun _ => .inLoop (.serReadBody hs hl)) 0 n)

end serial

/-! ## Discovery and close -/

/-- A vendor call of discovery or close. -/
theorem discoveryCall {answer : Env → α × Env} {event : Handle → α → Event} (ha : ∀ e, (answer e).2.id = e.id)
    (hv : ∀ h a, isVendor (event h a) = true) (hd : ∀ h a, isChannelEvent (event h a) = false) :
    (Machine.vendorCall answer event).Made S :=
  .vendorCall ha hv fun h a hc => absurd hc (by simp [hd])

theorem unmapCall (h : Option DevHandle) (va : VAddr) : (unmapCall h va).Made S :=
  .discoveryCall (fun _ => rfl) (fun _ _ => rfl) fun _ _ => rfl

theorem closeCall (h : Option DevHandle) : (closeCall h).Made S :=
  .discoveryCall (fun _ => rfl) (fun _ _ => rfl) fun _ _ => rfl

theorem moduleCloseBody (hv : S (.write .dev)) (hw : S (.write .win)) : moduleCloseBody.Made S := by
  refine .bind .getHandle fun h => ?_
  cases h.win with
  | none => exact .pure _
  | some va =>
    refine .andThen (.unmapCall _ _) (.andThen (.closeCall _) (.map (.setHandle fun q hq h => ?_)))
    cases q with
    | dev => exact absurd hv hq
    | win => exact absurd hw hq
    | _ => rfl

theorem findFrom (k n : Nat) (keys : List DevKey) : (findFrom k n keys).Made S := by
  induction n generalizing k keys with
  | zero => exact .pure _
  | succ n ih =>
    exact .bind (.inLoop <| .withCfg fun _ =>
        .discoveryCall envFind_id (fun _ _ => rfl) fun _ _ => rfl) fun r =>
      match r with
      | none => .pure _
      | some _ => .withCfg fun _ => ih (k + 1) _

theorem openDevice (key : DevKey) : (openDevice key).Made S :=
  .bind (.discoveryCall envOpen_id (fun _ _ => rfl) fun _ _ => rfl) fun o =>
    match o with
    | none => .pure _
    | some _ => .bind (.withCfg fun _ =>
        .discoveryCall envMap_id (fun _ _ => rfl) fun _ _ => rfl) fun v =>
      match v with
      | none => .map (.closeCall _)
      | some _ => .pure _

theorem releaseDevice (d : DevHandle × VAddr) : (releaseDevice d).Made S := .andThen (.unmapCall _ _) (.closeCall _)

theorem unwind (held : List (DevHandle × VAddr)) : (unwind held).Made S := by
  induction held with
  | nil => exact .pure _
  | cons d held ih => exact .andThen (.releaseDevice d) ih

theorem openModules (keys : List DevKey) (held : List (DevHandle × VAddr)) : (openModules held keys).Made S := by
  induction keys generalizing held with
  | nil => exact .pure _
  | cons key keys ih =>
    exact .bind (.inLoop (.openDevice key)) fun r =>
      match r with
      | .ok d => ih (d :: held)
      | .error _ => .map (.unwind held)

section probe
variable (hp : S .probe) (hs : S (.write .ser)) (hl : S (.write .lines))
include hp hs hl

theorem probeOne (j : Nat) (key : DevKey) : (probeOne j key).Made S :=
  .inLoop <| .ifOk (.openDevice key) fun _ => .withCfg fun _ =>
    .bind (.onProbe hp (.serReadSeqBody hs hl _ _)) fun _ => .map (.releaseDevice _)

theorem discover (slotMap : List Nat) : (discover slotMap).Made S := by
  refine .ifOk (.withCfg fun _ => .map (.findFrom 0 _ [])) fun found =>
    .ifOk (.eachOk (.probeOne hp hs hl) found 0) fun probed => ?_
  cases matchSlots probed slotMap with
  | none => exact .pure _
  | some keys => exact .openModules keys []

end probe

end Op.Made

/-! ## Every operation -/

/-- The rights of an operation: the fields of the handle its rule writes, and what it does beyond reading and writing registers. -/
def rights : Mnemonic → List Right
  | .serWriteByte | .serReadByte | .serReadSeq => [.write .ser, .write .lines]
  | .hbrRequest | .hbrDone => [.write .hbrHeld, .request]
  | .dspMemWrite => [.request]
  | .dspMemRead => [.request, .write .dma]
  | .dmaBurst | .fifoDrain | .extMemRead => [.write .dma]
  | .bootCommFpga | .bootSpFpga => [.write .boot]
  | .bootDsp | .bootModule => [.write .boot, .request]
  | .sysInit => [.write .ser, .write .lines, .probe]
  | .moduleClose => [.write .dev, .write .win]
  | .regRead | .regWrite | .csrRead | .csrWrite | .csrSetBits | .csrClearBits | .idDecode | .fifoReadWm | .extMemWrite
  | .extMemClear => []

/-- The body of every operation's program keeps within the operation's rights. -/
theorem body_made {p : Params} {i : Instr} {m : Nat} {g : Program} (h : programOf p i = some (m, g)) :
    g.body.Made (· ∈ rights i.mnemonic) := by
  cases i <;> cases h <;> dsimp only [Instr.mnemonic]
  case regRead => exact .map (.rawRead _)
  case regWrite => exact .map (.rawWrite _ _)
  case csrRead => exact .map (.regRead rfl)
  case csrWrite => exact .map (.plainWrite rfl)
  case csrSetBits => exact .map (.csrModify _ _)
  case csrClearBits => exact .map (.csrModify _ _)
  case serWriteByte => exact .map (.serWriteBody (by decide) (by decide) _)
  case serReadByte => exact .map (.serReadBody (by decide) (by decide))
  case serReadSeq => exact .map (.serReadSeqBody (by decide) (by decide) _ _)
  case hbrRequest => exact .map (.hbrRequest (by decide) (by decide))
  case hbrDone => exact .map (.hbrDone (by decide) (by decide))
  case dspMemWrite =>
    exact .map <| .withHbr (by decide) <|
      .andThen (.csrClear _) (.andThen (.plainWrite rfl) (.writeAll rfl _))
  case dspMemRead => exact .bind (.dspReadBody (by decide) (by decide) _ _ _) fun _ => .replyWords _ _ _
  case dmaBurst => exact .bind (.dmaBurst (by decide) _ _ _ _ _) fun _ => .replyWords _ _ _
  case fifoReadWm => exact .map (.regRead rfl)
  case fifoDrain => exact .bind (.fifoDrainBody (by decide) _ _) fun _ => .replyWords _ _ _
  case extMemWrite =>
    exact .map (.withExtMem (.andThen (.plainWrite rfl) (.writeAll rfl _)))
  case extMemRead => exact .bind (.withExtMem (.extReadBody (by decide) _ _ _)) fun _ => .replyWords _ _ _
  case extMemClear => exact .map (.withExtMem (.extClearBody _ _))
  case bootCommFpga => exact .map (.bootCommBody (by decide) _)
  case bootSpFpga => exact .map (.bootSpBody (by decide) _)
  case bootDsp => exact .map (.bootDspBody (by decide) (by decide) _)
  case bootModule => exact .map (.bootModuleBody (by decide) (by decide) _ _)
  case moduleClose => exact .moduleCloseBody (by decide) (by decide)

/-- The preamble adds failures and the offline reply. -/
theorem code_made {S : Right → Prop} {g : Program} (h : g.body.Made S) (offline : Bool) : (g.code offline).Made S := by
  unfold Program.code preamble
  cases firstFailure g.checks with
  | some f => exact .failWith _ _ _
  | none => exact .ite (.pure _) (.ite (.bind .getHandle fun _ => .ite (.failWith _ _ _) h) h)

/-! ## How the primitives end -/

theorem memRead_eq_ok {r : Option Reg} {off : Nat} {sc : Scope} {c c' : Ctx} {v : Word} {t : List Stage}
    (h : memRead r off sc c = .ok v c' t) :
    offsetOk sc.cfg off = true ∧ c' = { c with env := (envRead c.env).2 } ∧ t = stepOf sc c r (.rd sc.who off v) := by
  unfold memRead at h
  split at h <;> cases h
  rename_i hoff
  exact ⟨hoff, rfl, rfl⟩

theorem memWrite_eq_ok {r : Option Reg} {off : Nat} {v : Word} {sc : Scope} {c c' : Ctx} {u : Unit} {t : List Stage}
    (h : memWrite r off v sc c = .ok u c' t) :
    offsetOk sc.cfg off = true ∧ c' = c ∧ t = stepOf sc c r (.wr sc.who off v) := by
  unfold memWrite at h
  split at h <;> cases h
  rename_i hoff
  exact ⟨hoff, rfl, rfl⟩

/-- A part run on a probe's window ends as it does on the probe's own handle, and leaves the handle at hand. -/
theorem onProbe_eq_ok {j : Nat} {d : DevHandle} {va : VAddr} {x : Op α} {sc : Scope} {c c' : Ctx} {a : α} {t : List Stage}
    (h : onProbe j d va x sc c = .ok a c' t) :
    ∃ c₁, x { sc with who := .probe j }
        ⟨scratchHandle c.env (some d) (some va), { c.env with used := c.env.used + 1 }⟩ = .ok a c₁ t ∧
      c' = { c₁ with handle := c.handle } := by
  unfold onProbe at h
  split at h <;> cases h
  rename_i hr
  exact ⟨_, hr, rfl⟩

/-! ## What a part leaves unchanged -/

/-- The environment's identity and every field outside the rights `S` are the same. -/
structure Framed (S : Right → Prop) (c c' : Ctx) (_ : List Stage) : Prop where
  id : c'.env.id = c.env.id
  field : ∀ q, ¬ S (.write q) → q.Same c.handle c'.handle

theorem Framed.of_handle {S : Right → Prop} {c c' : Ctx} {t : List Stage} (hid : c'.env.id = c.env.id)
    (hh : c'.handle = c.handle) : Framed S c c' t := ⟨hid, fun q _ => hh ▸ Field.Same.refl q _⟩

theorem Framed.trans {S : Right → Prop} {c₁ c₂ c₃ : Ctx} {t₁ t₂ : List Stage} (h : Framed S c₁ c₂ t₁)
    (h' : Framed S c₂ c₃ t₂) : Framed S c₁ c₃ (t₁ ++ t₂) :=
  ⟨h'.id.trans h.id, fun q hq => (h.field q hq).trans (h'.field q hq)⟩

/-- A part keeps to its rights. -/
theorem Op.Made.framed {S : Right → Prop} {x : Op α} (hx : x.Made S) {sc : Scope} {c c' : Ctx} {a : α} {t : List Stage}
    (h : x sc c = .ok a c' t) : Framed S c c' t := by
  induction hx generalizing sc c c' t with
  | pure a | getHandle | sleep ns =>
    cases h
    exact .of_handle rfl rfl
  | bind _ _ hx hf =>
    obtain ⟨a, c₁, t₁, t₂, h₁, h₂, rfl⟩ := Op.bind_eq_ok.mp h
    exact (hx h₁).trans (hf a h₂)
  | withCfg _ hf => exact hf sc.cfg h
  | @placed _ _ g _ _ hx => exact hx (sc := { sc with pos := g sc.pos }) h
  | setHandle hf =>
    cases h
    exact ⟨rfl, fun q hq => hf q hq _⟩
  | regRead hr | rawRead off =>
    obtain ⟨-, rfl, -⟩ := memRead_eq_ok h
    exact .of_handle (envRead_id _) rfl
  | regWrite hr hq | rawWrite off v =>
    obtain ⟨-, rfl, -⟩ := memWrite_eq_ok h
    exact .of_handle rfl rfl
  | vendorCall ha =>
    obtain ⟨hh, -, e, -, he, hid⟩ := vendorCall_eq_ok h
    exact .of_handle (he ▸ (ha e).trans hid) hh
  | draw hf =>
    cases h
    exact .of_handle (hf _) rfl
  | fault f => cases h
  | refuse r => cases h
  | released _ hheld hx =>
    refine ⟨(hx h).id, fun q hq => ?_⟩
    by_cases hne : q = .hbrHeld
    · subst hne
      exact hheld _ _ _ _ _ h
    · exact (hx h).field q (by simpa [hne] using hq)
  | onProbe _ _ hx =>
    obtain ⟨c₁, hr, rfl⟩ := onProbe_eq_ok h
    exact .of_handle (hx hr).id rfl

/-! ## What a part issues -/

/-- An event that a part with the rights `S` may issue at the window `who`. -/
structure Permitted (S : Right → Prop) (p : Params) (who : Who) (e : Issued) : Prop where
  allowed : accessAllowed p e = true
  window : ∀ w, windowOf e.event = some w → w = who ∨ S .probe ∧ ∃ j, w = .probe j
  request : ¬ S .request → writesReg .hbrReq e = false ∧ writesReg .hbrDone e = false
  channel : ¬ S (.write .dma) → isChannelEvent e.event = false

/-- An event that accesses no window. -/
theorem Permitted.of_no_window {S : Right → Prop} {p : Params} {who : Who} {pos : Place} {e : Event}
    (hw : windowOf e = none) (hc : isChannelEvent e = true → S (.write .dma)) : Permitted S p who ⟨pos, none, e⟩ where
  allowed := by cases e <;> simp_all [accessAllowed, windowOf]
  window w h := by cases hw.symm.trans h
  request _ := ⟨rfl, rfl⟩
  channel h := by simpa using mt hc h

theorem windowOf_of_isVendor {e : Event} (h : isVendor e = true) : windowOf e = none := by
  cases e <;> simp_all [isVendor, windowOf]

/-- A read at an admitted offset, raw or of a readable register. -/
theorem Permitted.of_read {S : Right → Prop} {p : Params} {who : Who} {pos : Place} {r : Option Reg} {off : Nat} {v : Word}
    (hoff : offsetOk p off = true) (hr : ∀ q ∈ r, off = regOffset p q ∧ regReadable q = true) :
    Permitted S p who ⟨pos, r, .rd who off v⟩ where
  allowed := by cases r <;> simp_all [accessAllowed]
  window w h := .inl (Option.some.inj h).symm
  request _ := by cases r <;> exact ⟨rfl, rfl⟩
  channel _ := rfl

/-- A write at an admitted offset, raw or of a writable register; of HBR_REQ and HBR_DONE with the right to. -/
theorem Permitted.of_write {S : Right → Prop} {p : Params} {who : Who} {pos : Place} {r : Option Reg} {off : Nat} {v : Word}
    (hoff : offsetOk p off = true) (hr : ∀ q ∈ r, off = regOffset p q ∧ regWritable q = true)
    (hq : ∀ q ∈ r, q = .hbrReq ∨ q = .hbrDone → S .request) : Permitted S p who ⟨pos, r, .wr who off v⟩ where
  allowed := by cases r <;> simp_all [accessAllowed]
  window w h := .inl (Option.some.inj h).symm
  request hn := by
    cases r with
    | none => exact ⟨rfl, rfl⟩
    | some q =>
      obtain ⟨h₁, h₂⟩ := not_or.mp (mt (hq q rfl) hn)
      simp [writesReg, h₁, h₂]
  channel _ := rfl

/-- What a part may issue does not depend on its right to change `hbrHeld`. -/
theorem Permitted.of_released {S : Right → Prop} {p : Params} {who : Who} {e : Issued}
    (h : Permitted (fun r => S r ∨ r = .write .hbrHeld) p who e) : Permitted S p who e where
  allowed := h.allowed
  window w hw := by simpa using h.window w hw
  request hn := h.request (by simpa using hn)
  channel hn := h.channel (by simpa using hn)

/-- The window of a probe, for a part with the right to drive one. -/
theorem Permitted.of_probe {S : Right → Prop} {p : Params} {who : Who} {j : Nat} {e : Issued} (hp : S .probe)
    (h : Permitted S p (.probe j) e) : Permitted S p who e where
  allowed := h.allowed
  window w hw := .inr ⟨hp, (h.window w hw).elim (fun hj => ⟨j, hj⟩) And.right⟩
  request := h.request
  channel := h.channel

/-- The events of a part are permitted to it. -/
theorem Op.Made.permitted {S : Right → Prop} {x : Op α} (hx : x.Made S) {sc : Scope} {c c' : Ctx} {a : α} {t : List Stage}
    (h : x sc c = .ok a c' t) : ∀ e ∈ shown t, Permitted S sc.cfg sc.who e := by
  induction hx generalizing sc c c' t with
  | pure a | getHandle | setHandle _ | draw _ =>
    cases h
    simp
  | bind _ _ hx hf =>
    obtain ⟨a, c₁, t₁, t₂, h₁, h₂, rfl⟩ := Op.bind_eq_ok.mp h
    rw [shown_append, List.forall_mem_append]
    exact ⟨hx h₁, hf a h₂⟩
  | withCfg _ hf => exact hf sc.cfg h
  | @placed _ _ g _ _ hx => exact hx (sc := { sc with pos := g sc.pos }) h
  | regRead hr =>
    obtain ⟨hoff, -, rfl⟩ := memRead_eq_ok h
    simpa using Permitted.of_read hoff (by simp [hr])
  | rawRead off =>
    obtain ⟨hoff, -, rfl⟩ := memRead_eq_ok h
    simpa using Permitted.of_read (r := none) hoff nofun
  | regWrite hr hq =>
    obtain ⟨hoff, -, rfl⟩ := memWrite_eq_ok h
    simpa using Permitted.of_write hoff (by simp [hr]) (by simpa using hq)
  | rawWrite off v =>
    obtain ⟨hoff, -, rfl⟩ := memWrite_eq_ok h
    simpa using Permitted.of_write (r := none) hoff nofun nofun
  | sleep ns =>
    cases h
    simpa using Permitted.of_no_window rfl nofun
  | vendorCall ha hv hd =>
    obtain ⟨-, rfl, -⟩ := vendorCall_eq_ok h
    simpa using Permitted.of_no_window (windowOf_of_isVendor (hv _ _)) (hd _ _)
  | fault f => cases h
  | refuse r => cases h
  | released _ _ hx => exact fun e he => (hx h e he).of_released
  | onProbe hp _ hx =>
    obtain ⟨c₁, hr, rfl⟩ := onProbe_eq_ok h
    exact fun e he => (hx hr e he).of_probe hp

end Sys2Proof.Machine
end

section
/-! SUPPORT. The host bus request and the DMA channel along a trace (10_state.md R24, R25, R43; 42_hbr_dma.md R160, R161): at every
step of an operation the handle shows what the events issued so far left held and open. -/

namespace Sys2Proof.Machine

variable {α β : Type}

/-! ## The walks -/

theorem hbrWalk_append (b : Bool) (t u : List Issued) : hbrWalk b (t ++ u) = (hbrWalk b t).bind fun b' => hbrWalk b' u := by
  induction t generalizing b with
  | nil => rfl
  | cons e t ih =>
    simp only [List.cons_append, hbrWalk, ih]
    split_ifs <;> rfl

/-- The walk of the channel goes event by event. -/
theorem dmaWalk_cons (g : ChannelStage) (e : Issued) (t : List Issued) :
    dmaWalk g (e :: t) = (dmaWalk g [e]).bind fun g' => dmaWalk g' t := by
  cases g with
  | closed | closeFailed ch =>
    simp only [dmaWalk]
    split <;> rfl
  | opened ch | wasReset ch =>
    simp only [dmaWalk]
    (repeat' split) <;> rfl

theorem dmaWalk_append (g : ChannelStage) (t u : List Issued) : dmaWalk g (t ++ u) = (dmaWalk g t).bind fun g' => dmaWalk g' u := by
  induction t generalizing g with
  | nil => rfl
  | cons e t ih =>
    rw [List.cons_append, dmaWalk_cons, dmaWalk_cons g e t, Option.bind_assoc]
    simp only [ih]

/-- An event that is no write to HBR_REQ or HBR_DONE. -/
theorem hbrWalk_plain {b : Bool} {e : Issued} (h₁ : writesReg .hbrReq e = false) (h₂ : writesReg .hbrDone e = false)
    (t : List Issued) : hbrWalk b (e :: t) = hbrWalk b t := by simp [hbrWalk, h₁, h₂]

/-- The stages in which other events than the channel's may stand: no channel is open, or one is and its close has not begun. -/
def ChannelStage.isSteady : ChannelStage → Bool
  | .closed | .opened _ => true
  | .closeFailed _ | .wasReset _ => false

/-- An event that is none of a channel. -/
theorem dmaWalk_plain {g : ChannelStage} (hg : g.isSteady = true) {e : Issued} (h : isChannelEvent e.event = false) :
    dmaWalk g [e] = some g := by
  obtain ⟨pos, r, ev⟩ := e
  cases g with
  | closed | opened ch => cases ev <;> simp_all [dmaWalk, isChannelEvent]
  | closeFailed ch | wasReset ch => cases hg

/-- A trace without writes to HBR_REQ and HBR_DONE and without an event of a channel is paired and clean. -/
theorem paired_and_clean_of_plain {t : List Issued} (h : ∀ e ∈ t, (writesReg .hbrReq e = false ∧ writesReg .hbrDone e = false) ∧
    isChannelEvent e.event = false) : HbrPaired t ∧ DmaClean t := by
  induction t with
  | nil => exact ⟨rfl, rfl⟩
  | cons e t ih =>
    obtain ⟨⟨⟨h₁, h₂⟩, hc⟩, ht⟩ := List.forall_mem_cons.mp h
    obtain ⟨hp, hd⟩ := ih ht
    refine ⟨(hbrWalk_plain h₁ h₂ t).trans hp, ?_⟩
    rw [DmaClean, dmaWalk_cons, dmaWalk_plain rfl hc]
    exact hd

/-! ## The handle follows the walks -/

/-- From the context `c`, at the stage `g` of the channel, the steps `t` lead to `c'`, at the stage `g'`; and each of them finds the
request held and the channel open as the events before it left them. -/
structure Follows (g : ChannelStage) (c : Ctx) (g' : ChannelStage) (c' : Ctx) (t : List Stage) : Prop where
  hbr : hbrWalk c.handle.hbrHeld (shown t) = some c'.handle.hbrHeld
  dma : dmaWalk g (shown t) = some g'
  mid : ∀ k e, t[k]? = some e → hbrWalk c.handle.hbrHeld (shown (t.take k)) = some e.pre.handle.hbrHeld ∧
    (dmaWalk g (shown (t.take k))).map ChannelStage.channel = some e.pre.handle.dma

theorem Follows.nil {g : ChannelStage} {c c' : Ctx} (h : c'.handle.hbrHeld = c.handle.hbrHeld) : Follows g c g c' [] :=
  ⟨congrArg some h.symm, rfl, by simp⟩

/-- One event, issued where the handle shows the stage. -/
theorem Follows.step {g g' : ChannelStage} {c c' : Ctx} {i : Issued} (hc : c.handle.dma = g.channel)
    (hh : hbrWalk c.handle.hbrHeld [i] = some c'.handle.hbrHeld) (hd : dmaWalk g [i] = some g') : Follows g c g' c' [⟨c, i⟩] where
  hbr := hh
  dma := hd
  mid k e h := by
    cases k with
    | zero =>
      cases h
      exact ⟨rfl, congrArg some hc.symm⟩
    | succ k => cases h

theorem Follows.trans {g₁ g₂ g₃ : ChannelStage} {c₁ c₂ c₃ : Ctx} {t u : List Stage} (h : Follows g₁ c₁ g₂ c₂ t)
    (h' : Follows g₂ c₂ g₃ c₃ u) : Follows g₁ c₁ g₃ c₃ (t ++ u) where
  hbr := by rw [shown_append, hbrWalk_append, h.hbr, Option.bind_some, h'.hbr]
  dma := by rw [shown_append, dmaWalk_append, h.dma, Option.bind_some, h'.dma]
  mid k e hk := by
    by_cases hlt : k < t.length
    · rw [List.getElem?_append_left hlt] at hk
      rw [List.take_append_of_le_length hlt.le]
      exact h.mid k e hk
    · have hle : t.length ≤ k := Nat.le_of_not_lt hlt
      rw [List.getElem?_append_right hle] at hk
      rw [List.take_append, List.take_of_length_le hle, shown_append, hbrWalk_append, dmaWalk_append, h.hbr, h.dma,
        Option.bind_some, Option.bind_some]
      exact h'.mid _ e hk

/-! ## Parts that go from one stage of the channel to another -/

/-- From the stage `g`, the handle showing the channel `d`, the part follows the walks to the stage `g' a`, the handle showing
`d' a`, where it ends with `a`; and wherever it stops, the handle shows the stage it stops at. -/
structure Op.Walks (g : ChannelStage) (d : Option Channel) (g' : α → ChannelStage) (d' : α → Option Channel) (x : Op α) :
    Prop where
  ok : ∀ sc c a c' t, c.handle.dma = d → x sc c = .ok a c' t → c'.handle.dma = d' a ∧ Follows g c (g' a) c' t
  fault : ∀ sc c f pos c' t, c.handle.dma = d → x sc c = .fault f pos c' t →
    ∃ g₁, g₁.channel = c'.handle.dma ∧ Follows g c g₁ c' t

theorem Op.Walks.bind {g : ChannelStage} {d : Option Channel} {g₁ : α → ChannelStage} {d₁ : α → Option Channel}
    {g₂ : β → ChannelStage} {d₂ : β → Option Channel} {x : Op α} {f : α → Op β} (hx : x.Walks g d g₁ d₁)
    (hf : ∀ a, (f a).Walks (g₁ a) (d₁ a) g₂ d₂) : (x.bind f).Walks g d g₂ d₂ where
  ok sc c b c' t hd h := by
    obtain ⟨a, c₁, t₁, t₂, h₁, h₂, rfl⟩ := Op.bind_eq_ok.mp h
    obtain ⟨hd₁, hw₁⟩ := hx.ok _ _ _ _ _ hd h₁
    obtain ⟨hd₂, hw₂⟩ := (hf a).ok _ _ _ _ _ hd₁ h₂
    exact ⟨hd₂, hw₁.trans hw₂⟩
  fault sc c r pos c' t hd h := by
    obtain h | ⟨a, c₁, t₁, t₂, h₁, h₂, rfl⟩ := Op.bind_eq_fault.mp h
    · exact hx.fault _ _ _ _ _ _ hd h
    · obtain ⟨hd₁, hw₁⟩ := hx.ok _ _ _ _ _ hd h₁
      obtain ⟨g', hg', hw₂⟩ := (hf a).fault _ _ _ _ _ _ hd₁ h₂
      exact ⟨g', hg', hw₁.trans hw₂⟩

theorem Op.Walks.withCfg {g : ChannelStage} {d : Option Channel} {g' : α → ChannelStage} {d' : α → Option Channel}
    {f : Params → Op α} (hf : ∀ p, (f p).Walks g d g' d') : (Op.withCfg f).Walks g d g' d' :=
  ⟨fun sc => (hf sc.cfg).ok sc, fun sc => (hf sc.cfg).fault sc⟩

theorem Op.Walks.pure {g : ChannelStage} {d : Option Channel} {g' : α → ChannelStage} {d' : α → Option Channel} (a : α)
    (hg : g' a = g) (hd : d' a = d) : (Op.pure a).Walks g d g' d' where
  ok := by
    rintro sc c _ _ _ h ⟨⟩
    exact ⟨h.trans hd.symm, hg ▸ .nil rfl⟩
  fault := by rintro _ _ _ _ _ _ _ ⟨⟩

/-- Writing `dma` issues nothing. -/
theorem setDma_walks (g : ChannelStage) (d ch : Option Channel) : (setDma ch).Walks g d (fun _ => g) fun _ => ch where
  ok := by
    rintro sc c _ _ _ _ ⟨⟩
    exact ⟨rfl, .nil rfl⟩
  fault := by rintro _ _ _ _ _ _ _ ⟨⟩

/-- A vendor call, issued where the handle shows the stage, moves the stage as its event does. -/
theorem vendorCall_walks {answer : Env → α × Env} {event : Handle → α → Event} {g : ChannelStage} {g' : α → ChannelStage}
    (hg : ∀ pos h a, dmaWalk g [⟨pos, none, event h a⟩] = some (g' a)) :
    (vendorCall answer event).Walks g g.channel g' fun _ => g.channel where
  ok sc c a c' t hd h := by
    obtain ⟨hh, rfl, -⟩ := vendorCall_eq_ok h
    exact ⟨hh ▸ hd, .step hd (hh ▸ rfl) (hg _ _ _)⟩
  fault sc c f pos c' t hd h := by
    obtain ⟨-, -, -, rfl, rfl⟩ := vendorCall_eq_fault.mp h
    exact ⟨g, hd.symm, .nil rfl⟩

/-! ## Parts that stay at a stage -/

/-- The part leaves the channel at the stage `g`, the handle showing it. -/
def Tracks (g : ChannelStage) (c c' : Ctx) (t : List Stage) : Prop :=
  c.handle.dma = g.channel → c'.handle.dma = g.channel ∧ Follows g c g c' t

/-- The part stops where the handle shows the stage reached. -/
def TracksStop (g : ChannelStage) (_ : Fault) (c c' : Ctx) (t : List Stage) : Prop :=
  c.handle.dma = g.channel → ∃ g', g'.channel = c'.handle.dma ∧ Follows g c g' c' t

theorem Op.Keeps.walks {g : ChannelStage} {x : Op α} (hx : x.Keeps (Tracks g) (TracksStop g)) :
    x.Walks g g.channel (fun _ => g) fun _ => g.channel :=
  ⟨fun sc c a c' t hd h => hx.ok sc c a c' t h hd, fun sc c f pos c' t hd h => hx.fault sc c f pos c' t h hd⟩

theorem Op.Walks.keeps {g : ChannelStage} {x : Op α} (hx : x.Walks g g.channel (fun _ => g) fun _ => g.channel) :
    x.Keeps (Tracks g) (TracksStop g) :=
  ⟨fun sc c a c' t h hd => hx.ok sc c a c' t hd h, fun sc c f pos c' t h hd => hx.fault sc c f pos c' t hd h⟩

theorem composes_tracks (g : ChannelStage) : Composes (Tracks g) (TracksStop g) where
  refl _ hd := ⟨hd, .nil rfl⟩
  trans h h' hd := by
    obtain ⟨hd₁, hw₁⟩ := h hd
    obtain ⟨hd₂, hw₂⟩ := h' hd₁
    exact ⟨hd₂, hw₁.trans hw₂⟩
  stop _ _ _ hd := ⟨g, hd.symm, .nil rfl⟩
  hang _ _ hd := ⟨g, hd.symm, .nil rfl⟩
  transStop h h' hd := by
    obtain ⟨hd₁, hw₁⟩ := h hd
    obtain ⟨g', hg', hw₂⟩ := h' hd₁
    exact ⟨g', hg', hw₁.trans hw₂⟩

/-- A step without an event, or with one that is none of the host bus request and none of a channel. -/
theorem Tracks.silent {g : ChannelStage} {c c' : Ctx} (hh : c'.handle.hbrHeld = c.handle.hbrHeld)
    (hd : c'.handle.dma = c.handle.dma) : Tracks g c c' [] := fun h => ⟨hd.trans h, .nil hh⟩

section steady
variable {g : ChannelStage} (hg : g.isSteady = true)
include hg

theorem Tracks.plain {c c' : Ctx} {i : Issued} (hi : isChannelEvent i.event = false)
    (hh : hbrWalk c.handle.hbrHeld [i] = some c'.handle.hbrHeld) (hd : c'.handle.dma = c.handle.dma) :
    Tracks g c c' [⟨c, i⟩] := fun h => ⟨hd.trans h, .step h hh (dmaWalk_plain hg hi)⟩

theorem memRead_tracks (r : Option Reg) (off : Nat) : (memRead r off).Keeps (Tracks g) (TracksStop g) where
  ok sc c v c' t h := by
    obtain ⟨-, rfl, rfl⟩ := memRead_eq_ok h
    exact .plain hg rfl (by cases r <;> rfl) rfl
  fault sc c f pos c' t h := by
    unfold memRead at h
    split at h <;> cases h

theorem memWrite_tracks (r : Option Reg) (hr : ∀ q ∈ r, q ≠ .hbrReq ∧ q ≠ .hbrDone) (off : Nat) (v : Word) :
    (memWrite r off v).Keeps (Tracks g) (TracksStop g) where
  ok sc c u c' t h := by
    obtain ⟨-, rfl, rfl⟩ := memWrite_eq_ok h
    refine .plain hg rfl ?_ rfl
    cases r with
    | none => rfl
    | some q => simp [hbrWalk, writesReg, hr q rfl]
  fault sc c f pos c' t h := by
    unfold memWrite at h
    split at h <;> cases h

theorem sleep_tracks (ns : Nat) : (sleep ns).Keeps (Tracks g) (TracksStop g) :=
  ⟨by rintro _ c _ _ _ ⟨⟩; exact .plain hg rfl rfl rfl, by rintro _ _ _ _ _ _ ⟨⟩⟩

end steady

/-! ## A burst (42_hbr_dma.md R158 to R160) -/

/-- The stage a successful open leads to. -/
def afterOpen : Option Channel → ChannelStage
  | none => .closed
  | some ch => .opened ch

/-- The stage the first close leads to. -/
def afterClose (ch : Channel) : CloseResult → ChannelStage
  | .ok => .closed
  | .inProgress | .error => .closeFailed ch

/-- Priming and transfer leave the channel open. -/
theorem dmaPrime_tracks (ch : Channel) (kind : Kind) (count : Nat) :
    (dmaPrime kind count).Keeps (Tracks (.opened ch)) (TracksStop (.opened ch)) := by
  have hR := composes_tracks (.opened ch)
  cases kind with
  | dsp =>
    exact Op.keeps_andThen hR (Op.keeps_withCfg fun _ => memWrite_tracks rfl _ (by simp) _ _) <| Op.keeps_withCfg fun _ =>
      Op.keeps_map hR (pollFrom_keeps hR (Op.keeps_withCfg fun _ => memRead_tracks rfl _ _) (sleep_tracks rfl) _ _)
  | ext | fifo => exact Op.keeps_pure hR _

theorem deliver_tracks (g : ChannelStage) (n : Nat) (data : List Word) : (deliver n data).Keeps (Tracks g) (TracksStop g) :=
  ⟨by rintro _ c _ _ _ ⟨⟩; exact .silent rfl rfl, by rintro _ _ _ _ _ _ ⟨⟩⟩

theorem dmaTransfer_tracks (ch : Channel) (port : Reg) (host : List Word) (count : Nat) (dir : Dir) :
    (dmaTransfer ch port host count dir).Keeps (Tracks (.opened ch)) (TracksStop (.opened ch)) := by
  have hR := composes_tracks (.opened ch)
  refine Op.keeps_withCfg fun p => ?_
  split
  · refine Op.keeps_bind hR (Op.Walks.keeps (vendorCall_walks fun _ _ _ => by simp [dmaWalk])) fun a => ?_
    cases a.result with
    | ok =>
      cases dir with
      | toHost => exact Op.keeps_map hR (deliver_tracks _ _ _)
      | toModule => exact Op.keeps_pure hR _
    | timeout | vendorError => exact Op.keeps_pure hR _
  · exact ⟨by rintro _ _ _ _ _ ⟨⟩, by rintro _ _ _ _ _ _ ⟨⟩⟩

/-- One close sequence closes the channel: a close, or a failed close, a device reset and one more close. -/
theorem closeRetry_walks (ch : Channel) :
    (closeRetry ch).Walks (.closeFailed ch) (some ch) (fun _ => .closed) fun _ => none :=
  .bind (vendorCall_walks (g' := fun _ => .wasReset ch) fun _ _ _ => rfl) fun _ =>
    .bind (vendorCall_walks (g := .wasReset ch) (g' := fun _ => .closed) fun _ _ _ => by simp [dmaWalk]) fun _ =>
    .bind (setDma_walks _ _ _) fun _ => .pure _ rfl rfl

theorem closeChannel_walks (ch : Channel) :
    (closeChannel ch).Walks (.opened ch) (some ch) (fun _ => .closed) fun _ => none :=
  .bind (vendorCall_walks (g := .opened ch) (g' := afterClose ch) fun _ _ r => by cases r <;> simp [dmaWalk, afterClose]) fun r =>
    match r with
    | .ok => .bind (setDma_walks _ _ _) fun _ => .pure _ rfl rfl
    | .inProgress | .error => closeRetry_walks ch

/-- After its open a burst shows the channel, works on it and closes it, whatever `dma` was before. -/
theorem burstOn_walks (ch : Channel) (d : Option Channel) (kind : Kind) (port : Reg) (host : List Word) (count : Nat) (dir : Dir) :
    ((setDma (some ch)).andThen <|
      ((dmaPrime kind count).ifOk fun _ => dmaTransfer ch port host count dir).bind fun st =>
        (closeChannel ch).map (firstOf st)).Walks (.opened ch) d (fun _ => .closed) fun _ => none := by
  have hwork := Op.keeps_ifOk (composes_tracks (.opened ch)) (dmaPrime_tracks ch kind count) fun _ =>
    dmaTransfer_tracks ch port host count dir
  exact .bind (setDma_walks _ _ _) fun _ => .bind hwork.walks fun st => .bind (closeChannel_walks ch) fun _ => .pure _ rfl rfl

/-- A burst leaves no channel open. -/
theorem dmaBurst_tracks (kind : Kind) (port : Reg) (host : List Word) (count : Nat) (dir : Dir) :
    (dmaBurst kind port host count dir).Keeps (Tracks .closed) (TracksStop .closed) := by
  refine Op.Walks.keeps <| .withCfg fun p =>
    .bind (vendorCall_walks (g := .closed) (g' := afterOpen) fun _ _ o => by cases o <;> rfl) fun o => ?_
  cases o with
  | none => exact .pure _ rfl rfl
  | some ch => exact burstOn_walks ch _ kind port host count dir

theorem atoms_tracks : Atoms (Tracks .closed) (TracksStop .closed) where
  toComposes := composes_tracks .closed
  rd _ _ _ _ _ _ _ _ := .plain rfl rfl rfl rfl
  wr sc c r off v _ h₁ h₂ := .plain rfl rfl (by simp [hbrWalk, writesReg, h₁, h₂]) rfl
  sleep _ _ _ := .plain rfl rfl rfl rfl
  env _ _ _ := .silent rfl rfl
  request _ _ _ _ h := .plain rfl rfl (by simp [hbrWalk, writesReg, h]) rfl
  done _ _ _ _ h := .plain rfl rfl (by simp [hbrWalk, writesReg, h]) rfl
  burst := dmaBurst_tracks

/-! ## A burst and the field `dma`, whatever it was -/

/-- The field `dma` is unchanged, or none. -/
def DmaSettles (c c' : Ctx) (_ : List Stage) : Prop := c'.handle.dma = c.handle.dma ∨ c'.handle.dma = none

theorem dmaBurst_settles {kind : Kind} {port : Reg} {host : List Word} {count : Nat} {dir : Dir} {sc : Scope} {c c' : Ctx}
    {r : Except Failure (List Word)} {t : List Stage} (h : dmaBurst kind port host count dir sc c = .ok r c' t) :
    DmaSettles c c' t := by
  obtain ⟨o, c₁, t₁, t₂, h₁, h₂, -⟩ := Op.bind_eq_ok.mp h
  obtain ⟨hh, -⟩ := vendorCall_eq_ok h₁
  cases o with
  | none =>
    cases h₂
    exact .inl (congrArg Handle.dma hh)
  | some ch => exact .inr ((burstOn_walks ch _ kind port host count dir).ok _ _ _ _ _ rfl h₂).1

theorem atoms_dmaSettles : Atoms DmaSettles fun _ _ _ _ => True where
  refl _ := .inl rfl
  trans h h' := h'.elim (fun h' => h.imp h'.trans h'.trans) .inr
  stop _ _ _ := trivial
  hang _ _ := trivial
  transStop _ _ := trivial
  rd _ _ _ _ _ _ _ _ := .inl rfl
  wr _ _ _ _ _ _ _ _ := .inl rfl
  sleep _ _ _ := .inl rfl
  env _ _ _ := .inl rfl
  request _ _ _ _ _ := .inl rfl
  done _ _ _ _ _ := .inl rfl
  burst _ _ _ _ _ := ⟨fun _ _ _ _ _ => dmaBurst_settles, fun _ _ _ _ _ _ _ => trivial⟩

/-! ## Every operation -/

/-- What a relation must allow beyond the atoms to be kept by every operation's program: raw accesses, the calls of MODULE_CLOSE, and
writes of the handle that leave `hbrHeld` and `dma`. -/
structure Wholes (R : Ctx → Ctx → List Stage → Prop) (F : Fault → Ctx → Ctx → List Stage → Prop) : Prop extends Atoms R F where
  write : ∀ f : Handle → Handle, (∀ h, (f h).hbrHeld = h.hbrHeld ∧ (f h).dma = h.dma) → (Op.setHandle f).Keeps R F
  rawRead : ∀ off, (memRead none off).Keeps R F
  rawWrite : ∀ off v, (memWrite none off v).Keeps R F
  unmap : ∀ h va, (unmapCall h va).Keeps R F
  close : ∀ h, (closeCall h).Keeps R F

section wholes
variable {R : Ctx → Ctx → List Stage → Prop} {F : Fault → Ctx → Ctx → List Stage → Prop} (hW : Wholes R F)
include hW

theorem Wholes.moduleCloseBody : moduleCloseBody.Keeps R F := by
  refine Op.keeps_bind hW.toComposes (Op.keeps_getHandle hW.toComposes) fun h => ?_
  cases h.win with
  | none => exact Op.keeps_pure hW.toComposes _
  | some va =>
    exact Op.keeps_andThen hW.toComposes (hW.unmap _ _) <| Op.keeps_andThen hW.toComposes (hW.close _) <|
      Op.keeps_map hW.toComposes (hW.write _ fun _ => ⟨rfl, rfl⟩)

/-- The body of every operation's program. -/
theorem Wholes.body {p : Params} {i : Instr} {m : Nat} {g : Program} (h : programOf p i = some (m, g)) : g.body.Keeps R F := by
  have hA := hW.toAtoms
  have hR := hA.toComposes
  have hB : ∀ f, (setBoot f).Keeps R F := fun f => hW.write _ fun _ => ⟨rfl, rfl⟩
  have hL : ∀ l, (Op.setHandle fun h => { h with lines := l }).Keeps R F := fun l => hW.write _ fun _ => ⟨rfl, rfl⟩
  have hS : ∀ f : Handle → Option SerRec, (Op.setHandle fun h => { h with ser := f h }).Keeps R F :=
    fun f => hW.write _ fun _ => ⟨rfl, rfl⟩
  cases i <;> cases h
  case regRead => exact Op.keeps_map hR (hW.rawRead _)
  case regWrite => exact Op.keeps_map hR (hW.rawWrite _ _)
  case csrRead => exact Op.keeps_map hR (hA.regRead rfl)
  case csrWrite => exact Op.keeps_map hR (hA.regWrite rfl nofun nofun)
  case csrSetBits => exact Op.keeps_map hR (hA.csrModify _ _)
  case csrClearBits => exact Op.keeps_map hR (hA.csrModify _ _)
  case serWriteByte => exact Op.keeps_map hR (hA.serWriteBody hL hS _)
  case serReadByte => exact Op.keeps_map hR (hA.serReadBody hL hS)
  case serReadSeq => exact Op.keeps_map hR (hA.serReadSeqBody hL hS _ _)
  case hbrRequest => exact Op.keeps_map hR hA.hbrRequest
  case hbrDone => exact Op.keeps_map hR hA.hbrDone
  case dspMemWrite => exact Op.keeps_map hR (hA.dspWriteBody _ _)
  case dspMemRead => exact Op.keeps_bind hR (hA.dspReadBody _ _ _) (hA.replyWords _ _)
  case dmaBurst => exact Op.keeps_bind hR (hA.burst _ _ _ _ _) (hA.replyWords _ _)
  case fifoReadWm => exact Op.keeps_map hR (hA.regRead rfl)
  case fifoDrain => exact Op.keeps_bind hR (hA.fifoDrainBody _ _) (hA.replyWords _ _)
  case extMemWrite => exact Op.keeps_map hR (hA.extWriteBody _ _)
  case extMemRead => exact Op.keeps_bind hR (hA.withExtMem (hA.extReadBody _ _ _)) (hA.replyWords _ _)
  case extMemClear => exact Op.keeps_map hR (hA.withExtMem (hA.extClearBody _ _))
  case bootCommFpga => exact Op.keeps_map hR (hA.bootCommBody hB _)
  case bootSpFpga => exact Op.keeps_map hR (hA.bootSpBody hB _)
  case bootDsp => exact Op.keeps_map hR (hA.bootDspBody hB _)
  case bootModule => exact Op.keeps_map hR (hA.bootModuleBody hB _ _)
  case moduleClose => exact hW.moduleCloseBody

end wholes

/-- The preamble adds failures and the offline reply. -/
theorem code_keeps {R : Ctx → Ctx → List Stage → Prop} {F : Fault → Ctx → Ctx → List Stage → Prop} (hR : Composes R F)
    (hfail : ∀ f n b, (failWith f n b).Keeps R F) {g : Program} (hb : g.body.Keeps R F) (offline : Bool) :
    (g.code offline).Keeps R F := by
  have hmapped : (mapped g.reads g.buf g.body).Keeps R F := by
    refine Op.keeps_bind hR (Op.keeps_getHandle hR) fun h => ?_
    split
    · exact hfail _ _ _
    · exact hb
  unfold Program.code preamble
  cases firstFailure g.checks with
  | some f => exact hfail f _ _
  | none =>
    cases offline with
    | true => exact Op.keeps_pure hR _
    | false =>
      cases hready : g.ready with
      | true => simpa [hready] using hmapped
      | false => simpa [hready] using hb

/-- Every operation's program. -/
theorem Wholes.code {R : Ctx → Ctx → List Stage → Prop} {F : Fault → Ctx → Ctx → List Stage → Prop} (hW : Wholes R F)
    {p : Params} {i : Instr} {m : Nat} {g : Program} (h : programOf p i = some (m, g)) (offline : Bool) :
    (g.code offline).Keeps R F :=
  code_keeps hW.toComposes hW.toAtoms.failWith (hW.body h) offline

/-- A vendor call of MODULE_CLOSE. -/
theorem closingCall_tracks {event : Handle → Unit → Event} (he : ∀ h a, isChannelEvent (event h a) = false) :
    (vendorCall noAnswer event).Keeps (Tracks .closed) (TracksStop .closed) :=
  Op.Walks.keeps <| vendorCall_walks (g := .closed) (g' := fun _ => .closed) fun _ _ _ => dmaWalk_plain rfl (he _ _)

theorem wholes_tracks : Wholes (Tracks .closed) (TracksStop .closed) where
  toAtoms := atoms_tracks
  write f hf := ⟨by rintro _ c _ _ _ ⟨⟩; exact .silent (hf _).1 (hf _).2, by rintro _ _ _ _ _ _ ⟨⟩⟩
  rawRead off := memRead_tracks rfl none off
  rawWrite off v := memWrite_tracks rfl none nofun off v
  unmap _ _ := closingCall_tracks fun _ _ => rfl
  close _ := closingCall_tracks fun _ _ => rfl

theorem wholes_dmaSettles : Wholes DmaSettles fun _ _ _ _ => True where
  toAtoms := atoms_dmaSettles
  write f hf := ⟨by rintro _ c _ _ _ ⟨⟩; exact .inl (hf _).2, fun _ _ _ _ _ _ _ => trivial⟩
  rawRead off := ⟨fun _ _ _ _ _ h => .inl (by rw [(memRead_eq_ok h).2.1]), fun _ _ _ _ _ _ _ => trivial⟩
  rawWrite off v := ⟨fun _ _ _ _ _ h => .inl (by rw [(memWrite_eq_ok h).2.1]), fun _ _ _ _ _ _ _ => trivial⟩
  unmap _ _ := ⟨fun _ _ _ _ _ h => .inl (congrArg Handle.dma (vendorCall_eq_ok h).1), fun _ _ _ _ _ _ _ => trivial⟩
  close _ := ⟨fun _ _ _ _ _ h => .inl (congrArg Handle.dma (vendorCall_eq_ok h).1), fun _ _ _ _ _ _ _ => trivial⟩

end Sys2Proof.Machine
end

section
/-! SUPPORT. What an operation that answers a next state leaves of its module's handle, and which accesses it issues (10_state.md R21,
R31; 20_memory.md R65); the modules SYS_INIT creates (44_discovery.md R246). -/

namespace Sys2Proof.Machine

/-! ## The handle and the accesses of an operation -/

section exec
variable {i : Instr} {m : Nat} {s t : State} {x : Module}

/-- An operation on an existing module that answers a next state found the module idle, ended its program, and wrote the record back. -/
theorem exec_eq_next_on_module (hi : i.module? = some m) (hx : s.module? m = some x) (h : exec i s = .next t) :
    ∃ g r c u, programOf s.cfg i = some (m, g) ∧ x.pos = .idle ∧ g.result s.cfg s.isOffline m x.ctx = .ok r c u ∧
      t = finish g.op r (shown u) (s.putModule m { x with handle := c.handle, pos := .idle, env := c.env }) := by
  obtain ⟨g, hg⟩ := programOf_isSome (p := s.cfg) hi
  obtain ⟨hnone, -⟩ | ⟨y, hy, hp, r, c, u, hres, rfl⟩ := runOn_eq_next ((exec_eq_next_iff hg).mp h).2
  · cases hnone.symm.trans hx
  · cases hy.symm.trans hx
    exact ⟨g, r, c, u, hg, hp, hres, rfl⟩

variable {p : Params} {g : Program} {off : Bool} {c c' : Ctx} {r : Reply} {u : List Stage}

/-- The program of an operation keeps to the operation's rights. -/
theorem result_framed (hg : programOf p i = some (m, g)) (h : g.result p off m c = .ok r c' u) :
    Framed (· ∈ rights i.mnemonic) c c' u := (code_made (body_made hg) off).framed h

theorem result_permitted (hg : programOf p i = some (m, g)) (h : g.result p off m c = .ok r c' u) :
    ∀ e ∈ shown u, Permitted (· ∈ rights i.mnemonic) p (.module m) e := (code_made (body_made hg) off).permitted h

theorem result_dmaSettles (hg : programOf p i = some (m, g)) (h : g.result p off m c = .ok r c' u) : DmaSettles c c' u :=
  (wholes_dmaSettles.code hg off).ok _ _ _ _ _ h

end exec

/-- The operations whose rule writes a field of the handle (10_state.md R21 to R27, R39). -/
def writers : Field → List Mnemonic
  | .dev | .win => [.moduleClose]
  | .slot | .offline => []
  | .boot => [.bootCommFpga, .bootSpFpga, .bootDsp, .bootModule]
  | .hbrHeld => [.hbrRequest, .hbrDone]
  | .dma => [.dmaBurst, .dspMemRead, .fifoDrain, .extMemRead]
  | .ser | .lines => [.serWriteByte, .serReadByte, .serReadSeq, .sysInit]

theorem mem_writers {q : Field} {k : Mnemonic} (h : Right.write q ∈ rights k) : k ∈ writers q := by
  cases k <;> cases q <;> simp_all [rights, writers]

/-- Only SYS_INIT drives a probe. -/
theorem eq_sysInit_of_probe {k : Mnemonic} (h : Right.probe ∈ rights k) : k = .sysInit := by
  cases k <;> simp_all [rights]

theorem mnemonic_ne_sysInit {i : Instr} {m : Nat} (h : i.module? = some m) : i.mnemonic ≠ .sysInit := by
  cases i <;> simp_all [Instr.module?, Instr.mnemonic]

/-- Settles O16: an operation keeps to its rights (`Op.Made.framed`), and `dma` settles. -/
theorem handleFrame : Obligations.HandleFrame := by
  intro i m s t x y hi hx h hy
  obtain ⟨g, r, c, u, hg, -, hres, rfl⟩ := exec_eq_next_on_module hi hx h
  rw [finish_module, putModule_module_self _ _ _ hx] at hy
  cases hy
  obtain ⟨hid, hfield⟩ := result_framed hg hres
  have hsame : ∀ q, i.mnemonic ∉ writers q → q.Same x.handle c.handle := fun q hq => hfield q (mt mem_writers hq)
  have hclose : i.mnemonic ≠ .moduleClose → i.mnemonic ∉ [Mnemonic.moduleClose] := by simp
  have hserial : i.mnemonic ∉ [.serWriteByte, .serReadByte, .serReadSeq] →
      i.mnemonic ∉ [.serWriteByte, .serReadByte, .serReadSeq, .sysInit] := by
    simpa using fun h₁ h₂ h₃ => ⟨h₁, h₂, h₃, mnemonic_ne_sysInit hi⟩
  exact ⟨rfl, rfl, hid, hsame .slot nofun, hsame .offline nofun, fun hk => ⟨hsame .dev (hclose hk), hsame .win (hclose hk)⟩,
    fun hk => hsame .boot hk, fun hk => ⟨hsame .lines (hserial hk), hsame .ser (hserial hk)⟩, fun hk => hsame .hbrHeld hk,
    result_dmaSettles hg hres, fun hk => hsame .dma hk⟩

/-- The events of discovery go to the windows of probes. -/
theorem sysInit_permitted {s t : State} {slotMap : List Nat} {flag : Bool} (h : exec (.sysInit slotMap flag) s = .next t) :
    ∀ e ∈ t.issued, Permitted (· ∈ rights .sysInit) s.cfg (.probe 0) e := by
  obtain hnil | ⟨r, c, u, hd, hu⟩ := sysInit_issued h
  · simp [hnil]
  · rw [hu]
    exact (Op.Made.discover (by decide) (by decide) (by decide) slotMap).permitted hd

/-- Settles O18: every event of an operation is permitted to it (`Op.Made.permitted`); no operation on a module drives a probe. -/
theorem windowAccessesAreAllowed : Obligations.WindowAccessesAreAllowed := by
  intro i s t h e he
  cases hi : i.module? with
  | some m =>
    obtain ⟨g, hg⟩ := programOf_isSome (p := s.cfg) hi
    obtain ⟨-, r, c, u, hfail, rfl⟩ | ⟨x, -, -, r, c, u, hres, rfl⟩ := runOn_eq_next ((exec_eq_next_iff hg).mp h).2
    · obtain ⟨b, e', hok⟩ := failWith_eq_ok ⟨.invalidArgument, .moduleIndex⟩ g.reads g.buf ⟨s.cfg, .probe 0, startPos g.op⟩
        ⟨scratchHandle s.disc none none, s.disc⟩
      cases hfail.symm.trans hok
      cases he
    · have hp := result_permitted hg hres e he
      exact ⟨hp.allowed, fun w hw => (hp.window w hw).resolve_right fun hprobe =>
        mnemonic_ne_sysInit hi (eq_sysInit_of_probe hprobe.1)⟩
  | none =>
    cases i with
    | idDecode bytes =>
      cases h
      cases he
    | sysInit slotMap flag =>
      have hp := sysInit_permitted h e he
      exact ⟨hp.allowed, fun w hw => (hp.window w hw).elim (fun h₀ => ⟨0, h₀⟩) And.right⟩
    | _ => cases hi

/-! ## The modules SYS_INIT creates -/

theorem newModules_getElem? (offline : Bool) (l : List (Nat × Option (DevHandle × VAddr))) (k i : Nat) :
    (newModules offline k l)[i]? = l[i]?.map fun d => newModule (k + i) d.1 offline d.2 := by
  induction l generalizing k i with
  | nil => rfl
  | cons d l ih =>
    cases i with
    | zero => rfl
    | succ i =>
      simp only [newModules, List.getElem?_cons_succ, ih]
      rw [Nat.add_right_comm, Nat.add_assoc]

theorem newModules_length (offline : Bool) (l : List (Nat × Option (DevHandle × VAddr))) (k : Nat) :
    (newModules offline k l).length = l.length := by
  induction l generalizing k with
  | nil => rfl
  | cons d l ih => simp [newModules, ih]

/-- The checks of SYS_INIT pass where it finds no system, and an admitted slot map. -/
theorem sysInitChecks_pass_iff {s : State} {slotMap : List Nat} : firstFailure (sysInitChecks s slotMap) = none ↔
    s.system = none ∧ slotMap.length ≤ s.cfg.maxModules.val ∧ slotMap.Nodup := by
  cases hs : s.system with
  | some y => simp [firstFailure, sysInitChecks, hs]
  | none =>
    simp only [firstFailure, sysInitChecks, hs]
    split_ifs <;> simp_all

/-- Settles O57: offline the operation names no register, its checks pass, and it creates the system at once. -/
theorem sysInitOffline : Obligations.SysInitOffline := by
  intro s slotMap hs hlen hdup
  refine ⟨finish .sysInit { status := .ok } [] (createSystem true (slotMap.map fun n => (n, none)) s), ?_, rfl, rfl, rfl, ?_,
    rfl, rfl, rfl, rfl, fun i slot hi => ?_⟩
  · show execSysInit slotMap true s = _
    simp only [execSysInit, sysInitChecks_pass_iff.mpr ⟨hs, hlen, hdup⟩, if_true]
    exact guardRegs_of_ok nofun
  · simp [State.moduleCount, createSystem, newModules_length]
  · refine ⟨Config.freeLines (some i) 0, { id := some i, used := 1 }, ?_, rfl⟩
    show (newModules true 0 (slotMap.map fun n => (n, none)))[i]? = _
    rw [newModules_getElem?, List.getElem?_map, hi, Nat.zero_add]
    rfl

end Sys2Proof.Machine
end

section
/-! SUPPORT. The invariant of the machine (10_state.md R43, 70_reset_and_hazards.md R283, R288): an operation that found its module at
rest leaves it at rest with a paired and clean trace, or stands in it as its events say. -/

namespace Sys2Proof.Machine

variable {α : Type}

/-! ## What an operation leaves closed -/

/-- The serial record is unchanged, or none. -/
def SerSettles (c c' : Ctx) (_ : List Stage) : Prop := c'.handle.ser = c.handle.ser ∨ c'.handle.ser = none

/-- Device and window are unchanged, or both none. -/
def WinSettles (c c' : Ctx) (_ : List Stage) : Prop :=
  (c'.handle.dev = c.handle.dev ∧ c'.handle.win = c.handle.win) ∨ (c'.handle.dev = none ∧ c'.handle.win = none)

theorem composes_serSettles : Composes SerSettles fun _ _ _ _ => True where
  refl _ := .inl rfl
  trans h h' := h'.elim (fun h' => h.imp h'.trans h'.trans) .inr
  stop _ _ _ := trivial
  hang _ _ := trivial
  transStop _ _ := trivial

theorem composes_winSettles : Composes WinSettles fun _ _ _ _ => True where
  refl _ := .inl ⟨rfl, rfl⟩
  trans := by
    rintro c₁ c₂ c₃ t₁ t₂ h (⟨hd, hw⟩ | h')
    · exact h.imp (And.imp hd.trans hw.trans) (And.imp hd.trans hw.trans)
    · exact .inr h'
  stop _ _ _ := trivial
  hang _ _ := trivial
  transStop _ _ := trivial

/-- A part without the right to a field keeps a relation that holds where the field is unchanged. -/
theorem Op.Made.keeps {S : Right → Prop} {R : Ctx → Ctx → List Stage → Prop} {x : Op α} (hx : x.Made S)
    (h : ∀ c c' t, Framed S c c' t → R c c' t) : x.Keeps R fun _ _ _ _ => True :=
  ⟨fun _ _ _ _ _ hok => h _ _ _ (hx.framed hok), fun _ _ _ _ _ _ _ => trivial⟩

/-- The end of a byte transfer discards the record (10_state.md R26). -/
theorem endSer_ends (f : SerRec → α) (d : α) : (endSer f d).Ends fun _ c => c.handle.ser = none := by
  refine Op.Ends.bind fun h => Op.Ends.map ?_
  rintro sc c u c' t ⟨⟩
  rfl

theorem serWriteBody_ends (b : Byte) : (serWriteBody b).Ends fun _ c => c.handle.ser = none :=
  Op.Ends.andThen <| Op.Ends.andThen <| Op.Ends.andThen <| Op.Ends.andThen <| Op.Ends.andThen <| Op.Ends.andThen <|
    endSer_ends _ _

theorem serReadBody_ends : serReadBody.Ends fun _ c => c.handle.ser = none :=
  Op.Ends.andThen <| Op.Ends.andThen <| Op.Ends.andThen <| Op.Ends.andThen <| Op.Ends.andThen <| endSer_ends _ _

theorem Op.Ends.serSettles {x : Op α} (hx : x.Ends fun _ c => c.handle.ser = none) : x.Keeps SerSettles fun _ _ _ _ => True :=
  ⟨fun _ _ _ _ _ h => .inr (hx _ _ _ _ _ h), fun _ _ _ _ _ _ _ => trivial⟩

theorem moduleCloseBody_winSettles : moduleCloseBody.Keeps WinSettles fun _ _ _ _ => True := by
  have hR := composes_winSettles
  have hcall : ∀ {event : Handle → Unit → Event}, (vendorCall noAnswer event).Keeps WinSettles fun _ _ _ _ => True :=
    ⟨fun _ _ _ _ _ h => .inl (by rw [(vendorCall_eq_ok h).1]; exact ⟨rfl, rfl⟩), fun _ _ _ _ _ _ _ => trivial⟩
  refine Op.keeps_bind hR (Op.keeps_getHandle hR) fun h => ?_
  cases h.win with
  | none => exact Op.keeps_pure hR _
  | some va =>
    refine Op.keeps_andThen hR hcall (Op.keeps_andThen hR hcall (Op.keeps_map hR ?_))
    exact ⟨by rintro _ _ _ _ _ ⟨⟩; exact .inr ⟨rfl, rfl⟩, fun _ _ _ _ _ _ _ => trivial⟩

section program
variable {p : Params} {i : Instr} {m : Nat} {g : Program} (hg : programOf p i = some (m, g))
include hg

theorem body_serSettles : g.body.Keeps SerSettles fun _ _ _ _ => True := by
  have hR := composes_serSettles
  have hplain : i.mnemonic ∉ writers .ser → g.body.Keeps SerSettles fun _ _ _ _ => True := fun hi =>
    (body_made hg).keeps fun _ _ _ h => .inl (h.field .ser (mt mem_writers hi))
  cases i
  case serWriteByte =>
    cases hg
    exact Op.keeps_map hR (serWriteBody_ends _).serSettles
  case serReadByte =>
    cases hg
    exact Op.keeps_map hR serReadBody_ends.serSettles
  case serReadSeq =>
    cases hg
    refine Op.keeps_map hR (Op.keeps_ifOk hR (Op.keeps_eachOk hR (fun _ b => ?_) _ _) fun _ => ?_)
    · exact Op.keeps_map hR (Op.keeps_inLoop (serWriteBody_ends b).serSettles)
    · exact Op.keeps_map hR (Op.keeps_times hR (fun _ => Op.keeps_inLoop serReadBody_ends.serSettles) _ _)
  case sysInit => cases hg
  all_goals exact hplain (by simp [Instr.mnemonic, writers])

theorem body_winSettles : g.body.Keeps WinSettles fun _ _ _ _ => True := by
  by_cases hi : i.mnemonic = .moduleClose
  · cases i <;> cases hi
    cases hg
    exact moduleCloseBody_winSettles
  · have hi' : i.mnemonic ∉ [Mnemonic.moduleClose] := by simpa using hi
    exact (body_made hg).keeps fun _ _ _ h =>
      .inl ⟨h.field .dev (mt mem_writers hi'), h.field .win (mt mem_writers hi')⟩

variable {off : Bool} {c c' : Ctx} {r : Reply} {u : List Stage}

theorem result_serSettles (h : g.result p off m c = .ok r c' u) : SerSettles c c' u :=
  (code_keeps composes_serSettles
    (fun f n b => (Op.Made.failWith (S := fun _ => False) f n b).keeps fun _ _ _ h => .inl (h.field .ser id))
    (body_serSettles hg) off).ok _ _ _ _ _ h

theorem result_winSettles (h : g.result p off m c = .ok r c' u) : WinSettles c c' u :=
  (code_keeps composes_winSettles
    (fun f n b => (Op.Made.failWith (S := fun _ => False) f n b).keeps fun _ _ _ h =>
      .inl ⟨h.field .dev id, h.field .win id⟩)
    (body_winSettles hg) off).ok _ _ _ _ _ h

end program

/-! ## An operation that found its module at rest -/

/-- The record of a module between operations. -/
def restingModule (c : Ctx) : Module := { handle := c.handle, pos := .idle, env := c.env }

/-- The two operations whose rule writes `hbrHeld` are those a caller may not issue (30_encoding.md R84 (d)). -/
theorem not_mem_writers_hbrHeld {i : Instr} (h : callerMayIssue i = true) : i.mnemonic ∉ writers .hbrHeld := by
  cases i <;> simp_all [callerMayIssue, Instr.mnemonic, writers]

section result
variable {p : Params} {i : Instr} {m : Nat} {g : Program} {off : Bool} {start c : Ctx} {r : Reply} {u : List Stage}

/-- Its module is at rest again, in its slot, and its trace is paired and clean. -/
theorem result_atRest (hg : programOf p i = some (m, g)) (hmay : callerMayIssue i = true)
    (hrest : (restingModule start).AtRest off) (h : g.result p off m start = .ok r c u) :
    (restingModule c).AtRest off ∧ c.handle.slot = start.handle.slot ∧ HbrPaired (shown u) ∧ DmaClean (shown u) := by
  obtain ⟨-, -, ⟨hheld, hdma, hser⟩, hdev, hoff, hwin⟩ := hrest
  have hframe := result_framed hg h
  have hsame : ∀ f, i.mnemonic ∉ writers f → f.Same start.handle c.handle := fun f hf => hframe.field f (mt mem_writers hf)
  have hheld' : c.handle.hbrHeld = false := Eq.trans (hsame .hbrHeld (not_mem_writers_hbrHeld hmay)) hheld
  obtain ⟨hdma', hwalk⟩ := (wholes_tracks.code hg off).ok _ _ _ _ _ h hdma
  have hser' : c.handle.ser = none := (result_serSettles hg h).elim (·.trans hser) id
  obtain ⟨hdev', hwin'⟩ : c.handle.dev.isSome = c.handle.win.isSome ∧ (off = true → c.handle.win = none) := by
    obtain ⟨hd, hw⟩ | ⟨hd, hw⟩ := result_winSettles hg h
    · rw [hd, hw]
      exact ⟨hdev, hwin⟩
    · simp [hd, hw]
  refine ⟨⟨rfl, rfl, ⟨hheld', hdma', hser'⟩, hdev', Eq.trans (hsame .offline nofun) hoff, hwin'⟩, hsame .slot nofun, ?_,
    hwalk.dma⟩
  exact (congrArg (hbrWalk · (shown u)) hheld.symm).trans (hwalk.hbr.trans (congrArg some hheld'))

/-- In its midst the handle shows what the events issued so far left held and open. -/
theorem after_follows (hg : programOf p i = some (m, g)) {pos : Place} {k : Nat} {t : List Issued}
    (hdma : start.handle.dma = none) (h : (g.result p off m start).after k = .paused pos c t) :
    hbrWalk start.handle.hbrHeld t = some c.handle.hbrHeld ∧
      (dmaWalk .closed t).map ChannelStage.channel = some c.handle.dma := by
  have hkeeps := wholes_tracks.code hg off
  cases hres : g.result p off m start with
  | ok r c' u =>
    obtain ⟨-, hwalk⟩ := hkeeps.ok _ _ _ _ _ hres hdma
    rw [hres, Res.after] at h
    split at h <;> cases h
    rename_i e he
    exact hwalk.mid k e he
  | fault f pos' c' u =>
    obtain ⟨g', hg', hwalk⟩ := hkeeps.fault _ _ _ _ _ _ hres hdma
    rw [hres, Res.after] at h
    split at h
    · cases h
      rename_i e he
      exact hwalk.mid k e he
    · split at h <;> cases h
      exact ⟨hwalk.hbr, by rw [hwalk.dma, ← hg']; rfl⟩
  | refused r =>
    rw [hres] at h
    cases h

end result

/-! ## The invariant, module by module -/

/-- The trace of the last observation is paired and clean. -/
abbrev State.Clean (t : State) : Prop := HbrPaired t.issued ∧ DmaClean t.issued

/-- Writing an entry of a list that looks the same changes nothing that is seen. -/
theorem map_set_of_eq {β γ : Type} {l : List β} {f : β → γ} {n : Nat} {a b : β} (h : l[n]? = some a) (hf : f b = f a) :
    (l.set n b).map f = l.map f := by
  obtain ⟨hn, rfl⟩ := List.getElem?_eq_some_iff.mp h
  rw [List.map_set, hf, ← List.getElem_map f (h := by simpa using hn), List.set_getElem_self]

section state
variable {s t : State} {m : Nat} {x : Module}

/-- The invariant speaks of the parameters and the system alone. -/
theorem State.Inv.congr (hs : s.Inv) (hcfg : t.cfg = s.cfg) (hsys : t.system = s.system) : t.Inv := by
  unfold State.Inv
  rwa [hcfg, hsys]

theorem State.Inv.module (hs : s.Inv) (hx : s.module? m = some x) :
    x.home.AtRest s.isOffline ∧ x.InStep s.cfg s.isOffline m := by
  cases hy : s.system with
  | none => simp [State.module?, hy] at hx
  | some y =>
    have hx' : y.modules[m]? = some x := by simpa [State.module?, hy] using hx
    obtain ⟨⟨-, -, hrest⟩, hstep⟩ := hs y hy
    have hoff : s.isOffline = y.offline := by simp [State.isOffline, hy]
    rw [hoff]
    exact ⟨hrest _ (List.mem_map_of_mem (List.mem_of_getElem? hx')), hstep m (List.getElem?_eq_some_iff.mp hx').1 x hx'⟩

/-- Writing one record keeps the invariant, if the record is one of a module at rest or in step, in its slot. -/
theorem State.Inv.putModule {y : Module} (hs : s.Inv) (hx : s.module? m = some x) (hrest : y.home.AtRest s.isOffline)
    (hslot : y.home.handle.slot = x.home.handle.slot) (hstep : y.InStep s.cfg s.isOffline m) : (s.putModule m y).Inv := by
  intro z hz
  obtain ⟨w, hw, rfl⟩ := Option.map_eq_some_iff.mp hz
  obtain ⟨⟨hlen, hdup, hall⟩, hin⟩ := hs w hw
  have hoff : s.isOffline = w.offline := by simp [State.isOffline, hw]
  have hx' : w.modules[m]? = some x := by simpa [State.module?, hw] using hx
  rw [hoff] at hrest hstep
  refine ⟨⟨by simpa using hlen, ?_, ?_⟩, fun k hk v hv => ?_⟩
  · rw [List.map_map] at hdup ⊢
    rwa [map_set_of_eq hx' hslot]
  · simp only [List.forall_mem_map]
    intro v hv
    obtain hv | rfl := List.mem_or_eq_of_mem_set hv
    · exact hall _ (List.mem_map_of_mem hv)
    · exact hrest
  · rw [List.length_set] at hk
    by_cases hkm : k = m
    · subst hkm
      rw [List.getElem?_set_self hk] at hv
      cases hv
      exact hstep
    · rw [List.getElem?_set_ne (Ne.symm hkm)] at hv
      exact hin k hk v hv

end state

/-! ## Where an operation stands -/

section standing
variable {p : Params} {off : Bool} {m : Nat} {x : Module}

/-- The record of a module while an operation on it is in progress. -/
theorem Job.standing_eq_some {j : Job} : j.standing p off m = some x ↔ ∃ g pos c t, programOf p j.op = some (m, g) ∧
    (g.result p off m j.start).after j.trace.length = .paused pos c t ∧ x = pausedModule j.op j.start pos c t := by
  unfold Job.standing
  constructor
  · intro h
    split at h
    · cases h
    · rename_i n g hg
      split at h <;> [skip; cases h]
      rename_i hn
      split at h <;> cases h
      rename_i pos c t hp
      exact ⟨g, pos, c, t, hn ▸ hg, hp, rfl⟩
  · rintro ⟨g, pos, c, t, hg, hp, rfl⟩
    simp [hg, hp]

theorem Module.home_of_idle (h : x.job = none) : x.home = x := by simp [Module.home, h]

theorem Module.home_of_job {j : Job} (h : x.job = some j) : x.home = restingModule j.start := by
  simp [Module.home, h, restingModule]

theorem Module.inStep_of_no_job (h : x.job = none) : x.InStep p off m := by
  intro j hj
  cases h.symm.trans hj

/-- An idle module has no operation in progress. -/
theorem Module.InStep.job_eq_none (h : x.InStep p off m) (hp : x.pos = .idle) : x.job = none := by
  cases hj : x.job with
  | none => rfl
  | some j =>
    obtain ⟨-, hstand⟩ := h j hj
    obtain ⟨g, pos, c, t, -, -, rfl⟩ := Job.standing_eq_some.mp hstand
    cases hp

/-- An idle module is as an operation would find it. -/
theorem Module.InStep.home_eq (h : x.InStep p off m) (hp : x.pos = .idle) : x = restingModule x.ctx := by
  obtain ⟨handle, pos, env, job⟩ := x
  cases h.job_eq_none hp
  cases hp
  rfl

end standing

/-! ## The moves of a sequencer -/

section moves
variable {s t : State} {i : Instr} {m k : Nat} {g : Program} {x : Module} {start c : Ctx}

/-- An operation that returns leaves its module at rest. -/
theorem State.Inv.returned (hs : s.Inv) (hx : s.module? m = some x) (hhome : x.home = restingModule start)
    (hg : programOf s.cfg i = some (m, g)) (hmay : callerMayIssue i = true) {r : Reply} {u : List Stage}
    (h : g.result s.cfg s.isOffline m start = .ok r c u) :
    (finish g.op r (shown u) (s.putModule m (restingModule c))).Inv ∧
      (finish g.op r (shown u) (s.putModule m (restingModule c))).Clean := by
  have hstart : (restingModule start).AtRest s.isOffline := by
    rw [← hhome]
    exact (hs.module hx).1
  obtain ⟨hrest, hslot, hclean⟩ := result_atRest hg hmay hstart h
  have hput : (s.putModule m (restingModule c)).Inv :=
    hs.putModule hx hrest (hslot.trans (congrArg (·.handle.slot) hhome.symm)) (Module.inStep_of_no_job rfl)
  exact ⟨hput.congr rfl rfl, hclean⟩

/-- An operation in progress leaves its module in step. -/
theorem State.Inv.paused (hs : s.Inv) (hx : s.module? m = some x) (hhome : x.home = restingModule start)
    (hg : programOf s.cfg i = some (m, g)) (hmay : callerMayIssue i = true) {pos : Place} {u : List Issued}
    (h : (g.result s.cfg s.isOffline m start).after k = .paused pos c u) : (s.putModule m (pausedModule i start pos c u)).Inv := by
  have hrest : (restingModule start).AtRest s.isOffline := by
    rw [← hhome]
    exact (hs.module hx).1
  refine hs.putModule hx hrest (congrArg (·.handle.slot) hhome.symm) ?_
  rintro j ⟨⟩
  exact ⟨hmay, Job.standing_eq_some.mpr ⟨g, pos, c, u, hg, (after_eq_paused h).2, rfl⟩⟩

/-- A move of a sequencer leaves its operation in progress, or returned with a clean trace. -/
theorem State.Inv.resume (hs : s.Inv) (hx : s.module? m = some x) (hhome : x.home = restingModule start)
    (hg : programOf s.cfg i = some (m, g)) (hmay : callerMayIssue i = true) (h : resume i m g start k s = .next t) :
    t.Inv ∧ ((∃ pos c u, t = s.putModule m (pausedModule i start pos c u)) ∨ t.Clean) := by
  obtain ⟨pos, c, u, hp, rfl⟩ | ⟨r, c, u, hr, rfl⟩ := resume_eq_next.mp h
  · exact ⟨hs.paused hx hhome hg hmay hp, .inl ⟨pos, c, u, rfl⟩⟩
  · obtain ⟨v, hres, -, rfl⟩ := after_eq_returned.mp hr
    obtain ⟨hinv, hclean⟩ := hs.returned hx hhome hg hmay hres
    exact ⟨hinv, .inr hclean⟩

/-- The first move of an idle sequencer, or several at once. -/
theorem State.Inv.resume_idle (hs : s.Inv) (hx : s.module? m = some x) (hp : x.pos = .idle)
    (hg : programOf s.cfg i = some (m, g)) (hmay : callerMayIssue i = true) (h : Machine.resume i m g x.ctx k s = .next t) :
    t.Inv ∧ ((∃ pos c u, t = s.putModule m (pausedModule i x.ctx pos c u)) ∨ t.Clean) :=
  hs.resume hx ((Module.home_of_idle ((hs.module hx).2.job_eq_none hp)).trans ((hs.module hx).2.home_eq hp)) hg hmay h

/-- The next step of a sequencer. -/
theorem State.Inv.advance (hs : s.Inv) (h : advance m s = .next t) : t.Inv ∧ (t.last = s.last ∨ t.Clean) := by
  obtain ⟨-, rfl⟩ | ⟨j, g, hj, hres⟩ := advance_eq_next.mp h
  · exact ⟨hs, .inl rfl⟩
  · obtain ⟨x, n, hx, hjob, hg⟩ := job_eq_some.mp hj
    obtain ⟨hmay, hstand⟩ := (hs.module hx).2 j hjob
    obtain ⟨g', -, -, -, hg', -⟩ := Job.standing_eq_some.mp hstand
    cases hg.symm.trans hg'
    obtain ⟨hinv, hmove⟩ := hs.resume hx (Module.home_of_job hjob) hg hmay hres
    refine ⟨hinv, hmove.imp_left ?_⟩
    rintro ⟨pos, c, u, rfl⟩
    rfl

end moves

/-! ## Operations run to their return -/

section created
variable {off : Bool} {ds : List (Nat × Option (DevHandle × VAddr))} {k : Nat}

theorem mem_newModules {x : Module} (hx : x ∈ newModules off k ds) : ∃ i, ∃ d ∈ ds, x = newModule i d.1 off d.2 := by
  obtain ⟨i, hi⟩ := List.getElem?_of_mem hx
  rw [newModules_getElem?, Option.map_eq_some_iff] at hi
  obtain ⟨d, hd, rfl⟩ := hi
  exact ⟨k + i, d, List.mem_of_getElem? hd, rfl⟩

theorem newModules_slots : (newModules off k ds).map (fun x => x.handle.slot) = ds.map Prod.fst := by
  induction ds generalizing k with
  | nil => rfl
  | cons d ds ih => exact congrArg _ ih

/-- The modules SYS_INIT creates are at rest. -/
theorem newModule_atRest (i slot : Nat) {d : Option (DevHandle × VAddr)} (hd : off = true → d = none) :
    (newModule i slot off d).AtRest off := by
  refine ⟨rfl, rfl, ⟨rfl, rfl, rfl⟩, by cases d <;> rfl, rfl, fun h => ?_⟩
  rw [hd h]
  rfl

end created

theorem map_fst_zip_sublist {β γ : Type} (l : List β) (l' : List γ) : ((l.zip l').map Prod.fst).Sublist l := by
  rw [List.zip_eq_zip_take_min, List.map_fst_zip (by simp)]
  exact List.take_sublist _ _

section exec
variable {s t : State} {i : Instr} {m : Nat} {x : Module}

/-- What SYS_INIT leaves of the system: as it was, or created with slots of the slot map, offline without windows. -/
theorem sysInit_system {slotMap : List Nat} {flag : Bool} (h : exec (.sysInit slotMap flag) s = .next t) :
    t.cfg = s.cfg ∧ (t.system = s.system ∨ slotMap.length ≤ s.cfg.maxModules.val ∧ slotMap.Nodup ∧
      ∃ ds, t.system = some ⟨flag, newModules flag 0 ds⟩ ∧ (ds.map Prod.fst).Sublist slotMap ∧
        (flag = true → ∀ d ∈ ds, d.2 = none)) := by
  replace h := (guardRegs_eq_next.mp h).2
  split at h
  · cases h
    exact ⟨rfl, .inl rfl⟩
  · rename_i hchecks
    obtain ⟨-, hlen, hdup⟩ := sysInitChecks_pass_iff.mp hchecks
    split at h
    · rename_i hflag
      cases h
      subst hflag
      exact ⟨rfl, .inr ⟨hlen, hdup, _, rfl, by simp [Function.comp_def], by simp⟩⟩
    · rename_i hflag
      cases Bool.eq_false_iff.mpr hflag
      split at h
      · rename_i hs c u hd
        cases h
        exact ⟨rfl, .inr ⟨hlen, hdup, _, rfl, map_fst_zip_sublist _ _, nofun⟩⟩
      · cases h
        exact ⟨rfl, .inl rfl⟩
      · cases h
      · cases h

/-- SYS_INIT keeps the invariant. -/
theorem State.Inv.sysInit (hs : s.Inv) {slotMap : List Nat} {flag : Bool} (h : exec (.sysInit slotMap flag) s = .next t) :
    t.Inv := by
  obtain ⟨hcfg, hsys | ⟨hlen, hdup, ds, hsys, hsub, hclosed⟩⟩ := sysInit_system h
  · exact hs.congr hcfg hsys
  · have hnew : ∀ x ∈ newModules flag 0 ds, x.AtRest flag := by
      intro x hx
      obtain ⟨i, d, hd, rfl⟩ := mem_newModules hx
      exact newModule_atRest i d.1 fun hflag => hclosed hflag d hd
    have hhome : (newModules flag 0 ds).map Module.home = newModules flag 0 ds :=
      (List.map_congr_left fun x hx => Module.home_of_idle (hnew x hx).2.1).trans (List.map_id _)
    intro y hy
    cases hsys.symm.trans hy
    rw [hcfg]
    refine ⟨⟨?_, ?_, ?_⟩, fun m hm x hx => ?_⟩
    · rw [hhome, newModules_length]
      simpa using hsub.length_le.trans hlen
    · rw [hhome, newModules_slots]
      exact hsub.nodup hdup
    · rw [hhome]
      exact hnew
    · exact Module.inStep_of_no_job (hnew x (List.mem_of_getElem? hx)).2.1

/-- An operation run to its return keeps the invariant, and its trace is paired and clean. -/
theorem State.Inv.exec (hs : s.Inv) (hmay : callerMayIssue i = true) (h : exec i s = .next t) : t.Inv ∧ t.Clean := by
  cases hi : i.module? with
  | some m =>
    cases hx : s.module? m with
    | some x =>
      obtain ⟨g, r, c, u, hg, hp, hres, rfl⟩ := exec_eq_next_on_module hi hx h
      have hx' := (hs.module hx).2.home_eq hp
      have hjob := (hs.module hx).2.job_eq_none hp
      rw [hjob]
      exact hs.returned hx ((Module.home_of_idle hjob).trans hx') hg hmay hres
    | none =>
      obtain ⟨g, hg⟩ := programOf_isSome (p := s.cfg) hi
      have hrun := ((exec_eq_next_iff hg).mp h).2
      rw [runOn_of_no_module hx] at hrun
      obtain ⟨b, e, hfail⟩ := failWith_eq_ok ⟨.invalidArgument, .moduleIndex⟩ g.reads g.buf ⟨s.cfg, .probe 0, startPos g.op⟩
        ⟨scratchHandle s.disc none none, s.disc⟩
      obtain ⟨r, c, u, hres, rfl⟩ := runOp_eq_next.mp hrun
      cases hres.symm.trans hfail
      exact ⟨hs.congr rfl rfl, rfl, rfl⟩
  | none =>
    cases i with
    | idDecode bytes =>
      cases h
      exact ⟨hs.congr rfl rfl, rfl, rfl⟩
    | sysInit slotMap flag =>
      refine ⟨hs.sysInit h, paired_and_clean_of_plain fun e he => ?_⟩
      have hp := sysInit_permitted h e he
      exact ⟨hp.request (by decide), hp.channel (by decide)⟩
    | _ => cases hi

/-- Only an idle module runs an operation whole, and may hang in it. -/
theorem idle_of_exec_eq_fault {f : Fault} (hi : i.module? = some m) (hx : s.module? m = some x) (h : exec i s = .fault f) :
    x.pos = .idle := by
  by_contra hp
  obtain ho | ⟨off, -, -, href⟩ := offsets_cases s.cfg i
  · cases (exec_of_busy hi ho hx hp).symm.trans h
  · cases (href s rfl).symm.trans h

end exec

/-! ## The caller's calls -/

section calls
variable {s t : State} {i : Instr}

/-- An operation the caller starts. -/
theorem State.Inv.startOp (hs : s.Inv) (hmay : callerMayIssue i = true) (h : startOp i s = .next t) :
    t.Inv ∧ (t.last = s.last ∨ t.Clean) := by
  unfold Machine.startOp at h
  split at h
  · exact (hs.exec hmay h).imp_right .inr
  · rename_i m g hg
    split at h
    · exact (hs.exec hmay h).imp_right .inr
    · rename_i x hx
      obtain ⟨-, h⟩ := guarded_eq_next.mp h
      split at h <;> [skip; cases h]
      rename_i hp
      obtain ⟨hinv, hmove⟩ := hs.resume_idle hx hp hg hmay h
      refine ⟨hinv, hmove.imp_left ?_⟩
      rintro ⟨pos, c, u, rfl⟩
      rfl

theorem hang_eq_next (h : hang i s = .next t) : ∃ m g x, programOf s.cfg i = some (m, g) ∧ s.module? m = some x ∧
    resume i m g x.ctx (g.result s.cfg s.isOffline m x.ctx).steps s = .next t := by
  unfold hang at h
  split at h <;> [cases h; skip]
  rename_i m g hg
  split at h <;> [cases h; skip]
  rename_i x hx
  exact ⟨m, g, x, hg, hx, h⟩

/-- An operation run whole returns, or is left in progress where it hangs, on a module that was idle. -/
theorem State.Inv.runWhole (hs : s.Inv) (hmay : callerMayIssue i = true) (h : runWhole i s = .next t) :
    t.Inv ∧ ((t.last = s.last ∧ ∃ m y, t.module? m = some y ∧ y.job ≠ none ∧ s.module? m ≠ some y) ∨ t.Clean) := by
  unfold Machine.runWhole at h
  split at h
  · cases h
    rename_i hexec
    exact (hs.exec hmay hexec).imp_right .inr
  · rename_i hexec
    obtain ⟨m, g, x, hg, hx, hres⟩ := hang_eq_next h
    have hp := idle_of_exec_eq_fault (programOf_module hg) hx hexec
    obtain ⟨hinv, hmove⟩ := hs.resume_idle hx hp hg hmay hres
    refine ⟨hinv, hmove.imp_left ?_⟩
    rintro ⟨pos, c, u, rfl⟩
    refine ⟨rfl, m, _, putModule_module_self m _ s hx, by simp, ?_⟩
    rw [hx]
    intro hsame
    cases hp.symm.trans (congrArg Module.pos (Option.some.inj hsame))
  · cases h
  · cases h

/-- What a call of the caller's runs, or what happens without one. -/
theorem withCall_eq_next {f : Instr → State → Host.Outcome State Fault Refusal}
    {idle : State → Host.Outcome State Fault Refusal} (h : withCall f idle s = .next t) :
    (s.calls = [] ∧ idle s = .next t) ∨
      ∃ i rest, callerMayIssue i = true ∧ f i { s with calls := rest } = .next t := by
  cases hc : s.calls with
  | nil => exact .inl ⟨rfl, (withCall_of_none hc).symm.trans h⟩
  | cons c rest =>
    cases hr : readCall c with
    | error r => simp [withCall, nextCall_cons hc, hr] at h
    | ok i =>
      refine .inr ⟨i, rest, ?_, (withCall_of_call hc hr).symm.trans h⟩
      unfold readCall at hr
      split at hr <;> [cases hr; skip]
      split at hr <;> cases hr
      assumption

end calls

/-! ## A step of the machine -/

section step
variable {s t : State}

/-- A step keeps the invariant, and the trace of an operation that returns with it is paired and clean. -/
theorem State.Inv.step (hs : s.Inv) (h : step s = .next t) : t.Inv ∧ (t.last = s.last ∨ t.Clean) := by
  have hqueue : ∀ calls turns, ({ s with calls, turns } : State).Inv := fun _ _ => hs.congr rfl rfl
  cases hturns : s.turns with
  | nil =>
    rw [step_of_free hturns] at h
    obtain ⟨-, hidle⟩ | ⟨i, rest, hmay, hrun⟩ := withCall_eq_next h
    · split at hidle
      · cases hidle
        exact ⟨hs, .inl rfl⟩
      · exact hs.advance hidle
    · exact ((hqueue rest s.turns).runWhole hmay hrun).imp_right (Or.imp_left And.left)
  | cons turn more =>
    cases turn with
    | start =>
      rw [step_of_start hturns] at h
      obtain ⟨-, hidle⟩ | ⟨i, rest, hmay, hrun⟩ := withCall_eq_next h
      · cases hidle
        exact ⟨hqueue s.calls more, .inl rfl⟩
      · exact (hqueue rest more).startOp hmay hrun
    | sequencer m =>
      rw [step_of_turn hturns] at h
      exact (hqueue s.calls more).advance h

/-- A call run whole leaves its operation in progress, or its trace is paired and clean. -/
theorem State.Inv.call_clean (hs : s.Inv) (h : Machine.step s = .next t) (hturns : s.turns = []) (hcalls : s.calls ≠ [])
    (hnew : ∀ m x, t.module? m = some x → x.job = none ∨ s.module? m = some x) : t.Clean := by
  rw [step_of_free hturns] at h
  obtain ⟨hnone, -⟩ | ⟨i, rest, hmay, hrun⟩ := withCall_eq_next h
  · exact absurd hnone hcalls
  · have hqueue : ({ s with calls := rest } : State).Inv := hs.congr rfl rfl
    obtain ⟨-, ⟨-, m, y, hy, hjob, hother⟩ | hclean⟩ := hqueue.runWhole hmay hrun
    · exact ((hnew m y hy).elim hjob hother).elim
    · exact hclean

end step

/-- Settles O8: each kind of step keeps the invariant (`State.Inv.advance`, `State.Inv.startOp`, `State.Inv.runWhole`). -/
theorem stepKeepsInvariant : Obligations.StepKeepsInvariant := fun _ _ hs h => (hs.step h).1

/-- Settles O9: in the next state the invariant holds; a module without an operation is at rest, and one in mid-operation stands where
its operation, which found it at rest, follows the walks (`after_follows`). -/
theorem stepTraceIsPairedAndClean : Obligations.StepTraceIsPairedAndClean := by
  intro s t hs h
  obtain ⟨hinv, hlast⟩ := hs.step h
  refine ⟨fun m x hx hjob => ?_, fun m x j hx hjob => ?_, hlast, hs.call_clean h⟩
  · obtain ⟨-, -, hquiet, -⟩ := (hinv.module hx).1
    rwa [Module.home_of_idle hjob] at hquiet
  · obtain ⟨hrest, hstep⟩ := hinv.module hx
    rw [Module.home_of_job hjob] at hrest
    obtain ⟨-, -, ⟨hheld, hdma, -⟩, -⟩ := hrest
    obtain ⟨-, hstand⟩ := hstep j hjob
    obtain ⟨g, pos, c, u, hg, hp, rfl⟩ := Job.standing_eq_some.mp hstand
    obtain rfl : u = j.trace := congrArg Job.trace (Option.some.inj hjob)
    obtain ⟨hhbr, hchannel⟩ := after_follows hg hdma hp
    exact ⟨(congrArg (hbrWalk · j.trace) hheld.symm).trans hhbr, hchannel⟩

end Sys2Proof.Machine
end

section
/-! SUPPORT. What every operation gives back in the caller's buffer (20_memory.md R66, R68; 60_exceptions.md R257; log 8): how many
words a part of an operation delivers when it ends with OK, and the frame of a buffer read into. -/

namespace Sys2Proof.Machine

variable {α β : Type}

/-! ## What the values of a composition are -/

theorem Op.Ends.pure {Q : α → Ctx → Prop} {a : α} (h : ∀ c, Q a c) : (Op.pure a).Ends Q := by
  rintro sc c _ c' t ⟨⟩
  exact h c

theorem Op.Ends.of_forall {Q : α → Ctx → Prop} {x : Op α} (h : ∀ a c, Q a c) : x.Ends Q := fun _ _ a c _ _ => h a c

theorem Op.Ends.mono {P Q : α → Ctx → Prop} {x : Op α} (hx : x.Ends P) (h : ∀ a c, P a c → Q a c) : x.Ends Q :=
  fun _ _ _ _ _ hok => h _ _ (hx _ _ _ _ _ hok)

theorem Op.Ends.placed {Q : α → Ctx → Prop} {g : Place → Place} {x : Op α} (hx : x.Ends Q) : (x.placed g).Ends Q :=
  fun _ => hx _

/-- A composition whose second part depends on what holds of the first one's value. -/
theorem Op.Ends.bind_of {P : α → Prop} {Q : β → Ctx → Prop} {x : Op α} {f : α → Op β} (hx : x.Ends fun a _ => P a)
    (hf : ∀ a, P a → (f a).Ends Q) : (x.bind f).Ends Q := by
  intro sc c b c' t h
  obtain ⟨a, c₁, t₁, t₂, h₁, h₂, -⟩ := Op.bind_eq_ok.mp h
  exact hf a (hx _ _ _ _ _ h₁) _ _ _ _ _ h₂

/-- The values of a repeated part are as many as its turns. -/
theorem Op.Ends.times_length (f : Nat → Op β) (i n : Nat) : (Op.times f i n).Ends fun bs _ => bs.length = n := by
  induction n generalizing i with
  | zero => exact .pure fun _ => rfl
  | succ n ih =>
    refine .bind fun b => .map ?_
    simpa using ih (i + 1)

/-- A failure, or a value of which `P` holds. -/
def IfOk (P : α → Prop) : Except Failure α → Prop
  | .ok a => P a
  | .error _ => True

theorem IfOk.of_forall {P : α → Prop} (h : ∀ a, P a) : ∀ r, IfOk P r
  | .ok a => h a
  | .error _ => trivial

theorem IfOk.mono {P Q : α → Prop} (h : ∀ a, P a → Q a) : ∀ {r}, IfOk P r → IfOk Q r
  | .ok a, ha => h a ha
  | .error _, _ => trivial

/-- Whenever the part ends with OK, it gives a list of `n` values. -/
abbrev Op.Delivers (n : Nat) (x : Op (Except Failure (List α))) : Prop := x.Ends fun r _ => IfOk (·.length = n) r

section ifOk
variable {P : α → Prop} {Q : β → Prop} {x : Op (Except Failure α)} {f : α → Op (Except Failure β)}

theorem Op.Ends.ifOk_of (hx : x.Ends fun r _ => IfOk P r) (hf : ∀ a, P a → (f a).Ends fun r _ => IfOk Q r) :
    (x.ifOk f).Ends fun r _ => IfOk Q r :=
  .bind_of hx fun r hr =>
    match r, hr with
    | .ok a, ha => hf a ha
    | .error _, _ => .pure fun _ => trivial

theorem Op.Ends.ifOk (hf : ∀ a, (f a).Ends fun r _ => IfOk Q r) : (x.ifOk f).Ends fun r _ => IfOk Q r :=
  .ifOk_of (.of_forall fun r _ => .of_forall (fun _ => trivial) r) fun a _ => hf a

/-- A part run for every element until one fails gives a value for each. -/
theorem Op.Ends.eachOk {f : Nat → α → Op (Except Failure β)} (hf : ∀ i a, (f i a).Ends fun r _ => IfOk Q r) (l : List α)
    (i : Nat) : (Op.eachOk f i l).Ends fun r _ => IfOk (fun bs => bs.length = l.length ∧ ∀ b ∈ bs, Q b) r := by
  induction l generalizing i with
  | nil => exact .pure fun _ => ⟨rfl, List.forall_mem_nil _⟩
  | cons a l ih =>
    exact .ifOk_of (hf i a) fun b hb => .ifOk_of (ih (i + 1)) fun bs ⟨hlen, hbs⟩ =>
      .pure fun _ => ⟨congrArg (· + 1) hlen, List.forall_mem_cons.mpr ⟨hb, hbs⟩⟩

end ifOk

theorem Op.Delivers.eachOk (f : Nat → α → Op (Except Failure β)) (l : List α) (i : Nat) :
    (Op.eachOk f i l).Delivers l.length :=
  (Op.Ends.eachOk (fun _ _ => .of_forall fun r _ => .of_forall (fun _ => trivial) r) l i).mono
    fun _ _ hr => hr.mono fun _ => And.left

/-! ## How many words the shared operations deliver -/

theorem resited_delivers {site : Site} {n : Nat} {x : Op (Except Failure (List α))} (hx : x.Delivers n) :
    (resited site x).Delivers n :=
  .map <| hx.mono fun r _ hr =>
    match r, hr with
    | .ok _, hlen => hlen
    | .error _, _ => trivial

theorem withHbr_ends {P : α → Prop} {x : Op α} (hx : x.Ends fun a _ => P a) : (withHbr x).Ends fun r _ => IfOk P r :=
  .ifOk fun _ => .bind_of hx fun _ ha => .map (.of_forall fun _ _ => ha)

theorem withExtMem_ends {P : α → Prop} {x : Op α} (hx : x.Ends fun a _ => P a) : (withExtMem x).Ends fun a _ => P a :=
  .andThen <| .bind_of hx fun _ ha => .map (.of_forall fun _ _ => ha)

/-- A transfer to the host delivers the words asked for, scripted or free (log 17). -/
theorem deliver_length (n : Nat) (data : List Word) : (deliver n data).Ends fun ws _ => ws.length = n := by
  rintro sc c ws c' t ⟨⟩
  simp only [envFreeWords, List.length_append, List.length_take, List.length_map, List.length_range]
  omega

theorem dmaTransfer_delivers (ch : Channel) (port : Reg) (host : List Word) (count : Nat) (dir : Dir) :
    (dmaTransfer ch port host count dir).Delivers (burstSpoils dir count) := by
  refine .withCfg fun p => ?_
  split
  · refine .bind fun a => ?_
    cases a.result with
    | ok =>
      cases dir with
      | toHost => exact .map (deliver_length count a.data)
      | toModule => exact .pure fun _ => rfl
    | timeout => exact .pure fun _ => trivial
    | vendorError => exact .pure fun _ => trivial
  · rintro sc c r c' t ⟨⟩

/-- The first failure wins: what is left with OK is the first value. -/
theorem ifOk_firstOf {P : α → Prop} {st : Except Failure α} (hst : IfOk P st) (c : Except Failure Unit) :
    IfOk P (firstOf st c) := by
  cases st with
  | error f => trivial
  | ok a =>
    cases c with
    | ok u => exact hst
    | error f => trivial

theorem dmaBurst_delivers (kind : Kind) (port : Reg) (host : List Word) (count : Nat) (dir : Dir) :
    (dmaBurst kind port host count dir).Delivers (burstSpoils dir count) := by
  refine .withCfg fun p => .bind fun o => ?_
  cases o with
  | none => exact .pure fun _ => trivial
  | some ch =>
    exact .andThen <| .bind_of (.ifOk fun _ => dmaTransfer_delivers ch port host count dir) fun st hst =>
      .map (.of_forall fun c _ => ifOk_firstOf hst c)

/-! ## How many words the reading operations deliver -/

theorem blockRead_delivers (a : Word) (host : List Word) (w : Nat) : (blockRead a host w).Delivers w :=
  .map <| (withHbr_ends (.andThen (.andThen (dmaBurst_delivers .dsp .dspData host w .toHost)))).mono fun r _ hr =>
    match r, hr with
    | .ok _, hst => hst
    | .error _, _ => trivial

theorem singleRead_delivers (a : Word) (r : Nat) : (singleRead a r).Delivers r := by
  refine .withCfg fun p => ?_
  cases p.remainderMode with
  | autoinc => exact withHbr_ends (.andThen (.andThen (.times_length _ 0 r)))
  | perword => simpa using Op.Delivers.eachOk (fun _ i => Op.inLoop i (dspReadOne (a + BitVec.ofNat 32 i))) (List.range r) 0

theorem dspBlocks_ends (addr : Word) (host : List Word) (w nb : Nat) :
    (dspBlocks addr host w nb).Ends fun r _ => IfOk (fun bs => bs.flatten.length = nb * w) r := by
  have hblocks := Op.Ends.eachOk (Q := fun ws : List Word => ws.length = w)
    (fun _ k => resited_delivers (site := .dspBlock) <| .placed (g := posLoop k) <|
      blockRead_delivers (addr + BitVec.ofNat 32 (k * w)) (host.drop (k * w)) w) (List.range nb) 0
  refine hblocks.mono fun r _ hr => hr.mono fun bs ⟨hlen, hall⟩ => ?_
  rw [List.length_flatten, List.map_congr_left hall]
  simpa using Or.inl hlen

theorem dspRemainder_delivers (addr : Word) (host : List Word) (base r singleMax : Nat) :
    (dspRemainder addr host base r singleMax).Delivers r := by
  unfold dspRemainder
  split
  · refine resited_delivers ?_
    split
    · exact singleRead_delivers _ _
    · exact blockRead_delivers _ _ _
  · exact .pure fun _ => show 0 = r by omega

/-- The full blocks and the remainder are the words asked for (42_hbr_dma.md R154). -/
theorem dspReadBody_delivers (addr : Word) (count : Nat) (host : List Word) : (dspReadBody addr count host).Delivers count := by
  refine .withCfg fun p => ?_
  split
  · rename_i hone
    exact .ifOk fun v => .pure fun _ => hone.symm
  · refine .ifOk_of (dspBlocks_ends _ _ _ _) fun blocks hblocks =>
      .ifOk_of (dspRemainder_delivers _ _ _ _ _) fun rest hrest => .pure fun _ => ?_
    show (blocks.flatten ++ rest).length = count
    rw [List.length_append, hblocks, hrest, Nat.mul_comm]
    exact Nat.div_add_mod count p.dspBlockWords

theorem fifoDrainBody_delivers (count : Nat) (host : List Word) : (fifoDrainBody count host).Delivers count := by
  unfold fifoDrainBody
  split
  · rename_i hzero
    exact .pure fun _ => hzero.symm
  · refine .andThen <| .withCfg fun p => .bind fun r => ?_
    cases r with
    | none => exact .pure fun _ => trivial
    | some v => exact resited_delivers (dmaBurst_delivers .fifo .extfifoData host count .toHost)

theorem extReadBody_delivers (addr : Word) (count : Nat) (host : List Word) : (extReadBody addr count host).Delivers count :=
  .andThen <| .andThen <| .withCfg fun _ => .ifOk fun _ =>
    resited_delivers (dmaBurst_delivers .ext .extmemData host count .toHost)

theorem serReadSeqBody_delivers (lead : List Byte) (n : Nat) : (serReadSeqBody lead n).Delivers n :=
  .ifOk fun _ => .map (.times_length _ 0 n)

/-! ## The frame of a buffer -/

/-- `b'` is the buffer `b` after an operation that reads `n` words into it (20_memory.md R68): present as it was, of its length, and
unchanged beyond them. -/
structure BufFramed (b : Buf) (n : Nat) (b' : Buf) : Prop where
  isSome : b'.isSome = b.isSome
  length : bufLen b' = bufLen b
  rest : (bufWords b').drop n = (bufWords b).drop n

theorem BufFramed.refl (b : Buf) (n : Nat) : BufFramed b n b := ⟨rfl, rfl, rfl⟩

/-- Words put at the front of a buffer that holds them, no more than are read into it. -/
theorem bufFramed_bufPut {b : Buf} {ws : List Word} {n : Nat} (hn : ws.length ≤ n) (hb : ws.length ≤ bufLen b) :
    BufFramed b n (bufPut b ws) := by
  cases b with
  | none => exact .refl none n
  | some old =>
    replace hb : ws.length ≤ old.length := hb
    refine ⟨rfl, ?_, ?_⟩
    · show (ws ++ old.drop ws.length).length = old.length
      rw [List.length_append, List.length_drop, Nat.add_sub_cancel' hb]
    · show (ws ++ old.drop ws.length).drop n = old.drop n
      rw [List.drop_append, List.drop_of_length_le hn, List.nil_append, List.drop_drop, Nat.add_sub_cancel' hn]

/-- A failure draws free words for those read into, as many as the buffer holds (log 8). -/
theorem spoil_framed (n : Nat) (b : Buf) : (spoil n b).Ends fun b' _ => BufFramed b n b' := by
  cases b with
  | none =>
    rintro sc c b' c' t ⟨⟩
    exact .refl none n
  | some ws =>
    rintro sc c b' c' t ⟨⟩
    have hlen : (envFreeWords (min n ws.length) c.env).1.length = min n ws.length := by simp [envFreeWords]
    have hput := bufFramed_bufPut (b := some ws) (hlen.trans_le (min_le_left _ _)) (hlen.trans_le (min_le_right _ _))
    rwa [bufPut, hlen] at hput

theorem failWith_framed (f : Failure) (n : Nat) (b : Buf) : (failWith f n b).Ends fun r _ => BufFramed b n r.buf :=
  .map (spoil_framed n b)

theorem replyWords_framed {n : Nat} {b : Buf} {r : Except Failure (List Word)} (hr : IfOk (·.length = n) r)
    (hb : n ≤ bufLen b) : (replyWords n b r).Ends fun r _ => BufFramed b n r.buf := by
  cases r with
  | ok ws =>
    replace hr : ws.length = n := hr
    exact .pure fun _ => bufFramed_bufPut hr.le (hr.trans_le hb)
  | error f => exact failWith_framed f n b

/-- The reading operations with a count: the words delivered, or a failure. -/
theorem bind_replyWords_framed {n : Nat} {b : Buf} {x : Op (Except Failure (List Word))} (hx : x.Delivers n)
    (hb : n ≤ bufLen b) : (x.bind (replyWords n b)).Ends fun r _ => BufFramed b n r.buf :=
  .bind_of hx fun _ hr => replyWords_framed hr hb

theorem replyOf_framed (b : Buf) (n : Nat) (x : Op (Except Failure Unit)) :
    (x.map (replyOf b)).Ends fun r _ => BufFramed b n r.buf :=
  .map <| .of_forall fun r _ =>
    match r with
    | .ok _ | .error _ => .refl b n

theorem readIntoBuf_framed {b : Buf} (hb : 1 ≤ bufLen b) (x : Op Word) :
    (readIntoBuf b x).Ends fun r _ => BufFramed b 1 r.buf :=
  .map <| .of_forall fun _ _ => bufFramed_bufPut le_rfl hb

/-! ## The buffer of every operation -/

theorem moduleCloseBody_buf : moduleCloseBody.Ends fun r _ => r.buf = none := by
  refine .bind fun h => ?_
  cases h.win with
  | none => exact .pure fun _ => rfl
  | some va => exact .andThen <| .andThen <| .map (.of_forall fun _ _ => rfl)

theorem le_of_buffer_check {b : Buf} {n : Nat} {f : Failure} (h : (if bufLen b < n then some f else none) = none) :
    n ≤ bufLen b := by simpa using h

theorem le_of_count_and_buffer_check {b : Buf} {n : Nat} {f f' : Failure}
    (h : (if n = 0 then some f else if bufLen b < n then some f' else none) = none) : n ≤ bufLen b := by
  split at h
  · cases h
  · exact le_of_buffer_check h

/-- The argument checks leave room in the buffer for the words read into it. -/
theorem readsInto_le_bufLen {p : Params} {i : Instr} (h : argFailure p i = none) : readsInto i ≤ bufLen (bufOperand i) := by
  cases i
  case regRead | csrRead | serReadByte | serReadSeq | fifoReadWm | fifoDrain => exact le_of_buffer_check h
  case dspMemRead | extMemRead => exact le_of_count_and_buffer_check h
  case dmaBurst dir =>
    cases dir with
    | toHost => exact le_of_count_and_buffer_check h
    | toModule => exact Nat.zero_le _
  all_goals exact Nat.zero_le _

section program
variable {p : Params} {i : Instr} {m : Nat} {g : Program} (hg : programOf p i = some (m, g))
include hg

theorem programOf_reads : g.reads = readsInto i := by
  cases i <;> cases hg
  case dmaBurst dir => cases dir <;> rfl
  all_goals rfl

theorem body_framed (hb : readsInto i ≤ bufLen (bufOperand i)) :
    g.body.Ends fun r _ => BufFramed (bufOperand i) (readsInto i) r.buf := by
  have hsame : ∀ r : Reply, r.buf = bufOperand i → BufFramed (bufOperand i) (readsInto i) r.buf :=
    fun r hr => hr ▸ .refl _ _
  cases i <;> cases hg
  case regWrite | csrWrite | csrSetBits | csrClearBits | serWriteByte | hbrDone | extMemWrite =>
    exact .map (.of_forall fun _ _ => hsame _ rfl)
  case hbrRequest | dspMemWrite | extMemClear | bootCommFpga | bootSpFpga | bootDsp | bootModule => exact replyOf_framed _ _ _
  case regRead | csrRead | fifoReadWm => exact readIntoBuf_framed hb _
  case serReadByte => exact .map (.of_forall fun _ _ => bufFramed_bufPut le_rfl hb)
  case serReadSeq lead n buf =>
    refine .map <| (serReadSeqBody_delivers lead n).mono fun r _ hr => ?_
    cases r with
    | ok bytes =>
      have hlen : (bytes.map zextByte).length = n := (List.length_map _).trans hr
      exact bufFramed_bufPut hlen.le (hlen.trans_le hb)
    | error f => exact hsame _ rfl
  case dspMemRead => exact bind_replyWords_framed (dspReadBody_delivers _ _ _) hb
  case dmaBurst dir =>
    cases dir <;> exact bind_replyWords_framed (dmaBurst_delivers _ _ _ _ _) hb
  case fifoDrain => exact bind_replyWords_framed (fifoDrainBody_delivers _ _) hb
  case extMemRead => exact bind_replyWords_framed (withExtMem_ends (extReadBody_delivers _ _ _)) hb
  case moduleClose => exact moduleCloseBody_buf.mono fun r _ hr => hsame r hr

/-- The preamble adds failures and the offline reply, which returns the buffer unchanged. -/
theorem code_framed (offline : Bool) : (g.code offline).Ends fun r _ => BufFramed (bufOperand i) (readsInto i) r.buf := by
  have hfail : ∀ f, (failWith f g.reads g.buf).Ends fun r _ => BufFramed (bufOperand i) (readsInto i) r.buf := by
    rw [programOf_reads hg, programOf_buf hg]
    exact fun f => failWith_framed f _ _
  unfold Program.code preamble
  cases hc : firstFailure g.checks with
  | some f => exact hfail f
  | none =>
    have hbody := body_framed hg (readsInto_le_bufLen ((programOf_checks hg).symm.trans hc))
    cases offline with
    | true => exact .pure fun _ => by simpa [programOf_buf hg] using BufFramed.refl _ _
    | false =>
      simp only [Bool.false_eq_true, if_false]
      split
      · refine .bind fun h => ?_
        split
        · exact hfail _
        · exact hbody
      · exact hbody

/-- On a module or where none stands, the program returns the operand's buffer, framed. -/
theorem runOn_framed {s t : State} (h : g.runOn m s = .next t) :
    BufFramed (bufOperand i) (readsInto i) t.buf := by
  obtain ⟨-, r, c, u, hr, rfl⟩ | ⟨x, -, -, r, c, u, hr, rfl⟩ := runOn_eq_next h
  · rw [programOf_reads hg, programOf_buf hg] at hr
    exact failWith_framed _ _ _ _ _ _ _ _ hr
  · exact code_framed hg _ _ _ _ _ _ hr

end program

/-- ID_DECODE and SYS_INIT have no buffer and return none. -/
theorem idReply_buf (p : Params) (bytes : List Byte) : (idReply p bytes).buf = none := by
  unfold idReply
  split
  · dsimp only
    split <;> rfl
  · rfl

theorem sysInit_buf {slotMap : List Nat} {flag : Bool} {s t : State} (h : exec (.sysInit slotMap flag) s = .next t) :
    t.buf = none := by
  replace h := (guardRegs_eq_next.mp h).2
  split at h
  · cases h
    rfl
  · split at h
    · cases h
      rfl
    · split at h <;> cases h <;> rfl

/-- Settles O17: a program's reply holds the words delivered, a failure's free words, or the operand itself (`code_framed`). -/
theorem bufferFrame : Obligations.BufferFrame := by
  intro i s t h
  have hframed : BufFramed (bufOperand i) (readsInto i) t.buf := by
    cases hi : programOf s.cfg i with
    | some mg => exact runOn_framed hi ((exec_eq_next_iff hi).mp h).2
    | none =>
      cases i with
      | idDecode bytes =>
        cases h
        show BufFramed none 0 (idReply s.cfg bytes).buf
        exact (idReply_buf s.cfg bytes).symm ▸ .refl none 0
      | sysInit slotMap flag => exact sysInit_buf h ▸ .refl none 0
      | _ => cases hi
  exact ⟨hframed.isSome, hframed.length, hframed.rest⟩

/-! ## The checks of SYS_INIT (44_discovery.md R240) -/

/-- With admitted offsets, the first check that fails ends SYS_INIT without an event. -/
theorem sysInit_of_check_fails {s : State} {slotMap : List Nat} {flag : Bool} {f : Failure}
    (ho : OffsetsOk s.cfg (.sysInit slotMap flag)) (hf : firstFailure (sysInitChecks s slotMap) = some f) :
    exec (.sysInit slotMap flag) s = .next (finish .sysInit { status := .fail f } [] s) := by
  show execSysInit slotMap flag s = _
  simp only [execSysInit, hf]
  exact guardRegs_of_ok (List.forall_mem_map.mp ho)

/-- Settles O56: each clause's hypotheses say which check of R240 fails first. -/
theorem sysInitChecksFirst : Obligations.SysInitChecksFirst := by
  intro s slotMap flag ho
  refine ⟨fun hs => ?_, fun hs hlen => ?_, fun hs hlen hdup => ?_⟩ <;> refine sysInit_of_check_fails ho ?_
  · simp [sysInitChecks, firstFailure, Option.isSome_iff_ne_none.mpr hs]
  · simp [sysInitChecks, firstFailure, hs, hlen]
  · simp [sysInitChecks, firstFailure, hs, hlen.not_gt, hdup]

end Sys2Proof.Machine
end

section
/-! SUPPORT. Command words and status codes (30_encoding.md R81 to R88): a command word is its three fields, an `OP` value of the
table spells one operation, and a call that spells none, or one no caller may issue, stops the step. -/

namespace Sys2Proof.Machine

/-! ## The fields of a command word (30_encoding.md R81) -/

@[simp] theorem cmdOp_append (op mod : Byte) (rsv : BitVec 16) : cmdOp (op ++ mod ++ rsv) = op := by
  rw [cmdOp, BitVec.extractLsb'_append_eq_of_le (by decide)]
  exact BitVec.extractLsb'_append_eq_left

@[simp] theorem cmdMod_append (op mod : Byte) (rsv : BitVec 16) : cmdMod (op ++ mod ++ rsv) = mod := by
  rw [cmdMod, BitVec.extractLsb'_append_eq_of_le (by decide)]
  exact BitVec.extractLsb'_append_eq_right

@[simp] theorem cmdRsv_append (op mod : Byte) (rsv : BitVec 16) : cmdRsv (op ++ mod ++ rsv) = rsv :=
  BitVec.extractLsb'_append_eq_right

/-- A command word is `OP`, `MOD` and `RSV`, and nothing else. -/
theorem append_fields (w : Word) : cmdOp w ++ cmdMod w ++ cmdRsv w = w := by
  unfold cmdOp cmdMod cmdRsv
  rw [BitVec.extractLsb'_append_extractLsb'_eq_extractLsb' (start₂ := 24) (start₁ := 16) (by decide),
    BitVec.extractLsb'_append_extractLsb'_eq_extractLsb' (by decide)]
  exact BitVec.extractLsb'_eq_self

/-! ## The opcode table (30_encoding.md R83) -/

/-- An `OP` value spells the operation whose opcode it is. -/
theorem ofOpcode_eq_some_iff {op : Byte} {k : Mnemonic} : Mnemonic.ofOpcode op = some k ↔ op = k.opcode := by
  constructor
  · intro h
    unfold Mnemonic.ofOpcode at h
    split at h <;> cases h <;> exact BitVec.eq_of_toNat_eq ‹_›
  · rintro rfl
    cases k <;> rfl

/-- The `OP` values of the table are the opcodes of the operations. -/
theorem mem_tableOpcodes_iff {op : Byte} : op ∈ tableOpcodes ↔ ∃ k : Mnemonic, op = k.opcode := by
  have htable : tableOpcodes = [Mnemonic.regRead, .regWrite, .csrRead, .csrWrite, .csrSetBits, .csrClearBits, .serWriteByte,
      .serReadByte, .serReadSeq, .idDecode, .hbrRequest, .hbrDone, .dspMemWrite, .dspMemRead, .dmaBurst, .fifoReadWm, .fifoDrain,
      .extMemWrite, .extMemRead, .extMemClear, .bootCommFpga, .bootSpFpga, .bootDsp, .bootModule, .sysInit,
      .moduleClose].map Mnemonic.opcode := rfl
  rw [htable, List.mem_map]
  constructor
  · rintro ⟨k, -, rfl⟩
    exact ⟨k, rfl⟩
  · rintro ⟨k, rfl⟩
    exact ⟨k, by cases k <;> decide, rfl⟩

theorem ofOpcode_eq_none_iff {op : Byte} : Mnemonic.ofOpcode op = none ↔ op ∉ tableOpcodes := by
  simp only [mem_tableOpcodes_iff, Option.eq_none_iff_forall_ne_some, ne_eq, ofOpcode_eq_some_iff, not_exists]

/-- The operations that name no module are those of the opcodes 0x13 and 0x50. -/
theorem noModule_iff (k : Mnemonic) : k.noModule = true ↔ k.opcode ∈ [0x13#8, 0x50#8] := by
  cases k <;> decide

/-! ## Decoding and encoding (30_encoding.md R82, R84) -/

@[simp] theorem assemble_mnemonic (k : Mnemonic) (m : Nat) (a : Operands) : (assemble k m a).mnemonic = k := by
  cases k <;> rfl

@[simp] theorem assemble_module (k : Mnemonic) (m : Nat) (a : Operands) :
    (assemble k m a).module? = if k.noModule = true then none else some m := by
  cases k <;> rfl

/-- An operation is assembled from its own name, module index and operand record. -/
theorem assemble_operands (i : Instr) : assemble i.mnemonic (i.module?.getD 0) i.operands = i := by
  cases i <;> rfl

theorem module_eq_none_of_noModule {i : Instr} (h : i.mnemonic.noModule = true) : i.module? = none := by
  cases i with
  | idDecode | sysInit => rfl
  | _ => cases h

/-- What is left of decoding once `OP` is found in the table. -/
theorem decode_of_opcode {c : Call} {k : Mnemonic} (h : cmdOp c.cmd = k.opcode) : decode c =
    if cmdRsv c.cmd ≠ 0 then .error .reservedNotZero
    else if k.noModule = true ∧ cmdMod c.cmd ≠ 0 then .error .moduleNotZero
    else .ok (assemble k (cmdMod c.cmd).toNat c.args) := by
  simp only [decode, ofOpcode_eq_some_iff.mpr h]

theorem decode_of_unknown {c : Call} (h : cmdOp c.cmd ∉ tableOpcodes) : decode c = .error (.unknownOp (cmdOp c.cmd)) := by
  simp only [decode, ofOpcode_eq_none_iff.mpr h]

/-- A call decodes exactly when its `OP` is in the table, its `RSV` is 0, and its `MOD` is 0 where no module is named. -/
theorem decode_eq_ok_iff {c : Call} {i : Instr} : decode c = .ok i ↔
    ∃ k : Mnemonic, cmdOp c.cmd = k.opcode ∧ cmdRsv c.cmd = 0 ∧ (k.noModule = true → cmdMod c.cmd = 0) ∧
      assemble k (cmdMod c.cmd).toNat c.args = i := by
  constructor
  · intro h
    by_cases hop : cmdOp c.cmd ∈ tableOpcodes
    · obtain ⟨k, hk⟩ := mem_tableOpcodes_iff.mp hop
      rw [decode_of_opcode hk] at h
      split_ifs at h with hrsv hmod
      exact ⟨k, hk, not_not.mp hrsv, fun hn => by_contra fun hne => hmod ⟨hn, hne⟩, Except.ok.inj h⟩
    · rw [decode_of_unknown hop] at h
      cases h
  · rintro ⟨k, hk, hrsv, hmod, rfl⟩
    rw [decode_of_opcode hk, if_neg (not_not.mpr hrsv), if_neg fun h => h.2 (hmod h.1)]

/-- Settles O1: the word's fields are the opcode and the module index, and the operand record holds every operand. -/
theorem decodeEncodeRoundTrip : Obligations.DecodeEncodeRoundTrip := by
  intro i hfits
  have hlt : i.module?.getD 0 < 256 := by
    cases h : i.module? with
    | none => decide
    | some m => exact hfits m h
  refine decode_eq_ok_iff.mpr ⟨i.mnemonic, cmdOp_append .., cmdRsv_append .., fun h => ?_, ?_⟩
  · rw [encode, Instr.word, cmdMod_append, module_eq_none_of_noModule h]
    rfl
  · rw [encode, Instr.word, cmdMod_append, BitVec.toNat_ofNat, Nat.mod_eq_of_lt hlt]
    exact assemble_operands i

/-- Settles O2: the three fields of a word that decodes are those the encoder writes. -/
theorem decodedWordIsTheEncoding : Obligations.DecodedWordIsTheEncoding := by
  intro c i h
  obtain ⟨k, hop, hrsv, hmod, rfl⟩ := decode_eq_ok_iff.mp h
  constructor
  · have hword := append_fields c.cmd
    rw [hrsv] at hword
    have hindex : BitVec.ofNat 8 ((assemble k (cmdMod c.cmd).toNat c.args).module?.getD 0) = cmdMod c.cmd := by
      rw [assemble_module]
      split_ifs with hk
      · exact (hmod hk).symm
      · simp
    rw [Instr.word, assemble_mnemonic, hindex, ← hop]
    exact hword
  · intro m hm
    rw [assemble_module] at hm
    split_ifs at hm
    · cases hm
    · cases hm
      exact (cmdMod c.cmd).isLt

/-- Settles O4, by evaluating the decoder on the eight words. -/
theorem tableWordsDecode : Obligations.TableWordsDecode := by
  unfold Obligations.TableWordsDecode
  decide

/-! ## Refused calls (30_encoding.md R84) -/

theorem decode_of_reserved {c : Call} (h : cmdOp c.cmd ∈ tableOpcodes) (hrsv : cmdRsv c.cmd ≠ 0) :
    decode c = .error .reservedNotZero := by
  obtain ⟨k, hk⟩ := mem_tableOpcodes_iff.mp h
  rw [decode_of_opcode hk, if_pos hrsv]

/-- The opcodes 0x13 and 0x50 spell the two operations that name no module. -/
theorem decode_of_stray_module {c : Call} (h : cmdOp c.cmd ∈ [0x13#8, 0x50#8]) (hrsv : cmdRsv c.cmd = 0)
    (hmod : cmdMod c.cmd ≠ 0) : decode c = .error .moduleNotZero := by
  have hk : ∃ k : Mnemonic, cmdOp c.cmd = k.opcode ∧ k.noModule = true := by
    obtain h | h : cmdOp c.cmd = 0x13#8 ∨ cmdOp c.cmd = 0x50#8 := by simpa using h
    · exact ⟨.idDecode, h, rfl⟩
    · exact ⟨.sysInit, h, rfl⟩
  obtain ⟨k, hk, hnone⟩ := hk
  rw [decode_of_opcode hk, if_neg (not_not.mpr hrsv), if_pos ⟨hnone, hmod⟩]

/-- The opcodes 0x20 and 0x21 spell the two operations no caller may issue. -/
theorem readCall_of_internal {c : Call} (h : cmdOp c.cmd ∈ [0x20#8, 0x21#8]) (hrsv : cmdRsv c.cmd = 0) :
    readCall c = .error .callerIssuedInternal := by
  obtain h | h : cmdOp c.cmd = 0x20#8 ∨ cmdOp c.cmd = 0x21#8 := by simpa using h
  · have hdec : decode c = .ok (.hbrRequest (cmdMod c.cmd).toNat) :=
      decode_eq_ok_iff.mpr ⟨.hbrRequest, h, hrsv, nofun, rfl⟩
    simp [readCall, hdec, callerMayIssue]
  · have hdec : decode c = .ok (.hbrDone (cmdMod c.cmd).toNat) := decode_eq_ok_iff.mpr ⟨.hbrDone, h, hrsv, nofun, rfl⟩
    simp [readCall, hdec, callerMayIssue]

/-- A step that does not go to a sequencer refuses the oldest call where reading it does. -/
theorem step_of_refused_call {s : State} {c : Call} {rest : List Call} {r : Refusal} (hc : s.calls = c :: rest)
    (hturn : ∀ m, s.turns.head? ≠ some (.sequencer m)) (hr : readCall c = .error r) : step s = .refused r := by
  cases ht : s.turns with
  | nil => simp [step_of_free ht, freeStep, withCall, nextCall_cons hc, hr]
  | cons turn q =>
    cases turn with
    | start =>
      rw [step_of_start ht]
      simp [withCall, nextCall_cons (s := { s with turns := q }) hc, hr]
    | sequencer m => exact absurd (by simp [ht]) (hturn m)

/-- Settles O3: the first three clauses are the decoder's errors, the fourth the check of a caller's right; and an operation on a
missing module fails its index check. -/
theorem refusedEncodings : Obligations.RefusedEncodings := by
  intro s c rest hc hturn
  have hrefused : ∀ {r}, readCall c = .error r → step s = .refused r := step_of_refused_call hc hturn
  refine ⟨fun h => hrefused ?_, fun h hrsv => hrefused ?_, fun h hrsv hmod => hrefused ?_,
    fun h hrsv => hrefused (readCall_of_internal h hrsv), fun h hmod hrsv => ?_⟩
  · simp [readCall, decode_of_unknown h]
  · simp [readCall, decode_of_reserved h hrsv]
  · simp [readCall, decode_of_stray_module h hrsv hmod]
  · obtain ⟨k, hk⟩ := mem_tableOpcodes_iff.mp h
    have hnames : ¬ k.noModule = true := fun hn => hmod (hk ▸ (noModule_iff k).mp hn)
    have hmodule : (assemble k (cmdMod c.cmd).toNat c.args).module? = some (cmdMod c.cmd).toNat := by
      rw [assemble_module, if_neg hnames]
    refine ⟨_, decode_eq_ok_iff.mpr ⟨k, hk, hrsv, fun hn => absurd hn hnames, rfl⟩, hmodule, fun hcount ho => ?_⟩
    exact failsQuietly_of_no_module (s := { s with calls := rest }) hmodule ho ((module_eq_none_iff _ _).mpr hcount)

/-! ## Status codes (30_encoding.md R86 to R88) -/

/-- The numbers of the categories, none twice. -/
theorem categoryCode_injective : Function.Injective categoryCode := by
  have hnodup : ([Category.invalidArgument, .protocolTimeout, .resourceFailure, .dataIntegrityFailure,
      .hardwareBusyOrStuck].map categoryCode).Nodup := by decide
  exact fun a b => List.inj_on_of_nodup_map hnodup (by cases a <;> decide) (by cases b <;> decide)

/-- The numbers of the sites, none twice. -/
theorem siteCode_injective : Function.Injective siteCode := by
  have hnodup : ([Site.moduleIndex, .buffer, .count, .pattern, .closed, .system, .serAck, .hbrGrant, .dspBlock, .dspRemainder,
      .dmaOpen, .dmaWatermark, .dmaTransfer, .dmaClose, .fifoWatermark, .fifoBurst, .extmemRead, .extmemWatermark, .extmemClear,
      .fwSizeComm, .fwSizeSp, .commFpga, .spFpgaA, .spFpgaB, .dspCfg, .dspPudone, .dspTag, .dspStream, .find, .openDev, .map,
      .slotRead, .matchSlot].map siteCode).Nodup := by decide
  exact fun a b => List.inj_on_of_nodup_map hnodup (by cases a <;> decide) (by cases b <;> decide)

/-- A category number is one digit, not 0. -/
theorem categoryCode_bounds (c : Category) : 1 ≤ categoryCode c ∧ categoryCode c < 10 := by
  cases c <;> decide

theorem statusCode_fail_neg (f : Failure) : statusCode (.fail f) < 0 := by
  have := categoryCode_bounds f.category
  simp only [statusCode]
  omega

/-- Of a failure's code the last digit is the category's number and the digits before it are the site's. -/
theorem statusCode_injective : Function.Injective statusCode := by
  intro a b h
  match a, b with
  | .ok, .ok => rfl
  | .ok, .fail g => exact absurd h.symm (statusCode_fail_neg g).ne
  | .fail f, .ok => exact absurd h (statusCode_fail_neg f).ne
  | .fail f, .fail g =>
    have := categoryCode_bounds f.category
    have := categoryCode_bounds g.category
    simp only [statusCode] at h
    have hcategory : f.category = g.category := categoryCode_injective (by omega)
    have hsite : f.site = g.site := siteCode_injective (by omega)
    exact congrArg Status.fail (Failure.mk.injEq .. ▸ ⟨hcategory, hsite⟩)

/-- Settles O26: the tables by evaluation, the rest from the last digit of a code. -/
theorem statusCodesOfTheTable : Obligations.StatusCodesOfTheTable :=
  ⟨rfl, fun _ => rfl, rfl, rfl, rfl, statusCode_fail_neg, fun _ _ h => statusCode_injective h⟩

end Sys2Proof.Machine
end

section
/-! SUPPORT. The tag stream of the processor boot (43_boot.md R219; 30_encoding.md R90): its segments written one by one, its bound,
and what it rejects. -/

namespace Sys2Proof.Machine

variable {p : Params} {m : Nat} {sc : Scope} {c : Ctx}

/-! ## The groups of a segment -/

/-- Group `j` starts `j * k` words in. -/
theorem groupsOf_eq (k n : Nat) (ws : List Word) :
    groupsOf k n ws = (List.range n).map fun j => (ws.drop (j * k)).take k := by
  induction n generalizing ws with
  | zero => rfl
  | succ n ih =>
    rw [groupsOf, ih, List.range_succ_eq_map, List.map_cons, List.map_map]
    refine congrArg₂ List.cons (by simp) (List.map_congr_left fun j _ => ?_)
    simp [Nat.add_mul, Nat.add_comm k]

theorem segWords_eq_size (p : Params) (g : Segment) : segWords p g.info g.count = g.size p := by
  unfold segWords Segment.size
  cases g.info.kind <;> rfl

/-- The groups a segment writes are its own, whatever follows its payload. -/
theorem segGroups_eq_group {g : Segment} (hg : g.Ok p) (rest : List Word) :
    segGroups g.info (g.size p) (g.payload ++ rest) = (List.range (g.size p)).map g.group := by
  obtain ⟨-, -, hlen⟩ := hg
  by_cases hzero : g.info.kind = .zero
  · refine List.ext_getElem ?_ fun j h₁ h₂ => ?_ <;> simp [segGroups, Segment.group, hzero]
  · rw [if_neg hzero] at hlen
    have hgroups : segGroups g.info (g.size p) (g.payload ++ rest) =
        groupsOf (subwords g.info.width) (g.size p) (g.payload ++ rest) := by
      unfold segGroups
      split
      · contradiction
      · rfl
      · rfl
    rw [hgroups, groupsOf_eq]
    refine List.map_congr_left fun j hj => ?_
    have hfits : (j + 1) * subwords g.info.width ≤ g.payload.length :=
      hlen ▸ Nat.mul_le_mul_right _ (List.mem_range.mp hj)
    rw [Nat.add_mul, Nat.one_mul] at hfits
    rw [Segment.group, if_neg hzero, List.drop_append_of_le_length (by omega),
      List.take_append_of_le_length (by rw [List.length_drop]; omega)]

/-! ## One segment -/

/-- The words of a segment, each under its own HBR pair, at rising addresses. -/
def writeGroups (addr : Word) (gs : List (List Word)) : Op (Except Failure (List Unit)) :=
  Op.eachOk (fun j ws => Op.inLoop j <| hbrWriteGroup (addr + BitVec.ofNat 32 j) ws) 0 gs

/-- A supported segment with its whole header and payload is written; then comes what follows it, unless it is the final one. -/
theorem tagStream_segment {g : Segment} (hg : g.Ok sc.cfg) (fuel : Nat) (rest : List Word) :
    tagStream (fuel + 1) (g.words ++ rest) sc c =
      ((writeGroups g.addr ((List.range (g.size sc.cfg)).map g.group)).ifOk fun _ =>
        if g.info.kind = .final then Op.pure (.ok ()) else tagStream fuel rest) sc c := by
  have hgroups := segGroups_eq_group hg rest
  obtain ⟨htag, hheader, hlen⟩ := hg
  have hextra : g.unread.length = sc.cfg.segHeaderExtra := by
    unfold segHeaderWords at hheader
    omega
  have hwords : g.words ++ rest = g.tag :: g.count :: g.addr :: (g.unread ++ (g.payload ++ rest)) := by
    simp [Segment.words]
  have hdrop : (g.unread ++ (g.payload ++ rest)).drop sc.cfg.segHeaderExtra = g.payload ++ rest := List.drop_left' hextra
  rw [hwords, tagStream, Op.withCfg_apply, if_neg (by simp [hextra])]
  simp only [htag, hdrop, segWords_eq_size, hgroups]
  rw [if_neg]
  · unfold writeGroups
    congr 1
    funext _
    split
    · rename_i hkind
      rw [if_pos hkind]
    · rename_i hkind
      rw [if_pos hkind] at hlen
      rw [if_neg (by simp [hkind]), List.eq_nil_of_length_eq_zero hlen, List.nil_append]
    · rename_i hkind
      rw [if_neg (by simp [hkind])] at hlen
      rw [if_neg (by simp [hkind]), List.drop_left' hlen]
  · rintro ⟨hkind, hshort⟩
    rw [if_neg hkind] at hlen
    rw [List.length_append] at hshort
    omega

section runs
variable (hw : windowOk p = true) (hp : p.hbrGrantPolls = 0) (hh : c.handle.hbrHeld = false)
include hw hp hh

theorem Runs.writeGroups (addr : Word) (gs : List (List Word)) :
    ∃ r, Runs p m (writeGroups addr gs) c (.ok r) c
      (gs.mapIdx fun j ws => hbrGroupEvents p m (addr + BitVec.ofNat 32 j) ws).flatten := by
  have h := Runs.eachOk_same (p := p) (m := m) (c := c) (g := fun _ _ => ())
    (f := fun j ws => Op.inLoop j <| Machine.hbrWriteGroup (addr + BitVec.ofNat 32 j) ws)
    (ev := fun j ws => hbrGroupEvents p m (addr + BitVec.ofNat 32 j) ws) gs 0
    fun _ _ _ => (Runs.hbrWriteGroup hw hp hh _ _).inLoop
  simp only [Nat.zero_add] at h
  exact ⟨_, h⟩

/-- Writing a segment issues its events. -/
theorem Runs.writeSegment (g : Segment) :
    ∃ r, Runs p m (Machine.writeGroups g.addr ((List.range (g.size p)).map g.group)) c (.ok r) c (g.events p m) := by
  obtain ⟨r, h⟩ := Runs.writeGroups (m := m) hw hp hh g.addr ((List.range (g.size p)).map g.group)
  refine ⟨r, h.of_eq ?_⟩
  rw [Segment.events, List.flatMap_def]
  refine congrArg List.flatten (List.ext_getElem (by simp) fun j h₁ h₂ => ?_)
  simp

/-- A stream of segments that are not final, then a final one and anything, or nothing. -/
theorem Runs.tagStream (last : Option Segment) (ignored : List Word) (hlast : ∀ g ∈ last, g.Ok p ∧ g.info.kind = .final)
    (hend : last = none → ignored = []) (gs : List Segment) (hgs : ∀ g ∈ gs, g.Ok p ∧ g.info.kind ≠ .final) {fuel : Nat}
    {ws : List Word} (hws : ws = gs.flatMap Segment.words ++ last.toList.flatMap Segment.words ++ ignored)
    (hf : ws.length ≤ fuel) :
    Runs p m (tagStream fuel ws) c (.ok ()) c ((gs ++ last.toList).flatMap (Segment.events p m)) := by
  have hfuel : ∀ {g : Segment} {rest : List Word} {n : Nat}, (g.words ++ rest).length ≤ n →
      ∃ k, n = k + 1 ∧ rest.length ≤ k := by
    intro g rest n hn
    simp only [Segment.words, List.cons_append, List.length_cons, List.length_append] at hn
    exact ⟨n - 1, by omega, by omega⟩
  subst hws
  induction gs generalizing fuel with
  | nil =>
    cases last with
    | none =>
      cases hend rfl
      cases fuel <;> exact Runs.pure _
    | some g =>
      obtain ⟨hok, hkind⟩ := hlast g rfl
      simp only [List.flatMap_nil, List.nil_append, Option.toList_some, List.flatMap_cons, List.append_nil] at hf ⊢
      obtain ⟨k, rfl, -⟩ := hfuel hf
      obtain ⟨r, hr⟩ := Runs.writeSegment (m := m) hw hp hh g
      intro pos
      rw [tagStream_segment hok, if_pos hkind]
      simpa using (hr.ifOk (f := fun _ => Op.pure (.ok ())) (Runs.pure _)) pos
  | cons g gs ih =>
    obtain ⟨⟨hok, hkind⟩, hgs⟩ := List.forall_mem_cons.mp hgs
    simp only [List.flatMap_cons, List.append_assoc, List.cons_append] at hf ih ⊢
    obtain ⟨k, rfl, hk⟩ := hfuel hf
    obtain ⟨r, hr⟩ := Runs.writeSegment (m := m) hw hp hh g
    intro pos
    rw [tagStream_segment hok, if_neg hkind]
    exact (hr.ifOk (f := fun _ => Machine.tagStream k _) (ih hgs hk)) pos

end runs

/-- Settles O51, by induction on the segments: each is written and leaves the rest of the stream to be interpreted. -/
theorem tagStreamWritesSegments : Obligations.TagStreamWritesSegments := by
  intro gs last ignored ws m sc c hwho hw hp hh hgs hlast hend hws
  obtain ⟨p, who, pos⟩ := sc
  cases hwho
  exact Runs.tagStream hw hp hh last ignored hlast hend gs hgs hws le_rfl pos

/-! ## The bound, and what is rejected -/

/-- Two bounds of at least the stream's length give the same interpretation: every segment leaves a shorter rest. -/
theorem tagStream_bound {a b : Nat} {ws : List Word} (ha : ws.length ≤ a) (hb : ws.length ≤ b) :
    tagStream a ws = tagStream b ws := by
  induction a generalizing b ws with
  | zero =>
    cases List.eq_nil_of_length_eq_zero (Nat.le_zero.mp ha)
    cases b <;> rfl
  | succ a ih =>
    match ws, b with
    | [], 0 | [], b + 1 | [_], b + 1 | [_, _], b + 1 => rfl
    | tag :: count :: addr :: more, b + 1 =>
      have hrest : ∀ l : List Word, l.length ≤ more.length → tagStream a l = tagStream b l := fun l hl => by
        simp only [List.length_cons] at ha hb
        exact ih (by omega) (by omega)
      have hzero : ∀ k, tagStream a (more.drop k) = tagStream b (more.drop k) := fun k => hrest _ (by simp)
      have hinit : ∀ k n, tagStream a ((more.drop k).drop n) = tagStream b ((more.drop k).drop n) := fun k n =>
        hrest _ (by simp)
      simp only [tagStream, hzero, hinit]

/-- One or two words are no header. -/
theorem tagStream_of_short {ws : List Word} (fuel : Nat) (h₀ : 0 < ws.length) (h₃ : ws.length < 3) :
    tagStream fuel ws = Op.pure (.error streamFailure) := by
  match ws with
  | [_] | [_, _] => cases fuel <;> rfl
  | [] => cases h₀
  | _ :: _ :: _ :: _ =>
    simp only [List.length_cons] at h₃
    omega

section rejects
variable {tag count addr : Word} {more : List Word} (fuel : Nat)

theorem tagStream_of_short_header (h : more.length < sc.cfg.segHeaderExtra) :
    tagStream (fuel + 1) (tag :: count :: addr :: more) sc c = .ok (.error streamFailure) c [] := by
  rw [tagStream, Op.withCfg_apply, if_pos h, Op.pure_apply]

theorem tagStream_of_unsupported (h : sc.cfg.segHeaderExtra ≤ more.length) (htag : tagInfo sc.cfg tag = none) :
    tagStream (fuel + 1) (tag :: count :: addr :: more) sc c = .ok (.error ⟨.dataIntegrityFailure, .dspTag⟩) c [] := by
  rw [tagStream, Op.withCfg_apply, if_neg h.not_gt]
  simp only [htag, Op.pure_apply]

theorem tagStream_of_short_payload {g : TagInfo} (h : sc.cfg.segHeaderExtra ≤ more.length) (htag : tagInfo sc.cfg tag = some g)
    (hkind : g.kind ≠ .zero) (hshort : more.length < sc.cfg.segHeaderExtra + segWords sc.cfg g count * subwords g.width) :
    tagStream (fuel + 1) (tag :: count :: addr :: more) sc c = .ok (.error streamFailure) c [] := by
  rw [tagStream, Op.withCfg_apply, if_neg h.not_gt]
  simp only [htag]
  rw [if_pos ⟨hkind, by rw [List.length_drop]; omega⟩, Op.pure_apply]

end rejects

/-- Settles O52: the bound by induction on it, each rejection by the check of the header or the payload that fails. -/
theorem tagStreamRejects : Obligations.TagStreamRejects := by
  refine ⟨fun fuel ws sc c h => by rw [tagStream_bound h le_rfl], fun fuel tag count addr more sc c => ⟨fun h₀ h₃ => ?_,
    tagStream_of_short_header fuel, tagStream_of_unsupported fuel, fun g n htag hkind hn h hshort => ?_⟩⟩
  · rw [tagStream_of_short fuel h₀ h₃]
    rfl
  · have hwords : segWords sc.cfg g count = n := by
      rw [hn, segWords]
      cases g.kind <;> rfl
    exact tagStream_of_short_payload fuel h htag hkind (hwords ▸ hshort)

end Sys2Proof.Machine
end

section
/-! SUPPORT. DMA_BURST run to its end (42_hbr_dma.md R158 to R160): a transfer whatever it answers, the reply of a burst, and the
burst after its priming. -/

namespace Sys2Proof.Machine

variable {p : Params} {m : Nat} {c : Ctx} {s : State} {x : Module} {es : List (Option Reg × Event)}

/-! ## Replies -/

/-- The status of a sub-step's value. -/
def statusOf {α : Type} : Except Failure α → Status
  | .ok _ => .ok
  | .error f => .fail f

/-- No free words are drawn where none are missing. -/
@[simp] theorem envFreeWords_zero (e : Env) : envFreeWords 0 e = ([], e) := rfl

/-- A failure draws free words for what the operation reads into, and nothing where that is nothing. -/
theorem Runs.failWith (f : Failure) (n : Nat) (ws : List Word) :
    ∃ b e, Runs p m (failWith f n (some ws)) c { status := .fail f, buf := b } { c with env := e } [] ∧
      (n = 0 → b = some ws ∧ e = c.env) := by
  refine ⟨_, _, fun _ => ⟨[], rfl, rfl⟩, ?_⟩
  rintro rfl
  simp

/-- The reply of an operation that reads words: those read on success. -/
theorem Runs.replyWords (n : Nat) (ws : List Word) (st : Except Failure (List Word)) :
    ∃ b e, Runs p m (replyWords n (some ws) st) c { status := statusOf st, buf := b } { c with env := e } [] ∧
      (∀ got, st = .ok got → b = some (got ++ ws.drop got.length) ∧ e = c.env) ∧
      (∀ f, st = .error f → n = 0 → b = some ws ∧ e = c.env) := by
  cases st with
  | ok got =>
    refine ⟨some (got ++ ws.drop got.length), c.env, Runs.pure _, ?_, nofun⟩
    rintro _ ⟨⟩
    exact ⟨rfl, rfl⟩
  | error f =>
    obtain ⟨b, e, hrun, hb⟩ := Runs.failWith (p := p) (m := m) (c := c) f n ws
    exact ⟨b, e, hrun, nofun, fun _ _ => hb⟩

/-- On a serving module an operation without a raw offset, whose checks pass, answers what its body runs to. -/
theorem exec_answers {i : Instr} {g : Program} {r : Reply} (hs : s.Serves m x) (hg : programOf s.cfg i = some (m, g))
    (hraw : i.rawOffset? = none) (hf : argFailure s.cfg i = none) (hr : g.ready = true)
    (hb : Runs s.cfg m g.body x.ctx r c es) :
    Answers (exec i s) s g.op m { x with handle := c.handle, env := c.env } r es := by
  obtain ⟨hon, hw, -, -⟩ := hs
  rw [exec_eq_runOn hg (offsetsOk_of_windowOk hw (by simp [hraw]))]
  exact runOn_answers hon hr (programOf_checks hg ▸ hf) hb

/-! ## A transfer and what follows it -/

section transfer
variable (count : Nat) (dir : Dir) (a : XferAnswer × Env)

/-- The words a successful transfer gives the host (log 17). -/
def delivered : List Word :=
  match dir with
  | .toHost => a.1.data.take count ++ (envFreeWords (count - a.1.data.length) a.2).1
  | .toModule => []

/-- The value of a transfer that is answered `a`. -/
def xferValue : Except Failure (List Word) :=
  match a.1.result with
  | .ok => .ok (delivered count dir a)
  | .timeout => .error ⟨.protocolTimeout, .dmaTransfer⟩
  | .vendorError => .error ⟨.resourceFailure, .dmaTransfer⟩

/-- The environment after a transfer that is answered `a`. -/
def xferEnv : Env :=
  if a.1.result = .ok ∧ dir = .toHost then (envFreeWords (count - a.1.data.length) a.2).2 else a.2

theorem xferEnv_vendorLeft : (xferEnv count dir a).vendorLeft = a.2.vendorLeft := by
  unfold xferEnv
  split <;> rfl

variable {count dir a}

/-- As many words as asked for are all delivered. -/
theorem delivered_of_length (hdir : dir = .toHost) (h : a.1.data.length = count) : delivered count dir a = a.1.data := by
  subst hdir h
  simp [delivered]

theorem xferEnv_of_length (h : a.1.data.length = count) : xferEnv count dir a = a.2 := by
  subst h
  simp [xferEnv]

/-- A burst that ends with OK transferred, and gives what was delivered. -/
theorem delivered_of_firstOf_eq_ok {closed : Except Failure Unit} {got : List Word}
    (h : firstOf (xferValue count dir a) closed = .ok got) : got = delivered count dir a := by
  unfold xferValue at h
  split at h
  · cases closed with
    | ok _ => cases h; rfl
    | error _ => cases h
  · cases h
  · cases h

/-- The first failure is the status (R158). -/
theorem statusOf_firstOf_xferValue (e : Env) :
    statusOf (firstOf (xferValue count dir a) (closeResult e)) = burstStatus a.1.result (closeStatus e) := by
  unfold xferValue closeResult
  cases a.1.result with
  | ok => cases closeStatus e <;> rfl
  | timeout => rfl
  | vendorError => rfl

/-- A transfer, whatever it is answered. -/
theorem Runs.dmaTransfer (hw : windowOk p = true) (hv : c.env.vendorLeft = none) {ch : Channel} {port : Reg} {host : List Word}
    (ha : envXfer c.env = a) :
    Runs p m (dmaTransfer ch port host count dir) c (xferValue count dir a) { c with env := xferEnv count dir a }
      [dmaXferEvent p ch dir port host count a.1.result] := by
  have hcall := Runs.vendorCall (p := p) (m := m) (c := c) (answer := envXfer) (event := fun _ a =>
    .dmaXfer ch { dir, localAddress := regOffset p port, hostBuffer := host, byteCount := 4 * count } p.dmaTimeoutMs a.result) hv
  rw [ha] at hcall
  refine Runs.withCfg ?_
  rw [if_pos (windowOk_reg hw port)]
  refine (hcall.bind (fs := []) ?_).of_eq rfl
  unfold xferValue xferEnv delivered
  cases hr : a.1.result with
  | ok =>
    cases dir with
    | toHost =>
      rw [if_pos ⟨rfl, rfl⟩]
      exact Runs.map (f := Except.ok) fun _ => ⟨[], rfl, rfl⟩
    | toModule =>
      rw [if_neg (by simp)]
      exact Runs.pure _
  | timeout =>
    rw [if_neg (by simp)]
    exact Runs.pure _
  | vendorError =>
    rw [if_neg (by simp)]
    exact Runs.pure _

/-- A burst whose channel opens and whose priming succeeds: one transfer and one close sequence. -/
theorem Runs.dmaBurst_primed (hw : windowOk p = true) (hv : c.env.vendorLeft = none) {kind : Kind} {port : Reg}
    {host : List Word} {ch : Channel} {o e : Env} (ho : envDmaOpen c.env = (some ch, o))
    (hprime : Runs p m (dmaPrime kind count) ⟨{ c.handle with dma := some ch }, o⟩ (.ok ())
      ⟨{ c.handle with dma := some ch }, e⟩ es) (he : e.vendorLeft = none) (ha : envXfer e = a) :
    Runs p m (dmaBurst kind port host count dir) c
      (firstOf (xferValue count dir a) (closeResult (xferEnv count dir a)))
      ⟨{ c.handle with dma := none }, closedEnv (xferEnv count dir a)⟩
      ([dmaOpenEvent p c.handle.dev (some ch)] ++ es ++ [dmaXferEvent p ch dir port host count a.1.result] ++
        closeEvents c.handle.dev ch (xferEnv count dir a)) := by
  have hafter : (xferEnv count dir a).vendorLeft = none := by
    rw [xferEnv_vendorLeft, ← ha]
    exact (envXfer_vendorLeft e).trans he
  have hxfer := Runs.dmaTransfer (p := p) (m := m) (c := ⟨{ c.handle with dma := some ch }, e⟩) (count := count) (dir := dir)
    (ch := ch) (port := port) (host := host) hw he ha
  exact (Runs.dmaBurst_channel hv ho (hprime.ifOk hxfer) hafter).of_eq (by simp)

end transfer

/-- The answer of an open leaves the count of vendor calls. -/
theorem vendorLeft_of_envDmaOpen {r : Option Channel} {e o : Env} (h : envDmaOpen e = (r, o)) : o.vendorLeft = e.vendorLeft := by
  rw [← envDmaOpen_vendorLeft e, h]

/-! ## DMA_BURST on a serving module -/

section burst
variable {kind : Kind} {port : Reg} {ws : List Word} {count : Nat} {dir : Dir} (hs : s.Serves m x) (hc : 0 < count)
  (hlen : count ≤ ws.length)
include hs hc hlen

/-- DMA_BURST answers what its burst runs to; a failed transfer to the module leaves the buffer and draws nothing. -/
theorem exec_dmaBurst {st : Except Failure (List Word)} (hb : Runs s.cfg m (dmaBurst kind port ws count dir) x.ctx st c es) :
    ∃ b e, Answers (exec (.dmaBurst m kind port (some ws) count dir) s) s .dmaBurst m { x with handle := c.handle, env := e }
        { status := statusOf st, buf := b } es ∧
      (∀ got, st = .ok got → b = some (got ++ ws.drop got.length) ∧ e = c.env) ∧
      (∀ f, st = .error f → dir = .toModule → b = some ws ∧ e = c.env) := by
  obtain ⟨b, e, hreply, hok, herror⟩ := Runs.replyWords (p := s.cfg) (m := m) (c := c) (burstSpoils dir count) ws st
  refine ⟨b, e, ?_, hok, fun f hf hdir => herror f hf (by rw [hdir, burstSpoils])⟩
  have hbody := hb.bind hreply
  rw [List.append_nil] at hbody
  exact exec_answers (i := .dmaBurst m kind port (some ws) count dir) hs rfl rfl (count_and_buffer_pass hc hlen) rfl hbody

/-- A primed burst ends as R158 says. -/
theorem burstEnds_of_primed {ch : Channel} {o e : Env} {a : XferAnswer × Env} (ho : envDmaOpen x.env = (some ch, o))
    (hprime : Runs s.cfg m (dmaPrime kind count) ⟨{ x.handle with dma := some ch }, o⟩ (.ok ())
      ⟨{ x.handle with dma := some ch }, e⟩ es) (he : e.vendorLeft = none) (ha : envXfer e = a) :
    BurstEnds s m x port ws count dir ch es a (exec (.dmaBurst m kind port (some ws) count dir) s) := by
  obtain ⟨⟨hx, -⟩, hw, -, hv⟩ := id hs
  obtain ⟨b, e', ⟨u, hnext, hu⟩, hok, herror⟩ := exec_dmaBurst hs hc hlen
    (Runs.dmaBurst_primed (c := x.ctx) (port := port) (host := ws) (dir := dir) hw hv ho hprime he ha)
  refine ⟨_, hnext, ⟨e', putModule_module_self _ _ _ hx⟩, ⟨xferEnv count dir a, rfl, ?_, hu⟩, ?_, ?_⟩
  · exact congrArg some (statusOf_firstOf_xferValue _)
  · intro hstatus hdir hdata
    cases hst : firstOf (xferValue count dir a) (closeResult (xferEnv count dir a)) with
    | ok got =>
      have hgot := delivered_of_firstOf_eq_ok hst
      rw [delivered_of_length hdir hdata] at hgot
      rw [← hdata, ← hgot]
      exact (hok got hst).1
    | error f => simp [State.status, hst, statusOf] at hstatus
  · intro hdir
    cases hst : firstOf (xferValue count dir a) (closeResult (xferEnv count dir a)) with
    | ok got =>
      obtain rfl : got = [] := by
        rw [delivered_of_firstOf_eq_ok hst, hdir, delivered]
      exact (hok [] hst).1
    | error f => exact (herror f hst hdir).1

end burst

/-- Settles O39: a failed open runs to its failure; the other kinds are not primed, and an unprimed burst ends as R158 says. -/
theorem dmaBurstTransfersAndCloses : Obligations.DmaBurstTransfersAndCloses := by
  intro s m x kind port ws count dir hs hc hlen
  obtain ⟨-, -, -, hv⟩ := id hs
  constructor
  · intro hopen
    obtain ⟨b, e, hans, -, herror⟩ := exec_dmaBurst hs hc hlen
      (Runs.dmaBurst_noChannel (c := x.ctx) (kind := kind) (port := port) (host := ws) (count := count) (dir := dir) hv
        (Prod.ext hopen rfl))
    exact ⟨b, e, herror _ rfl, hans⟩
  · intro ch o a hkind ho ha
    have hprime : Runs s.cfg m (dmaPrime kind count) ⟨{ x.handle with dma := some ch }, o⟩ (.ok ())
        ⟨{ x.handle with dma := some ch }, o⟩ [] := by
      cases kind with
      | dsp => contradiction
      | ext => exact Runs.pure _
      | fifo => exact Runs.pure _
    exact burstEnds_of_primed hs hc hlen ho hprime ((vendorLeft_of_envDmaOpen ho).trans hv) ha

/-- Settles O40: priming runs to the watermark or to its timeout; then the burst ends as any other, or is closed without a
transfer. -/
theorem dmaBurstPrimesProcessorMemory : Obligations.DmaBurstPrimesProcessorMemory := by
  intro s m x port ws count dir ch o hs hc hlen ho
  obtain ⟨⟨hx, -⟩, hw, -, hv⟩ := id hs
  have hopened : o.vendorLeft = none := (vendorLeft_of_envDmaOpen ho).trans hv
  constructor
  · intro bad v e hreads hn hbad hseen
    have hprime := Runs.dmaPrime_ready (p := s.cfg) (m := m) (c := ⟨{ x.handle with dma := some ch }, o⟩) (count := count) hw
      hreads hn hbad hseen
    have hleft : e.vendorLeft = none := (vendorLeft_of_readMany hreads).trans hopened
    refine ⟨fun a ha => burstEnds_of_primed hs hc hlen ho (by simpa using hprime) hleft ha, ?_⟩
    intro data e₂ e₃ hxfer hdata hclose
    obtain ⟨b, e', hans, hok, -⟩ := exec_dmaBurst hs hc hlen
      (Runs.dmaBurst_primed (c := x.ctx) (port := port) (host := ws) (dir := dir) hw hv ho hprime hleft hxfer)
    rw [xferEnv_of_length (a := (⟨.ok, data⟩, e₂)) hdata] at hans hok
    have hvalue : firstOf (xferValue count dir (⟨.ok, data⟩, e₂)) (closeResult e₂) =
        .ok (delivered count dir (⟨.ok, data⟩, e₂)) := by
      simp [xferValue, closeResult, closeStatus, hclose, firstOf]
    obtain ⟨rfl, rfl⟩ := hok _ hvalue
    rw [hvalue] at hans
    have hbuf : delivered count dir (⟨.ok, data⟩, e₂) ++ ws.drop (delivered count dir (⟨.ok, data⟩, e₂)).length =
        if dir = .toHost then data ++ ws.drop count else ws := by
      cases dir with
      | toHost => rw [delivered_of_length rfl hdata, if_pos rfl, hdata]
      | toModule => rfl
    have henv : closedEnv e₂ = e₃ := by simp [closedEnv, hclose]
    rw [hbuf] at hans
    simpa [henv, statusOf, closeEvents, hclose, Module.ctx] using hans
  · intro bad e hreads hbad
    have hleft : e.vendorLeft = none := (vendorLeft_of_readMany hreads).trans hopened
    have hprime := Runs.dmaPrime_timeout (p := s.cfg) (m := m) (c := ⟨{ x.handle with dma := some ch }, o⟩) (count := count) hw
      hreads hbad
    obtain ⟨b, e', ⟨u, hnext, hu⟩, -, herror⟩ := exec_dmaBurst hs hc hlen
      (Runs.dmaBurst_channel (c := x.ctx) (port := port) (host := ws) (dir := dir) hv ho (Runs.ifError hprime) hleft)
    refine ⟨_, hnext, rfl, ?_, ⟨e', putModule_module_self _ _ _ hx⟩, fun hdir => (herror _ rfl hdir).1⟩
    exact hu.trans (by simp [Module.ctx])

end Sys2Proof.Machine
end

section
/-! SUPPORT. BOOT_MODULE as the operations it is made of (43_boot.md R230): nothing a boot stage runs looks at the flag `booted` or
at the place it stands (`Op.Blind`), so a stage inside BOOT_MODULE runs as its own operation does. -/

namespace Sys2Proof.Machine

variable {α β : Type}

/-! ## Parts that do not look at `booted` -/

/-- The context with the flag `booted` at `b`. -/
def Ctx.withBooted (b : Bool) (c : Ctx) : Ctx :=
  { c with handle := { c.handle with boot := { c.handle.boot with booted := b } } }

/-- The part neither looks at `booted` nor changes it: with another `booted`, and at another place, it gives the same value and the
same named events. -/
def Op.Blind (x : Op α) : Prop :=
  ∀ sc c a c' t, x sc c = .ok a c' t → ∀ (b : Bool) (pos : Place), ∃ t',
    x { sc with pos := pos } (c.withBooted b) = .ok a (c'.withBooted b) t' ∧ named (shown t') = named (shown t)

namespace Op.Blind

theorem pure (a : α) : (Op.pure a).Blind := by
  rintro sc c _ _ _ ⟨⟩ b pos
  exact ⟨[], rfl, rfl⟩

theorem bind {x : Op α} {f : α → Op β} (hx : x.Blind) (hf : ∀ a, (f a).Blind) : (x.bind f).Blind := by
  intro sc c a c' t h b pos
  obtain ⟨v, c₁, t₁, t₂, h₁, h₂, rfl⟩ := Op.bind_eq_ok.mp h
  obtain ⟨u₁, hx', e₁⟩ := hx _ _ _ _ _ h₁ b pos
  obtain ⟨u₂, hf', e₂⟩ := hf v _ _ _ _ _ h₂ b pos
  exact ⟨u₁ ++ u₂, Op.bind_of_ok hx' hf', by simp only [shown_append, named_append, e₁, e₂]⟩

theorem andThen {x : Op Unit} {y : Op β} (hx : x.Blind) (hy : y.Blind) : (x.andThen y).Blind := hx.bind fun _ => hy

theorem map {f : α → β} {x : Op α} (hx : x.Blind) : (x.map f).Blind := hx.bind fun _ => .pure _

theorem ifOk {x : Op (Except Failure α)} {f : α → Op (Except Failure β)} (hx : x.Blind) (hf : ∀ a, (f a).Blind) :
    (x.ifOk f).Blind :=
  hx.bind fun r =>
    match r with
    | .ok a => hf a
    | .error _ => .pure _

theorem ite {P : Prop} [Decidable P] {x y : Op α} (hx : x.Blind) (hy : y.Blind) : (if P then x else y).Blind := by
  split <;> assumption

theorem withCfg {f : Params → Op α} (hf : ∀ p, (f p).Blind) : (Op.withCfg f).Blind := fun sc => hf sc.cfg sc

theorem placed {g : Place → Place} {x : Op α} (hx : x.Blind) : (x.placed g).Blind :=
  fun _ c a c' t h b pos => hx _ c a c' t h b (g pos)

theorem inLoop {k : Nat} {x : Op α} (hx : x.Blind) : (x.inLoop k).Blind := .placed hx

theorem inPhase {ph : Phase} {x : Op α} (hx : x.Blind) : (Op.inPhase ph x).Blind := .placed hx

/-- Work on the handle as it stands, which takes nothing from `booted`. -/
theorem getHandle {f : Handle → Op α} (hf : ∀ h, (f h).Blind) (hsame : ∀ (h : Handle) (b : Bool),
    f { h with boot := { h.boot with booted := b } } = f h) : (Op.getHandle.bind f).Blind := by
  intro sc c a c' t h b pos
  obtain ⟨_, _, _, t₂, ⟨⟩, h₂, rfl⟩ := Op.bind_eq_ok.mp h
  obtain ⟨u, hu, e⟩ := hf c.handle _ _ _ _ _ h₂ b pos
  refine ⟨[] ++ u, Op.bind_of_ok (x := Op.getHandle) rfl ?_, e⟩
  exact (congrFun (congrFun (hsame c.handle b) _) _).trans hu

theorem setHandle {f : Handle → Handle} (hf : ∀ (h : Handle) (b : Bool),
    f { h with boot := { h.boot with booted := b } } = { f h with boot := { (f h).boot with booted := b } }) :
    (Op.setHandle f).Blind := by
  rintro sc c _ _ _ ⟨⟩ b pos
  exact ⟨[], congrArg (fun h => Res.ok () ⟨h, c.env⟩ []) (hf c.handle b), rfl⟩

theorem fault (f : Fault) : (Op.fault f : Op α).Blind := by rintro sc c a c' t ⟨⟩

theorem each {f : Nat → α → Op Unit} (hf : ∀ i a, (f i a).Blind) (l : List α) (i : Nat) : (Op.each f i l).Blind := by
  induction l generalizing i with
  | nil => exact .pure _
  | cons a l ih => exact .andThen (hf i a) (ih (i + 1))

theorem eachOk {f : Nat → α → Op (Except Failure β)} (hf : ∀ i a, (f i a).Blind) (l : List α) (i : Nat) :
    (Op.eachOk f i l).Blind := by
  induction l generalizing i with
  | nil => exact .pure _
  | cons a l ih => exact .ifOk (hf i a) fun _ => .ifOk (ih (i + 1)) fun _ => .pure _

theorem memRead (r : Option Reg) (off : Nat) : (memRead r off).Blind := by
  intro sc c a c' t h b pos
  unfold Machine.memRead at h ⊢
  split at h <;> cases h
  rename_i hoff
  exact ⟨_, if_pos hoff, rfl⟩

theorem memWrite (r : Option Reg) (off : Nat) (v : Word) : (memWrite r off v).Blind := by
  intro sc c a c' t h b pos
  obtain ⟨hoff, rfl, rfl⟩ := memWrite_eq_ok h
  exact ⟨_, memWrite_of_ok hoff, rfl⟩

theorem regRead (r : Reg) : (regRead r).Blind := .withCfg fun _ => .memRead _ _

theorem regWrite (r : Reg) (v : Word) : (regWrite r v).Blind := .withCfg fun _ => .memWrite _ _ _

theorem sleep (ns : Nat) : (sleep ns).Blind := by
  rintro sc c _ _ _ ⟨⟩ b pos
  exact ⟨_, rfl, rfl⟩

theorem sleepIfPositive (ns : Nat) : (sleepIfPositive ns).Blind := .ite (.sleep ns) (.pure _)

theorem pollUntil (place : Nat → Place → Place) (r : Reg) (pred : Word → Bool) (n d : Nat) :
    (pollUntil place r pred n d).Blind := by
  suffices h : ∀ n i, (pollFrom place r pred d i n).Blind from h n 1
  intro n
  induction n with
  | zero => exact fun _ => .pure _
  | succ n ih =>
    exact fun i => .bind (.placed (.regRead r)) fun _ =>
      .ite (.pure _) (.andThen (.placed (.sleepIfPositive d)) (ih (i + 1)))

theorem csrModify (set clr : Word) : (csrModify set clr).Blind := .bind (.regRead _) fun _ => .regWrite _ _

theorem csrClear (f : CsrMap → Fin 32) : (csrClear f).Blind := .withCfg fun _ => .csrModify _ _

/-! ### Under a host bus request -/

theorem setHbr (held : Bool) : (setHbr held).Blind := .setHandle fun _ _ => rfl

theorem hbrDone : hbrDone.Blind :=
  .getHandle (fun _ => .ite (.andThen (.withCfg fun _ => .regWrite _ _) (.setHbr false)) (.fault _)) fun _ _ => rfl

theorem hbrGrantPoll : hbrGrantPoll.Blind :=
  .withCfg fun _ => .ite
    (.bind (.pollUntil _ _ _ _ _) fun r =>
      match r with
      | some _ => .pure _
      | none => .andThen .hbrDone (.pure _))
    (.pure _)

theorem hbrRequest : hbrRequest.Blind :=
  .getHandle (fun _ => .ite (.fault _) (.andThen (.withCfg fun _ => .regWrite _ _) (.andThen (.setHbr true) .hbrGrantPoll)))
    fun _ _ => rfl

theorem withHbr {x : Op α} (hx : x.Blind) : (withHbr x).Blind := .ifOk .hbrRequest fun _ => .bind hx fun _ => .map .hbrDone

theorem hbrWriteGroup (a : Word) (ws : List Word) : (hbrWriteGroup a ws).Blind :=
  .withHbr (.andThen (.regWrite _ _) (.each (fun _ _ => .inLoop (.regWrite _ _)) ws 0))

theorem dspReadOne (a : Word) : (dspReadOne a).Blind := .withHbr (.andThen (.regWrite _ _) (.regRead _))

/-! ### The stages of a boot -/

theorem fpgaAttempt (t : Target) (image : List Word) (a : Nat) : (fpgaAttempt t image a).Blind :=
  .andThen (.inPhase <| .withCfg fun _ => .andThen (.regWrite _ _) (.andThen (.sleepIfPositive _) (.regWrite _ _))) <|
    .bind (.withCfg fun _ => .map (.pollUntil _ _ _ _ _)) fun _ => .ite
      (.andThen (.withCfg fun _ => .each (fun _ _ => .inPhase (.andThen (.regWrite _ _) (.sleep _))) image 0)
        (.inPhase <| .withCfg fun _ => .map (.regRead _)))
      (.pure _)

theorem fpgaBoot (t : Target) (image : List Word) (site : Site) : (fpgaBoot t image site).Blind := by
  suffices h : ∀ n a, (fpgaAttempts t image site a n).Blind from .withCfg fun _ => h _ _
  intro n
  induction n with
  | zero => exact fun _ => .pure _
  | succ n ih => exact fun a => .bind (.fpgaAttempt t image a) fun _ => .ite (.pure _) (ih (a + 1))

theorem clockDomainReset : clockDomainReset.Blind :=
  .withCfg fun _ => .andThen (.regWrite _ _) (.andThen (.sleepIfPositive _) (.regWrite _ _))

theorem tagStream (fuel : Nat) (ws : List Word) : (tagStream fuel ws).Blind := by
  induction fuel generalizing ws with
  | zero => rcases ws with _ | ⟨_, _ | ⟨_, _ | ⟨_, _⟩⟩⟩ <;> exact .pure _
  | succ fuel ih =>
    match ws with
    | [] | [_] | [_, _] => exact .pure _
    | tag :: count :: addr :: more =>
      refine .withCfg fun p => .ite (.pure _) ?_
      cases tagInfo p tag with
      | none => exact .pure _
      | some t =>
        refine .ite (.pure _) (.ifOk (.eachOk (fun _ _ => .inLoop (.hbrWriteGroup _ _)) _ 0) fun _ => ?_)
        cases t.kind with
        | final => exact .pure _
        | zero | init => exact ih _

theorem cfgVerify (a j : Nat) (c : CfgPair) (k n : Nat) : (cfgVerify a j c k n).Blind := by
  induction n generalizing k with
  | zero => exact .pure _
  | succ n ih =>
    refine .ifOk (.inPhase <| .withCfg fun p => .ifOk ?_ fun _ => .dspReadOne _) fun _ => .ite (.pure _) (ih (k + 1))
    cases p.cfgVerifyMode with
    | writeRead => exact .hbrWriteGroup _ _
    | readOnly => exact .pure _

theorem pollPudone (a k n : Nat) : (pollPudone a k n).Blind := by
  induction n generalizing k with
  | zero => exact .pure _
  | succ n ih =>
    exact .withCfg fun _ => .ifOk (.inPhase (.dspReadOne _)) fun _ =>
      .ite (.pure _) (.andThen (.inPhase (.sleep _)) (ih (k + 1)))

theorem dspAttempt (w : List Word) (a : Nat) : (dspAttempt w a).Blind :=
  .withCfg fun _ => .andThen (.inPhase (.andThen (.csrModify _ _) (.sleep _))) <| .andThen (.inPhase (.csrClear _)) <|
    .ifOk (.eachOk (fun _ _ => .cfgVerify _ _ _ _ _) _ 0) fun _ =>
    .ifOk (.withCfg fun _ => .eachOk (fun _ _ => .inPhase (.hbrWriteGroup _ _)) _ 0) fun _ =>
    .ifOk (.inPhase (.tagStream _ _)) fun _ => .andThen (.inPhase (.csrClear _)) (.pollPudone a 1 _)

theorem dspBootFrom (w : List Word) (a more : Nat) : (dspBootFrom w a more).Blind := by
  induction more generalizing a with
  | zero => exact .dspAttempt w a
  | succ more ih =>
    exact .bind (.dspAttempt w a) fun r =>
      match r with
      | .ok _ => .pure _
      | .error _ => .ite (.pure _) (ih (a + 1))

theorem bootCommBody (image : List Word) : (bootCommBody image).Blind :=
  .andThen (.setHandle fun _ _ => rfl) (.bind (.fpgaBoot _ _ _) fun _ => .map (.setHandle fun _ _ => rfl))

theorem bootSpBody (image : List Word) : (bootSpBody image).Blind :=
  .andThen (.setHandle fun _ _ => rfl) <| .ifOk (.fpgaBoot _ _ _) fun _ => .ifOk (.fpgaBoot _ _ _) fun _ =>
    .andThen .clockDomainReset (.map (.setHandle fun _ _ => rfl))

theorem bootDspBody (w : List Word) : (bootDspBody w).Blind :=
  .andThen (.setHandle fun _ _ => rfl) <| .withCfg fun _ => .bind (.dspBootFrom w 1 _) fun r =>
    match r with
    | .ok _ => .map (.setHandle fun _ _ => rfl)
    | .error _ => .pure _

end Op.Blind

/-! ## A stage, and the stages one after the other -/

/-- The operation `i` runs `x`, may be a stage of BOOT_MODULE, and passes its checks. -/
structure IsStage (p : Params) (m : Nat) (i : Instr) (x : Op (Except Failure Unit)) : Prop where
  program : ∃ g, programOf p i = some (m, g) ∧ g.ready = true ∧ g.body = x.map (replyOf none)
  raw : i.rawOffset? = none
  checks : argFailure p i = none
  window : Right.write .win ∉ rights i.mnemonic
  blind : x.Blind
  completes : x.Completes false

/-- From the context of a serving module, with `booted` cleared, the part gives the status, the named events and the context that
the operations `is`, one after the other, give; its `booted` says whether they succeeded. -/
def RunsStages (p : Params) (m : Nat) (x : Op (Except Failure Unit)) (is : List Instr) : Prop :=
  ∀ (s : State) (y : Module), s.Serves m y → s.cfg = p → ∀ pos, ∃ r t u z,
    x ⟨p, .module m, pos⟩ (y.ctx.withBooted false) = .ok r (z.ctx.withBooted (isOk r)) t ∧
      runStages is s = some (statusOf r, named (shown t), u) ∧ u.module? m = some z

variable {p : Params} {m : Nat} {i : Instr} {is : List Instr} {x y : Op (Except Failure Unit)}

/-- A stage run as its own operation, and inside BOOT_MODULE: the same but for `booted` and the place. -/
theorem IsStage.exec (h : IsStage p m i x) {s : State} {q : Module} (hs : s.Serves m q) (hp : s.cfg = p) (pos : Place) :
    ∃ r t u z, exec i s = .next u ∧ u.status = some (statusOf r) ∧ u.events = named (shown t) ∧ u.cfg = p ∧
      u.Serves m z ∧
      x ⟨p, .module m, pos⟩ (q.ctx.withBooted false) = .ok r (z.ctx.withBooted false) t := by
  subst hp
  obtain ⟨g, hg, hready, hbody⟩ := h.program
  obtain ⟨hon, hw, hh, hv⟩ := id hs
  obtain ⟨hq, -, honline, hwin⟩ := id hon
  obtain ⟨r, c, t, hrun, hv', hh'⟩ := h.completes ⟨s.cfg, .module m, startPos g.op⟩ q.ctx hw hv hh
  obtain ⟨t', hrun', hevents⟩ := h.blind _ _ _ _ _ hrun false pos
  have hmap : g.body ⟨s.cfg, .module m, startPos g.op⟩ q.ctx = .ok (replyOf none r) c t := hbody ▸ Op.map_of_ok hrun
  have hframe : c.handle.win = q.handle.win := ((body_made hg).framed hmap).field .win h.window
  have hexec := (exec_eq_runOn hg (offsetsOk_of_windowOk hw (by simp [h.raw]))).trans
    (runOn_online hon hready (programOf_checks hg ▸ h.checks) hmap)
  refine ⟨r, t', _, { q with handle := c.handle, pos := .idle, env := c.env }, hexec, ?_, hevents.symm, rfl, ?_, hrun'⟩
  · cases r <;> rfl
  · refine ⟨⟨putModule_module_self _ _ _ hq, rfl, by simpa using honline, ?_⟩, hw, hh', hv'⟩
    exact (congrArg Option.isSome hframe).trans hwin

/-- The end of the boot: every stage has succeeded. -/
theorem RunsStages.done : RunsStages p m ((setBoot fun b => { b with booted := true }).map fun _ => .ok ()) [] :=
  fun s y hs _ _ => ⟨.ok (), [], s, y, rfl, rfl, hs.1.1⟩

/-- A stage first: the rest runs from the state its operation reaches, unless it fails. -/
theorem RunsStages.cons (hx : IsStage p m i x) (hy : RunsStages p m y is) : RunsStages p m (x.ifOk fun _ => y) (i :: is) := by
  intro s q hs hp pos
  obtain ⟨r, t, u, z, hexec, hstatus, hevents, hcfg, hserves, hrun⟩ := hx.exec hs hp pos
  cases r with
  | ok a =>
    obtain ⟨r', t', u', z', hrun', hstages, hz⟩ := hy u z hserves hcfg pos
    refine ⟨r', t ++ t', u', z', Op.ifOk_of_ok hrun hrun', ?_, hz⟩
    simp [runStages, hexec, hstatus, hevents, hstages, statusOf, named_append]
  | error f =>
    refine ⟨.error f, t, u, z, Op.ifOk_of_error hrun, ?_, hserves.1.1⟩
    simp [runStages, hexec, hstatus, hevents, statusOf]

/-- A stage that may not be selected. -/
theorem RunsStages.stageIf {selected : Bool} (hx : selected = true → IsStage p m i x) (hy : RunsStages p m y is) :
    RunsStages p m ((stageIf selected x).ifOk fun _ => y) ((if selected then [i] else []) ++ is) := by
  cases selected with
  | true => exact .cons (hx rfl) hy
  | false =>
    intro s q hs hp pos
    obtain ⟨r, t, u, z, hrun, hrest⟩ := hy s q hs hp pos
    exact ⟨r, t, u, z, Op.ifOk_of_ok (x := Op.pure (.ok ())) (t₁ := []) rfl hrun, hrest⟩

/-! ## BOOT_MODULE (43_boot.md R230) -/

theorem IsStage.bootComm {rev : Nat} {image : List Word} (h : argFailure p (.bootCommFpga m rev image) = none) :
    IsStage p m (.bootCommFpga m rev image) (bootCommBody image) :=
  ⟨⟨_, rfl, rfl, rfl⟩, rfl, h, by simp [rights, Instr.mnemonic], .bootCommBody _, bootCommBody_completes _⟩

theorem IsStage.bootSp {rev : Nat} {image : List Word} (h : argFailure p (.bootSpFpga m rev image) = none) :
    IsStage p m (.bootSpFpga m rev image) (bootSpBody image) :=
  ⟨⟨_, rfl, rfl, rfl⟩, rfl, h, by simp [rights, Instr.mnemonic], .bootSpBody _, bootSpBody_completes _⟩

theorem IsStage.bootDsp {file : List Byte} (h : argFailure p (.bootDsp m file) = none) :
    IsStage p m (.bootDsp m file) (bootDspBody (streamOf file)) :=
  ⟨⟨_, rfl, rfl, rfl⟩, rfl, h, by simp [rights, Instr.mnemonic], .bootDspBody _, bootDspBody_completes _⟩

section stages
variable {rev : Nat} {images : Images} {pattern : Word} (hf : argFailure p (.bootModule m rev images pattern) = none)
include hf

/-- The checks of BOOT_MODULE are those of its selected stages. -/
theorem bootModule_checks :
    (pattern.getLsbD 0 = true → argFailure p (.bootCommFpga m rev images.comm) = none) ∧
      (pattern.getLsbD 2 = true → argFailure p (.bootSpFpga m rev images.sp) = none) ∧
      (pattern.getLsbD 3 = true → argFailure p (.bootDsp m images.dsp) = none) := by
  simp only [argFailure] at hf ⊢
  split_ifs at hf with hreserved hcomm hsp hdsp
  refine ⟨fun h => if_neg fun hne => hcomm ⟨h, hne⟩, fun h => if_neg fun hne => hsp ⟨h, hne⟩, fun h => if_pos ?_⟩
  simpa [h] using hdsp

/-- The body of BOOT_MODULE, after it has cleared `booted`, runs the selected stages. -/
theorem runsStages_bootModule : RunsStages p m
    ((stageIf (patternComm pattern) (bootCommBody images.comm)).ifOk fun _ =>
      (stageIf (patternSp pattern) (bootSpBody images.sp)).ifOk fun _ =>
      (stageIf (patternDsp pattern) (bootDspBody (streamOf images.dsp))).ifOk fun _ =>
      (setBoot fun b => { b with booted := true }).map fun _ => .ok ())
    (bootStages m rev images pattern) := by
  obtain ⟨hcomm, hsp, hdsp⟩ := bootModule_checks hf
  have h := RunsStages.stageIf (selected := patternComm pattern) (fun h => .bootComm (hcomm h)) <|
    .stageIf (selected := patternSp pattern) (fun h => .bootSp (hsp h)) <|
    .stageIf (selected := patternDsp pattern) (fun h => .bootDsp (hdsp h)) .done
  rwa [List.append_nil, ← List.append_assoc] at h

end stages

/-- Settles O55: the body clears `booted`, runs its selected stages as their operations run, and sets `booted` where none failed. -/
theorem bootModuleIsItsStages : Obligations.BootModuleIsItsStages := by
  intro s m x rev images pattern hs hf
  obtain ⟨hon, hw, -, -⟩ := id hs
  obtain ⟨r, t, u, y, hrun, hstages, hy⟩ := runsStages_bootModule hf s x hs rfl (startPos .bootModule)
  have hbody : (bootModuleBody images pattern) ⟨s.cfg, .module m, startPos .bootModule⟩ x.ctx =
      .ok r (y.ctx.withBooted (isOk r)) t := Op.andThen_of_ok (t₁ := []) rfl hrun
  have hexec := (exec_eq_runOn (i := .bootModule m rev images pattern) rfl (offsetsOk_of_windowOk hw nofun)).trans
    (runOn_online hon rfl (programOf_checks (i := .bootModule m rev images pattern) rfl ▸ hf)
      (Op.map_of_ok (f := replyOf none) hbody))
  refine ⟨_, statusOf r, named (shown t), u, y, _, hexec, hstages, hy, putModule_module_self _ _ _ hon.1, ?_, rfl, rfl, ?_⟩
  · cases r <;> rfl
  · cases r <;> rfl

end Sys2Proof.Machine
end

section
/-! SUPPORT. The register bus, the CSR and its read-modify-write, and the ownership of the external memory (40_register_csr.md
R100 to R107, 42_hbr_dma.md R165, R171, R175): what exec answers on an open and on a closed module. -/

namespace Sys2Proof.Machine

section exec
variable {i : Instr} {m : Nat} {g : Program} {s : State} {x : Module} {c : Ctx} {r : Reply}

/-! ## On an online module -/

/-- On an online module an operation whose offsets and checks pass answers what its body ends with. -/
theorem exec_of_online (hs : s.Online m x) (hg : programOf s.cfg i = some (m, g)) (ho : OffsetsOk s.cfg i)
    (hf : argFailure s.cfg i = none) (hr : g.ready = true) {t : List Stage}
    (hb : g.body ⟨s.cfg, .module m, startPos g.op⟩ x.ctx = .ok r c t) :
    exec i s = .next (finish g.op r (shown t) (s.putModule m { x with handle := c.handle, env := c.env })) := by
  rw [exec_eq_runOn hg ho, runOn_online hs hr (programOf_checks hg ▸ hf) hb, ← hs.2.1]

/-- An operation whose body leaves the context as it was changes nothing but the observation. -/
theorem exec_of_online_same (hs : s.Online m x) (hg : programOf s.cfg i = some (m, g)) (ho : OffsetsOk s.cfg i)
    (hf : argFailure s.cfg i = none) (hr : g.ready = true) {t : List Stage}
    (hb : g.body ⟨s.cfg, .module m, startPos g.op⟩ x.ctx = .ok r x.ctx t) :
    exec i s = .next (finish g.op r (shown t) s) := by
  rw [exec_of_online hs hg ho hf hr hb]
  exact congrArg (Host.Outcome.next <| finish g.op r (shown t) ·) (putModule_same hs.1)

/-! ## On a closed module (40_register_csr.md R100, 44_discovery.md R247) -/

/-- Every operation but MODULE_CLOSE runs `Ready`. -/
theorem programOf_ready {p : Params} (hg : programOf p i = some (m, g)) (hi : i ≠ .moduleClose m) : g.ready = true := by
  cases i <;> cases hg
  case moduleClose => exact absurd rfl hi
  all_goals rfl

/-- `Ready` finds no window: the program fails with CLOSED, drawing free words and making no step. -/
theorem code_of_closed (hchecks : firstFailure g.checks = none) (hr : g.ready = true) {sc : Scope}
    (hw : c.handle.win = none) :
    ∃ b e, g.code false sc c = .ok { status := .fail ⟨.invalidArgument, .closed⟩, buf := b } { c with env := e } [] := by
  obtain ⟨b, e, hfail⟩ := failWith_eq_ok ⟨.invalidArgument, .closed⟩ g.reads g.buf sc c
  refine ⟨b, e, ?_⟩
  have hmapped : mapped g.reads g.buf g.body sc c = _ :=
    Op.bind_of_ok (t₁ := []) Op.getHandle_apply (by rwa [if_pos (by simp [hw])])
  simpa [Program.code, preamble, hchecks, hr] using hmapped

variable (hi : i.module? = some m) (ho : OffsetsOk s.cfg i) (hx : s.module? m = some x) (hp : x.pos = .idle)
  (hf : argFailure s.cfg i = none) (honline : s.isOffline = false) (hw : x.handle.win = none)
include hi ho hx hp hf honline hw

theorem failsQuietly_of_closed (hne : i ≠ .moduleClose m) :
    FailsQuietly i.mnemonic ⟨.invalidArgument, .closed⟩ s (exec i s) := by
  obtain ⟨g, hg⟩ := programOf_isSome (p := s.cfg) hi
  obtain ⟨b, e, hcode⟩ := code_of_closed (g := g) (c := x.ctx) (sc := ⟨s.cfg, .module m, startPos g.op⟩)
    ((programOf_checks hg).trans hf) (programOf_ready hg hne) hw
  have hres : g.result s.cfg s.isOffline m x.ctx = _ := honline ▸ hcode
  refine ⟨_, b, ?_, ?_, sameHandles_putModule hx hp e g.op { status := .fail ⟨.invalidArgument, .closed⟩, buf := b } []⟩
  · rw [exec_eq_runOn hg ho, runOn_of_idle hx hp, hres]
    rfl
  · simp [programOf_op hg]

end exec

/-- MODULE_CLOSE of a closed module returns at once. -/
theorem moduleCloseBody_of_closed {sc : Scope} {c : Ctx} (hw : c.handle.win = none) :
    moduleCloseBody sc c = .ok { status := .ok } c [] :=
  Op.bind_of_ok (t₁ := []) Op.getHandle_apply (by rw [hw]; rfl)

/-- Settles O12: `Ready` fails where there is no window, and MODULE_CLOSE, which runs `Preamble` alone, returns at once. -/
theorem closedModuleFails : Obligations.ClosedModuleFails := by
  intro i m s x hi ho hx hp hf honline hw
  refine ⟨failsQuietly_of_closed hi ho hx hp hf honline hw, ?_⟩
  rintro rfl
  have hres : moduleCloseProgram.result s.cfg s.isOffline m x.ctx = .ok { status := .ok } x.ctx [] := by
    rw [honline]
    exact moduleCloseBody_of_closed hw
  rw [exec_eq_runOn (g := moduleCloseProgram) rfl ho, runOn_of_idle hx hp, hres, ← hp]
  exact congrArg (Host.Outcome.next <| finish .moduleClose { status := .ok } [] ·) (putModule_same hx)

/-! ## The CSR read-modify-write (40_register_csr.md R105 to R107) -/

theorem csrModify_of_ok (set clr : Word) {sc : Scope} {c : Ctx} (hw : windowOk sc.cfg = true) :
    csrModify set clr sc c =
      .ok () { c with env := (envRead c.env).2 }
        (stepOf sc c (some .csr) (.rd sc.who (regOffset sc.cfg .csr) (envRead c.env).1) ++
          stepOf sc { c with env := (envRead c.env).2 } (some .csr)
            (.wr sc.who (regOffset sc.cfg .csr) (csrMerge set clr (envRead c.env).1))) :=
  Op.bind_of_ok (regRead_of_ok hw) (regWrite_of_ok hw)

@[simp] theorem csrMerge_zero_clr (set v : Word) : csrMerge set 0 v = v ||| set := by
  simp only [csrMerge, BitVec.ofNat_eq_ofNat, BitVec.not_zero, BitVec.and_allOnes]

@[simp] theorem csrMerge_zero_set (clr v : Word) : csrMerge 0 clr v = v &&& ~~~clr := by simp [csrMerge]

/-- A bit in `set` is set whether or not it is in `clr`; a bit in neither is written back as read. -/
theorem csrMerge_getLsbD (set clr v : Word) {k : Nat} (hk : k < 32) :
    (csrMerge set clr v).getLsbD k = if set.getLsbD k then true else if clr.getLsbD k then false else v.getLsbD k := by
  rw [csrMerge, BitVec.getLsbD_or, BitVec.getLsbD_and, BitVec.getLsbD_not, decide_eq_true hk]
  cases set.getLsbD k <;> cases clr.getLsbD k <;> simp

/-- Settles O24: the read, the write of the merged word, and its bits. -/
theorem csrModifyReadsThenWrites : Obligations.CsrModifyReadsThenWrites :=
  ⟨fun set clr _ _ hw => csrModify_of_ok set clr hw, fun set clr v _ hk => csrMerge_getLsbD set clr v hk,
    fun _ _ _ => ⟨rfl, rfl⟩⟩

/-! ## The ownership of the external memory (42_hbr_dma.md R175) -/

/-- Work under the ownership bit runs between setting it and clearing it. -/
theorem Runs.withExtMem {α : Type} {p : Params} {m : Nat} {c c₁ : Ctx} {es : List (Option Reg × Event)} {x : Op α} {a : α}
    (hw : windowOk p = true) (hx : Runs p m x { c with env := (envRead c.env).2 } a c₁ es) :
    Runs p m (withExtMem x) c a { c₁ with env := (envRead c₁.env).2 }
      (csrEvents p m (envRead c.env).1 (fieldBit p.csrmap.pciExtmem) 0 ++
        (es ++ csrEvents p m (envRead c₁.env).1 0 (fieldBit p.csrmap.pciExtmem))) :=
  (Runs.csrSet hw fun f => f.pciExtmem).andThen (hx.bind (Runs.csrClear hw fun f => f.pciExtmem).map)

/-- Settles O42: the address and the words are written under the ownership bit, whose two changes take the two words read. -/
theorem extMemWriteTrace : Obligations.ExtMemWriteTrace := by
  intro s m x addr count buf v w e hs hw hcount hbuf hreads
  obtain ⟨rfl, hrest⟩ := readMany_cons hreads
  obtain ⟨rfl, hend⟩ := readMany_cons hrest
  obtain rfl : (envRead (envRead x.env).2).2 = e := congrArg Prod.snd hend
  have hbody : Runs s.cfg m (extMemWriteProgram addr count buf).body x.ctx _ _ _ :=
    (Runs.withExtMem hw ((Runs.regWrite hw .extmemAddr addr).andThen
      (Runs.writeAll hw .extmemData ((bufWords buf).take count)))).map
  obtain ⟨t, ht, hevents⟩ := hbody (startPos .extMemWrite)
  refine ⟨shown t, exec_of_online (i := .extMemWrite m addr count buf) hs rfl (offsetsOk_of_windowOk hw nofun)
    (count_and_buffer_pass hcount hbuf) rfl ht, ?_⟩
  rw [hevents]
  simp only [List.append_assoc]
  rfl

/-! ## One access, one operation (40_register_csr.md R101 to R106, 42_hbr_dma.md R165) -/

/-- An operation whose body is a one-word read gives the word as output and as `buf[0]`. -/
theorem exec_of_one_word_read {i : Instr} {m : Nat} {g : Program} {s : State} {x : Module} {c : Ctx} {t : List Stage}
    {old v : Word} {rest : List Word} {read : Op Word} (hs : s.Online m x) (hg : programOf s.cfg i = some (m, g))
    (ho : OffsetsOk s.cfg i) (hf : argFailure s.cfg i = none) (hr : g.ready = true)
    (hbody : g.body = readIntoBuf (some (old :: rest)) read)
    (hread : read ⟨s.cfg, .module m, startPos g.op⟩ x.ctx = .ok v c t) :
    exec i s = .next (finish g.op { status := .ok, output := .word v, buf := some (v :: rest) } (shown t)
      (s.putModule m { x with handle := c.handle, env := c.env })) :=
  exec_of_online hs hg ho hf hr (hbody ▸ Op.map_of_ok hread)

theorem offsetOk_iff {p : Params} {off : Nat} : offsetOk p off = true ↔ off % 4 = 0 ∧ off < winBytes p := by
  simp [offsetOk]

/-- An operation that has only a raw offset is admitted with it. -/
theorem offsetsOk_of_raw {p : Params} {i : Instr} {off : Nat} (hi : offsetsOf p i = [off]) (hoff : offsetOk p off = true) :
    OffsetsOk p i := by
  simpa [OffsetsOk, hi] using hoff

/-- Settles O21: either operation is its one access at the raw offset. -/
theorem registerBusAccesses : Obligations.RegisterBusAccesses := by
  intro s m x off old val rest hs halign hlt
  have hoff : offsetOk s.cfg off = true := offsetOk_iff.mpr ⟨halign, hlt⟩
  exact ⟨exec_of_one_word_read (i := .regRead m off (some (old :: rest))) hs rfl (offsetsOk_of_raw rfl hoff) rfl rfl rfl
      (memRead_of_ok hoff),
    exec_of_online_same (i := .regWrite m off val) hs rfl (offsetsOk_of_raw rfl hoff) rfl rfl
      (Op.map_of_ok (memWrite_of_ok hoff))⟩

/-- Settles O22: either operation is its one read. -/
theorem csrAndWatermarkReads : Obligations.CsrAndWatermarkReads := by
  intro s m x old rest hs hw
  exact ⟨exec_of_one_word_read (i := .csrRead m (some (old :: rest))) hs rfl (offsetsOk_of_windowOk hw nofun) rfl rfl rfl
      (regRead_of_ok hw),
    exec_of_one_word_read (i := .fifoReadWm m (some (old :: rest))) hs rfl (offsetsOk_of_windowOk hw nofun) rfl rfl rfl
      (regRead_of_ok hw)⟩

/-- Settles O23: one write, and the read-modify-write with an empty `clr` or an empty `set`. -/
theorem csrWritesAndModifies : Obligations.CsrWritesAndModifies := by
  intro s m x w hs hw
  refine ⟨?_, ?_, ?_⟩
  · exact exec_of_online_same (i := .csrWrite m w) hs rfl (offsetsOk_of_windowOk hw nofun) rfl rfl
      (Op.map_of_ok (regWrite_of_ok hw))
  · rw [exec_of_online (i := .csrSetBits m w) hs rfl (offsetsOk_of_windowOk hw nofun) rfl rfl
      (Op.map_of_ok (csrModify_of_ok w 0 hw)), csrMerge_zero_clr]
    rfl
  · rw [exec_of_online (i := .csrClearBits m w) hs rfl (offsetsOk_of_windowOk hw nofun) rfl rfl
      (Op.map_of_ok (csrModify_of_ok 0 w hw)), csrMerge_zero_set]
    rfl

end Sys2Proof.Machine
end

section
/-! SUPPORT. The serial bus (41_serial_bus.md R120 to R134): what a part of a transfer drives the lines through and samples, and at
which places of the sequencer (`RunsOnLines`); the framed transfers of a byte; sequences of them; the peer of R134; ID_DECODE. -/

namespace Sys2Proof.Machine

/-! ## Traces on the lines (41_serial_bus.md R120, R126) -/

/-- The trace `t` drives the lines through the levels `ls` and samples the words `vs`, each with its settle delay, and does nothing
else. -/
structure LineTrace (p : Params) (ls : List Lines) (vs : List Word) (t : List Issued) : Prop where
  written : wordsTo .serCtrl t = ls.map (lineWord p)
  sampled : wordsFrom .serStat t = vs
  writes : countEvents isWrite t = ls.length
  reads : countEvents isRead t = vs.length
  sleeps : countEvents isSleep t = ls.length + vs.length
  length : t.length = 2 * (ls.length + vs.length)

theorem wordsTo_append (r : Reg) (t u : List Issued) : wordsTo r (t ++ u) = wordsTo r t ++ wordsTo r u := List.filterMap_append

theorem wordsFrom_append (r : Reg) (t u : List Issued) : wordsFrom r (t ++ u) = wordsFrom r t ++ wordsFrom r u :=
  List.filterMap_append

section trace
variable {p : Params} {ls ls' : List Lines} {vs vs' : List Word} {t u : List Issued}

theorem LineTrace.nil : LineTrace p [] [] [] := ⟨rfl, rfl, rfl, rfl, rfl, rfl⟩

theorem LineTrace.append (ht : LineTrace p ls vs t) (hu : LineTrace p ls' vs' u) :
    LineTrace p (ls ++ ls') (vs ++ vs') (t ++ u) where
  written := by rw [wordsTo_append, ht.written, hu.written, List.map_append]
  sampled := by rw [wordsFrom_append, ht.sampled, hu.sampled]
  writes := by rw [countEvents_append, ht.writes, hu.writes, List.length_append]
  reads := by rw [countEvents_append, ht.reads, hu.reads, List.length_append]
  sleeps := by rw [countEvents_append, ht.sleeps, hu.sleeps, List.length_append, List.length_append]; omega
  length := by rw [List.length_append, ht.length, hu.length, List.length_append, List.length_append]; omega

end trace

/-! ## Parts that run on the lines -/

/-- With parameters `p`, whatever window it has, the part ends well from `c` with the value `a` and the context `c'`: it drives the
lines through `ls` and samples `vs`, its events issued at the places `qs` of the one it starts from. -/
def RunsOnLines {α : Type} (p : Params) (x : Op α) (c : Ctx) (a : α) (c' : Ctx) (ls : List Lines) (vs : List Word)
    (qs : Place → List Place) : Prop :=
  ∀ who pos, ∃ t, x ⟨p, who, pos⟩ c = .ok a c' t ∧ LineTrace p ls vs (shown t) ∧ (shown t).map Issued.pos = qs pos

section runs
variable {α β : Type} {p : Params} {c c₁ c₂ : Ctx} {ls ls' : List Lines} {vs vs' : List Word} {qs qs' : Place → List Place}

theorem RunsOnLines.pure (a : α) : RunsOnLines p (Op.pure a) c a c [] [] fun _ => [] := fun _ _ => ⟨[], rfl, .nil, rfl⟩

theorem RunsOnLines.bind {x : Op α} {f : α → Op β} {a : α} {b : β} (hx : RunsOnLines p x c a c₁ ls vs qs)
    (hf : RunsOnLines p (f a) c₁ b c₂ ls' vs' qs') :
    RunsOnLines p (x.bind f) c b c₂ (ls ++ ls') (vs ++ vs') fun pos => qs pos ++ qs' pos := fun who pos => by
  obtain ⟨t, ht, hlines, hplaces⟩ := hx who pos
  obtain ⟨u, hu, hlines', hplaces'⟩ := hf who pos
  exact ⟨t ++ u, Op.bind_of_ok ht hu, shown_append t u ▸ hlines.append hlines', by
    rw [shown_append, List.map_append, hplaces, hplaces']⟩

theorem RunsOnLines.andThen {x : Op Unit} {y : Op β} {b : β} (hx : RunsOnLines p x c () c₁ ls vs qs)
    (hy : RunsOnLines p y c₁ b c₂ ls' vs' qs') :
    RunsOnLines p (x.andThen y) c b c₂ (ls ++ ls') (vs ++ vs') fun pos => qs pos ++ qs' pos := hx.bind hy

theorem RunsOnLines.map {f : α → β} {x : Op α} {a : α} (hx : RunsOnLines p x c a c₁ ls vs qs) :
    RunsOnLines p (x.map f) c (f a) c₁ ls vs qs := fun who pos => by
  obtain ⟨t, ht, htrace⟩ := hx who pos
  exact ⟨t, Op.map_of_ok ht, htrace⟩

theorem RunsOnLines.ifOk {x : Op (Except Failure α)} {f : α → Op (Except Failure β)} {a : α} {b : Except Failure β}
    (hx : RunsOnLines p x c (.ok a) c₁ ls vs qs) (hf : RunsOnLines p (f a) c₁ b c₂ ls' vs' qs') :
    RunsOnLines p (x.ifOk f) c b c₂ (ls ++ ls') (vs ++ vs') fun pos => qs pos ++ qs' pos := hx.bind hf

theorem RunsOnLines.ifError {x : Op (Except Failure α)} {f : α → Op (Except Failure β)} {e : Failure}
    (hx : RunsOnLines p x c (.error e) c₁ ls vs qs) : RunsOnLines p (x.ifOk f) c (.error e) c₁ ls vs qs := fun who pos => by
  obtain ⟨t, ht, htrace⟩ := hx who pos
  exact ⟨t, Op.ifOk_of_error ht, htrace⟩

/-- A run whose levels, words and places are known under other names. -/
theorem RunsOnLines.cast {x : Op α} {a : α} (h : RunsOnLines p x c a c₁ ls vs qs) (hls : ls = ls') (hvs : vs = vs')
    (hqs : ∀ pos, qs pos = qs' pos) : RunsOnLines p x c a c₁ ls' vs' qs' := by
  subst hls hvs
  rwa [← funext hqs]

/-- A loop over elements makes its first turn and then the rest, whether the rest fails or not. -/
theorem RunsOnLines.eachOk_cons {f : Nat → α → Op (Except Failure β)} {i : Nat} {a : α} {l : List α} {b : β}
    {r : Except Failure (List β)} (hx : RunsOnLines p (f i a) c (.ok b) c₁ ls vs qs)
    (hrest : RunsOnLines p (Op.eachOk f (i + 1) l) c₁ r c₂ ls' vs' qs') :
    RunsOnLines p (Op.eachOk f i (a :: l)) c (r.map (b :: ·)) c₂ (ls ++ ls') (vs ++ vs') fun pos => qs pos ++ qs' pos := by
  have hturn := hx.ifOk (f := fun b => (Op.eachOk f (i + 1) l).ifOk fun bs => Op.pure (.ok (b :: bs)))
    (b := r.map (b :: ·)) (c₂ := c₂) (ls' := ls') (vs' := vs') (qs' := qs')
  cases r with
  | ok bs =>
    have hlast := hrest.ifOk (f := fun bs => Op.pure (.ok (b :: bs))) (.pure _)
    exact hturn (hlast.cast (List.append_nil _) (List.append_nil _) fun _ => List.append_nil _)
  | error e => exact hturn hrest.ifError

theorem RunsOnLines.withCfg {f : Params → Op α} {a : α} (h : RunsOnLines p (f p) c a c₁ ls vs qs) :
    RunsOnLines p (Op.withCfg f) c a c₁ ls vs qs := h

theorem RunsOnLines.getHandle : RunsOnLines p Op.getHandle c c.handle c [] [] fun _ => [] := fun _ _ => ⟨[], rfl, .nil, rfl⟩

theorem RunsOnLines.setHandle (f : Handle → Handle) :
    RunsOnLines p (Op.setHandle f) c () { c with handle := f c.handle } [] [] fun _ => [] := fun _ _ => ⟨[], rfl, .nil, rfl⟩

theorem RunsOnLines.inLoop {x : Op α} {a : α} {k : Nat} (h : RunsOnLines p x c a c₁ ls vs qs) :
    RunsOnLines p (x.inLoop k) c a c₁ ls vs fun pos => qs (posLoop k pos) := fun who pos => h who (posLoop k pos)

theorem RunsOnLines.inPhase {x : Op α} {a : α} {ph : Phase} (h : RunsOnLines p x c a c₁ ls vs qs) :
    RunsOnLines p (Op.inPhase ph x) c a c₁ ls vs fun pos => qs (posPhase ph pos) := fun who pos => h who (posPhase ph pos)

end runs

/-! ## Parts of a byte transfer (41_serial_bus.md R121 to R125) -/

/-- In a byte transfer: a handle `h`, but for the line levels `l` and the transaction `r`. -/
def inTransfer (h : Handle) (e : Env) (l : Lines) (r : SerRec) : Ctx := ⟨{ h with lines := l, ser := some r }, e⟩

/-- After a byte transfer: the lines at the levels of Stop, no transaction. -/
def Handle.released (h : Handle) : Handle := { h with lines := ⟨true, true, true⟩, ser := none }

/-- `n` events in a phase of the byte transfer. -/
def placesIn (n : Nat) (q : SerPhase) (pos : Place) : List Place := List.replicate n (posPhase (.serial q) pos)

theorem decide_isLow (p : Params) (v : Word) : decide (isLow p v) = !sdaIn p v := by
  cases hv : sdaIn p v <;> simp_all [isLow, sdaIn]

section parts
variable {p : Params} (hw : windowOk p = true) {h : Handle} {e : Env} {l : Lines} {r : SerRec}

theorem RunsOnLines.setSer (f : SerRec → SerRec) :
    RunsOnLines p (setSer f) (inTransfer h e l r) () (inTransfer h e l (f r)) [] [] fun _ => [] := setHandle _

theorem RunsOnLines.setBitIdx (i : Nat) :
    RunsOnLines p (setBitIdx i) (inTransfer h e l r) () (inTransfer h e l { r with bitIdx := i }) [] [] fun _ => [] := setSer _

/-- A transfer begins from any context with a record of its own. -/
theorem RunsOnLines.beginSer (r : SerRec) :
    RunsOnLines p (Op.setHandle fun h => { h with ser := some r }) ⟨h, e⟩ () (inTransfer h e h.lines r) [] [] fun _ => [] :=
  setHandle _

/-- A transfer ends with its record read out and discarded. -/
theorem RunsOnLines.endSer {α : Type} (f : SerRec → α) (d : α) :
    RunsOnLines p (endSer f d) (inTransfer h e ⟨true, true, true⟩ r) (f r) ⟨h.released, e⟩ [] [] fun _ => [] :=
  getHandle.bind (setHandle _).map

include hw

/-- One line change: its two events are issued where the sequencer stands (R120). -/
theorem RunsOnLines.drive (l' : Lines) :
    RunsOnLines p (drive l') (inTransfer h e l r) () (inTransfer h e l' r) [l'] [] fun pos => [pos, pos] :=
  fun _ _ => ⟨_, Op.andThen_of_ok (regWrite_of_ok hw) rfl, ⟨rfl, rfl, rfl, rfl, rfl, rfl⟩, rfl⟩

/-- One sample: its two events are issued where the sequencer stands (R120). -/
theorem RunsOnLines.sample :
    RunsOnLines p sample (inTransfer h e l r) (sdaIn p (envRead e).1) (inTransfer h (envRead e).2 l r) [] [(envRead e).1]
      fun pos => [pos, pos] :=
  fun _ _ => ⟨_, Op.bind_of_ok (regRead_of_ok hw) rfl, ⟨rfl, rfl, rfl, rfl, rfl, rfl⟩, rfl⟩

theorem RunsOnLines.serStart :
    RunsOnLines p serStart (inTransfer h e l r) () (inTransfer h e ⟨true, false, true⟩ r) startLines [] (placesIn 4 .start) :=
  ((drive hw _).andThen (drive hw _)).inPhase

theorem RunsOnLines.serStop :
    RunsOnLines p serStop (inTransfer h e l r) () (inTransfer h e ⟨true, true, true⟩ r) stopLines [] (placesIn 6 .stop) :=
  ((drive hw _).andThen ((drive hw _).andThen (drive hw _))).inPhase

/-- The data line stands at its last level while the clock falls. -/
theorem RunsOnLines.sendBit (d : Bool) :
    RunsOnLines p (sendBit d) (inTransfer h e l r) () (inTransfer h e ⟨true, d, true⟩ r)
      [⟨false, l.sdaOut, true⟩, ⟨false, d, true⟩, ⟨true, d, true⟩] [] fun pos => [pos, pos, pos, pos, pos, pos] :=
  have held : RunsOnLines p (Op.getHandle.bind fun h => Machine.drive ⟨false, h.lines.sdaOut, true⟩) (inTransfer h e l r) ()
      (inTransfer h e ⟨false, l.sdaOut, true⟩ r) [⟨false, l.sdaOut, true⟩] [] fun pos => [pos, pos] :=
    getHandle.bind (drive hw _)
  held.andThen ((drive hw _).andThen (drive hw _))

theorem RunsOnLines.recvBit :
    RunsOnLines p recvBit (inTransfer h e l r) (sdaIn p (envRead e).1) (inTransfer h (envRead e).2 ⟨true, true, false⟩ r)
      [⟨false, true, false⟩, ⟨true, true, false⟩] [(envRead e).1] fun pos => [pos, pos, pos, pos, pos, pos] :=
  (drive hw _).andThen <|
    (sample hw).bind (f := fun d => (Machine.drive ⟨true, true, false⟩).map fun _ => d) (drive hw _).map

theorem RunsOnLines.sendBitAt (b : Byte) (i : Nat) :
    RunsOnLines p (sendBitAt b i) (inTransfer h e l r) () (inTransfer h e ⟨true, b.getLsbD i, true⟩ { r with bitIdx := i })
      [⟨false, l.sdaOut, true⟩, ⟨false, b.getLsbD i, true⟩, ⟨true, b.getLsbD i, true⟩] [] (placesIn 6 (.bitLoop i)) :=
  ((setBitIdx i).andThen (sendBit hw _)).inPhase

/-- The sample taken is shifted in. -/
theorem RunsOnLines.recvBitAt (i : Nat) :
    RunsOnLines p (recvBitAt i) (inTransfer h e l r) ()
      (inTransfer h (envRead e).2 ⟨true, true, false⟩ ⟨i, shiftIn r.shift (sdaIn p (envRead e).1), r.ack⟩)
      [⟨false, true, false⟩, ⟨true, true, false⟩] [(envRead e).1] (placesIn 6 (.bitLoop i)) :=
  ((setBitIdx i).andThen <| (recvBit hw).bind
    (f := fun d => Machine.setSer fun r => { r with shift := shiftIn r.shift d }) (setSer _)).inPhase

/-- The bits of a byte at the indices `is`, from the data level the lines stand at. -/
theorem RunsOnLines.sendBits (b : Byte) (is : List Nat) : ∀ (k : Nat) (l : Lines) (r : SerRec), ∃ l' r',
    RunsOnLines p (Op.each (fun _ i => Machine.sendBitAt b i) k is) (inTransfer h e l r) () (inTransfer h e l' r')
      (sendLines l.sdaOut (is.map b.getLsbD)) [] fun pos => is.flatMap fun i => placesIn 6 (.bitLoop i) pos := by
  induction is with
  | nil => exact fun k l r => ⟨l, r, .pure ()⟩
  | cons i is ih =>
    intro k l r
    obtain ⟨l', r', hrest⟩ := ih (k + 1) ⟨true, b.getLsbD i, true⟩ { r with bitIdx := i }
    exact ⟨l', r', (sendBitAt hw b i).andThen hrest⟩

/-- Bits received at the indices `is`: one sample each, shifted in in order. -/
theorem RunsOnLines.recvBits (is : List Nat) : ∀ (k : Nat) (e : Env) (l : Lines) (r : SerRec), ∃ l' r',
    r'.shift = ((readMany is.length e).1.map (sdaIn p)).foldl shiftIn r.shift ∧
    RunsOnLines p (Op.each (fun _ i => Machine.recvBitAt i) k is) (inTransfer h e l r) ()
      (inTransfer h (readMany is.length e).2 l' r')
      (List.replicate is.length [⟨false, true, false⟩, ⟨true, true, false⟩]).flatten (readMany is.length e).1
      fun pos => is.flatMap fun i => placesIn 6 (.bitLoop i) pos := by
  induction is with
  | nil => exact fun k e l r => ⟨l, r, rfl, .pure ()⟩
  | cons i is ih =>
    intro k e l r
    obtain ⟨l', r', hshift, hrest⟩ := ih (k + 1) (envRead e).2 ⟨true, true, false⟩
      ⟨i, shiftIn r.shift (sdaIn p (envRead e).1), r.ack⟩
    exact ⟨l', r', hshift, (recvBitAt hw i).andThen hrest⟩

theorem RunsOnLines.serRelease :
    RunsOnLines p serRelease (inTransfer h e l r) () (inTransfer h e ⟨false, true, false⟩ r) [⟨false, true, false⟩] []
      (placesIn 2 .release) := (drive hw _).inPhase

/-- A low sample acknowledges (R123; log 22). -/
theorem RunsOnLines.serAckWait :
    RunsOnLines p serAckWait (inTransfer h e l r) ()
      (inTransfer h (envRead e).2 ⟨false, true, false⟩ { r with ack := !sdaIn p (envRead e).1 })
      [⟨true, true, false⟩, ⟨false, true, false⟩] [(envRead e).1] (placesIn 6 .ackWait) :=
  have sampled := (sample (r := r) hw).bind
    (f := fun a => (Machine.drive ⟨false, true, false⟩).andThen (Machine.setSer fun r => { r with ack := !a }))
    ((drive hw _).andThen (setSer _))
  ((drive hw _).andThen sampled).inPhase

theorem RunsOnLines.serAckSend :
    RunsOnLines p serAckSend (inTransfer h e l r) () (inTransfer h e ⟨false, p.acksendSda, true⟩ r)
      [⟨false, p.acksendSda, true⟩, ⟨true, p.acksendSda, true⟩, ⟨false, p.acksendSda, true⟩] [] (placesIn 6 .ackSend) :=
  (withCfg ((drive hw _).andThen ((drive hw _).andThen (drive hw _)))).inPhase

/-! ## Framed byte transfers (41_serial_bus.md R130, R131) -/

/-- The phases of a frame that has `tail` after its bits, each with the number of events issued in it. -/
def framePhases (tail : List (SerPhase × Nat)) : List (SerPhase × Nat) :=
  (.start, 4) :: (bitOrder.map (fun i => (SerPhase.bitLoop i, 6)) ++ tail)

/-- The phases of a framed byte write (R130). -/
def writePhases : List (SerPhase × Nat) := framePhases [(.release, 2), (.ackWait, 6), (.stop, 6)]

/-- The phases of a framed byte read (R131). -/
def readPhases : List (SerPhase × Nat) := framePhases [(.ackSend, 6), (.stop, 6)]

/-- The places of the events of a byte transfer. -/
def transferPlaces (ph : List (SerPhase × Nat)) (pos : Place) : List Place := ph.flatMap fun r => placesIn r.2 r.1 pos

/-- The byte shifted in from eight samples. -/
def byteOf (p : Params) (vs : List Word) : Byte := (vs.map (sdaIn p)).foldl shiftIn 0

/-- A byte written in its frame, from any context: the sample tells whether it is acknowledged. -/
theorem RunsOnLines.serWriteBody (b : Byte) :
    RunsOnLines p (serWriteBody b) ⟨h, e⟩ (decide (isLow p (envRead e).1)) ⟨h.released, (envRead e).2⟩ (serWriteLines b)
      [(envRead e).1] (transferPlaces writePhases) := by
  rw [decide_isLow]
  obtain ⟨l, r, hbits⟩ := sendBits (h := h) (e := e) hw b bitOrder 0 ⟨true, false, true⟩ ⟨7, b, false⟩
  refine ((beginSer _).andThen <| (serStart hw).andThen <| hbits.andThen <| (serRelease hw).andThen <|
    (serAckWait hw).andThen <| (serStop hw).andThen (endSer _ _)).cast ?_ ?_ ?_
  · simp [serWriteLines, bitsOf, bitOrder]
  · rfl
  · simp [transferPlaces, writePhases, framePhases, bitOrder]

/-- A byte read in its frame, from any context. -/
theorem RunsOnLines.serReadBody :
    RunsOnLines p serReadBody ⟨h, e⟩ (byteOf p (readMany 8 e).1) ⟨h.released, (readMany 8 e).2⟩ (serReadLines p.acksendSda)
      (readMany 8 e).1 (transferPlaces readPhases) := by
  obtain ⟨l, r, hshift, hbits⟩ := recvBits (h := h) hw bitOrder 0 e ⟨true, false, true⟩ ⟨7, 0, false⟩
  have hbyte : byteOf p (readMany 8 e).1 = r.shift := hshift.symm
  rw [hbyte]
  refine ((beginSer _).andThen <| (serStart hw).andThen <| hbits.andThen <| (serAckSend hw).andThen <|
    (serStop hw).andThen (endSer _ _)).cast ?_ ?_ ?_
  · simp [serReadLines, bitOrder]
  · simp [bitOrder]
  · simp [transferPlaces, readPhases, framePhases, bitOrder]

end parts

/-! ## The phases passed through (41_serial_bus.md R125) -/

/-- A run of one element in front of a list that does not have it. -/
theorem dedup_replicate_append {α : Type} [DecidableEq α] {a : α} {l : List α} (ha : a ∉ l) (n : Nat) :
    (List.replicate (n + 1) a ++ l).dedup = a :: l.dedup := by
  induction n with
  | zero => exact List.dedup_cons_of_notMem ha
  | succ n ih => exact (List.dedup_cons_of_mem (by simp [List.replicate_succ])).trans ih

/-- The phases a byte transfer passes through, each once. -/
theorem dedup_transferPlaces (op : Mnemonic) (ls : List Nat) (ph : List (SerPhase × Nat)) (hpos : ∀ r ∈ ph, 0 < r.2)
    (hnodup : (ph.map Prod.fst).Nodup) (ph₀ : Phase) :
    (transferPlaces ph (.running op ph₀ ls)).dedup = (ph.map Prod.fst).map fun q => .running op (.serial q) ls := by
  induction ph with
  | nil => rfl
  | cons r ph ih =>
    obtain ⟨hr, hrest⟩ := List.forall_mem_cons.mp hpos
    obtain ⟨hnew, hnodup⟩ := List.nodup_cons.mp hnodup
    obtain ⟨n, hn⟩ := Nat.exists_eq_succ_of_ne_zero hr.ne'
    have hplace : Place.running op (.serial r.1) ls ∉ transferPlaces ph (.running op ph₀ ls) := by
      simp only [transferPlaces, placesIn, posPhase, List.mem_flatMap, List.mem_replicate, Place.running.injEq,
        Phase.serial.injEq, true_and, and_true, not_exists, not_and]
      rintro q hq - heq
      exact hnew (heq ▸ List.mem_map_of_mem hq)
    have hrun := dedup_replicate_append hplace n
    rw [ih hrest hnodup] at hrun
    rwa [← Nat.succ_eq_add_one, ← hn] at hrun

/-! ## The byte of eight samples (41_serial_bus.md R122, R131) -/

theorem getLsbD_shiftIn_zero (s : Byte) (d : Bool) : (shiftIn s d).getLsbD 0 = d := by cases d <;> simp [shiftIn]

theorem getLsbD_shiftIn_succ (s : Byte) (d : Bool) {k : Nat} (hk : k + 1 < 8) :
    (shiftIn s d).getLsbD (k + 1) = s.getLsbD k := by
  cases d <;> simp [shiftIn, -BitVec.getLsbD_eq_getElem, hk]

/-- Bit `k` after shifting in: the `k`-th from the last. -/
theorem getLsbD_shifted (s : Byte) (ds : List Bool) : ∀ k < 8, k < ds.length →
    (ds.foldr (fun d s => shiftIn s d) s).getLsbD k = ds.getD k false := by
  induction ds with
  | nil => exact fun k _ hk => absurd hk (Nat.not_lt_zero k)
  | cons d ds ih =>
    intro k h8 hk
    cases k with
    | zero => exact getLsbD_shiftIn_zero _ d
    | succ k => exact (getLsbD_shiftIn_succ _ d h8).trans (ih k (by omega) (Nat.lt_of_succ_lt_succ hk))

theorem sampledByte_byteOf (p : Params) {vs : List Word} (hlen : vs.length = 8) : SampledByte p vs (byteOf p vs) := by
  intro k hk
  have hbit := getLsbD_shifted 0 (vs.map (sdaIn p)).reverse (7 - k) (by omega) (by simp; omega)
  rw [List.foldr_reverse] at hbit
  rw [byteOf, hbit, List.getD_eq_getElem _ _ (by simp; omega), List.getD_eq_getElem _ _ (by omega)]
  have hindex : vs.length - 1 - (7 - k) = k := by omega
  simp [hindex, sdaIn]

/-- Only the first eight samples count. -/
theorem SampledByte.append {p : Params} {vs : List Word} {b : Byte} (hlen : vs.length = 8) (h : SampledByte p vs b)
    (us : List Word) : SampledByte p (vs ++ us) b := fun k hk => by
  rw [h k hk, List.getD_append _ _ _ _ (by omega)]

/-- Eight samples determine the byte. -/
theorem SampledByte.unique {p : Params} {vs : List Word} {b b' : Byte} (h : SampledByte p vs b) (h' : SampledByte p vs b') :
    b = b' := BitVec.eq_of_getLsbD_eq fun i hi => by
  have hbit := (h (7 - i) (by omega)).trans (h' (7 - i) (by omega)).symm
  rwa [show 7 - (7 - i) = i by omega] at hbit

/-! ## Sequences of byte transfers (41_serial_bus.md R132) -/

/-- The handle after `n` byte transfers. -/
def Handle.afterBytes (n : Nat) (h : Handle) : Handle := if n = 0 then h else h.released

@[simp] theorem Handle.afterBytes_zero (h : Handle) : h.afterBytes 0 = h := rfl

@[simp] theorem Handle.afterBytes_succ (n : Nat) (h : Handle) : h.afterBytes (n + 1) = h.released := rfl

@[simp] theorem Handle.afterBytes_released (n : Nat) (h : Handle) : h.released.afterBytes n = h.released := by
  cases n <;> rfl

theorem Handle.afterBytes_afterBytes (k n : Nat) (h : Handle) : (h.afterBytes k).afterBytes n = h.afterBytes (k + n) := by
  cases k <;> simp [Nat.add_right_comm]

theorem readMany_add_words (n k : Nat) (e : Env) :
    (readMany (n + k) e).1 = (readMany n e).1 ++ (readMany k (readMany n e).2).1 := by rw [readMany_add]

theorem readMany_add_env (n k : Nat) (e : Env) : (readMany (n + k) e).2 = (readMany k (readMany n e).2).2 := by
  rw [readMany_add]

/-- The words read after the first `n`. -/
theorem readMany_drop (n k i : Nat) (e : Env) :
    (readMany (n + k) e).1.drop (n + i) = (readMany k (readMany n e).2).1.drop i := by
  have hdrop := List.drop_length_add_append (l₁ := (readMany n e).1) (l₂ := (readMany k (readMany n e).2).1) i
  rwa [readMany_length, ← readMany_add_words] at hdrop

section sequence
variable {p : Params} (hw : windowOk p = true)
include hw

/-- A leading byte is sent, and its sample, low or not, decides. -/
theorem RunsOnLines.serSendChecked (h : Handle) (e : Env) (j : Nat) (b : Byte) : ∃ qs,
    RunsOnLines p (serSendChecked j b) ⟨h, e⟩
      (if isLow p (envRead e).1 then .ok () else .error ⟨.protocolTimeout, .serAck⟩) ⟨h.released, (envRead e).2⟩
      (serWriteLines b) [(envRead e).1] qs := by
  have hsent := (serWriteBody (h := h) (e := e) hw b).inLoop (k := j) |>.map
    (f := fun ack => if ack then (.ok () : Except Failure Unit) else .error ⟨.protocolTimeout, .serAck⟩)
  simp only [decide_eq_true_eq] at hsent
  exact ⟨_, hsent⟩

/-- Leading bytes that are all acknowledged. -/
theorem RunsOnLines.serLead (lead : List Byte) : ∀ (i : Nat) (h : Handle) (e : Env),
    (∀ v ∈ (readMany lead.length e).1, isLow p v) → ∃ us qs,
    RunsOnLines p (Op.eachOk Machine.serSendChecked i lead) ⟨h, e⟩ (.ok us)
      ⟨h.afterBytes lead.length, (readMany lead.length e).2⟩ (lead.flatMap serWriteLines) (readMany lead.length e).1 qs := by
  induction lead with
  | nil => exact fun i h e _ => ⟨[], _, .pure _⟩
  | cons b lead ih =>
    intro i h e hlow
    obtain ⟨qs, hb⟩ := serSendChecked hw h e i b
    rw [if_pos (hlow _ List.mem_cons_self)] at hb
    obtain ⟨us, qs', hrest⟩ := ih (i + 1) h.released (envRead e).2 fun v hv => hlow v (List.mem_cons_of_mem _ hv)
    rw [Handle.afterBytes_released] at hrest
    exact ⟨() :: us, _, hb.eachOk_cons hrest⟩

/-- Leading bytes end at the first one that is not acknowledged. -/
theorem RunsOnLines.serLead_fails (lead : List Byte) : ∀ (j i : Nat) (h : Handle) (e : Env), j < lead.length →
    (∀ v ∈ (readMany j e).1, isLow p v) → ¬ isLow p (envRead (readMany j e).2).1 → ∃ qs,
    RunsOnLines p (Op.eachOk Machine.serSendChecked i lead) ⟨h, e⟩ (.error ⟨.protocolTimeout, .serAck⟩)
      ⟨h.released, (readMany (j + 1) e).2⟩ ((lead.take (j + 1)).flatMap serWriteLines) (readMany (j + 1) e).1 qs := by
  induction lead with
  | nil => exact fun j i h e hj => absurd hj (Nat.not_lt_zero j)
  | cons b lead ih =>
    intro j i h e hj hlow hhigh
    obtain ⟨qs, hb⟩ := serSendChecked hw h e i b
    cases j with
    | zero =>
      rw [if_neg (show ¬ isLow p (envRead e).1 from hhigh)] at hb
      exact ⟨_, hb.ifError.cast (by simp) rfl fun _ => rfl⟩
    | succ j =>
      rw [if_pos (hlow _ List.mem_cons_self)] at hb
      obtain ⟨qs', hrest⟩ := ih j (i + 1) h.released (envRead e).2 (Nat.lt_of_succ_lt_succ hj)
        (fun v hv => hlow v (List.mem_cons_of_mem _ hv)) hhigh
      exact ⟨_, hb.eachOk_cons hrest⟩

/-- Bytes read one after the other, each from its own eight samples. -/
theorem RunsOnLines.serReads (n : Nat) : ∀ (i : Nat) (h : Handle) (e : Env), ∃ bytes qs, bytes.length = n ∧
    (∀ k < n, SampledByte p ((readMany (8 * n) e).1.drop (8 * k)) (bytes.getD k 0)) ∧
    RunsOnLines p (Op.times (fun i => Op.inLoop i Machine.serReadBody) i n) ⟨h, e⟩ bytes
      ⟨h.afterBytes n, (readMany (8 * n) e).2⟩ (List.replicate n (serReadLines p.acksendSda)).flatten
      (readMany (8 * n) e).1 qs := by
  induction n with
  | zero => exact fun i h e => ⟨[], _, rfl, fun k hk => absurd hk (Nat.not_lt_zero k), .pure _⟩
  | succ n ih =>
    intro i h e
    obtain ⟨bytes, qs, hlen, hsampled, hrest⟩ := ih (i + 1) h.released (readMany 8 e).2
    rw [Handle.afterBytes_released] at hrest
    have hb := (serReadBody (h := h) (e := e) hw).inLoop (k := i)
    have hseq := hb.bind (f := fun b => (Op.times (fun i => Op.inLoop i Machine.serReadBody) (i + 1) n).map fun bs => b :: bs)
      hrest.map
    rw [← readMany_add_words, ← readMany_add_env] at hseq
    rw [Nat.mul_succ, Nat.add_comm (8 * n)]
    refine ⟨byteOf p (readMany 8 e).1 :: bytes, _, congrArg (· + 1) hlen, fun k hk => ?_, hseq⟩
    cases k with
    | zero =>
      rw [readMany_add_words]
      exact (sampledByte_byteOf p (readMany_length 8 e)).append (readMany_length 8 e) _
    | succ k =>
      rw [Nat.mul_succ, Nat.add_comm (8 * k), readMany_drop]
      exact hsampled k (Nat.lt_of_succ_lt_succ hk)

/-- The whole sequence, every leading byte acknowledged. -/
theorem RunsOnLines.serReadSeqBody {lead : List Byte} (n : Nat) {h : Handle} {e : Env}
    (hlow : ∀ v ∈ (readMany lead.length e).1, isLow p v) : ∃ bytes qs, bytes.length = n ∧
    (∀ k < n, SampledByte p ((readMany (lead.length + 8 * n) e).1.drop (lead.length + 8 * k)) (bytes.getD k 0)) ∧
    RunsOnLines p (serReadSeqBody lead n) ⟨h, e⟩ (.ok bytes)
      ⟨h.afterBytes (lead.length + n), (readMany (lead.length + 8 * n) e).2⟩
      (lead.flatMap serWriteLines ++ (List.replicate n (serReadLines p.acksendSda)).flatten)
      (readMany (lead.length + 8 * n) e).1 qs := by
  obtain ⟨us, qs, hlead⟩ := serLead hw lead 0 h e hlow
  obtain ⟨bytes, qs', hlen, hsampled, hread⟩ := serReads hw n 0 (h.afterBytes lead.length) (readMany lead.length e).2
  have hseq := hlead.ifOk (f := fun _ => (Op.times (fun i => Op.inLoop i Machine.serReadBody) 0 n).map Except.ok) hread.map
  rw [Handle.afterBytes_afterBytes, ← readMany_add_words, ← readMany_add_env] at hseq
  exact ⟨bytes, _, hlen, fun k hk => readMany_drop .. ▸ hsampled k hk, hseq⟩

end sequence

/-! ## What exec answers -/

/-- On an online module an operation whose body runs on the lines answers what its body ends with, and issues what it drives and
samples. -/
theorem exec_of_runsOnLines {i : Instr} {m : Nat} {g : Program} {s : State} {x : Module} {r : Reply} {c : Ctx} {ls : List Lines}
    {vs : List Word} {qs : Place → List Place} (hs : s.Online m x) (hw : windowOk s.cfg = true)
    (hg : programOf s.cfg i = some (m, g)) (hraw : i.rawOffset? = none) (hf : argFailure s.cfg i = none) (hr : g.ready = true)
    (hb : RunsOnLines s.cfg g.body x.ctx r c ls vs qs) : ∃ t,
    exec i s = .next (finish g.op r t (s.putModule m { x with handle := c.handle, env := c.env })) ∧
      LineTrace s.cfg ls vs t ∧ t.map Issued.pos = qs (startPos g.op) := by
  obtain ⟨t, ht, htrace⟩ := hb (.module m) (startPos g.op)
  exact ⟨shown t, exec_of_online hs hg (offsetsOk_of_windowOk hw (by simp [hraw])) hf hr ht, htrace⟩

/-- Settles O27: the body's run, its frame of 32 levels and one sample. -/
theorem serialWriteFrame : Obligations.SerialWriteFrame := by
  intro s m x b hs hw
  obtain ⟨t, ht, htrace, hplaces⟩ := exec_of_runsOnLines (i := .serWriteByte m b) hs hw rfl rfl rfl rfl
    (RunsOnLines.serWriteBody hw b).map
  exact ⟨_, ht, rfl, rfl, putModule_module_self _ _ _ hs.1, htrace.written, htrace.sampled, htrace.writes, htrace.reads,
    htrace.sleeps, htrace.length,
    (congrArg List.dedup hplaces).trans (dedup_transferPlaces _ _ _ (by decide) (by decide) _)⟩

/-- Settles O28: the body's run, its frame of 24 levels and eight samples. -/
theorem serialReadFrame : Obligations.SerialReadFrame := by
  intro s m x old rest hs hw
  obtain ⟨t, ht, htrace, hplaces⟩ := exec_of_runsOnLines (i := .serReadByte m (some (old :: rest))) hs hw rfl rfl rfl rfl
    (RunsOnLines.serReadBody hw).map
  have hlen := readMany_length 8 x.env
  exact ⟨_, _, ht, rfl, sampledByte_byteOf s.cfg hlen, rfl, rfl, putModule_module_self _ _ _ hs.1, htrace.written,
    htrace.sampled, htrace.writes, htrace.reads.trans hlen, htrace.sleeps.trans (congrArg (24 + ·) hlen),
    htrace.length.trans (congrArg (fun k => 2 * (24 + k)) hlen),
    (congrArg List.dedup hplaces).trans (dedup_transferPlaces _ _ _ (by decide) (by decide) _)⟩

/-! ## The sequence's buffer and counts (41_serial_bus.md R126, R132) -/

theorem bufWords_bufPut_take {b : Buf} {ws : List Word} (hb : ws.length ≤ bufLen b) :
    (bufWords (bufPut b ws)).take ws.length = ws := by
  cases b with
  | none =>
    obtain rfl := List.eq_nil_of_length_eq_zero (Nat.le_zero.mp hb)
    rfl
  | some old => exact List.take_left

theorem flatMap_serWriteLines_length (lead : List Byte) : (lead.flatMap serWriteLines).length = 32 * lead.length := by
  have hframe : ∀ b, (serWriteLines b).length = 32 := fun _ => rfl
  simp [List.length_flatMap, hframe, Nat.mul_comm]

theorem replicate_serReadLines_length (n : Nat) (a : Bool) :
    (List.replicate n (serReadLines a)).flatten.length = 24 * n := by
  have hframe : (serReadLines a).length = 24 := rfl
  simp [hframe, Nat.mul_comm]

/-- Settles O29: the leading bytes in their frames and then the reads, or the frames up to the first byte not acknowledged. -/
theorem serialSequence : Obligations.SerialSequence := by
  intro s m x lead n buf hs hw hbuf
  have hf : argFailure s.cfg (.serReadSeq m lead n buf) = none := if_neg hbuf.not_gt
  refine ⟨fun hlow => ?_, fun j hj hlow hhigh => ?_⟩
  · obtain ⟨bytes, qs, hlen, hsampled, hrun⟩ := RunsOnLines.serReadSeqBody hw n (h := x.handle) hlow
    obtain ⟨t, ht, htrace, -⟩ := exec_of_runsOnLines (i := .serReadSeq m lead n buf) hs hw rfl rfl hf rfl hrun.map
    have hwords : (bytes.map zextByte).length = n := (List.length_map _).trans hlen
    have hframed := bufFramed_bufPut hwords.le (hwords.trans_le hbuf)
    have htake : (bufWords (bufPut buf (bytes.map zextByte))).take n = bytes.map zextByte :=
      hwords ▸ bufWords_bufPut_take (hwords.trans_le hbuf)
    refine ⟨_, ht, rfl, congrArg (some ∘ Output.words) htake.symm, hframed.length, hframed.rest, fun i hi => ?_, ?_,
      htrace.written, htrace.sampled, ?_, htrace.reads.trans (readMany_length _ _), ?_⟩
    · refine ⟨_, ?_, hsampled i hi⟩
      calc (bufWords (bufPut buf (bytes.map zextByte)))[i]?
          = ((bufWords (bufPut buf (bytes.map zextByte))).take n)[i]? := (List.getElem?_take_of_lt hi).symm
        _ = some ((bytes.getD i 0).setWidth 32) := by simp [htake, hlen ▸ hi, zextByte]
    · refine (putModule_module_self _ _ _ hs.1).trans ?_
      simp [Handle.afterBytes, Handle.released]
    · refine htrace.writes.trans ?_
      rw [List.length_append, flatMap_serWriteLines_length, replicate_serReadLines_length]
    · refine htrace.sleeps.trans ?_
      rw [List.length_append, flatMap_serWriteLines_length, replicate_serReadLines_length, readMany_length]
      omega
  · obtain ⟨qs, hfail⟩ := RunsOnLines.serLead_fails hw lead j 0 x.handle x.env hj hlow hhigh
    obtain ⟨t, ht, htrace, -⟩ := exec_of_runsOnLines (i := .serReadSeq m lead n buf) hs hw rfl rfl hf rfl hfail.ifError.map
    have hsent : ((lead.take (j + 1)).flatMap serWriteLines).length = 32 * (j + 1) := by
      rw [flatMap_serWriteLines_length, List.length_take_of_le hj]
    refine ⟨_, ht, rfl, rfl, putModule_module_self _ _ _ hs.1, htrace.written, htrace.sampled, htrace.writes.trans hsent,
      htrace.reads.trans (readMany_length _ _), ?_⟩
    refine htrace.sleeps.trans ?_
    rw [hsent, readMany_length]
    omega

/-! ## The peer that answers what it clocked in (41_serial_bus.md R134) -/

theorem getLsbD_lineBit (level : Bool) (i j : Fin 32) : (lineBit level i).getLsbD j.val = (level && decide (i = j)) := by
  cases level with
  | false => simp [lineBit]
  | true =>
    have hbit : (BitVec.twoPow 32 i.val).getLsbD j.val = decide (i.val = j.val) := by
      rw [BitVec.getLsbD_twoPow, decide_eq_true i.isLt, Bool.true_and]
    rw [Bool.true_and, lineBit, if_pos rfl, fieldBit, ← BitVec.twoPow_eq, hbit]
    exact decide_eq_decide.mpr Fin.ext_iff.symm

/-- The data levels at the rises of the clock line, which stood `high` before. -/
def risingLevels : Bool → List Lines → List Bool
  | _, [] => []
  | high, l :: rest => if l.scl && !high then l.sdaOut :: risingLevels l.scl rest else risingLevels l.scl rest

theorem lineWord_getLsbD (p : Params) (l : Lines) (j : Fin 32) :
    (lineWord p l).getLsbD j.val = (l.scl && decide (p.sermap.scl = j) || l.sdaOut && decide (p.sermap.sdaOut = j) ||
      l.sdaOe && decide (p.sermap.sdaOe = j)) := by
  rw [lineWord, BitVec.getLsbD_or, BitVec.getLsbD_or, getLsbD_lineBit, getLsbD_lineBit, getLsbD_lineBit]

theorem linesDistinct_iff {p : Params} : linesDistinct p = true ↔
    p.sermap.scl ≠ p.sermap.sdaOut ∧ p.sermap.scl ≠ p.sermap.sdaOe ∧ p.sermap.sdaOut ≠ p.sermap.sdaOe := by
  simp [linesDistinct, and_assoc]

section peer
variable {p : Params} (hd : linesDistinct p = true)
include hd

theorem lineWord_scl (l : Lines) : (lineWord p l).getLsbD p.sermap.scl.val = l.scl := by
  obtain ⟨hdata, henable, -⟩ := linesDistinct_iff.mp hd
  rw [lineWord_getLsbD, decide_eq_true rfl, decide_eq_false hdata.symm, decide_eq_false henable.symm]
  simp

theorem lineWord_sdaOut (l : Lines) : (lineWord p l).getLsbD p.sermap.sdaOut.val = l.sdaOut := by
  obtain ⟨hclock, -, henable⟩ := linesDistinct_iff.mp hd
  rw [lineWord_getLsbD, decide_eq_true rfl, decide_eq_false hclock, decide_eq_false henable.symm]
  simp

/-- A peer sees the levels the words stand for. -/
theorem risingData_lineWords (ls : List Lines) : ∀ high,
    risingData p high (ls.map (lineWord p)) = risingLevels high ls := by
  induction ls with
  | nil => exact fun _ => rfl
  | cons l ls ih =>
    simp only [List.map_cons, risingData, risingLevels, lineWord_scl hd, lineWord_sdaOut hd, ih, implies_true]

/-- What a peer clocks in first from a framed byte write is the byte, bit 7 first. -/
theorem risingData_serWriteLines (b : Byte) :
    (risingData p true ((serWriteLines b).map (lineWord p))).take 8 = bitsOf b := by
  rw [risingData_lineWords hd]
  rfl

end peer

/-- A peer that drives the bits of a byte, bit 7 first, is sampled as that byte. -/
theorem sampledByte_peerWords (p : Params) (b : Byte) : SampledByte p (peerWords p (bitsOf b)) b := by
  intro k hk
  have hword : (peerWords p (bitsOf b)).getD k 0 = lineBit (b.getLsbD (7 - k)) p.sermap.sdaIn := by
    interval_cases k <;> rfl
  rw [hword, getLsbD_lineBit, decide_eq_true rfl, Bool.and_true]

/-- Scripted answers are read in their order. -/
theorem readMany_of_reads (vs more : List Word) : ∀ e : Env, e.reads = vs ++ more → (readMany vs.length e).1 = vs := by
  induction vs with
  | nil => exact fun _ _ => rfl
  | cons v vs ih =>
    intro e he
    have hread : envRead e = (v, { e with reads := vs ++ more }) := by simp [envRead, he, envNext]
    simp [readMany, hread, ih]

/-- Settles O30: the eight samples are the levels clocked in, which determine the byte. -/
theorem serialRoundTrip : Obligations.SerialRoundTrip := by
  intro s t m x y b old rest more hs hw hd ht hy hreads
  obtain ⟨issued, hwrite, htrace, -⟩ := exec_of_runsOnLines (i := .serWriteByte m b) hs hw rfl rfl rfl rfl
    (RunsOnLines.serWriteBody hw b).map
  obtain rfl : t = _ := Host.Outcome.next.inj (ht.symm.trans hwrite)
  obtain rfl : y = _ := Option.some.inj (hy.symm.trans (putModule_module_self _ _ _ hs.1))
  obtain ⟨u, b', hexec, hstatus, hsampled, hout, hbuf, -⟩ := serialReadFrame _ m _ old rest
    ⟨hy, hs.2.1, by simpa using hs.2.2.1, hs.2.2.2⟩ hw
  have hlevels : (risingData s.cfg true (wordsTo .serCtrl issued)).take 8 = bitsOf b :=
    htrace.written ▸ risingData_serWriteLines hd b
  have hsamples := readMany_of_reads _ more _ (hlevels ▸ hreads)
  obtain rfl : b = b' := (sampledByte_peerWords s.cfg b).unique (hsamples ▸ hsampled)
  exact ⟨u, hexec, hstatus, hout, hbuf⟩

/-! ## ID_DECODE (41_serial_bus.md R133) -/

/-- Settles O31: the number of bytes, and then the serial number's threshold, decide. -/
theorem idDecodeResult : Obligations.IdDecodeResult := by
  refine ⟨fun s bytes hlen => ?_, fun s b0 b1 b2 more serial layout hserial hlayout => ?_⟩
  · match bytes with
    | [] | [_] | [_, _] => rfl
    | _ :: _ :: _ :: _ => exact absurd hlen (by simp)
  · subst hserial hlayout
    refine ⟨fun hlt => ?_, fun hle a ha => ?_, fun hle f hf => ?_⟩
    · simp [exec, execIdDecode, idReply, hlt]
    · simp [exec, execIdDecode, idReply, hle.not_gt, ha]
    · simp [exec, execIdDecode, idReply, hle.not_gt, hf]

end Sys2Proof.Machine
end

section
/-! SUPPORT. Bounded polls (42_hbr_dma.md R152): what a poll issues and how it ends; and that no part of an operation looks at the place
of its sequencer. -/

namespace Sys2Proof.Machine

variable {α : Type}

/-! ## The trace of a poll -/

/-- The trace reads `vs` from `r` and does nothing else, but for as many sleeps of `d` as given, none where `d` is 0. -/
structure PollTrace (r : Reg) (d : Nat) (vs : List Word) (sleeps : Nat) (t : List Issued) : Prop where
  events : ∀ e ∈ t, e.event = .sleep d ∨ (e.reg = some r ∧ isRead e.event = true)
  words : wordsFrom r t = vs
  reads : countEvents isRead t = vs.length
  slept : countEvents isSleep t = if d > 0 then sleeps else 0

section trace
variable {r : Reg} {d : Nat}

theorem PollTrace.nil : PollTrace r d [] 0 [] := ⟨List.forall_mem_nil _, rfl, rfl, by split <;> rfl⟩

theorem PollTrace.append {vs ws : List Word} {k l : Nat} {t u : List Issued} (ht : PollTrace r d vs k t)
    (hu : PollTrace r d ws l u) : PollTrace r d (vs ++ ws) (k + l) (t ++ u) where
  events := List.forall_mem_append.mpr ⟨ht.events, hu.events⟩
  words := by rw [wordsFrom_append, ht.words, hu.words]
  reads := by rw [countEvents_append, ht.reads, hu.reads, List.length_append]
  slept := by
    rw [countEvents_append, ht.slept, hu.slept]
    split <;> rfl

theorem PollTrace.read (pos : Place) (w : Who) (off : Nat) (v : Word) :
    PollTrace r d [v] 0 [⟨pos, some r, .rd w off v⟩] where
  events := by simp [isRead]
  words := by simp [wordsFrom]
  reads := rfl
  slept := by split <;> rfl

theorem sleepIfPositive_pollTrace (sc : Scope) (c : Ctx) :
    ∃ t, sleepIfPositive d sc c = .ok () c t ∧ PollTrace r d [] 1 (shown t) := by
  unfold sleepIfPositive
  by_cases hd : d > 0
  · rw [if_pos hd]
    exact ⟨_, sleep_apply d, by simp, rfl, rfl, by rw [if_pos hd]; rfl⟩
  · rw [if_neg hd]
    exact ⟨[], rfl, by simp, rfl, rfl, by rw [if_neg hd]; rfl⟩

end trace

/-! ## How a poll ends -/

/-- A poll of at most `n` more reads misses them all, or sees its predicate hold of the word after those missed. -/
theorem pollFrom_ends {place : Nat → Place → Place} {r : Reg} {pred : Word → Bool} {d : Nat} {sc : Scope}
    (hw : windowOk sc.cfg = true) (n : Nat) : ∀ (i : Nat) (c : Ctx), ∃ a e steps bad,
      pollFrom place r pred d i n sc c = .ok a { c with env := e } steps ∧ (∀ w ∈ bad, pred w = false) ∧
        ((a = none ∧ bad.length = n ∧ PollTrace r d bad n (shown steps)) ∨
          ∃ v, a = some (i + bad.length, v) ∧ bad.length < n ∧ pred v = true ∧
            PollTrace r d (bad ++ [v]) bad.length (shown steps)) := by
  induction n with
  | zero => exact fun i c => ⟨none, c.env, [], [], rfl, List.forall_mem_nil _, .inl ⟨rfl, rfl, .nil⟩⟩
  | succ n ih =>
    intro i c
    have hread : ((regRead r).placed (place i)) sc c = .ok _ _ _ := regRead_of_ok (c := c) (sc := { sc with pos := _ }) hw
    have htrace := PollTrace.read (r := r) (d := d) (place i sc.pos) sc.who (regOffset sc.cfg r) (envRead c.env).1
    cases hv : pred (envRead c.env).1 with
    | true =>
      refine ⟨_, (envRead c.env).2, _, [], Op.bind_of_ok hread (t₂ := []) ?_, List.forall_mem_nil _,
        .inr ⟨_, rfl, Nat.zero_lt_succ n, hv, ?_⟩⟩
      · rw [if_pos hv]
        rfl
      · simpa using htrace
    | false =>
      obtain ⟨u, hsleep, hu⟩ := sleepIfPositive_pollTrace (r := r) (d := d) { sc with pos := place i sc.pos }
        { c with env := (envRead c.env).2 }
      obtain ⟨a, e, steps, bad, hrest, hbad, hends⟩ := ih (i + 1) { c with env := (envRead c.env).2 }
      refine ⟨a, e, _, (envRead c.env).1 :: bad, Op.bind_of_ok hread (t₂ := u ++ steps) ?_,
        List.forall_mem_cons.mpr ⟨hv, hbad⟩, ?_⟩
      · rw [if_neg (by simp [hv])]
        exact Op.andThen_of_ok (x := (sleepIfPositive d).placed (place i)) hsleep hrest
      · have hstart := htrace.append hu
        rw [shown_append, shown_append, ← List.append_assoc]
        refine hends.imp (fun ⟨ha, hlen, hpoll⟩ => ⟨ha, congrArg (· + 1) hlen, ?_⟩)
          fun ⟨v, ha, hlen, hseen, hpoll⟩ => ⟨v, ha.trans ?_, Nat.succ_lt_succ hlen, hseen, ?_⟩
        · simpa [Nat.add_comm] using hstart.append hpoll
        · simp only [List.length_cons, Nat.add_assoc, Nat.add_comm 1]
        · simpa [Nat.add_comm] using hstart.append hpoll

/-- Settles O25, by induction on the reads left (`pollFrom_ends`). -/
theorem pollIsBounded : Obligations.PollIsBounded := by
  intro place r pred n d sc c hw
  obtain ⟨a, e, steps, bad, hpoll, hbad, ⟨rfl, hlen, ht⟩ | ⟨v, rfl, hlt, hv, ht⟩⟩ := pollFrom_ends (place := place) (r := r)
    (pred := pred) (d := d) hw n 1 c
  · subst hlen
    exact ⟨_, _, _, _, hpoll, rfl, rfl, ht.events, ht.words ▸ hbad, ht.words ▸ rfl, ht.reads, ht.slept⟩
  · refine ⟨_, _, _, _, hpoll, rfl, rfl, ht.events, Nat.le_add_right 1 _, by omega, hv,
      ⟨bad, ht.words, Nat.add_comm _ 1, hbad⟩, ?_, ?_⟩
    · rw [ht.reads, List.length_append, List.length_singleton, Nat.add_comm]
    · rw [ht.slept, Nat.add_sub_cancel_left]

/-- The words a poll would read: its predicate holds of none of the first `n`, or of one of them and of none before it. -/
theorem readMany_missed_or_seen (pred : Word → Bool) (n : Nat) : ∀ e : Env,
    (∃ bad e', readMany n e = (bad, e') ∧ ∀ w ∈ bad, pred w = false) ∨
    ∃ bad v e', readMany (bad.length + 1) e = (bad ++ [v], e') ∧ bad.length < n ∧ (∀ w ∈ bad, pred w = false) ∧
      pred v = true := by
  induction n with
  | zero => exact fun e => .inl ⟨[], e, rfl, List.forall_mem_nil _⟩
  | succ n ih =>
    intro e
    cases hv : pred (envRead e).1 with
    | true => exact .inr ⟨[], _, _, rfl, Nat.zero_lt_succ n, List.forall_mem_nil _, hv⟩
    | false =>
      obtain ⟨bad, e', hr, hbad⟩ | ⟨bad, v, e', hr, hlt, hbad, hseen⟩ := ih (envRead e).2
      · exact .inl ⟨_ :: bad, e', by rw [readMany, hr], List.forall_mem_cons.mpr ⟨hv, hbad⟩⟩
      · refine .inr ⟨_ :: bad, v, e', ?_, Nat.succ_lt_succ hlt, List.forall_mem_cons.mpr ⟨hv, hbad⟩, hseen⟩
        rw [List.length_cons, readMany, hr]
        rfl

/-! ## The place of the sequencer is a label (log 13) -/

/-- At another place a part ends as it does here and issues the same named events. -/
theorem Op.Built.at_place {x : Op α} (hx : x.Built) {sc : Scope} {c c' : Ctx} {a : α} {t : List Stage}
    (h : x sc c = .ok a c' t) (pos : Place) :
    ∃ t', x { sc with pos := pos } c = .ok a c' t' ∧ named (shown t') = named (shown t) := by
  induction hx generalizing sc c c' t pos with
  | pure a | getHandle | setHandle f | draw hf =>
    cases h
    exact ⟨[], rfl, rfl⟩
  | bind _ _ hx hf =>
    obtain ⟨b, c₁, t₁, t₂, h₁, h₂, rfl⟩ := Op.bind_eq_ok.mp h
    obtain ⟨u₁, hu₁, e₁⟩ := hx h₁ pos
    obtain ⟨u₂, hu₂, e₂⟩ := hf b h₂ pos
    exact ⟨u₁ ++ u₂, Op.bind_of_ok hu₁ hu₂, by simp only [shown_append, named_append, e₁, e₂]⟩
  | withCfg _ hf => exact hf sc.cfg h pos
  | @placed _ g _ _ hx => exact hx (sc := { sc with pos := g sc.pos }) h (g pos)
  | memRead r off =>
    unfold Machine.memRead at h ⊢
    split at h <;> cases h
    rename_i hoff
    exact ⟨_, if_pos hoff, rfl⟩
  | memWrite r off v =>
    unfold Machine.memWrite at h ⊢
    split at h <;> cases h
    rename_i hoff
    exact ⟨_, if_pos hoff, rfl⟩
  | sleep ns =>
    cases h
    exact ⟨_, rfl, rfl⟩
  | vendorCall =>
    unfold Machine.vendorCall at h ⊢
    split at h <;> cases h
    exact ⟨_, rfl, rfl⟩
  | fault hf => cases h
  | refuse r => cases h
  | @onProbe _ j d va x _ hx =>
    obtain ⟨c₁, hr, rfl⟩ := onProbe_eq_ok h
    obtain ⟨t', hr', ht'⟩ := hx hr pos
    exact ⟨t', by simp only [Machine.onProbe, hr'], ht'⟩

/-- A part that ends well at one place runs. -/
theorem Op.Built.runs {x : Op α} (hx : x.Built) {p : Params} {m : Nat} {pos : Place} {c c' : Ctx} {a : α} {t : List Stage}
    (h : x ⟨p, .module m, pos⟩ c = .ok a c' t) : Runs p m x c a c' (named (shown t)) :=
  fun pos' => hx.at_place h pos'

/-- A part that completes runs. -/
theorem Op.Completes.runs {held : Bool} {x : Op α} (hx : x.Completes held) (hb : x.Built) {p : Params} (m : Nat) {c : Ctx}
    (hw : windowOk p = true) (hv : c.env.vendorLeft = none) (hh : c.handle.hbrHeld = held) :
    ∃ a c' es, Runs p m x c a c' es ∧ c'.env.vendorLeft = none ∧ c'.handle.hbrHeld = held := by
  obtain ⟨a, c', t, hrun, hv', hh'⟩ := hx ⟨p, .module m, startPos .regRead⟩ c hw hv hh
  exact ⟨a, c', _, hb.runs hrun, hv', hh'⟩

end Sys2Proof.Machine
end

section
/-! SUPPORT. The host bus request and the processor memory (42_hbr_dma.md R150 to R156): the request and the done as operations, a
request run to its end, and work done under it. -/

namespace Sys2Proof.Machine

variable {p : Params} {m : Nat} {s : State} {x : Module} {i : Instr} {g : Program} {r : Reply} {c c₁ c₂ : Ctx}
  {es fs : List (Option Reg × Event)}

/-! ## On an online module -/

/-- On an online module in a usable window an operation without a raw offset, whose checks pass, answers what its body runs to. -/
theorem exec_answers_online (hs : s.Online m x) (hw : windowOk s.cfg = true) (hg : programOf s.cfg i = some (m, g))
    (hraw : i.rawOffset? = none) (hf : argFailure s.cfg i = none) (hr : g.ready = true)
    (hb : Runs s.cfg m g.body x.ctx r c es) :
    Answers (exec i s) s g.op m { x with handle := c.handle, env := c.env } r es := by
  rw [exec_eq_runOn hg (offsetsOk_of_windowOk hw (by simp [hraw]))]
  exact runOn_answers hs hr (programOf_checks hg ▸ hf) hb

theorem Op.getHandle_bind {α : Type} (f : Handle → Op α) (sc : Scope) (c : Ctx) :
    Op.getHandle.bind f sc c = f c.handle sc c := by
  simp only [Op.bind, Op.getHandle_apply]
  cases f c.handle sc c <;> rfl

/-- On an online module a program that runs `Ready`, whose checks pass, ends as its body does. -/
theorem result_of_online (hs : s.Online m x) (hr : g.ready = true) (hc : firstFailure g.checks = none) :
    g.result s.cfg s.isOffline m x.ctx = g.body ⟨s.cfg, .module m, startPos g.op⟩ x.ctx := by
  obtain ⟨-, -, honline, hwin⟩ := hs
  have hmapped : ¬ x.handle.win = none := Option.isSome_iff_ne_none.mp hwin
  simp [Program.result, Program.code, preamble, hc, honline, hr, mapped, Op.getHandle_bind, Module.ctx, hmapped]

/-- An operation whose body stops with a fault stops with it. -/
theorem exec_faults_online {f : Fault} {pos : Place} {t : List Stage} (hs : s.Online m x) (hw : windowOk s.cfg = true)
    (hg : programOf s.cfg i = some (m, g)) (hraw : i.rawOffset? = none) (hf : argFailure s.cfg i = none) (hr : g.ready = true)
    (hb : g.body ⟨s.cfg, .module m, startPos g.op⟩ x.ctx = .fault f pos c t) : exec i s = .fault f := by
  rw [exec_eq_runOn hg (offsetsOk_of_windowOk hw (by simp [hraw])), runOn_of_idle hs.1 hs.2.1,
    result_of_online hs hr ((programOf_checks hg).trans hf), hb]
  rfl

/-! ## The request and the done as operations (42_hbr_dma.md R150, R151; 60_exceptions.md R261) -/

theorem hbrRequest_of_no_polls {sc : Scope} (hw : windowOk sc.cfg = true) (hp : sc.cfg.hbrGrantPolls = 0)
    (hh : c.handle.hbrHeld = false) : hbrRequest sc c = .ok (.ok ()) c.holding
      (stepOf sc c (some .hbrReq) (.wr sc.who (regOffset sc.cfg .hbrReq) sc.cfg.hbrReqVal)) := by
  have hpoll : hbrGrantPoll sc c.holding = .ok (.ok ()) c.holding [] := by
    rw [hbrGrantPoll, Op.withCfg_apply, if_neg (by omega)]
    rfl
  rw [hbrRequest_eq_of_free hh]
  exact Op.andThen_of_ok (x := Op.withCfg fun p => regWrite .hbrReq p.hbrReqVal) (t₂ := []) (regWrite_of_ok hw)
    (Op.andThen_of_ok (t₁ := []) (setHbr_apply true sc c) hpoll)

theorem hbrRequest_of_held {sc : Scope} (hh : c.handle.hbrHeld = true) :
    hbrRequest sc c = .fault .hbrNested sc.pos c [] :=
  (Op.getHandle_bind _ sc c).trans (by rw [if_pos hh]; rfl)

theorem hbrDone_of_free {sc : Scope} (hh : c.handle.hbrHeld = false) : hbrDone sc c = .fault .hbrUnpaired sc.pos c [] :=
  (Op.getHandle_bind _ sc c).trans (by rw [if_neg (by simp [hh])]; rfl)

theorem Op.map_of_fault {α β : Type} {f : α → β} {y : Op α} {sc : Scope} {e : Fault} {pos : Place} {t : List Stage}
    (h : y sc c = .fault e pos c₁ t) : y.map f sc c = .fault e pos c₁ t := Op.bind_eq_fault.mpr (.inl h)

/-- Settles O32: either operation is its one write, or the fault of the request it finds held or not. -/
theorem hbrRequestAndDone : Obligations.HbrRequestAndDone := by
  refine ⟨fun s m x hs hw hh hp => ?_, fun s m x hs hw hh => ?_, fun s m x hs hw => ⟨fun hh => ?_, fun hh => ?_⟩⟩
  · exact exec_of_online (i := .hbrRequest m) hs rfl (offsetsOk_of_windowOk hw nofun) rfl rfl
      (Op.map_of_ok (hbrRequest_of_no_polls hw hp hh))
  · exact exec_of_online (i := .hbrDone m) hs rfl (offsetsOk_of_windowOk hw nofun) rfl rfl
      (Op.map_of_ok (hbrDone_of_held hw hh))
  · exact exec_faults_online (i := .hbrRequest m) hs hw rfl rfl rfl rfl (Op.map_of_fault (hbrRequest_of_held hh))
  · exact exec_faults_online (i := .hbrDone m) hs hw rfl rfl rfl rfl (Op.map_of_fault (hbrDone_of_free hh))

/-! ## The grant poll (42_hbr_dma.md R150) -/

/-- A handle without the request is that handle released. -/
theorem released_of_free {h : Handle} (hh : h.hbrHeld = false) : { h with hbrHeld := false } = h := hh ▸ rfl

/-- A request that sees the grant is held. -/
theorem Runs.hbrRequest_granted (hw : windowOk p = true) (hh : c.handle.hbrHeld = false) (hp : 0 < p.hbrGrantPolls)
    {bad : List Word} {v : Word} {e : Env} (hr : readMany (bad.length + 1) c.env = (bad ++ [v], e))
    (hn : bad.length < p.hbrGrantPolls) (hbad : ∀ w ∈ bad, allSet p.hbrGrantMask w = false)
    (hv : allSet p.hbrGrantMask v = true) :
    Runs p m Machine.hbrRequest c (.ok ()) ⟨{ c.handle with hbrHeld := true }, e⟩
      ([wrEvent p m .hbrReq p.hbrReqVal] ++ pollEvents p m .hbrStat p.hbrGrantDelayNs bad ++ [rdEvent p m .hbrStat v]) := by
  have hpoll := Runs.poll_satisfied (m := m) (place := posLoop) (r := .hbrStat) (d := p.hbrGrantDelayNs) (c := c.holding) hw hr hn
    hbad hv
  refine Runs.of_eq (Runs.hbrRequest hw hh (Runs.withCfg ?_)) rfl
  rw [if_pos hp]
  refine (hpoll.bind (fs := []) ?_).of_eq (List.append_nil _)
  exact Runs.pure _

/-- A request that never sees the grant is released (R151). -/
theorem Runs.hbrRequest_timeout (hw : windowOk p = true) (hh : c.handle.hbrHeld = false) (hp : 0 < p.hbrGrantPolls)
    {bad : List Word} {e : Env} (hr : readMany p.hbrGrantPolls c.env = (bad, e))
    (hbad : ∀ w ∈ bad, allSet p.hbrGrantMask w = false) :
    Runs p m Machine.hbrRequest c (.error ⟨.protocolTimeout, .hbrGrant⟩) ⟨c.handle, e⟩
      ([wrEvent p m .hbrReq p.hbrReqVal] ++ pollEvents p m .hbrStat p.hbrGrantDelayNs bad ++
        [wrEvent p m .hbrDone p.hbrDoneVal]) := by
  have hpoll := Runs.poll_timeout (m := m) (place := posLoop) (r := .hbrStat) (d := p.hbrGrantDelayNs) (c := c.holding) hw hr hbad
  refine Runs.of_eq (Runs.hbrRequest hw hh (Runs.withCfg ?_)) rfl
  rw [if_pos hp]
  refine (hpoll.bind ((Runs.hbrDone (c := ⟨c.holding.handle, e⟩) hw rfl).andThen (Runs.pure _))).cast rfl ?_ rfl
  simp only [released_of_free hh]

/-- Settles O33: the poll of the grant sees it, or times out and releases the request. -/
theorem hbrRequestPollsForGrant : Obligations.HbrRequestPollsForGrant := by
  intro s m x hs hw hh hp
  refine ⟨fun bad v e hr hn hbad hv => ?_, fun bad e hr hbad => ?_⟩
  · exact exec_answers_online (i := .hbrRequest m) hs hw rfl rfl rfl rfl
      (Runs.hbrRequest_granted (c := x.ctx) hw hh hp hr hn (by simpa [allSet] using hbad) (by simpa [allSet] using hv)).map
  · exact exec_answers_online (i := .hbrRequest m) hs hw rfl rfl rfl rfl
      (Runs.hbrRequest_timeout (c := x.ctx) hw hh hp hr (by simpa [allSet] using hbad)).map

/-- A request made while none is held runs to its end: held where it succeeded, and otherwise not. -/
theorem Runs.hbrRequest_of_free (hw : windowOk p = true) (hh : c.handle.hbrHeld = false) :
    ∃ a e es, Runs p m Machine.hbrRequest c a ⟨{ c.handle with hbrHeld := isOk a }, e⟩ es ∧ e.vendorLeft = c.env.vendorLeft ∧
      (p.hbrGrantPolls = 0 → isOk a = true) := by
  obtain hp | hp := Nat.eq_zero_or_pos p.hbrGrantPolls
  · exact ⟨.ok (), _, _, Runs.hbrRequest_noPoll hw hp hh, rfl, fun _ => rfl⟩
  · obtain ⟨bad, e, hr, hbad⟩ | ⟨bad, v, e, hr, hn, hbad, hv⟩ :=
      readMany_missed_or_seen (allSet p.hbrGrantMask) p.hbrGrantPolls c.env
    · refine ⟨_, e, _, (Runs.hbrRequest_timeout hw hh hp hr hbad).cast rfl ?_ rfl, vendorLeft_of_readMany hr,
        fun h => absurd h hp.ne'⟩
      simp only [isOk, released_of_free hh]
    · exact ⟨_, e, _, Runs.hbrRequest_granted hw hh hp hr hn hbad hv, vendorLeft_of_readMany hr, fun _ => rfl⟩

/-! ## Work under a request (42_hbr_dma.md R153 to R156) -/

theorem statusOf_of_isOk {a : Except Failure Unit} (h : isOk a = true) : statusOf a = .ok := by
  cases a with
  | ok u => rfl
  | error f => cases h

/-- HBR_REQUEST on a serving module, and the same request inside another operation. -/
theorem exec_hbrRequest (hs : s.Serves m x) : ∃ a e es q, Runs s.cfg m Machine.hbrRequest x.ctx a
      ⟨{ x.handle with hbrHeld := isOk a }, e⟩ es ∧
    exec (.hbrRequest m) s = .next q ∧ q.module? m = some { x with handle := { x.handle with hbrHeld := isOk a }, env := e } ∧
      q.status = some (statusOf a) ∧ q.events = es ∧ (s.cfg.hbrGrantPolls = 0 → q.status = some .ok) := by
  obtain ⟨hon, hw, hh, -⟩ := hs
  obtain ⟨a, e, es, hrun, -, hpolls⟩ := Runs.hbrRequest_of_free (m := m) (c := x.ctx) hw hh
  obtain ⟨t, hexec, hes⟩ := exec_answers_online (i := .hbrRequest m) hon hw rfl rfl rfl rfl (hrun.map (f := replyOf none))
  have hstatus : ∀ b : Except Failure Unit, (replyOf none b).status = statusOf b := by rintro (_ | _) <;> rfl
  refine ⟨a, e, es, _, hrun, hexec, putModule_module_self _ _ _ hon.1, congrArg some (hstatus a), hes, fun hp => ?_⟩
  exact congrArg some ((hstatus a).trans (statusOf_of_isOk (hpolls hp)))

/-- DSP_MEM_READ on a serving module answers what its words run to. -/
theorem exec_dspMemRead {addr : Word} {count : Nat} {ws : List Word} {st : Except Failure (List Word)} (hs : s.Serves m x)
    (hcount : 0 < count) (hlen : count ≤ ws.length) (hb : Runs s.cfg m (dspReadBody addr count ws) x.ctx st c es) :
    ∃ b e, Answers (exec (.dspMemRead m addr count (some ws)) s) s .dspMemRead m { x with handle := c.handle, env := e }
        { status := statusOf st, buf := b } es ∧
      (∀ got, st = .ok got → b = some (got ++ ws.drop got.length) ∧ e = c.env) := by
  obtain ⟨b, e, hreply, hok, -⟩ := Runs.replyWords (p := s.cfg) (m := m) (c := c) count ws st
  refine ⟨b, e, ?_, hok⟩
  exact exec_answers (i := .dspMemRead m addr count (some ws)) hs rfl rfl (count_and_buffer_pass hcount hlen) rfl
    ((hb.bind hreply).of_eq (List.append_nil _))

/-- Settles O34: the work under the request is the read-modify-write, the address and the words. -/
theorem dspWriteUnderOneRequest : Obligations.DspWriteUnderOneRequest := by
  intro s m x addr count buf hs hcount hbuf
  obtain ⟨a, e, es, q, hrun, hexec, hq, hstatus, rfl, hpolls⟩ := exec_hbrRequest hs
  obtain ⟨-, hw, hh, -⟩ := id hs
  refine ⟨q, _, hexec, hq, hpolls, ?_⟩
  cases a with
  | ok u =>
    have hwork := (Runs.csrClear (c := ⟨{ x.handle with hbrHeld := true }, e⟩) (m := m) hw fun f => f.autoIncDisable).andThen
      ((Runs.regWrite hw .dspAddr addr).andThen (Runs.writeAll hw .dspData ((bufWords buf).take count)))
    have hans : Answers _ s .dspMemWrite m _ _ _ := exec_answers (i := .dspMemWrite m addr count buf) hs rfl rfl
      (count_and_buffer_pass hcount hbuf) rfl ((Runs.withHbr_ok hw hrun hwork rfl).map (f := replyOf buf))
    exact .inl ⟨hstatus, by simpa [released_of_free hh, replyOf, fieldBit] using hans⟩
  | error f =>
    have hans : Answers _ s .dspMemWrite m _ _ _ := exec_answers (i := .dspMemWrite m addr count buf) hs rfl rfl
      (count_and_buffer_pass hcount hbuf) rfl ((Runs.withHbr_error hrun).map (f := replyOf buf))
    exact .inr ⟨f, hstatus, by simpa [released_of_free hh, replyOf, isOk] using hans⟩

/-- Settles O35: the work under the request is the address and one read. -/
theorem dspReadOneWord : Obligations.DspReadOneWord := by
  intro s m x addr old rest hs
  obtain ⟨a, e, es, q, hrun, hexec, hq, hstatus, rfl, hpolls⟩ := exec_hbrRequest hs
  obtain ⟨-, hw, hh, -⟩ := id hs
  refine ⟨q, _, hexec, hq, hpolls, ?_⟩
  have hanswers : ∀ {r c es}, Runs s.cfg m (dspReadOne addr) x.ctx r c es → ∃ b e', Answers
      (exec (.dspMemRead m addr 1 (some (old :: rest))) s) s .dspMemRead m { x with handle := c.handle, env := e' }
        { status := statusOf r, buf := b } es ∧ (∀ v, r = .ok v → b = some (v :: rest) ∧ e' = c.env) := by
    intro r c es hone
    have hbody : Runs s.cfg m (dspReadBody addr 1 (old :: rest)) x.ctx (r.map fun v => [v]) c es := by
      refine Runs.withCfg ?_
      rw [if_pos rfl]
      cases r with
      | ok v => exact (hone.ifOk (Runs.pure _)).of_eq (List.append_nil _)
      | error f => exact hone.ifError
    obtain ⟨b, e', hans, hok⟩ := exec_dspMemRead hs Nat.one_pos (by simp) hbody
    refine ⟨b, e', ?_, ?_⟩
    · cases r <;> exact hans
    · rintro v rfl
      exact hok [v] rfl
  cases a with
  | ok u =>
    have hwork := (Runs.regWrite (c := ⟨{ x.handle with hbrHeld := true }, e⟩) (m := m) hw .dspAddr addr).andThen
      (Runs.regRead hw .dspData)
    obtain ⟨b, e', hans, hok⟩ := hanswers (Runs.withHbr_ok hw hrun hwork rfl)
    obtain ⟨rfl, rfl⟩ := hok _ rfl
    exact .inl ⟨hstatus, by simpa [released_of_free hh, statusOf] using hans⟩
  | error f =>
    obtain ⟨b, e', hans, -⟩ := hanswers (Runs.withHbr_error hrun)
    exact .inr ⟨f, b, e', hstatus, by simpa [released_of_free hh, statusOf, isOk] using hans⟩

/-- A sub-step's failure is re-sited (60_exceptions.md R262). -/
theorem Runs.resited {α : Type} {y : Op (Except Failure α)} {a : Except Failure α} (site : Site) (h : Runs p m y c a c₁ es) :
    Runs p m (resited site y) c (a.mapError (resite site)) c₁ es := by
  refine h.map.cast ?_ rfl rfl
  cases a <;> rfl

/-- The single-word path in remainder mode `autoinc` (R156). -/
theorem Runs.singleRead_autoinc (hmode : p.remainderMode = .autoinc) {addr : Word} {n : Nat} {st : Except Failure (List Word)}
    (h : Runs p m (withHbr <| (Machine.csrClear fun f => f.autoIncDisable).andThen <|
      (Machine.regWrite .dspAddr addr).andThen <| Op.times (fun i => Op.inLoop i (Machine.regRead .dspData)) 0 n) c st c₁ es) :
    Runs p m (singleRead addr n) c st c₁ es := by
  refine Runs.withCfg ?_
  rw [hmode]
  exact h

/-- Settles O36: no block fits, and the remainder is the single-word path, whose work reads the words one after the other. -/
theorem dspReadFewWords : Obligations.DspReadFewWords := by
  intro s m x addr count ws hs hcount hsingle hblock hlen hmode
  obtain ⟨a, e, es, q, hrun, hexec, hq, hstatus, rfl, hpolls⟩ := exec_hbrRequest hs
  obtain ⟨-, hw, hh, -⟩ := id hs
  refine ⟨q, _, hexec, hq, hpolls, ?_⟩
  have hanswers : ∀ {r c es}, Runs s.cfg m (singleRead addr count) x.ctx r c es → ∃ b e', Answers
      (exec (.dspMemRead m addr count (some ws)) s) s .dspMemRead m { x with handle := c.handle, env := e' }
        { status := resitedStatus .dspRemainder (statusOf r), buf := b } es ∧
      (∀ got, r = .ok got → b = some (got ++ ws.drop got.length) ∧ e' = c.env) := by
    intro r c es hsingleRun
    have hbody : Runs s.cfg m (dspReadBody addr count ws) x.ctx (r.mapError (resite .dspRemainder)) c es := by
      refine Runs.withCfg ?_
      rw [if_neg (by omega), Nat.div_eq_of_lt hblock, Nat.mod_eq_of_lt hblock]
      have hnone : Runs s.cfg m (dspBlocks addr ws s.cfg.dspBlockWords 0) x.ctx (.ok []) x.ctx [] := Runs.pure _
      refine Runs.of_eq (hnone.ifOk (fs := es) ?_) rfl
      rw [dspRemainder, if_pos (by omega), if_pos hsingle, Nat.zero_mul, BitVec.add_zero]
      have hresited := hsingleRun.resited .dspRemainder
      cases r with
      | ok got =>
        refine (hresited.ifOk (fs := []) ?_).of_eq (List.append_nil _)
        exact Runs.pure _
      | error f => exact hresited.ifError
    obtain ⟨b, e', hans, hok⟩ := exec_dspMemRead hs (by omega) hlen hbody
    refine ⟨b, e', ?_, ?_⟩
    · cases r <;> exact hans
    · rintro got rfl
      exact hok got rfl
  cases a with
  | ok u =>
    have hwork := (Runs.csrClear (c := ⟨{ x.handle with hbrHeld := true }, e⟩) (m := m) hw fun f => f.autoIncDisable).andThen
      ((Runs.regWrite hw .dspAddr addr).andThen (Runs.readTimes hw .dspData count 0))
    obtain ⟨b, e', hans, hok⟩ := hanswers (Runs.singleRead_autoinc hmode (Runs.withHbr_ok hw hrun hwork rfl))
    obtain ⟨rfl, rfl⟩ := hok _ rfl
    exact .inl ⟨hstatus, by simpa [released_of_free hh, statusOf, resitedStatus, fieldBit, readMany_length] using hans⟩
  | error f =>
    obtain ⟨b, e', hans, -⟩ := hanswers (Runs.singleRead_autoinc hmode (Runs.withHbr_error hrun))
    exact .inr ⟨f, b, e', hstatus, by simpa [released_of_free hh, statusOf, resitedStatus, isOk] using hans⟩

end Sys2Proof.Machine
end

section
/-! SUPPORT. Channels closed, the external FIFO and the external memory (42_hbr_dma.md R160, R166, R171 to R175): a poll by the words it
reads, the burst after a watermark, and what stands between the two changes of the ownership bit. -/

namespace Sys2Proof.Machine

variable {α : Type} {p : Params} {m : Nat} {s : State} {x : Module} {c c₁ : Ctx} {es : List (Option Reg × Event)}

/-! ## Closing a channel (42_hbr_dma.md R160) -/

section close
variable {sc : Scope} (hv : c.env.vendorLeft = none) (ch : Channel)
include hv

theorem dmaCloseCall_of_returns : dmaCloseCall ch sc c =
    .ok (envClose c.env).1 { c with env := (envClose c.env).2 } (stepOf sc c none (.dmaClose ch (envClose c.env).1)) :=
  vendorCall_of_returns hv

theorem closeRetry_of_returns : closeRetry ch sc c =
    .ok (secondClose (envClose c.env).1) ⟨{ c.handle with dma := none }, (envClose c.env).2⟩
      (stepOf sc c none (.devReset c.handle.dev) ++ stepOf sc c none (.dmaClose ch (envClose c.env).1)) :=
  Op.andThen_of_ok (vendorCall_of_returns hv) <|
    Op.bind_of_ok (t₂ := []) (dmaCloseCall_of_returns hv ch) (Op.map_of_ok (Op.setHandle_apply _))

/-- A first close that does not answer ok is followed by the retry, whatever it answers. -/
theorem closeChannel_of_failed (h : (envClose c.env).1 ≠ .ok) {r : Except Failure Unit} {t : List Stage}
    (hretry : closeRetry ch sc { c with env := (envClose c.env).2 } = .ok r c₁ t) :
    closeChannel ch sc c = .ok r c₁ (stepOf sc c none (.dmaClose ch (envClose c.env).1) ++ t) := by
  refine Op.bind_of_ok (dmaCloseCall_of_returns hv ch) ?_
  cases hc : (envClose c.env).1 with
  | ok => contradiction
  | inProgress => exact hretry
  | error => exact hretry

end close

/-- Settles O38: the first answer selects the one close or the retry. -/
theorem closeRetriesOnce : Obligations.CloseRetriesOnce := by
  intro ch sc c hv
  refine ⟨fun h => ?_, fun h => ?_⟩
  · have hclose := dmaCloseCall_of_returns (sc := sc) hv ch
    rw [h] at hclose
    exact Op.bind_of_ok (t₂ := []) hclose (Op.map_of_ok (Op.setHandle_apply _))
  · rw [closeChannel_of_failed hv ch h
      (closeRetry_of_returns (c := { c with env := (envClose c.env).2 }) ((envClose_vendorLeft c.env).trans hv) ch)]
    cases (envClose (envClose c.env).2).1 <;> rfl

/-! ## A poll by the words it reads (42_hbr_dma.md R152) -/

section poll
variable {place : Nat → Place → Place} {r : Reg} {pred : Word → Bool} {n d : Nat} {vs : List Word} {e : Env}

theorem pollTrace_of_missed (h : ∀ w ∈ vs, pred w = false) : pollTrace p m r d pred vs = pollEvents p m r d vs :=
  List.flatMap_congr fun w hw => by rw [if_neg (by simp [h w hw])]

theorem pollTrace_of_seen {bad : List Word} {v : Word} (h : ∀ w ∈ bad, pred w = false) (hv : pred v = true) :
    pollTrace p m r d pred (bad ++ [v]) = pollEvents p m r d bad ++ [rdEvent p m r v] := by
  rw [← pollTrace_of_missed (pred := pred) h]
  simp [pollTrace, hv]

theorem PollSeen.of_concat {bad : List Word} {v : Word} (hn : bad.length < n) (h : ∀ w ∈ bad, pred w = false)
    (hv : pred v = true) : PollSeen n pred (bad ++ [v]) := by
  refine ⟨?_, ?_, ?_⟩
  · simpa using hn
  · simpa using h
  · simpa using hv

/-- A poll that sees its predicate hold of the last of its words. -/
theorem Runs.poll_seen_trace (hw : windowOk p = true) (hr : readMany vs.length c.env = (vs, e)) (hs : PollSeen n pred vs) :
    ∃ q, Runs p m (pollUntil place r pred n d) c (some q) { c with env := e } (pollTrace p m r d pred vs) := by
  obtain ⟨hn, hbad, hlast⟩ := hs
  obtain rfl | ⟨bad, v, rfl⟩ := List.eq_nil_or_concat' vs
  · simp at hlast
  · rw [List.dropLast_concat] at hbad
    simp only [List.length_append, List.length_singleton, List.getLast?_concat, Option.any_some] at hn hr hlast
    rw [pollTrace_of_seen hbad hlast]
    exact ⟨_, Runs.poll_satisfied hw hr hn hbad hlast⟩

/-- A poll that misses all its words. -/
theorem Runs.poll_missed_trace (hw : windowOk p = true) (hr : readMany n c.env = (vs, e)) (hs : ∀ w ∈ vs, pred w = false) :
    Runs p m (pollUntil place r pred n d) c none { c with env := e } (pollTrace p m r d pred vs) :=
  (Runs.poll_timeout hw hr hs).of_eq (pollTrace_of_missed hs).symm

end poll

/-- The last of the words read in a row. -/
theorem readMany_concat {n : Nat} {e e' : Env} {vs : List Word} {w : Word} (h : readMany (n + 1) e = (vs ++ [w], e')) :
    ∃ e₁, readMany n e = (vs, e₁) ∧ envRead e₁ = (w, e') := by
  rw [readMany_add] at h
  obtain ⟨hwords, henv⟩ := Prod.mk.inj h
  obtain ⟨hvs, hlast⟩ := List.append_inj' hwords rfl
  exact ⟨_, Prod.ext hvs rfl, Prod.ext (List.singleton_inj.mp hlast) henv⟩

/-! ## A burst after a watermark (42_hbr_dma.md R158, R166, R172) -/

/-- A burst to the host, not of processor memory, whose calls all succeed. -/
theorem Runs.dmaBurst_succeeds (hw : windowOk p = true) (hv : c.env.vendorLeft = none) {kind : Kind} (hkind : kind ≠ .dsp)
    {port : Reg} {host data : List Word} {count : Nat} {ch : Channel} {o e₂ e₃ : Env} (ho : envDmaOpen c.env = (some ch, o))
    (hx : envXfer o = (⟨.ok, data⟩, e₂)) (hd : data.length = count) (hc : envClose e₂ = (.ok, e₃)) :
    Runs p m (dmaBurst kind port host count .toHost) c (.ok data) ⟨{ c.handle with dma := none }, e₃⟩
      [dmaOpenEvent p c.handle.dev (some ch), dmaXferEvent p ch .toHost port host count .ok, (none, .dmaClose ch .ok)] := by
  have hopened : o.vendorLeft = none := (vendorLeft_of_envDmaOpen ho).trans hv
  have hprime : Runs p m (dmaPrime kind count) ⟨{ c.handle with dma := some ch }, o⟩ (.ok ())
      ⟨{ c.handle with dma := some ch }, o⟩ [] := by
    cases kind with
    | dsp => contradiction
    | ext => exact Runs.pure _
    | fifo => exact Runs.pure _
  have hdelivered : delivered count .toHost (⟨.ok, data⟩, e₂) = data := delivered_of_length rfl hd
  have h := Runs.dmaBurst_primed (port := port) (host := host) (dir := .toHost) hw hv ho hprime hopened hx
  rw [xferEnv_of_length (a := (⟨.ok, data⟩, e₂)) hd] at h
  refine h.cast ?_ ?_ ?_
  · simp [xferValue, hdelivered, closeResult, closeStatus, hc, firstOf]
  · simp [closedEnv, hc]
  · simp [closeEvents, hc]

/-- A burst on a module that nothing stops runs to its end. -/
theorem Runs.dmaBurst_of_returns (hw : windowOk p = true) (hv : c.env.vendorLeft = none) (kind : Kind) (port : Reg)
    (host : List Word) (count : Nat) (dir : Dir) :
    ∃ st c' es, Runs p m (dmaBurst kind port host count dir) c st c' es ∧ c'.env.vendorLeft = none := by
  obtain ⟨st, c', es, hrun, hv', -⟩ := (dmaBurst_completes kind port host count dir).runs (.dmaBurst _ _ _ _ _) m hw hv rfl
  exact ⟨st, c', es, hrun, hv'⟩

/-- A failure re-sited draws the same free words. -/
theorem Runs.replyWords_resited (site : Site) (n : Nat) (ws : List Word) (st : Except Failure (List Word)) : ∃ b e,
    Runs p m (Machine.replyWords n (some ws) st) c { status := statusOf st, buf := b } { c with env := e } [] ∧
      Runs p m (Machine.replyWords n (some ws) (st.mapError (resite site))) c
        { status := resitedStatus site (statusOf st), buf := b } { c with env := e } [] ∧
      (∀ got, st = .ok got → b = some (got ++ ws.drop got.length) ∧ e = c.env) := by
  cases st with
  | ok got =>
    refine ⟨_, _, Runs.pure _, Runs.pure _, ?_⟩
    rintro _ ⟨⟩
    exact ⟨rfl, rfl⟩
  | error f => exact ⟨_, _, fun _ => ⟨[], rfl, rfl⟩, fun _ => ⟨[], rfl, rfl⟩, nofun⟩

/-- The environment of a serving module taken further by reads leaves it serving. -/
theorem serves_putModule (hs : s.Serves m x) {e : Env} (he : e.vendorLeft = none) :
    (s.putModule m { x with env := e }).Serves m { x with env := e } := by
  obtain ⟨⟨hx, hp, honline, hwin⟩, hw, hh, -⟩ := hs
  exact ⟨⟨putModule_module_self _ _ _ hx, hp, by simpa using honline, hwin⟩, hw, hh, he⟩

/-! ## FIFO_DRAIN (42_hbr_dma.md R166) -/

section drain
variable {count : Nat} {host vs : List Word} {e : Env} (hw : windowOk p = true) (hc : 0 < count)
include hw hc

/-- A watermark seen is followed by the burst. -/
theorem Runs.fifoDrainBody_seen (hr : readMany vs.length c.env = (vs, e))
    (hs : PollSeen p.fifoWmPolls (fun v => decide (count ≤ v.toNat)) vs) {st : Except Failure (List Word)}
    (hb : Runs p m (dmaBurst .fifo .extfifoData host count .toHost) { c with env := e } st c₁ es) :
    Runs p m (fifoDrainBody count host) c (st.mapError (resite .fifoBurst)) c₁
      ([wrEvent p m .extfifoArm (countWord count)] ++
        pollTrace p m .extfifoWm p.fifoWmDelayNs (fun v => decide (count ≤ v.toNat)) vs ++ es) := by
  obtain ⟨q, hpoll⟩ := Runs.poll_seen_trace (m := m) (place := posLoop) (r := .extfifoWm) (d := p.fifoWmDelayNs) hw hr hs
  rw [fifoDrainBody, if_neg hc.ne']
  refine ((Runs.regWrite hw .extfifoArm (countWord count)).andThen (Runs.withCfg (hpoll.bind (fs := es) ?_))).of_eq
    (List.append_assoc _ _ _).symm
  exact hb.resited .fifoBurst

/-- A watermark that never comes opens no channel. -/
theorem Runs.fifoDrainBody_missed (hr : readMany p.fifoWmPolls c.env = (vs, e)) (hs : ∀ w ∈ vs, w.toNat < count) :
    Runs p m (fifoDrainBody count host) c (.error ⟨.protocolTimeout, .fifoWatermark⟩) { c with env := e }
      ([wrEvent p m .extfifoArm (countWord count)] ++ pollEvents p m .extfifoWm p.fifoWmDelayNs vs) := by
  have hpoll := Runs.poll_timeout (m := m) (place := posLoop) (r := .extfifoWm) (d := p.fifoWmDelayNs)
    (pred := fun v => decide (v.toNat ≥ count)) hw hr fun w hz => by simpa using hs w hz
  rw [fifoDrainBody, if_neg hc.ne']
  refine (Runs.regWrite hw .extfifoArm (countWord count)).andThen (Runs.withCfg ((hpoll.bind (fs := []) ?_).of_eq
    (List.append_nil _)))
  exact Runs.pure _

end drain

/-- FIFO_DRAIN of some words answers what its body and its reply run to. -/
theorem exec_fifoDrain {count : Nat} {ws : List Word} (hs : s.Serves m x) (hlen : count ≤ ws.length)
    {st : Except Failure (List Word)} {r : Reply} {c₂ : Ctx} (hb : Runs s.cfg m (fifoDrainBody count ws) x.ctx st c es)
    (hr : Runs s.cfg m (replyWords count (some ws) st) c r c₂ []) :
    Answers (exec (.fifoDrain m count (some ws)) s) s .fifoDrain m { x with handle := c₂.handle, env := c₂.env } r es :=
  exec_answers (i := .fifoDrain m count (some ws)) hs rfl rfl (if_neg hlen.not_gt) rfl
    ((hb.bind hr).of_eq (List.append_nil _))

/-- Settles O41: the arm and the poll, then the burst, which DMA_BURST runs alike, or the timeout. -/
theorem fifoDrainWaitsForWatermark : Obligations.FifoDrainWaitsForWatermark := by
  intro s m x ws hs
  obtain ⟨hon, hw, hh, hv⟩ := id hs
  refine ⟨?_, ?_, ?_, ?_⟩
  · exact exec_of_online_same (i := .fifoDrain m 0 (some ws)) hon rfl (offsetsOk_of_windowOk hw nofun) rfl rfl
      (t := []) rfl
  · intro count bad v e ch o data e₂ e₃ hc hlen hr hn hbad hseen ho hx hd hclose
    have hpred : ∀ w ∈ bad, decide (count ≤ w.toNat) = false := fun w hz => by simpa using hbad w hz
    have hburst := Runs.dmaBurst_succeeds (m := m) (c := ⟨x.handle, e⟩) (kind := .fifo) (port := .extfifoData) (host := ws) hw
      ((vendorLeft_of_readMany hr).trans hv) nofun ho hx hd hclose
    have hbody := Runs.fifoDrainBody_seen (c := x.ctx) (vs := bad ++ [v]) hw hc (by simpa [Module.ctx] using hr)
      (PollSeen.of_concat hn hpred (by simpa using hseen)) hburst
    have hans := exec_fifoDrain hs hlen hbody (Runs.pure _)
    rw [pollTrace_of_seen hpred (by simpa using hseen)] at hans
    simpa [hd, bufPut] using hans
  · intro count vs e hc hlen hr hseen
    have hleft : e.vendorLeft = none := (vendorLeft_of_readMany hr).trans hv
    obtain ⟨st, c, es, hburst, -⟩ := Runs.dmaBurst_of_returns (m := m) (c := ⟨x.handle, e⟩) hw hleft .fifo .extfifoData ws count
      .toHost
    obtain ⟨b, e', hreply, hresited, -⟩ := Runs.replyWords_resited (p := s.cfg) (m := m) (c := c) .fifoBurst count ws st
    obtain ⟨u, hexec, hu⟩ := exec_answers (i := .dmaBurst m .fifo .extfifoData (some ws) count .toHost)
      (serves_putModule hs hleft) rfl rfl (count_and_buffer_pass hc hlen) rfl ((hburst.bind hreply).of_eq (List.append_nil _))
    obtain ⟨u', hexec', hu'⟩ := exec_fifoDrain hs hlen (Runs.fifoDrainBody_seen (c := x.ctx) hw hc hr hseen hburst) hresited
    refine ⟨_, _, hexec, hexec', ?_, rfl, rfl, ?_⟩
    · exact hu'.trans (congrArg _ hu.symm)
    · rw [finish_module, finish_module, putModule_putModule, putModule_module_self _ _ _ hon.1]
  · intro count bad e hc hlen hr hbad
    obtain ⟨b, e', hreply, -⟩ := Runs.failWith (p := s.cfg) (m := m) (c := ⟨x.handle, e⟩)
      ⟨.protocolTimeout, .fifoWatermark⟩ count ws
    exact ⟨b, e', exec_fifoDrain hs hlen (Runs.fifoDrainBody_missed (c := x.ctx) hw hc hr hbad) hreply⟩

/-! ## EXT_MEM_READ (42_hbr_dma.md R172) -/

section read
variable {addr : Word} {count : Nat} {host vs : List Word} {e : Env} (hw : windowOk p = true)
include hw

/-- A watermark seen, or not waited for, is followed by the burst. -/
theorem Runs.extReadBody_seen (hr : readMany vs.length c.env = (vs, e))
    (hs : if p.extmemWmPolls = 0 then vs = [] else PollSeen p.extmemWmPolls (anySet p.extmemWmMask) vs)
    {st : Except Failure (List Word)}
    (hb : Runs p m (dmaBurst .ext .extmemData host count .toHost) { c with env := e } st c₁ es) :
    Runs p m (extReadBody addr count host) c (st.mapError (resite .extmemRead)) c₁
      ([wrEvent p m .extmemAddr addr, wrEvent p m .extmemFifoArm (countWord count)] ++
        pollTrace p m .dmaStat p.extmemWmDelayNs (anySet p.extmemWmMask) vs ++ es) := by
  refine Runs.of_eq ((Runs.regWrite hw .extmemAddr addr).andThen ((Runs.regWrite hw .extmemFifoArm (countWord count)).andThen
    (fs := pollTrace p m .dmaStat p.extmemWmDelayNs (anySet p.extmemWmMask) vs ++ es) (Runs.withCfg ?_))) (by simp)
  split_ifs at hs with hpolls
  · subst hs
    cases hr
    rw [if_neg (by omega)]
    exact Runs.ifOk (es := []) (Runs.pure _) (hb.resited .extmemRead)
  · obtain ⟨q, hpoll⟩ := Runs.poll_seen_trace (m := m) (place := posLoop) (r := .dmaStat) (d := p.extmemWmDelayNs) hw hr hs
    rw [if_pos (Nat.pos_of_ne_zero hpolls)]
    exact Runs.ifOk hpoll.map (hb.resited .extmemRead)

/-- A watermark that never comes makes no burst. -/
theorem Runs.extReadBody_missed (hn : 0 < p.extmemWmPolls) (hr : readMany p.extmemWmPolls c.env = (vs, e))
    (hs : ∀ w ∈ vs, anySet p.extmemWmMask w = false) :
    Runs p m (extReadBody addr count host) c (.error ⟨.protocolTimeout, .extmemWatermark⟩) { c with env := e }
      ([wrEvent p m .extmemAddr addr, wrEvent p m .extmemFifoArm (countWord count)] ++
        pollTrace p m .dmaStat p.extmemWmDelayNs (anySet p.extmemWmMask) vs) := by
  have hpoll := Runs.poll_missed_trace (m := m) (place := posLoop) (r := .dmaStat) (d := p.extmemWmDelayNs) hw hr hs
  refine (Runs.regWrite hw .extmemAddr addr).andThen ((Runs.regWrite hw .extmemFifoArm (countWord count)).andThen
    (Runs.withCfg ?_))
  rw [if_pos hn]
  exact Runs.ifError hpoll.map

end read

/-- EXT_MEM_READ answers what its body, the end of the ownership and its reply run to. -/
theorem exec_extMemRead {addr : Word} {count : Nat} {ws : List Word} (hs : s.Serves m x) (hc : 0 < count)
    (hlen : count ≤ ws.length) {st : Except Failure (List Word)} {r : Reply} {c₂ : Ctx}
    (hb : Runs s.cfg m (extReadBody addr count ws) ⟨x.handle, (envRead x.env).2⟩ st c es)
    (hr : Runs s.cfg m (replyWords count (some ws) st) { c with env := (envRead c.env).2 } r c₂ []) :
    Answers (exec (.extMemRead m addr count (some ws)) s) s .extMemRead m { x with handle := c₂.handle, env := c₂.env } r
      (csrEvents s.cfg m (envRead x.env).1 (1#32 <<< s.cfg.csrmap.pciExtmem.val) 0 ++ es ++
        csrEvents s.cfg m (envRead c.env).1 0 (1#32 <<< s.cfg.csrmap.pciExtmem.val)) := by
  have hbody := (Runs.withExtMem (c := x.ctx) hs.2.1 hb).bind hr
  rw [List.append_nil, ← List.append_assoc] at hbody
  exact exec_answers (i := .extMemRead m addr count (some ws)) hs rfl rfl (count_and_buffer_pass hc hlen) rfl hbody

/-- Settles O44: the address, the arm and the poll, then the burst, which DMA_BURST runs alike, or the timeout, all inside the
ownership. -/
theorem extMemReadSucceeds : Obligations.ExtMemReadSucceeds := by
  refine ⟨?_, ?_, ?_⟩
  · intro s m x addr count ws bad data v u w ch e₀ e₁ e₂ e₃ e₄ e₅ hs hc hlen hv hr hn hbad hseen ho hx hd hclose hlast
    obtain ⟨-, hw, -, hleft⟩ := id hs
    obtain ⟨rfl, rfl⟩ : (envRead x.env).1 = v ∧ (envRead x.env).2 = e₀ := by simp [hv]
    obtain ⟨rfl, rfl⟩ : (envRead e₄).1 = w ∧ (envRead e₄).2 = e₅ := by simp [hlast]
    have hpred : ∀ z ∈ bad, anySet s.cfg.extmemWmMask z = false := fun z hz => by simp [anySet, hbad z hz]
    have hpred' : anySet s.cfg.extmemWmMask u = true := by simpa [anySet] using hseen
    have hburst := Runs.dmaBurst_succeeds (m := m) (c := ⟨x.handle, e₁⟩) (kind := .ext) (port := .extmemData) (host := ws) hw
      (((vendorLeft_of_readMany hr).trans (envRead_vendorLeft x.env)).trans hleft) nofun ho hx hd hclose
    have hbody := Runs.extReadBody_seen (c := ⟨x.handle, (envRead x.env).2⟩) (addr := addr) (vs := bad ++ [u]) hw
      (by simpa using hr) (by rw [if_neg (by omega)]; exact .of_concat hn hpred hpred') hburst
    have hans := exec_extMemRead hs hc hlen hbody (Runs.pure _)
    rw [pollTrace_of_seen hpred hpred'] at hans
    simpa [hd, bufPut] using hans
  · intro s m x addr count ws vs v e hs hc hlen hr hseen
    obtain ⟨hon, hw, -, hleft⟩ := id hs
    obtain ⟨rfl, hr'⟩ := readMany_cons hr
    have hleft' : e.vendorLeft = none := (vendorLeft_of_readMany hr).trans hleft
    obtain ⟨st, c, es, hburst, -⟩ := Runs.dmaBurst_of_returns (m := m) (c := ⟨x.handle, e⟩) hw hleft' .ext .extmemData ws count
      .toHost
    obtain ⟨b, e', hreply, -, hok⟩ := Runs.replyWords_resited (p := s.cfg) (m := m) (c := c) .extmemRead count ws st
    obtain ⟨b', e'', -, hresited, hok'⟩ := Runs.replyWords_resited (p := s.cfg) (m := m)
      (c := { c with env := (envRead c.env).2 }) .extmemRead count ws st
    obtain ⟨t, hexec, ht⟩ := exec_answers (i := .dmaBurst m .ext .extmemData (some ws) count .toHost)
      (serves_putModule hs hleft') rfl rfl (count_and_buffer_pass hc hlen) rfl ((hburst.bind hreply).of_eq (List.append_nil _))
    obtain ⟨t', hexec', ht'⟩ := exec_extMemRead hs hc hlen
      (Runs.extReadBody_seen (c := ⟨x.handle, (envRead x.env).2⟩) (addr := addr) hw hr' hseen hburst) hresited
    have hmodule : ∀ z, (s.putModule m z).module? m = some z := fun z => putModule_module_self _ _ _ hon.1
    refine ⟨_, _, { x with handle := c.handle, env := e' }, (envRead c.env).1, hexec, ?_, hexec', ?_, rfl, ?_, fun hstatus => ?_⟩
    · rw [finish_module, putModule_putModule, hmodule]
    · exact ht'.trans (by rw [← ht]; simp only [List.append_assoc]; rfl)
    · rw [finish_module, hmodule]
      rfl
    · cases st with
      | ok got =>
        obtain ⟨rfl, rfl⟩ := hok got rfl
        obtain ⟨rfl, rfl⟩ := hok' got rfl
        exact ⟨rfl, rfl, by rw [finish_module, hmodule]⟩
      | error f => simp [State.status, statusOf] at hstatus
  · intro s m x addr count ws vs v w e hs hc hlen hn hr hmissed
    obtain ⟨-, hw, -, -⟩ := id hs
    obtain ⟨rfl, hr'⟩ := readMany_cons (n := s.cfg.extmemWmPolls + 1) hr
    obtain ⟨e₁, hvs, hlast⟩ := readMany_concat hr'
    obtain rfl : (envRead e₁).1 = w := by rw [hlast]
    obtain ⟨b, e', hreply, -⟩ := Runs.failWith (p := s.cfg) (m := m) (c := ⟨x.handle, (envRead e₁).2⟩)
      ⟨.protocolTimeout, .extmemWatermark⟩ count ws
    have hans := exec_extMemRead hs hc hlen
      (Runs.extReadBody_missed (c := ⟨x.handle, (envRead x.env).2⟩) (addr := addr) hw hn hvs hmissed.2) hreply
    rw [← List.append_assoc] at hans
    exact ⟨b, e', hans⟩

/-! ## EXT_MEM_CLEAR (42_hbr_dma.md R173, R174) -/

/-- EXT_MEM_CLEAR answers what its poll runs to: OK where it sees the bit clear, and otherwise the timeout. -/
theorem exec_extMemClear {addr : Word} {count : Nat} {q : Option (Nat × Word)} {e : Env} (hs : s.Online m x)
    (hw : windowOk s.cfg = true) (hc : 0 < count)
    (hpoll : Runs s.cfg m (pollUntil posLoop .csr (fun v => !v.getLsbD s.cfg.csrmap.extmemClearing.val) s.cfg.extmemClrPolls
      s.cfg.extmemClrDelayNs) ⟨x.handle, (envRead x.env).2⟩ q ⟨x.handle, e⟩ es) :
    Answers (exec (.extMemClear m addr count) s) s .extMemClear m { x with env := (envRead e).2 }
      { status := if q.isSome then .ok else .fail ⟨.protocolTimeout, .extmemClear⟩ }
      (csrEvents s.cfg m (envRead x.env).1 (1#32 <<< s.cfg.csrmap.pciExtmem.val) 0 ++
        [wrEvent s.cfg m .extmemClr addr, wrEvent s.cfg m .extmemClr (countWord count)] ++ es ++
        csrEvents s.cfg m (envRead e).1 0 (1#32 <<< s.cfg.csrmap.pciExtmem.val)) := by
  have hclear : Runs s.cfg m (extClearBody addr count) ⟨x.handle, (envRead x.env).2⟩
      (if q.isSome then .ok () else .error ⟨.protocolTimeout, .extmemClear⟩) ⟨x.handle, e⟩
      ([wrEvent s.cfg m .extmemClr addr, wrEvent s.cfg m .extmemClr (countWord count)] ++ es) := by
    refine (Runs.regWrite hw .extmemClr addr).andThen ((Runs.regWrite hw .extmemClr (countWord count)).andThen
      (Runs.withCfg (hpoll.map.cast ?_ rfl rfl)))
    cases q <;> rfl
  have hans : Answers _ s .extMemClear m _ _ _ := exec_answers_online (i := .extMemClear m addr count) hs hw rfl rfl
    (if_neg hc.ne') rfl ((Runs.withExtMem (c := x.ctx) hw hclear).map (f := replyOf none))
  cases q with
  | none => simpa [replyOf, fieldBit, Module.ctx] using hans
  | some v => simpa [replyOf, fieldBit, Module.ctx] using hans

/-- Settles O45: the poll sees the clearing bit clear, or times out. -/
theorem extMemClearPolls : Obligations.ExtMemClearPolls := by
  intro s m x addr count v e₀ hs hw hc hv
  obtain ⟨rfl, rfl⟩ : (envRead x.env).1 = v ∧ (envRead x.env).2 = e₀ := by simp [hv]
  refine ⟨fun bad u w e₁ e₂ hr hn hbad hu hlast => ?_, fun bad w e₁ e₂ hr hbad hlast => ?_⟩ <;>
    obtain ⟨rfl, rfl⟩ : (envRead e₁).1 = w ∧ (envRead e₁).2 = e₂ := by simp [hlast]
  · have hpoll := Runs.poll_satisfied (m := m) (c := ⟨x.handle, (envRead x.env).2⟩) (place := posLoop) (r := .csr)
      (d := s.cfg.extmemClrDelayNs) (pred := fun v => !v.getLsbD s.cfg.csrmap.extmemClearing.val) hw hr hn
      (fun z hz => by rw [hbad z hz]; rfl) (by rw [hu]; rfl)
    simpa using exec_extMemClear hs hw hc hpoll
  · exact exec_extMemClear hs hw hc (Runs.poll_timeout hw hr fun z hz => by rw [hbad z hz]; rfl)

end Sys2Proof.Machine
end

section
/-! SUPPORT. The ownership of the external memory on every path (42_hbr_dma.md R175): the CSR is written at the two ends of an operation
and by nothing between them. -/

namespace Sys2Proof.Machine

variable {α β : Type} {sc : Scope} {c c' : Ctx} {a : α} {t : List Stage}

/-! ## Parts that do not write the CSR -/

/-- No step of the part writes the CSR. -/
def SparesCsr (_ _ : Ctx) (t : List Stage) : Prop := ∀ e ∈ shown t, writesReg .csr e = false

/-- Whatever a part stops with. -/
abbrev AnyStop (_ : Fault) (_ _ : Ctx) (_ : List Stage) : Prop := True

theorem composes_sparesCsr : Composes SparesCsr AnyStop where
  refl _ := List.forall_mem_nil _
  trans h h' := by
    intro e he
    rw [shown_append] at he
    exact (List.mem_append.mp he).elim (h e) (h' e)
  stop _ _ _ := trivial
  hang _ _ := trivial
  transStop _ _ := trivial

/-- What is shown of every run that ends well is kept, whatever stops it. -/
theorem Op.keeps_of_ok {R : Ctx → Ctx → List Stage → Prop} {x : Op α} (h : ∀ sc c a c' t, x sc c = .ok a c' t → R c c' t) :
    x.Keeps R AnyStop := ⟨h, fun _ _ _ _ _ _ _ => trivial⟩

theorem regRead_sparesCsr (r : Reg) : (regRead r).Keeps SparesCsr AnyStop :=
  Op.keeps_of_ok fun sc c v c' t h => by
    obtain ⟨-, -, rfl⟩ := regRead_eq_ok h
    simp [SparesCsr, writesReg]

theorem regWrite_sparesCsr {r : Reg} (hr : r ≠ .csr) (v : Word) : (regWrite r v).Keeps SparesCsr AnyStop :=
  Op.keeps_of_ok fun sc c u c' t h => by
    obtain ⟨-, rfl⟩ := regWrite_eq_ok h
    simpa [SparesCsr, writesReg] using hr

theorem sleep_sparesCsr (ns : Nat) : (sleep ns).Keeps SparesCsr AnyStop :=
  Op.keeps_of_ok fun sc c u c' t h => by
    cases h
    simp [SparesCsr, writesReg]

theorem vendorCall_sparesCsr (answer : Env → α × Env) (event : Handle → α → Event) :
    (vendorCall answer event).Keeps SparesCsr AnyStop :=
  Op.keeps_of_ok fun sc c a c' t h => by
    obtain ⟨-, rfl, -⟩ := vendorCall_eq_ok h
    simp [SparesCsr, writesReg]

theorem setDma_sparesCsr (ch : Option Channel) : (setDma ch).Keeps SparesCsr AnyStop :=
  Op.keeps_of_ok fun sc c u c' t h => by
    cases h
    exact List.forall_mem_nil _

theorem poll_sparesCsr (r : Reg) (pred : Word → Bool) (n d : Nat) :
    (pollUntil posLoop r pred n d).Keeps SparesCsr AnyStop :=
  pollFrom_keeps composes_sparesCsr (regRead_sparesCsr r) sleep_sparesCsr n 1

theorem writeAll_sparesCsr {r : Reg} (hr : r ≠ .csr) (ws : List Word) : (writeAll r ws).Keeps SparesCsr AnyStop :=
  Op.keeps_each composes_sparesCsr (fun _ w => Op.keeps_inLoop (regWrite_sparesCsr hr w)) ws 0

/-- A close sequence keeps what its calls and the end of the channel keep (42_hbr_dma.md R160). -/
theorem closeChannel_keeps {R : Ctx → Ctx → List Stage → Prop} {F : Fault → Ctx → Ctx → List Stage → Prop} (hR : Composes R F)
    {ch : Channel} (hclose : (dmaCloseCall ch).Keeps R F)
    (hreset : (vendorCall noAnswer fun h (_ : Unit) => .devReset h.dev).Keeps R F) (hend : (setDma none).Keeps R F) :
    (closeChannel ch).Keeps R F := by
  have hretry : (closeRetry ch).Keeps R F :=
    Op.keeps_andThen hR hreset (Op.keeps_bind hR hclose fun _ => Op.keeps_map hR hend)
  refine Op.keeps_bind hR hclose fun answer => ?_
  cases answer with
  | ok => exact Op.keeps_map hR hend
  | inProgress => exact hretry
  | error => exact hretry

theorem dmaTransfer_sparesCsr (ch : Channel) (port : Reg) (host : List Word) (count : Nat) (dir : Dir) :
    (dmaTransfer ch port host count dir).Keeps SparesCsr AnyStop := by
  refine Op.keeps_withCfg fun p => ?_
  split
  · refine Op.keeps_bind composes_sparesCsr (vendorCall_sparesCsr _ _) fun x => ?_
    split
    · split
      · refine Op.keeps_map composes_sparesCsr (Op.keeps_of_ok fun sc c ws c' t h => ?_)
        cases h
        exact List.forall_mem_nil _
      · exact Op.keeps_pure composes_sparesCsr _
    · exact Op.keeps_pure composes_sparesCsr _
    · exact Op.keeps_pure composes_sparesCsr _
  · refine Op.keeps_of_ok fun sc c r c' t h => ?_
    cases h

/-- A burst of the external memory makes vendor calls only. -/
theorem extBurst_sparesCsr (port : Reg) (host : List Word) (count : Nat) (dir : Dir) :
    (dmaBurst .ext port host count dir).Keeps SparesCsr AnyStop := by
  have hR := composes_sparesCsr
  refine Op.keeps_withCfg fun p => Op.keeps_bind hR (vendorCall_sparesCsr _ _) fun o => ?_
  cases o with
  | none => exact Op.keeps_pure hR _
  | some ch =>
    refine Op.keeps_andThen hR (setDma_sparesCsr _) (Op.keeps_bind hR
      (Op.keeps_ifOk hR (Op.keeps_pure hR _) fun _ => dmaTransfer_sparesCsr ch port host count dir) fun st => Op.keeps_map hR ?_)
    exact closeChannel_keeps hR (vendorCall_sparesCsr _ _) (vendorCall_sparesCsr _ _) (setDma_sparesCsr _)

theorem extReadBody_sparesCsr (addr : Word) (count : Nat) (host : List Word) :
    (extReadBody addr count host).Keeps SparesCsr AnyStop := by
  have hR := composes_sparesCsr
  refine Op.keeps_andThen hR (regWrite_sparesCsr (by decide) _) (Op.keeps_andThen hR (regWrite_sparesCsr (by decide) _)
    (Op.keeps_withCfg fun p => Op.keeps_ifOk hR ?_ fun _ => Op.keeps_map hR (extBurst_sparesCsr _ _ _ _)))
  split
  · exact Op.keeps_map hR (poll_sparesCsr _ _ _ _)
  · exact Op.keeps_pure hR _

theorem extClearBody_sparesCsr (addr : Word) (count : Nat) : (extClearBody addr count).Keeps SparesCsr AnyStop :=
  have hR := composes_sparesCsr
  Op.keeps_andThen hR (regWrite_sparesCsr (by decide) _) (Op.keeps_andThen hR (regWrite_sparesCsr (by decide) _)
    (Op.keeps_withCfg fun _ => Op.keeps_map hR (poll_sparesCsr _ _ _ _)))

/-! ## The two ends -/

section ends
variable {p : Params} {m : Nat} {pos : Place}

theorem csrModify_eq_ok {set clr : Word} {u : Unit} (h : csrModify set clr ⟨p, .module m, pos⟩ c = .ok u c' t) :
    ∃ v, named (shown t) = csrEvents p m v set clr := by
  obtain ⟨v, c₁, t₁, t₂, h₁, h₂, rfl⟩ := Op.bind_eq_ok.mp h
  obtain ⟨-, -, rfl⟩ := regRead_eq_ok h₁
  obtain ⟨-, rfl⟩ := regWrite_eq_ok h₂
  exact ⟨v, rfl⟩

/-- Work under the ownership that ends did so between setting the bit and clearing it. -/
theorem withExtMem_eq_ok {x : Op α} (h : withExtMem x ⟨p, .module m, pos⟩ c = .ok a c' t) :
    ∃ v w b c₁ c₂ u, x ⟨p, .module m, pos⟩ c₁ = .ok b c₂ u ∧
      named (shown t) = csrEvents p m v (1#32 <<< p.csrmap.pciExtmem.val) 0 ++ named (shown u) ++
        csrEvents p m w 0 (1#32 <<< p.csrmap.pciExtmem.val) := by
  obtain ⟨c₁, t₁, t₂, hset, h₂, rfl⟩ := Op.andThen_eq_ok.mp h
  obtain ⟨b, c₂, u, t₃, hx, h₃, rfl⟩ := Op.bind_eq_ok.mp h₂
  obtain ⟨_, hclear, -⟩ := Op.map_eq_ok.mp h₃
  obtain ⟨v, hv⟩ := csrModify_eq_ok hset
  obtain ⟨w, hw⟩ := csrModify_eq_ok hclear
  refine ⟨v, w, b, c₁, c₂, u, hx, ?_⟩
  simp only [shown_append, named_append, hv, hw, List.append_assoc]
  rfl

end ends

theorem replyWords_eq_ok {n : Nat} {b : Buf} {st : Except Failure (List Word)} {r : Reply}
    (h : replyWords n b st sc c = .ok r c' t) : t = [] := by
  cases st with
  | ok got =>
    cases h
    rfl
  | error f =>
    obtain ⟨b', e, hfail⟩ := failWith_eq_ok f n b sc c
    exact (Res.ok.inj (h.symm.trans hfail)).2.2

/-- The body of an operation on the external memory is work under the ownership that does not write the CSR, and a reply. -/
theorem body_owns_extMem {i : Instr} {p : Params} {m : Nat} {g : Program} (hg : programOf p i = some (m, g))
    (hi : i.mnemonic ∈ [.extMemWrite, .extMemRead, .extMemClear]) {r : Reply}
    (h : g.body sc c = .ok r c' t) : ∃ (γ : Type) (x : Op γ) (b : γ) (c₁ : Ctx), x.Keeps SparesCsr AnyStop ∧
      withExtMem x sc c = .ok b c₁ t := by
  have hmap : ∀ {γ δ : Type} {f : γ → δ} {y : Op γ} {d : δ}, y.map f sc c = .ok d c' t → ∃ b c₁, y sc c = .ok b c₁ t :=
    fun h => (Op.map_eq_ok.mp h).imp fun _ h => ⟨_, h.1⟩
  cases i with
  | extMemWrite k addr count buf =>
    cases hg
    obtain ⟨b, c₁, h⟩ := hmap h
    exact ⟨_, _, b, c₁, Op.keeps_andThen composes_sparesCsr (regWrite_sparesCsr (by decide) _) (writeAll_sparesCsr (by decide) _), h⟩
  | extMemRead k addr count buf =>
    cases hg
    obtain ⟨st, c₁, t₁, t₂, h₁, h₂, rfl⟩ := Op.bind_eq_ok.mp h
    obtain rfl := replyWords_eq_ok h₂
    rw [List.append_nil]
    exact ⟨_, _, st, c₁, extReadBody_sparesCsr _ _ _, h₁⟩
  | extMemClear k addr count =>
    cases hg
    obtain ⟨b, c₁, h⟩ := hmap h
    exact ⟨_, _, b, c₁, extClearBody_sparesCsr _ _, h⟩
  | _ => simp [Instr.mnemonic] at hi

/-- Settles O43: the operation's body ran under the ownership, and what it did there spares the CSR. -/
theorem extMemOwnershipOnEveryPath : Obligations.ExtMemOwnershipOnEveryPath := by
  intro s t m x i hs hi hk hf hexec
  obtain ⟨g, r, c, u, hg, -, hres, rfl⟩ := exec_eq_next_on_module hi hs.1 hexec
  have hready : g.ready = true := programOf_ready hg (by rintro rfl; simp [Instr.mnemonic] at hk)
  rw [result_of_online hs hready ((programOf_checks hg).trans hf)] at hres
  obtain ⟨γ, y, b, c₁, hspares, howned⟩ := body_owns_extMem hg hk hres
  obtain ⟨v, w, b', c₂, c₃, t', hy, hevents⟩ := withExtMem_eq_ok howned
  refine ⟨v, w, _, hevents, fun e he q off z heq => ?_⟩
  obtain ⟨e', he', rfl⟩ := List.mem_map.mp he
  obtain ⟨hreg, hevent⟩ := Prod.mk.inj heq
  simpa [writesReg, hreg, hevent] using hspares.ok _ _ _ _ _ hy e' he'

end Sys2Proof.Machine
end

section
/-! SUPPORT. A read of processor memory as the operations it is made of (42_hbr_dma.md R154 to R156): a part of an operation and
operations run one after the other do the same. -/

namespace Sys2Proof.Machine

variable {α β γ : Type} {p : Params} {m : Nat} {held held' : Bool} {s u : State} {y : Module} {c c₁ : Ctx}
  {es : List (Option Reg × Event)}

/-! ## One operation among others -/

/-- Module `m` of `s` is `y` and serves but for the request, which is held or not as `held` says. -/
structure Stands (p : Params) (m : Nat) (held : Bool) (s : State) (y : Module) : Prop where
  cfg : s.cfg = p
  online : s.Online m y
  request : y.handle.hbrHeld = held
  returns : y.env.vendorLeft = none

/-- An operation that is run on an online module: its offsets and its checks pass, and it leaves the window. -/
structure IsRun (p : Params) (m : Nat) (i : Instr) (g : Program) : Prop where
  program : programOf p i = some (m, g)
  offsets : OffsetsOk p i
  checks : argFailure p i = none
  ready : g.ready = true
  window : Right.write .win ∉ rights i.mnemonic

theorem IsRun.of_windowOk {i : Instr} {g : Program} (hw : windowOk p = true) (hg : programOf p i = some (m, g))
    (hraw : i.rawOffset? = none) (hf : argFailure p i = none) (hr : g.ready = true)
    (hwin : Right.write .win ∉ rights i.mnemonic) : IsRun p m i g :=
  ⟨hg, offsetsOk_of_windowOk hw (by simp [hraw]), hf, hr, hwin⟩

/-- What an operation that gives this reply and reads `ws` gives the operations after it. -/
def Reply.value (r : Reply) (ws : List Word) : Except Failure (List Word) :=
  match r.status with
  | .ok => .ok ws
  | .fail f => .error f

/-- An operation on a standing module gives what its body runs to, and the module stands after it. -/
theorem Stands.ranOp (hs : Stands p m held s y) {i : Instr} {g : Program} (hi : IsRun p m i g) {r : Reply}
    (hb : Runs p m g.body y.ctx r c es) (hh : c.handle.hbrHeld = held') (hv : c.env.vendorLeft = none)
    (words : State → List Word) :
    ∃ u, ranOp i words s = some (r.value (words u), es.map Prod.snd, u) ∧ (∃ k t q, u = finish k r t q) ∧
      u.system = (s.putModule m { y with handle := c.handle, env := c.env }).system ∧
      Stands p m held' u { y with handle := c.handle, env := c.env } := by
  obtain ⟨rfl, hon, -, -⟩ := hs
  obtain ⟨hy, hpos, honline, hwin⟩ := id hon
  obtain ⟨t₀, hrun, -⟩ := hb (startPos g.op)
  have hframe : c.handle.win = y.handle.win := ((body_made hi.program).framed hrun).field .win hi.window
  obtain ⟨t, hexec, rfl⟩ := runOn_answers hon hi.ready ((programOf_checks hi.program).trans hi.checks) hb
  rw [← exec_eq_runOn hi.program hi.offsets] at hexec
  refine ⟨finish g.op r t (s.putModule m { y with handle := c.handle, env := c.env }), ?_, ⟨_, _, _, rfl⟩, rfl, rfl,
    ⟨putModule_module_self _ _ _ hy, hpos, ?_, hframe ▸ hwin⟩, hh, hv⟩
  · have htrace : (named t).map Prod.snd = t.map Issued.event := List.map_map
    rw [Machine.ranOp, hexec, htrace]
    cases hr : r.status <;> simp [State.status, State.trace, Reply.value, hr]
  · simpa using honline

/-! ## A part and the operations that do the same -/

/-- From where module `m` stands, the part `x` and the operations `f` issue the same events and leave the module's handle alike;
`V` relates their values; where `f` does not fail, the environments are alike as well. -/
def Op.RunsAs (p : Params) (m : Nat) (held : Bool) (x : Op α) (V : α → Except Failure (List Word) → Prop) (f : State → Ran) :
    Prop :=
  ∀ s y, Stands p m held s y → ∃ a c es r e u, Runs p m x y.ctx a c es ∧ f s = some (r, es.map Prod.snd, u) ∧ V a r ∧
    (∀ ws, r = .ok ws → e = c.env) ∧ u.system = (s.putModule m { y with handle := c.handle, env := e }).system ∧
    Stands p m held u { y with handle := c.handle, env := e }

/-- The operations read nothing and do not fail. -/
abbrev Silent (_ : Unit) (r : Except Failure (List Word)) : Prop := r = .ok []

/-- The operations read the words `v` of what the part gives, or fail as it does, with a failure of `S`. -/
def Yields (v : α → List Word) (S : Failure → Prop) (a : Except Failure α) (r : Except Failure (List Word)) : Prop :=
  r = a.map v ∧ ∀ e, r = .error e → S e

/-- A record written back twice. -/
theorem system_putModule (h : u.system = (s.putModule m y).system) (z : Module) :
    (u.putModule m z).system = (s.putModule m z).system := by
  rw [putModule_system, h, ← putModule_system, putModule_putModule]

theorem Ran.andThen_assoc (x : Ran) (f g : State → Ran) : (x.andThen f).andThen g = x.andThen fun s => (f s).andThen g := by
  rcases x with _ | ⟨e | ws, es, s⟩
  · rfl
  · rfl
  · rcases h : f s with _ | ⟨e | ws', es', s'⟩
    · simp [Ran.andThen, h]
    · simp [Ran.andThen, h, Except.map]
    · rcases h' : g s' with _ | ⟨e | ws'', es'', s''⟩ <;> simp [Ran.andThen, h, h', Except.map]

namespace Op.RunsAs

variable {x : Op α} {V V' : α → Except Failure (List Word) → Prop} {W : β → Except Failure (List Word) → Prop}
  {S S' : Failure → Prop} {f g : State → Ran}

theorem mono (h : x.RunsAs p m held V f) (hV : ∀ a r, V a r → V' a r) : x.RunsAs p m held V' f := by
  intro s y hs
  obtain ⟨a, c, es, r, e, u, hx, hf, ha, hrest⟩ := h s y hs
  exact ⟨a, c, es, r, e, u, hx, hf, hV a r ha, hrest⟩

theorem weaken {v : α → List Word} {x : Op (Except Failure α)} (h : x.RunsAs p m held (Yields v S) f) (hS : ∀ e, S e → S' e) :
    x.RunsAs p m held (Yields v S') f := h.mono fun _ _ ⟨hr, he⟩ => ⟨hr, fun e h => hS e (he e h)⟩

theorem congr (h : x.RunsAs p m held V f) (hf : ∀ s, s.cfg = p → g s = f s) : x.RunsAs p m held V g := by
  intro s y hs
  rw [hf s hs.cfg]
  exact h s y hs

theorem pure {a : α} {ws : List Word} (h : V a (.ok ws)) :
    (Op.pure a).RunsAs p m held V fun s => some (.ok ws, [], s) := by
  intro s y hs
  refine ⟨a, y.ctx, [], _, y.env, s, Runs.pure a, rfl, h, fun _ _ => rfl, ?_, hs⟩
  exact congrArg State.system (putModule_same hs.online.1).symm

theorem withCfg {k : Params → Op α} (h : (k p).RunsAs p m held V f) : (Op.withCfg k).RunsAs p m held V f := h

theorem inLoop {k : Nat} (h : x.RunsAs p m held V f) : (x.inLoop k).RunsAs p m held V f := by
  intro s y hs
  obtain ⟨a, c, es, r, e, u, hx, hrest⟩ := h s y hs
  exact ⟨a, c, es, r, e, u, hx.inLoop, hrest⟩

theorem map {k : α → β} (h : x.RunsAs p m held (fun a r => W (k a) r) f) : (x.map k).RunsAs p m held W f := by
  intro s y hs
  obtain ⟨a, c, es, r, e, u, hx, hrest⟩ := h s y hs
  exact ⟨k a, c, es, r, e, u, hx.map, hrest⟩

/-- One part after another: the second is not run where the first fails. -/
theorem bind {k : α → Op β} (hx : x.RunsAs p m held V f)
    (hok : ∀ a ws, V a (.ok ws) → (k a).RunsAs p m held (fun b r => W b (r.map (ws ++ ·))) g)
    (herror : ∀ a e, V a (.error e) → ∃ b, k a = Op.pure b ∧ W b (.error e)) :
    (x.bind k).RunsAs p m held W fun s => (f s).andThen g := by
  intro s y hs
  obtain ⟨a, c, es, r, e, u, hrun, hf, ha, henv, hu, hstands⟩ := hx s y hs
  cases r with
  | ok ws =>
    obtain rfl := henv ws rfl
    obtain ⟨b, c', es', r', e', u', hrun', hg, hb, henv', hu', hstands'⟩ := hok a ws ha u _ hstands
    refine ⟨b, c', es ++ es', r'.map (ws ++ ·), e', u', hrun.bind hrun', ?_, hb, ?_, ?_, hstands'⟩
    · simp [Ran.andThen, hf, hg]
    · intro ws' h
      cases r' with
      | ok got => exact henv' got rfl
      | error f => cases h
    · exact hu'.trans (system_putModule hu _)
  | error e₀ =>
    obtain ⟨b, hk, hb⟩ := herror a e₀ ha
    refine ⟨b, c, es, .error e₀, e, u, ?_, ?_, hb, nofun, hu, hstands⟩
    · refine (hrun.bind (fs := []) ?_).of_eq (List.append_nil _)
      rw [hk]
      exact Runs.pure b
    · simp [Ran.andThen, hf]

theorem andThen {x : Op Unit} {k : Op β} (hx : x.RunsAs p m held Silent f) (hk : k.RunsAs p m held W g) :
    (x.andThen k).RunsAs p m held W fun s => (f s).andThen g := by
  refine hx.bind (fun a ws h => hk.mono fun b r hb => ?_) fun a e h => ?_
  · cases h
    cases r <;> exact hb
  · cases h

/-- Two parts, each unless the one before fails, and their values put together. -/
theorem ifOk_ifOk {v : α → List Word} {w : β → List Word} {z : γ → List Word} {x : Op (Except Failure α)}
    {k : Op (Except Failure β)} {join : α → β → γ} (hx : x.RunsAs p m held (Yields v S) f)
    (hk : k.RunsAs p m held (Yields w S) g) (hjoin : ∀ a b, z (join a b) = v a ++ w b) :
    (x.ifOk fun a => k.ifOk fun b => Op.pure (.ok (join a b))).RunsAs p m held (Yields z S) fun s => (f s).andThen g := by
  refine hx.bind (fun r ws h => ?_) fun r e h => ?_
  · obtain ⟨heq, -⟩ := h
    cases r with
    | error e => cases heq
    | ok a =>
      cases heq
      intro s y hs
      obtain ⟨b, c, es, r, e, u, hrun, hg, ⟨rfl, hS⟩, hrest⟩ := hk s y hs
      cases b with
      | ok b =>
        refine ⟨.ok (join a b), c, es, _, e, u, (hrun.ifOk (Runs.pure _)).of_eq (List.append_nil _), hg, ⟨?_, nofun⟩, hrest⟩
        exact congrArg Except.ok (hjoin a b).symm
      | error f =>
        exact ⟨.error f, c, es, _, e, u, hrun.ifError, hg, ⟨rfl, fun f' h => hS f' (by cases h; rfl)⟩, hrest⟩
  · obtain ⟨heq, hS⟩ := h
    cases r with
    | ok a => cases heq
    | error e' =>
      cases heq
      exact ⟨_, rfl, rfl, hS⟩

theorem eachOk {v : β → List Word} {k : Nat → α → Op (Except Failure β)} {f : α → State → Ran} (l : List α) : ∀ i,
    (∀ j, ∀ a ∈ l, (k j a).RunsAs p m held (Yields v S) (f a)) →
    (Op.eachOk k i l).RunsAs p m held (Yields (List.flatMap v) S) (ranEach f l) := by
  induction l with
  | nil => exact fun i _ => .pure ⟨rfl, nofun⟩
  | cons a l ih =>
    intro i h
    exact .ifOk_ifOk (h i a List.mem_cons_self) (ih (i + 1) fun j b hb => h j b (List.mem_cons_of_mem a hb))
      fun b bs => List.flatMap_cons

theorem times {v : β → Word} {k : Nat → Op β} {f : State → Ran}
    (h : ∀ i, (k i).RunsAs p m held (fun b r => r = .ok [v b]) f) (l : List α) : ∀ i,
    (Op.times k i l.length).RunsAs p m held (fun bs r => r = .ok (bs.map v)) (ranEach (fun _ => f) l) := by
  induction l with
  | nil => exact fun i => .pure rfl
  | cons a l ih =>
    refine fun i => (h i).bind (fun b ws hb => .map ((ih (i + 1)).mono fun bs r hbs => ?_)) fun b e hb => ?_
    · cases hb
      cases hbs
      rfl
    · cases hb

theorem resited {v : α → List Word} {site : Site} {x : Op (Except Failure α)} (hx : x.RunsAs p m held (Yields v S) f) :
    (resited site x).RunsAs p m held (Yields v fun e => e.site = site) fun s => (f s).resited site := by
  intro s y hs
  obtain ⟨a, c, es, r, e, u, hrun, hf, ⟨rfl, -⟩, henv, hrest⟩ := hx s y hs
  refine ⟨_, c, es, _, e, u, hrun.resited site, ?_, ⟨rfl, ?_⟩, ?_, hrest⟩
  · simp only [Ran.resited, hf, Option.map_some]
    cases a <;> rfl
  · rintro e' h
    cases a <;> cases h
    rfl
  · intro ws h
    cases a with
    | ok a => exact henv _ rfl
    | error f => cases h

/-- An operation whose body does what the part does, and what its reply then draws. -/
theorem op {i : Instr} {g : Program} (hi : IsRun p m i g) {words : State → List Word}
    (h : ∀ c, c.env.vendorLeft = none → c.handle.hbrHeld = held → ∃ a c' es es' r e, Runs p m x c a c' es ∧
      Runs p m g.body c r { c' with env := e } es' ∧ es'.map Prod.snd = es.map Prod.snd ∧ c'.handle.hbrHeld = held ∧
      e.vendorLeft = none ∧ (∀ k t q, V a (r.value (words (finish k r t q)))) ∧ (r.status = .ok → e = c'.env)) :
    x.RunsAs p m held V (ranOp i words) := by
  intro s y hs
  obtain ⟨a, c', es, es', r, e, hx, hbody, hes, hh, hv, ha, henv⟩ := h y.ctx hs.returns hs.request
  obtain ⟨u, hran, ⟨k, t, q, rfl⟩, hu, hstands⟩ := hs.ranOp hi hbody hh hv words
  refine ⟨a, c', es, _, e, _, hx, hes ▸ hran, ha k t q, fun ws hws => henv ?_, hu, hstands⟩
  cases hr : r.status with
  | ok => rfl
  | fail f => simp [Reply.value, hr] at hws

end Op.RunsAs

/-! ## The operations of a read (42_hbr_dma.md R155, R156) -/

/-- A part ends in one way. -/
theorem Runs.unique {x : Op α} {a b : α} {fs : List (Option Reg × Event)} (h : Runs p m x c a c₁ es) {c₂ : Ctx}
    (h' : Runs p m x c b c₂ fs) : a = b ∧ c₁ = c₂ := by
  obtain ⟨t, ht, -⟩ := h (startPos .regRead)
  obtain ⟨t', ht', -⟩ := h' (startPos .regRead)
  obtain ⟨ha, hc, -⟩ := Res.ok.inj (ht.symm.trans ht')
  exact ⟨ha, hc⟩

section operations
variable (hw : windowOk p = true)
include hw

theorem runsAs_csrClear : (csrClear fun f => f.autoIncDisable).RunsAs p m held Silent
    (ranOp (.csrClearBits m (1#32 <<< p.csrmap.autoIncDisable.val)) fun _ => []) := by
  refine .op (.of_windowOk hw rfl rfl rfl rfl (by simp [rights, Instr.mnemonic])) fun c hv hh => ?_
  exact ⟨(), _, _, _, _, _, Runs.csrClear hw _, (Runs.csrModify hw 0 _).map, rfl, hh, (envRead_vendorLeft _).trans hv,
    fun _ _ _ => rfl, fun _ => rfl⟩

theorem runsAs_regWrite (r : Reg) (v : Word) :
    (regWrite r v).RunsAs p m held Silent (ranOp (.regWrite m (regOffset p r) v) fun _ => []) := by
  have hoff := windowOk_reg hw r
  refine .op ⟨rfl, offsetsOk_of_raw rfl hoff, rfl, rfl, by simp [rights, Instr.mnemonic]⟩ fun c hv hh => ?_
  exact ⟨(), _, _, _, _, _, Runs.regWrite hw r v, (Runs.memWrite hoff).map, rfl, hh, hv, fun _ _ _ => rfl, fun _ => rfl⟩

theorem runsAs_regRead (r : Reg) :
    (regRead r).RunsAs p m held (fun v ws => ws = .ok [v]) (ranOp (.regRead m (regOffset p r) (some [0])) outputWords) := by
  have hoff := windowOk_reg hw r
  refine .op ⟨rfl, offsetsOk_of_raw rfl hoff, rfl, rfl, by simp [rights, Instr.mnemonic]⟩ fun c hv hh => ?_
  exact ⟨_, _, _, _, _, _, Runs.regRead hw r, (Runs.memRead hoff).map, rfl, hh, (envRead_vendorLeft _).trans hv,
    fun _ _ _ => rfl, fun _ => rfl⟩

/-- An operation whose body reads the words of the part into `ws`; `w` takes them from the buffer. -/
theorem runsAs_of_replyWords {x : Op (Except Failure α)} {v : α → List Word} {i : Instr} {g : Program} {n : Nat}
    {ws : List Word} {body : Op (Except Failure (List Word))} (hi : IsRun p m i g)
    (hg : g.body = body.bind (replyWords n (some ws))) (hx : x.Completes held) (hbuilt : x.Built)
    (hbody : ∀ {c a c' es}, Runs p m x c a c' es → Runs p m body c (a.map v) c' es) (hlen : body.Delivers n)
    {w : Buf → List Word} (hwords : ∀ got, got.length = n → w (some (got ++ ws.drop n)) = got) :
    x.RunsAs p m held (Yields v fun _ => True) (ranOp i fun t => w t.buf) := by
  refine .op hi fun c hv hh => ?_
  obtain ⟨a, c', es, hrun, hv', hh'⟩ := hx.runs hbuilt m hw hv hh
  obtain ⟨b, e, hreply, hok, -⟩ := Runs.replyWords (p := p) (m := m) (c := c') n ws (a.map v)
  obtain ⟨_, _, _, hreply', hleft, -⟩ := (replyWords_completes n (some ws) (a.map v)).runs (.replyWords _ _ _) m hw hv' hh'
  obtain ⟨-, rfl⟩ := hreply.unique hreply'
  refine ⟨a, c', es, es, ⟨statusOf (a.map v), .none, b⟩, e, hrun, ?_, rfl, hh', hleft, fun _ _ _ => ?_, fun hr => ?_⟩
  · rw [hg]
    exact ((hbody hrun).bind hreply).of_eq (List.append_nil _)
  · cases a with
    | ok a =>
      obtain ⟨rfl, -⟩ := hok _ rfl
      obtain ⟨t, ht, -⟩ := hbody hrun (startPos .regRead)
      have hn : (v a).length = n := hlen _ _ _ _ _ ht
      refine ⟨congrArg Except.ok ?_, nofun⟩
      have hw := hwords (v a) hn
      rwa [← hn] at hw
    | error f => exact ⟨rfl, fun _ _ => trivial⟩
  · cases a with
    | ok a => exact (hok _ rfl).2
    | error f => cases hr

/-- A burst of processor memory. -/
theorem runsAs_dmaBurst {dst : List Word} {n : Nat} (hn : 0 < n) (hlen : n ≤ dst.length) :
    (dmaBurst .dsp .dspData dst n .toHost).RunsAs p m held (Yields id fun _ => True)
      (ranOp (.dmaBurst m .dsp .dspData (some dst) n .toHost) fun t => (bufWords t.buf).take n) := by
  refine runsAs_of_replyWords hw (w := fun b => (bufWords b).take n)
    (.of_windowOk (i := .dmaBurst m .dsp .dspData (some dst) n .toHost) hw rfl rfl (count_and_buffer_pass hn hlen) rfl
      (by simp [rights, Instr.mnemonic]))
    rfl (dmaBurst_completes _ _ _ _ _) (.dmaBurst _ _ _ _ _) (fun h => h.cast ?_ rfl rfl) (dmaBurst_delivers _ _ _ _ _)
    fun got hgot => List.take_left' hgot
  exact (id_map _).symm

/-- The one-word path. -/
theorem runsAs_dspReadOne (a : Word) :
    (dspReadOne a).RunsAs p m false (Yields (fun v => [v]) fun _ => True)
      (ranOp (.dspMemRead m a 1 (some [0])) fun t => bufWords t.buf) := by
  refine runsAs_of_replyWords hw (body := dspReadBody a 1 [0])
    (.of_windowOk hw rfl rfl rfl rfl (by simp [rights, Instr.mnemonic])) rfl (dspReadOne_completes _)
    (.dspReadOne _) (fun h => ?_) (dspReadBody_delivers _ _ _) fun got hgot => ?_
  · refine Runs.withCfg ?_
    rw [if_pos rfl]
    rename_i r _ _
    cases r with
    | ok v => exact (h.ifOk (Runs.pure _)).of_eq (List.append_nil _)
    | error f => exact h.ifError
  · simp [bufWords]

/-- Work under a request: the request, and unless it fails the work and the done. -/
theorem Op.RunsAs.withHbr {x : Op α} {V : α → Except Failure (List Word) → Prop} {f : State → Ran}
    (hx : x.RunsAs p m true V f) :
    (withHbr x).RunsAs p m false
      (fun b r => (∃ a, b = .ok a ∧ V a r) ∨ ∃ e, b = .error e ∧ r = .error e) (ranUnderRequest m f) := by
  intro s y hs
  obtain ⟨a, e, es, hreq, hv, -⟩ := Runs.hbrRequest_of_free (m := m) (c := y.ctx) hw hs.request
  have hi : IsRun p m (.hbrRequest m) (hbrRequestProgram p) :=
    .of_windowOk hw rfl rfl rfl rfl (by simp [rights, Instr.mnemonic])
  obtain ⟨q, hran, -, hq, hstands⟩ := hs.ranOp hi (hreq.map (f := replyOf none)) rfl (hv.trans hs.returns) fun _ => []
  cases a with
  | error f₀ =>
    refine ⟨.error f₀, _, es, .error f₀, e, q, Runs.withHbr_error hreq, ?_, .inr ⟨f₀, rfl, rfl⟩, nofun, hq, hstands⟩
    simp [ranUnderRequest, hran, Ran.andThen, Reply.value, replyOf]
  | ok _ =>
    obtain ⟨b, c, es', r, e', u, hrun, hf, hb, henv, hu, hstands'⟩ := hx q _ hstands
    have hi' : IsRun p m (.hbrDone m) hbrDoneProgram := .of_windowOk hw rfl rfl rfl rfl (by simp [rights, Instr.mnemonic])
    have hdone := (Runs.hbrDone (p := p) (m := m) (c := ⟨c.handle, e'⟩) hw hstands'.request).map
      (f := fun _ => ({ status := .ok } : Reply))
    obtain ⟨z, hran', -, hz, hstands''⟩ := hstands'.ranOp hi' hdone (held' := false) rfl hstands'.returns fun _ => []
    refine ⟨.ok b, _, _, r, e', z, Runs.withHbr_ok hw hreq hrun hstands'.request, ?_, .inl ⟨b, rfl, hb⟩, henv, ?_, hstands''⟩
    · cases r <;> simp [ranUnderRequest, hran, hf, hran', Ran.andThen, Reply.value, replyOf, Except.map]
    · exact hz.trans ((system_putModule hu _).trans (system_putModule hq _))

/-- The read-modify-write and the address before further work. -/
theorem Op.RunsAs.address {x : Op α} {V : α → Except Failure (List Word) → Prop} {f : State → Ran}
    (hx : x.RunsAs p m held V f) (a : Word) :
    ((csrClear fun f => f.autoIncDisable).andThen <| (regWrite .dspAddr a).andThen x).RunsAs p m held V
      fun q => (ranAddress m a q).andThen f := by
  refine ((runsAs_csrClear hw).andThen ((runsAs_regWrite hw .dspAddr a).andThen hx)).congr fun s hs => ?_
  rw [ranAddress, hs, Ran.andThen_assoc]

theorem runsAs_blockRead {dst : List Word} {n : Nat} (hn : 0 < n) (hlen : n ≤ dst.length) (a : Word) :
    (blockRead a dst n).RunsAs p m false (Yields id fun _ => True) (ranBlock m a dst n) := by
  refine .map (((runsAs_dmaBurst hw hn hlen).address hw a).withHbr hw |>.mono fun b r h => ?_)
  obtain ⟨st, rfl, hst⟩ | ⟨e, rfl, rfl⟩ := h
  · exact hst
  · exact ⟨rfl, fun _ _ => trivial⟩

theorem runsAs_singleRead (a : Word) (n : Nat) :
    (singleRead a n).RunsAs p m false (Yields id fun _ => True) (ranSingle m a n) := by
  cases hmode : p.remainderMode with
  | autoinc =>
    have hreads := Op.RunsAs.times (held := true) (v := id)
      (fun i => (runsAs_regRead (m := m) hw .dspData).inLoop (k := i)) (List.range n) 0
    rw [List.length_range] at hreads
    have h := (hreads.address hw a).withHbr hw
    have h' : (singleRead a n).RunsAs p m false _ _ := .withCfg (by rw [hmode]; exact h)
    refine (h'.mono fun b r h => ?_).congr fun s hs => ?_
    · obtain ⟨got, rfl, hst⟩ | ⟨e, rfl, rfl⟩ := h
      · rw [List.map_id] at hst
        exact ⟨hst, fun _ _ => trivial⟩
      · exact ⟨rfl, fun _ _ => trivial⟩
    · rw [ranSingle, hs, hmode]
  | perword =>
    have h := Op.RunsAs.eachOk (m := m) (k := fun _ i => Op.inLoop i (dspReadOne (a + BitVec.ofNat 32 i))) (List.range n) 0
      fun j i _ => (runsAs_dspReadOne hw (a + BitVec.ofNat 32 i)).inLoop
    have h' : (singleRead a n).RunsAs p m false _ _ := .withCfg (by rw [hmode]; exact h)
    refine (h'.mono fun b r h => ?_).congr fun s hs => ?_
    · obtain ⟨rfl, -⟩ := h
      exact ⟨congrArg (b.map ·) (funext List.flatMap_singleton'), fun _ _ => trivial⟩
    · rw [ranSingle, hs, hmode]

/-! ## The whole read (42_hbr_dma.md R154) -/

theorem runsAs_dspBlocks (addr : Word) {ws : List Word} {w nb : Nat} (hw₀ : 0 < w) (hlen : nb * w ≤ ws.length) :
    (dspBlocks addr ws w nb).RunsAs p m false (Yields (List.flatMap id) fun e => e.site = .dspBlock)
      (ranEach (fun k q => (ranBlock m (addr + BitVec.ofNat 32 (k * w)) (ws.drop (k * w)) w q).resited .dspBlock)
        (List.range nb)) := by
  refine .eachOk _ 0 fun j k hk => ((runsAs_blockRead hw hw₀ ?_ _).inLoop).resited
  have hk : (k + 1) * w ≤ nb * w := Nat.mul_le_mul_right w (List.mem_range.mp hk)
  rw [Nat.succ_mul] at hk
  rw [List.length_drop]
  omega

theorem runsAs_dspRemainder (addr : Word) {ws : List Word} {base n : Nat} (singleMax : Nat) (hlen : base + n ≤ ws.length) :
    (dspRemainder addr ws base n singleMax).RunsAs p m false (Yields id fun e => e.site = .dspRemainder) fun q =>
      if n = 0 then some (.ok [], [], q)
      else Ran.resited .dspRemainder <|
        if n < singleMax then ranSingle m (addr + BitVec.ofNat 32 base) n q
        else ranBlock m (addr + BitVec.ofNat 32 base) (ws.drop base) n q := by
  unfold dspRemainder
  obtain rfl | hn := Nat.eq_zero_or_pos n
  · exact .pure ⟨rfl, nofun⟩
  · simp only [if_pos hn, if_neg hn.ne']
    split
    · exact (runsAs_singleRead hw _ n).resited
    · exact (runsAs_blockRead hw hn (by rw [List.length_drop]; omega) _).resited

theorem runsAs_dspReadBody (addr : Word) {count : Nat} {ws : List Word} (hcount : 2 ≤ count) (hlen : count ≤ ws.length) :
    (dspReadBody addr count ws).RunsAs p m false (Yields id fun e => e.site = .dspBlock ∨ e.site = .dspRemainder)
      (ranRead m addr count ws) := by
  have hdiv : count / p.dspBlockWords * p.dspBlockWords + count % p.dspBlockWords = count := Nat.div_add_mod' ..
  have hpos : 0 < p.dspBlockWords := Nat.succ_pos p.dspBlockMore
  have hblocks := (runsAs_dspBlocks (m := m) hw addr hpos ((Nat.div_mul_le_self ..).trans hlen)).weaken
    (S' := fun e => e.site = .dspBlock ∨ e.site = .dspRemainder) fun _ => .inl
  have hrest := (runsAs_dspRemainder (m := m) hw addr p.dspSingleMax (hdiv.le.trans hlen)).weaken
    (S' := fun e => e.site = .dspBlock ∨ e.site = .dspRemainder) fun _ => .inr
  have h : (dspReadBody addr count ws).RunsAs p m false _ _ :=
    .withCfg (by
      rw [if_neg (by omega)]
      exact hblocks.ifOk_ifOk (z := id) hrest fun blocks rest => congrArg (· ++ rest) List.flatten_eq_flatMap)
  exact h.congr fun s hs => by rw [ranRead, hs]

end operations

/-- DSP_MEM_READ of some words on a serving module, and the operations it is made of. -/
theorem dspMemRead_runs_as {x : Module} {addr : Word} {count : Nat} {ws : List Word} (hs : s.Serves m x) (hcount : 2 ≤ count)
    (hlen : count ≤ ws.length) :
    ∃ t res es u, exec (.dspMemRead m addr count (some ws)) s = .next t ∧ ranRead m addr count ws s = some (res, es, u) ∧
      t.trace = es ∧
      match res with
      | .ok got => t.status = some .ok ∧ t.buf = some (got ++ ws.drop count) ∧ t.system = u.system
      | .error f =>
        t.status = some (.fail f) ∧ (f.site = .dspBlock ∨ f.site = .dspRemainder) ∧
          (t.module? m).map Module.handle = (u.module? m).map Module.handle := by
  obtain ⟨hon, hw, hh, hv⟩ := id hs
  obtain ⟨a, c, es, r, e, u, hrun, hran, ⟨rfl, hsite⟩, henv, hu, hstands⟩ :=
    runsAs_dspReadBody hw addr hcount hlen s x ⟨rfl, hon, hh, hv⟩
  obtain ⟨b, e', ⟨t, hexec, rfl⟩, hok⟩ := exec_dspMemRead hs (by omega) hlen hrun
  refine ⟨_, _, _, u, hexec, hran, (List.map_map : (named t).map Prod.snd = t.map Issued.event).symm, ?_⟩
  cases a with
  | ok got =>
    obtain ⟨rfl, rfl⟩ := hok got rfl
    obtain rfl := henv got rfl
    obtain ⟨t', hbody, -⟩ := hrun (startPos .dspMemRead)
    obtain rfl : got.length = count := dspReadBody_delivers _ _ _ _ _ _ _ _ hbody
    exact ⟨rfl, rfl, hu.symm⟩
  | error f =>
    refine ⟨rfl, hsite f rfl, ?_⟩
    rw [finish_module, putModule_module_self _ _ _ hon.1, hstands.online.1]
    rfl

end Sys2Proof.Machine
end

section
/-! SUPPORT. What a successful read of processor memory issues and fetches (42_hbr_dma.md R154 to R157): its bursts, the addresses it
writes, and the words of the transfers and of DSP_DATA. -/

namespace Sys2Proof.Machine

variable {α β γ : Type} {p : Params} {sc : Scope} {c c' c₁ c₂ : Ctx} {t u : List Stage}

/-! ## The words a run fetches -/

/-- The run opens `opens` channels, transfers blocks of `sizes` words, writes the addresses `addrs` and reads DSP_DATA `reads` times.
Where the environment's transfers succeed and deliver their words, `got` is those words and then the words read from DSP_DATA. -/
structure Fetched (opens : Nat) (sizes : List Nat) (addrs : List Word) (reads : Nat) (got : List Word) (c c' : Ctx)
    (t : List Stage) : Prop where
  opens : countEvents isDmaOpen (shown t) = opens
  bytes : xferBytes (shown t) = sizes.map (4 * ·)
  addrs : wordsTo .dspAddr (shown t) = addrs
  reads : (wordsFrom .dspData (shown t)).length = reads
  words : ∀ (ds : List (List Word)) (more : List XferAnswer), c.env.xfers = ds.map (fun d => ⟨.ok, d⟩) ++ more →
    ds.map List.length = sizes → c'.env.xfers = more ∧ got = ds.flatten ++ wordsFrom .dspData (shown t)

/-- The run opens and transfers nothing, and neither writes an address nor reads a word. -/
abbrev FetchesNothing (c c' : Ctx) (t : List Stage) : Prop := Fetched 0 [] [] 0 [] c c' t

theorem xferBytes_append (t u : List Issued) : xferBytes (t ++ u) = xferBytes t ++ xferBytes u := List.filterMap_append

/-- One run after another: the words of a transfer do not follow words of DSP_DATA. -/
theorem Fetched.append {opens opens' reads reads' : Nat} {sizes sizes' : List Nat} {addrs addrs' got got' : List Word}
    (h : Fetched opens sizes addrs reads got c c₁ t) (h' : Fetched opens' sizes' addrs' reads' got' c₁ c₂ u)
    (horder : reads = 0 ∨ sizes' = []) :
    Fetched (opens + opens') (sizes ++ sizes') (addrs ++ addrs') (reads + reads') (got ++ got') c c₂ (t ++ u) where
  opens := by rw [shown_append, countEvents_append, h.opens, h'.opens]
  bytes := by rw [shown_append, xferBytes_append, h.bytes, h'.bytes, List.map_append]
  addrs := by rw [shown_append, wordsTo_append, h.addrs, h'.addrs]
  reads := by rw [shown_append, wordsFrom_append, List.length_append, h.reads, h'.reads]
  words ds more hxfers hsizes := by
    obtain ⟨ds₁, ds₂, rfl, hsizes₁, hsizes₂⟩ := List.map_eq_append_iff.mp hsizes
    obtain ⟨hxfers₁, rfl⟩ := h.words ds₁ (ds₂.map (fun d => ⟨.ok, d⟩) ++ more) (by simpa using hxfers) hsizes₁
    obtain ⟨hxfers₂, rfl⟩ := h'.words ds₂ more hxfers₁ hsizes₂
    refine ⟨hxfers₂, ?_⟩
    rw [shown_append, wordsFrom_append]
    obtain hnone | hnone := horder
    · have hwords := h.reads
      rw [hnone, List.length_eq_zero_iff] at hwords
      simp [hwords]
    · rw [hnone, List.map_eq_nil_iff] at hsizes₂
      simp [hsizes₂]

theorem fetchesNothing_nil (h : c'.env.xfers = c.env.xfers) : FetchesNothing c c' [] where
  opens := rfl
  bytes := rfl
  addrs := rfl
  reads := rfl
  words ds more hxfers hsizes := by
    obtain rfl := List.map_eq_nil_iff.mp hsizes
    exact ⟨h.trans hxfers, rfl⟩

theorem composes_fetchesNothing : Composes FetchesNothing AnyStop where
  refl _ := fetchesNothing_nil rfl
  trans h h' := h.append h' (.inl rfl)
  stop _ _ _ := trivial
  hang _ _ := trivial
  transStop _ _ := trivial

/-- One event that is no open, no transfer, no address and no word of DSP_DATA. -/
theorem fetchesNothing_step {r : Option Reg} {e : Event} (h : c'.env.xfers = c.env.xfers)
    (hopen : isDmaOpen e = false) (hxfer : xferBytes [⟨sc.pos, r, e⟩] = []) (haddr : wordsTo .dspAddr [⟨sc.pos, r, e⟩] = [])
    (hread : wordsFrom .dspData [⟨sc.pos, r, e⟩] = []) : FetchesNothing c c' (stepOf sc c r e) where
  opens := by simp [countEvents, hopen]
  bytes := hxfer
  addrs := haddr
  reads := by
    rw [shown_stepOf, hread]
    rfl
  words ds more hxfers hsizes := by
    obtain rfl := List.map_eq_nil_iff.mp hsizes
    exact ⟨h.trans hxfers, by rw [shown_stepOf, hread]; rfl⟩

/-! ## Parts that fetch nothing -/

theorem envRead_xfers (e : Env) : (envRead e).2.xfers = e.xfers := by
  unfold envRead envNext
  split <;> rfl

theorem envClose_xfers (e : Env) : (envClose e).2.xfers = e.xfers := by
  unfold envClose envNext
  split <;> rfl

theorem envDmaOpen_xfers (e : Env) : (envDmaOpen e).2.xfers = e.xfers := by
  unfold envDmaOpen envNext
  split <;> rfl

/-- A vendor call that ends well is answered from an environment with the same transfers. -/
theorem vendorCall_answered {answer : Env → α × Env} {event : Handle → α → Event} {a : α}
    (h : vendorCall answer event sc c = .ok a c' t) :
    ∃ e, e.xfers = c.env.xfers ∧ a = (answer e).1 ∧ c'.env = (answer e).2 ∧ t = stepOf sc c none (event c.handle a) := by
  unfold vendorCall at h
  split at h
  · cases h
  · cases h
    refine ⟨_, ?_, rfl, rfl, rfl⟩
    rfl

theorem regRead_fetchesNothing {r : Reg} (hr : r ≠ .dspData) : (regRead r).Keeps FetchesNothing AnyStop :=
  Op.keeps_of_ok fun sc c v c' t h => by
    obtain ⟨-, rfl, rfl⟩ := regRead_eq_ok h
    exact fetchesNothing_step (envRead_xfers _) rfl rfl rfl (by simp [wordsFrom, hr])

theorem regWrite_fetchesNothing {r : Reg} (hr : r ≠ .dspAddr) (v : Word) : (regWrite r v).Keeps FetchesNothing AnyStop :=
  Op.keeps_of_ok fun sc c u c' t h => by
    obtain ⟨rfl, rfl⟩ := regWrite_eq_ok h
    exact fetchesNothing_step rfl rfl rfl (by simp [wordsTo, hr]) rfl

theorem sleep_fetchesNothing (ns : Nat) : (sleep ns).Keeps FetchesNothing AnyStop :=
  Op.keeps_of_ok fun sc c u c' t h => by
    cases h
    exact fetchesNothing_step rfl rfl rfl rfl rfl

theorem setHandle_fetchesNothing (f : Handle → Handle) : (Op.setHandle f).Keeps FetchesNothing AnyStop :=
  Op.keeps_of_ok fun sc c u c' t h => by
    cases h
    exact fetchesNothing_nil rfl

theorem vendorCall_fetchesNothing {answer : Env → α × Env} {event : Handle → α → Event}
    (hanswer : ∀ e, (answer e).2.xfers = e.xfers)
    (hopen : ∀ h a, isDmaOpen (event h a) = false) (hxfer : ∀ pos h a, xferBytes [⟨pos, none, event h a⟩] = []) :
    (vendorCall answer event).Keeps FetchesNothing AnyStop :=
  Op.keeps_of_ok fun sc c a c' t h => by
    obtain ⟨e, he, -, hc', rfl⟩ := vendorCall_answered h
    exact fetchesNothing_step (by rw [hc', hanswer, he]) (hopen _ _) (hxfer _ _ _) rfl rfl

theorem poll_fetchesNothing {r : Reg} (hr : r ≠ .dspData) (pred : Word → Bool) (n d : Nat) :
    (pollUntil posLoop r pred n d).Keeps FetchesNothing AnyStop :=
  pollFrom_keeps composes_fetchesNothing (regRead_fetchesNothing hr) sleep_fetchesNothing n 1

theorem csrClear_fetchesNothing (f : CsrMap → Fin 32) : (csrClear f).Keeps FetchesNothing AnyStop :=
  Op.keeps_withCfg fun _ => Op.keeps_bind composes_fetchesNothing (regRead_fetchesNothing (by decide)) fun _ =>
    regWrite_fetchesNothing (by decide) _

theorem hbrDone_fetchesNothing : hbrDone.Keeps FetchesNothing AnyStop := by
  have hR := composes_fetchesNothing
  refine Op.keeps_bind hR (Op.keeps_getHandle hR) fun h => ?_
  split
  · exact Op.keeps_andThen hR (Op.keeps_withCfg fun _ => regWrite_fetchesNothing (by decide) _) (setHandle_fetchesNothing _)
  · exact Op.keeps_fault hR (by decide)

theorem hbrRequest_fetchesNothing : hbrRequest.Keeps FetchesNothing AnyStop := by
  have hR := composes_fetchesNothing
  have hpoll : hbrGrantPoll.Keeps FetchesNothing AnyStop := by
    refine Op.keeps_withCfg fun p => ?_
    split
    · refine Op.keeps_bind hR (poll_fetchesNothing (by decide) _ _ _) fun r => ?_
      cases r with
      | some v => exact Op.keeps_pure hR _
      | none => exact Op.keeps_andThen hR hbrDone_fetchesNothing (Op.keeps_pure hR _)
    · exact Op.keeps_pure hR _
  refine Op.keeps_bind hR (Op.keeps_getHandle hR) fun h => ?_
  split
  · exact Op.keeps_fault hR (by decide)
  · exact Op.keeps_andThen hR (Op.keeps_withCfg fun _ => regWrite_fetchesNothing (by decide) _)
      (Op.keeps_andThen hR (setHandle_fetchesNothing _) hpoll)

theorem dmaPrime_fetchesNothing (n : Nat) : (dmaPrime .dsp n).Keeps FetchesNothing AnyStop :=
  Op.keeps_andThen composes_fetchesNothing (regWrite_fetchesNothing (by decide) _) <|
    Op.keeps_withCfg fun _ => Op.keeps_map composes_fetchesNothing (poll_fetchesNothing (by decide) _ _ _)

theorem closeChannel_fetchesNothing (ch : Channel) : (closeChannel ch).Keeps FetchesNothing AnyStop :=
  closeChannel_keeps composes_fetchesNothing
    (vendorCall_fetchesNothing envClose_xfers (fun _ _ => rfl) fun _ _ _ => rfl)
    (vendorCall_fetchesNothing (fun _ => rfl) (fun _ _ => rfl) fun _ _ _ => rfl) (setHandle_fetchesNothing _)

/-! ## Parts that fetch -/

/-- Whenever the part ends well with a value that gives words, as `V` says, it has fetched them. -/
def Op.Fetches (p : Params) (x : Op α) (V : α → List Word → Prop) (opens : Nat) (sizes : List Nat) (addrs : List Word)
    (reads : Nat) : Prop :=
  ∀ sc c a c' t got, sc.cfg = p → x sc c = .ok a c' t → V a got → Fetched opens sizes addrs reads got c c' t

/-- A success gives the words `v` of its value. -/
def Gives (v : α → List Word) (a : Except Failure α) (got : List Word) : Prop := a.map v = .ok got

namespace Op.Fetches

variable {x : Op α} {V : α → List Word → Prop} {W : β → List Word → Prop} {opens opens' reads reads' : Nat}
  {sizes sizes' : List Nat} {addrs addrs' : List Word}

theorem withCfg {k : Params → Op α} (h : (k p).Fetches p V opens sizes addrs reads) :
    (Op.withCfg k).Fetches p V opens sizes addrs reads := by
  intro sc c a c' t got hp hrun ha
  subst hp
  exact h sc c a c' t got rfl hrun ha

theorem inLoop {k : Nat} (h : x.Fetches p V opens sizes addrs reads) : (x.inLoop k).Fetches p V opens sizes addrs reads :=
  fun sc => h { sc with pos := posLoop k sc.pos }

theorem map {f : α → β} (h : x.Fetches p (fun a got => W (f a) got) opens sizes addrs reads) :
    (x.map f).Fetches p W opens sizes addrs reads := by
  intro sc c b c' t got hp hrun hb
  obtain ⟨a, hx, rfl⟩ := Op.map_eq_ok.mp hrun
  exact h sc c a c' t got hp hx hb

/-- A part that fetches no words, then one that fetches. -/
theorem after {x : Op α} {k : α → Op β} (hx : x.Fetches p (fun _ got => got = []) opens sizes addrs reads)
    (hk : ∀ a, (k a).Fetches p W opens' sizes' addrs' reads') (horder : reads = 0 ∨ sizes' = []) :
    (x.bind k).Fetches p W (opens + opens') (sizes ++ sizes') (addrs ++ addrs') (reads + reads') := by
  intro sc c b c' t got hp hrun hb
  obtain ⟨a, c₁, t₁, t₂, h₁, h₂, rfl⟩ := Op.bind_eq_ok.mp hrun
  exact (hx _ _ _ _ _ _ hp h₁ rfl).append (hk a _ _ _ _ _ _ hp h₂ hb) horder

theorem of_keeps {x : Op α} (hx : x.Keeps FetchesNothing AnyStop) : x.Fetches p (fun _ got => got = []) 0 [] [] 0 := by
  rintro sc c a c' t _ - hrun rfl
  exact hx.ok _ _ _ _ _ hrun

theorem afterNothing {x : Op α} {k : α → Op β} (hx : x.Keeps FetchesNothing AnyStop)
    (hk : ∀ a, (k a).Fetches p W opens sizes addrs reads) : (x.bind k).Fetches p W opens sizes addrs reads := by
  simpa using (of_keeps hx).after hk (.inl rfl)

/-- A part that fetches, then one that fetches nothing. -/
theorem thenNothing {k : α → Op β} (hx : x.Fetches p V opens sizes addrs reads) (hk : ∀ a, (k a).Keeps FetchesNothing AnyStop)
    (hV : ∀ sc c a b c' t got, k a sc c = .ok b c' t → W b got → V a got) :
    (x.bind k).Fetches p W opens sizes addrs reads := by
  intro sc c b c' t got hp hrun hb
  obtain ⟨a, c₁, t₁, t₂, h₁, h₂, rfl⟩ := Op.bind_eq_ok.mp hrun
  simpa using (hx _ _ _ _ _ _ hp h₁ (hV _ _ _ _ _ _ _ h₂ hb)).append ((hk a).ok _ _ _ _ _ h₂) (.inr rfl)

theorem pure {a : α} (h : ∀ got, V a got → got = []) : (Op.pure a).Fetches p V 0 [] [] 0 := by
  rintro sc c _ _ _ got - ⟨⟩ ha
  rw [h got ha]
  exact fetchesNothing_nil rfl

theorem of_fails {a : α} (h : ∀ got, ¬ V a got) : (Op.pure a).Fetches p V opens sizes addrs reads := by
  rintro sc c _ _ _ got - ⟨⟩ ha
  exact absurd ha (h got)

/-- Two parts, each unless the one before fails, and their values put together. -/
theorem ifOk_ifOk {v : α → List Word} {w : β → List Word} {z : γ → List Word} {x : Op (Except Failure α)}
    {k : Op (Except Failure β)} {join : α → β → γ} (hx : x.Fetches p (Gives v) opens sizes addrs reads)
    (hk : k.Fetches p (Gives w) opens' sizes' addrs' reads') (horder : reads = 0 ∨ sizes' = [])
    (hjoin : ∀ a b, z (join a b) = v a ++ w b) :
    (x.ifOk fun a => k.ifOk fun b => Op.pure (.ok (join a b))).Fetches p (Gives z) (opens + opens') (sizes ++ sizes')
      (addrs ++ addrs') (reads + reads') := by
  intro sc c r c' t got hp hrun hr
  obtain ⟨e, -, rfl⟩ | ⟨a, c₁, t₁, t₂, h₁, h₂, rfl⟩ := Op.ifOk_eq_ok.mp hrun
  · cases hr
  obtain ⟨e, -, rfl⟩ | ⟨b, c₂, u₁, u₂, h₃, h₄, rfl⟩ := Op.ifOk_eq_ok.mp h₂
  · cases hr
  cases h₄
  cases hr
  rw [hjoin, List.append_nil]
  exact (hx _ _ _ _ _ _ hp h₁ rfl).append (hk _ _ _ _ _ _ hp h₃ rfl) horder

theorem eachOk {v : β → List Word} {k : Nat → α → Op (Except Failure β)} {sizes : α → List Nat} {addrs : α → List Word}
    (l : List α) (h : ∀ i a, (k i a).Fetches p (Gives v) opens (sizes a) (addrs a) reads)
    (horder : reads = 0 ∨ ∀ a, sizes a = []) : ∀ i,
    (Op.eachOk k i l).Fetches p (Gives (List.flatMap v)) (l.length * opens) (l.flatMap sizes) (l.flatMap addrs)
      (l.length * reads) := by
  induction l with
  | nil =>
    intro i
    rw [List.length_nil, Nat.zero_mul, Nat.zero_mul]
    exact .pure fun got hgot => (Except.ok.inj hgot).symm
  | cons a l ih =>
    intro i
    rw [List.length_cons, Nat.succ_mul, Nat.succ_mul, Nat.add_comm _ opens, Nat.add_comm _ reads]
    exact .ifOk_ifOk (h i a) (ih (i + 1)) (horder.imp_right fun hnone => List.flatMap_eq_nil_iff.mpr fun b _ => hnone b)
      fun b bs => List.flatMap_cons

theorem times {v : β → List Word} {k : Nat → Op β} (h : ∀ i, (k i).Fetches p (fun b got => got = v b) opens [] addrs reads)
    (n : Nat) : ∀ i,
    (Op.times k i n).Fetches p (fun bs got => got = bs.flatMap v) (n * opens) [] (List.replicate n addrs).flatten (n * reads) := by
  induction n with
  | zero =>
    intro i
    rw [Nat.zero_mul, Nat.zero_mul]
    exact .pure fun got hgot => hgot
  | succ n ih =>
    intro i sc c bs c' t got hp hrun hbs
    obtain ⟨b, c₁, t₁, t₂, h₁, h₂, rfl⟩ := Op.bind_eq_ok.mp hrun
    obtain ⟨bs', h₃, rfl⟩ := Op.map_eq_ok.mp h₂
    rw [hbs, List.flatMap_cons, Nat.succ_mul, Nat.succ_mul, Nat.add_comm _ opens, Nat.add_comm _ reads]
    exact (h i _ _ _ _ _ _ hp h₁ rfl).append (ih (i + 1) _ _ _ _ _ _ hp h₃ rfl) (.inr rfl)

theorem resited {v : α → List Word} {site : Site} {x : Op (Except Failure α)} (h : x.Fetches p (Gives v) opens sizes addrs reads) :
    (resited site x).Fetches p (Gives v) opens sizes addrs reads :=
  .map fun sc c a c' t got hp hrun ha => by
    cases a with
    | ok a => exact h sc c _ c' t got hp hrun ha
    | error f => cases ha

theorem withHbr {x : Op α} (h : x.Fetches p V opens sizes addrs reads) :
    (withHbr x).Fetches p (fun b got => ∃ a, b = .ok a ∧ V a got) opens sizes addrs reads := by
  refine .afterNothing hbrRequest_fetchesNothing fun r => ?_
  cases r with
  | error f =>
    refine .of_fails fun got ⟨a, ha, _⟩ => ?_
    cases ha
  | ok _ =>
    refine h.thenNothing (fun a => Op.keeps_map composes_fetchesNothing hbrDone_fetchesNothing) ?_
    rintro sc c a b c' t got hrun ⟨a', rfl, hgot⟩
    obtain ⟨-, -, heq⟩ := Op.map_eq_ok.mp hrun
    cases heq
    exact hgot

end Op.Fetches

/-! ## The parts of a read -/

theorem regWrite_dspAddr_fetches (a : Word) : (regWrite .dspAddr a).Fetches p (fun _ got => got = []) 0 [] [a] 0 := by
  rintro sc c u c' t _ - hrun rfl
  obtain ⟨rfl, rfl⟩ := regWrite_eq_ok hrun
  exact ⟨rfl, rfl, rfl, rfl, fun ds more hxfers hsizes => by
    obtain rfl := List.map_eq_nil_iff.mp hsizes
    exact ⟨hxfers, rfl⟩⟩

theorem regRead_dspData_fetches : (regRead .dspData).Fetches p (fun v got => got = [v]) 0 [] [] 1 := by
  rintro sc c v c' t _ - hrun rfl
  obtain ⟨-, rfl, rfl⟩ := regRead_eq_ok hrun
  exact ⟨rfl, rfl, rfl, rfl, fun ds more hxfers hsizes => by
    obtain rfl := List.map_eq_nil_iff.mp hsizes
    exact ⟨(envRead_xfers _).trans hxfers, rfl⟩⟩

section address
variable {x : Op α} {V : α → List Word → Prop} {opens reads : Nat} {sizes : List Nat} {addrs : List Word}
  (h : x.Fetches p V opens sizes addrs reads) (a : Word)
include h

theorem afterAddress_fetches : ((regWrite .dspAddr a).andThen x).Fetches p V opens sizes (a :: addrs) reads := by
  unfold Op.andThen
  simpa using (regWrite_dspAddr_fetches a).after (fun _ => h) (.inl rfl)

theorem afterCsrAndAddress_fetches :
    ((csrClear fun f => f.autoIncDisable).andThen <| (regWrite .dspAddr a).andThen x).Fetches p V opens sizes (a :: addrs)
      reads := .afterNothing (csrClear_fetchesNothing _) fun _ => afterAddress_fetches h a

end address

theorem dmaOpen_fetches (event : Handle → Option Channel → Event) (h : ∀ h r, isDmaOpen (event h r) = true)
    (hx : ∀ pos h a, xferBytes [⟨pos, none, event h a⟩] = []) :
    (vendorCall envDmaOpen event).Fetches p (fun _ got => got = []) 1 [] [] 0 := by
  rintro sc c o c' t _ - hrun rfl
  obtain ⟨e, he, -, hc', rfl⟩ := vendorCall_answered hrun
  refine ⟨by simp [countEvents, h], hx _ _ _, rfl, rfl, fun ds more hxfers hsizes => ?_⟩
  obtain rfl := List.map_eq_nil_iff.mp hsizes
  refine ⟨?_, rfl⟩
  rw [hc', envDmaOpen_xfers, he]
  exact hxfers

theorem dmaTransfer_fetches (ch : Channel) (port : Reg) (host : List Word) (n : Nat) :
    (dmaTransfer ch port host n .toHost).Fetches p (Gives id) 0 [n] [] 0 := by
  refine .withCfg ?_
  split
  · intro sc c r c' t got hp hrun hr
    obtain ⟨a, c₁, t₁, t₂, h₁, h₂, rfl⟩ := Op.bind_eq_ok.mp hrun
    obtain ⟨e, he, ha, hc₁, rfl⟩ := vendorCall_answered h₁
    cases hres : a.result with
    | timeout =>
      simp only [hres] at h₂
      cases h₂
      cases hr
    | vendorError =>
      simp only [hres] at h₂
      cases h₂
      cases hr
    | ok =>
      simp only [hres] at h₂
      obtain ⟨ws, hdeliver, rfl⟩ := Op.map_eq_ok.mp h₂
      cases hr
      cases hdeliver
      refine ⟨rfl, rfl, rfl, rfl, fun ds more hxfers hsizes => ?_⟩
      obtain ⟨d, rfl, rfl⟩ := List.map_eq_singleton_iff.mp hsizes
      obtain ⟨rfl, henv⟩ : a = ⟨.ok, d⟩ ∧ c₁.env.xfers = more := by
        rw [ha, hc₁, envXfer, he, hxfers]
        exact ⟨rfl, rfl⟩
      exact ⟨henv, by simp [wordsFrom]⟩
  · rintro sc c r c' t got - hrun
    cases hrun

theorem dmaBurst_fetches (host : List Word) (n : Nat) :
    (dmaBurst .dsp .dspData host n .toHost).Fetches p (Gives id) 1 [n] [] 0 := by
  have hR := composes_fetchesNothing
  refine .withCfg ((dmaOpen_fetches _ (fun _ _ => rfl) fun _ _ _ => rfl).after (opens' := 0) (sizes' := [n]) (addrs' := [])
    (reads' := 0) (fun o => ?_) (.inl rfl))
  cases o with
  | none => exact .of_fails fun got h => by cases h
  | some ch =>
    refine .afterNothing (setHandle_fetchesNothing _) fun _ => .thenNothing (V := Gives id) ?_
      (fun st => Op.keeps_map hR (closeChannel_fetchesNothing ch)) ?_
    · refine .afterNothing (dmaPrime_fetchesNothing n) fun r => ?_
      cases r with
      | ok _ => exact dmaTransfer_fetches ch .dspData host n
      | error f => exact .of_fails fun got h => by cases h
    · intro sc c st b c' t got hrun hb
      obtain ⟨closed, -, rfl⟩ := Op.map_eq_ok.mp hrun
      cases st with
      | error f => cases hb
      | ok ws =>
        cases closed with
        | ok _ => exact hb
        | error f => cases hb

theorem blockRead_fetches (a : Word) (host : List Word) (n : Nat) : (blockRead a host n).Fetches p (Gives id) 1 [n] [a] 0 := by
  refine .map ?_
  intro sc c b c' t got hp hrun hb
  refine (afterCsrAndAddress_fetches (dmaBurst_fetches host n) a).withHbr sc c b c' t got hp hrun ?_
  cases b with
  | ok st => exact ⟨st, rfl, hb⟩
  | error f => cases hb

theorem dspReadOne_fetches (a : Word) : (dspReadOne a).Fetches p (Gives fun v => [v]) 0 [] [a] 1 := by
  intro sc c b c' t got hp hrun hb
  refine (afterAddress_fetches regRead_dspData_fetches a).withHbr sc c b c' t got hp hrun ?_
  cases b with
  | ok v => exact ⟨v, rfl, (Except.ok.inj hb).symm⟩
  | error f => cases hb

/-- The addresses the single-word path writes for `n` words (R156). -/
def singleAddrs (p : Params) (a : Word) (n : Nat) : List Word :=
  match p.remainderMode with
  | .autoinc => [a]
  | .perword => (List.range n).map fun k => a + BitVec.ofNat 32 k

theorem singleRead_fetches (a : Word) (n : Nat) : (singleRead a n).Fetches p (Gives id) 0 [] (singleAddrs p a n) n := by
  unfold singleAddrs
  refine .withCfg ?_
  cases p.remainderMode with
  | autoinc =>
    have hreads := Op.Fetches.times (p := p) (v := fun v => [v]) (fun i => regRead_dspData_fetches.inLoop (k := i)) n 0
    simp only [Nat.mul_zero, Nat.mul_one, List.flatten_replicate_nil, List.flatMap_singleton'] at hreads
    intro sc c b c' t got hp hrun hb
    refine (afterCsrAndAddress_fetches hreads a).withHbr sc c b c' t got hp hrun ?_
    cases b with
    | ok ws => exact ⟨ws, rfl, (Except.ok.inj hb).symm⟩
    | error f => cases hb
  | perword =>
    have hwords := Op.Fetches.eachOk (List.range n) (fun i k => (dspReadOne_fetches (p := p) (a + BitVec.ofNat 32 k)).inLoop (k := k))
      (.inr fun _ => rfl) 0
    have hsizes : (List.range n).flatMap (fun _ => ([] : List Nat)) = [] := List.flatMap_eq_nil_iff.mpr fun _ _ => rfl
    rw [List.length_range, Nat.mul_zero, Nat.mul_one, hsizes, ← List.map_eq_flatMap, funext List.flatMap_singleton'] at hwords
    exact hwords

/-! ## The whole read (42_hbr_dma.md R154) -/

theorem dspBlocks_fetches (addr : Word) (host : List Word) (w nb : Nat) :
    (dspBlocks addr host w nb).Fetches p (Gives (List.flatMap id)) nb (List.replicate nb w)
      ((List.range nb).map fun k => addr + BitVec.ofNat 32 (k * w)) 0 := by
  have hblocks := Op.Fetches.eachOk (List.range nb) (fun i k => ((blockRead_fetches (p := p) (addr + BitVec.ofNat 32 (k * w))
    (host.drop (k * w)) w).inLoop (k := k)).resited (site := .dspBlock)) (.inl rfl) 0
  rw [List.length_range, Nat.mul_one, Nat.mul_zero, ← List.map_eq_flatMap, ← List.map_eq_flatMap,
    List.map_const', List.length_range] at hblocks
  exact hblocks

/-- The addresses of a remainder of `n` words (R154, R156). -/
def remainderAddrs (p : Params) (a : Word) (n : Nat) : List Word :=
  if n = 0 then []
  else if n < p.dspSingleMax ∧ p.remainderMode = .perword then (List.range n).map fun k => a + BitVec.ofNat 32 k
  else [a]

theorem dspRemainder_fetches (addr : Word) (host : List Word) (base n : Nat) :
    (dspRemainder addr host base n p.dspSingleMax).Fetches p (Gives id) (if 0 < n ∧ p.dspSingleMax ≤ n then 1 else 0)
      (if 0 < n ∧ p.dspSingleMax ≤ n then [n] else []) (remainderAddrs p (addr + BitVec.ofNat 32 base) n)
      (if n < p.dspSingleMax then n else 0) := by
  unfold dspRemainder remainderAddrs
  obtain rfl | hn := Nat.eq_zero_or_pos n
  · simpa using Op.Fetches.pure (p := p) (V := Gives id) (a := .ok []) fun got h => (Except.ok.inj h).symm
  · rw [if_pos hn, if_neg hn.ne']
    by_cases hsingle : n < p.dspSingleMax
    · have h := (singleRead_fetches (p := p) (addr + BitVec.ofNat 32 base) n).resited (site := .dspRemainder)
      unfold singleAddrs at h
      cases hmode : p.remainderMode <;> simpa [hn, hsingle, hmode, hsingle.not_ge] using h
    · have h := (blockRead_fetches (p := p) (addr + BitVec.ofNat 32 base) (host.drop base) n).resited (site := .dspRemainder)
      simpa [hn, hsingle, not_lt.mp hsingle] using h

theorem dspReadBody_fetches (addr : Word) {count : Nat} (host : List Word) (hcount : 2 ≤ count) {nb n : Nat}
    (hnb : nb = count / p.dspBlockWords) (hn : n = count % p.dspBlockWords) :
    (dspReadBody addr count host).Fetches p (Gives id) (nb + if 0 < n ∧ p.dspSingleMax ≤ n then 1 else 0)
      (List.replicate nb p.dspBlockWords ++ if 0 < n ∧ p.dspSingleMax ≤ n then [n] else [])
      (((List.range nb).map fun k => addr + BitVec.ofNat 32 (k * p.dspBlockWords)) ++
        remainderAddrs p (addr + BitVec.ofNat 32 (nb * p.dspBlockWords)) n) (0 + if n < p.dspSingleMax then n else 0) := by
  subst hnb hn
  refine .withCfg ?_
  rw [if_neg (by omega)]
  exact (dspBlocks_fetches addr host _ _).ifOk_ifOk (z := id) (dspRemainder_fetches addr host _ _) (.inl rfl)
    fun blocks rest => congrArg (· ++ rest) List.flatten_eq_flatMap

theorem argFailure_of_ok {i : Instr} {m : Nat} {s t : State} {x : Module} (hi : i.module? = some m) (hs : s.Online m x)
    (h : exec i s = .next t) (ht : t.status = some .ok) : argFailure s.cfg i = none := by
  obtain ⟨g, hg⟩ := programOf_isSome (p := s.cfg) hi
  cases hf : argFailure s.cfg i with
  | none => rfl
  | some f =>
    obtain ⟨t', b, h', hlast, -⟩ := failsQuietly_of_argFailure hi ((exec_eq_next_iff hg).mp h).1 hs.1 hs.2.1 hf
    cases h.symm.trans h'
    simp [State.status, hlast] at ht

/-- A successful read of two words or more has fetched the words it puts into the buffer. -/
theorem dspMemRead_fetches {s t : State} {m : Nat} {x : Module} {addr : Word} {count : Nat} {buf : Buf} (hs : s.Online m x)
    (hexec : exec (.dspMemRead m addr count buf) s = .next t) (hstatus : t.status = some .ok) :
    ∃ got c u, dspReadBody addr count (bufWords buf) ⟨s.cfg, .module m, startPos .dspMemRead⟩ x.ctx = .ok (.ok got) c u ∧
      t.issued = shown u ∧ t.buf = buf.map fun ws => got ++ ws.drop count := by
  have hargs := argFailure_of_ok rfl hs hexec hstatus
  obtain ⟨g, r, c, u, hg, -, hres, rfl⟩ := exec_eq_next_on_module rfl hs.1 hexec
  rw [result_of_online hs (programOf_ready hg nofun) ((programOf_checks hg).trans hargs)] at hres
  cases hg
  obtain ⟨st, c₁, t₁, t₂, hbody, hreply, rfl⟩ := Op.bind_eq_ok.mp hres
  obtain rfl := replyWords_eq_ok hreply
  cases st with
  | ok got =>
    obtain rfl : got.length = count := dspReadBody_delivers _ _ _ _ _ _ _ _ hbody
    cases hreply
    exact ⟨got, c, t₁, hbody, by simp [State.issued], rfl⟩
  | error f =>
    obtain ⟨b, e, hfail⟩ := failWith_eq_ok f count buf ⟨s.cfg, .module m, startPos .dspMemRead⟩ c₁
    cases hreply.symm.trans hfail
    simp [State.status] at hstatus

/-- Settles O37: a successful read has fetched its blocks and then its remainder (`dspReadBody_fetches`), and on every status the read
runs as the operations it is made of (`dspMemRead_runs_as`). -/
theorem dspReadSplitsIntoBlocks : Obligations.DspReadSplitsIntoBlocks := by
  refine ⟨fun s t m x addr count nb r buf hs hcount hexec hstatus hnb hr => ?_,
    fun s m x addr count ws hs hcount hlen => dspMemRead_runs_as hs hcount hlen⟩
  obtain ⟨got, c, u, hbody, hissued, hbuf⟩ := dspMemRead_fetches hs hexec hstatus
  obtain ⟨hopens, hbytes, haddrs, hreads, hwords⟩ := dspReadBody_fetches addr (bufWords buf) hcount hnb hr _ _ _ _ _ got rfl hbody rfl
  rw [hissued]
  refine ⟨hopens, hbytes.trans ?_, haddrs, hreads.trans (Nat.zero_add _), fun ds more hxfers hsizes => ?_⟩
  · rw [List.map_append, List.map_replicate]
    split <;> rfl
  · obtain ⟨-, rfl⟩ := hwords ds more hxfers hsizes
    exact hbuf

end Sys2Proof.Machine
end

section
/-! SUPPORT. The FPGA cycle attempt by attempt (43_boot.md R201 to R208): an attempt by the words it reads, a boot as its attempts, and
what BOOT_COMM_FPGA answers. -/

namespace Sys2Proof.Machine

variable {p : Params} {m : Nat} {h : Handle} {e e' : Env} {es : List (Option Reg × Event)} {t : Target} {image : List Word}

/-! ## Words read one list after the other -/

theorem readMany_append {vs ws : List Word} (hr : readMany (vs ++ ws).length e = (vs ++ ws, e')) :
    ∃ e₁, readMany vs.length e = (vs, e₁) ∧ readMany ws.length e₁ = (ws, e') := by
  rw [List.length_append, readMany_add] at hr
  obtain ⟨hwords, henv⟩ := Prod.mk.inj hr
  obtain ⟨hvs, hws⟩ := List.append_inj hwords (readMany_length _ _)
  exact ⟨_, Prod.ext hvs rfl, Prod.ext hws henv⟩

theorem readMany_singleton {v : Word} (hr : readMany [v].length e = ([v], e')) : envRead e = (v, e') := by
  obtain ⟨hv, hrest⟩ := readMany_cons hr
  exact Prod.ext hv (Prod.mk.inj hrest).2

/-! ## One attempt (R201 to R204) -/

/-- An attempt whose INIT poll ends with `ready`, and what it does after that. -/
theorem Runs.fpgaAttempt_of_poll (hw : windowOk p = true) {a : Nat} {ready done : Bool} {e₁ : Env} {vs : List Word}
    (hpoll : Runs p m (Machine.fpgaPollInit t a) ⟨h, e⟩ ready ⟨h, e₁⟩ (pollTrace p m .cfgStat p.fpgaInitDelayNs (initSeen p t) vs))
    (hrest : Runs p m (if ready then (Machine.fpgaStream t a image).andThen (Op.inPhase (.fpga t a .verify) (fpgaVerify t))
      else Op.pure false) ⟨h, e₁⟩ done ⟨h, e'⟩ es) :
    Runs p m (fpgaAttempt t image a) ⟨h, e⟩ done ⟨h, e'⟩
      ([wrEvent p m .cfgCtrl (patternOf p t).progLow] ++ sleepEvents p.fpgaProgHoldNs ++
        [wrEvent p m .cfgCtrl (patternOf p t).progHigh] ++
        pollTrace p m .cfgStat p.fpgaInitDelayNs (initSeen p t) vs ++ es) :=
  ((Runs.fpgaClear hw t).inPhase.andThen (hpoll.bind hrest)).of_eq (by simp)

/-- An attempt whose INIT poll times out streams nothing. -/
theorem Runs.fpgaAttempt_missed (hw : windowOk p = true) (a : Nat) {vs : List Word}
    (hvs : PollMissed p.fpgaInitPolls (initSeen p t) vs) (hr : readMany vs.length e = (vs, e')) :
    Runs p m (fpgaAttempt t image a) ⟨h, e⟩ false ⟨h, e'⟩ (FpgaRun.events p m t image ⟨vs, none⟩) := by
  obtain ⟨hlen, hmissed⟩ := hvs
  have hpoll := Runs.poll_missed_trace (m := m) (c := ⟨h, e⟩) (place := fun k => posPhase (.fpga t a (.pollInit k)))
    (r := .cfgStat) (d := p.fpgaInitDelayNs) hw (hlen ▸ hr) hmissed
  refine Runs.fpgaAttempt_of_poll (ready := false) hw (Runs.withCfg (hpoll.map (f := Option.isSome))) ?_
  exact Runs.pure false

/-- An attempt that sees INIT streams the image, and its verify decides. -/
theorem Runs.fpgaAttempt_seen (hw : windowOk p = true) (a : Nat) {vs : List Word} {d : Word}
    (hvs : PollSeen p.fpgaInitPolls (initSeen p t) vs) (hr : readMany (vs ++ [d]).length e = (vs ++ [d], e')) :
    Runs p m (fpgaAttempt t image a) ⟨h, e⟩ (doneSeen p t d) ⟨h, e'⟩ (FpgaRun.events p m t image ⟨vs, some d⟩) := by
  obtain ⟨e₁, hpolls, hlast⟩ := readMany_append hr
  obtain ⟨q, hpoll⟩ := Runs.poll_seen_trace (m := m) (c := ⟨h, e⟩) (place := fun k => posPhase (.fpga t a (.pollInit k)))
    (r := .cfgStat) (d := p.fpgaInitDelayNs) hw hpolls hvs
  have hread := Runs.regRead (m := m) (c := ⟨h, e₁⟩) hw .cfgStat
  rw [readMany_singleton hlast] at hread
  have hverify : Runs p m (fpgaVerify t) ⟨h, e₁⟩ (doneSeen p t d) ⟨h, e'⟩ [rdEvent p m .cfgStat d] :=
    Runs.withCfg (hread.map (f := allSet (patternOf p t).doneMask))
  refine Runs.fpgaAttempt_of_poll (ready := true) hw (Runs.withCfg (hpoll.map (f := Option.isSome))) ?_
  exact (Runs.fpgaStream hw t a image).andThen hverify.inPhase

theorem Runs.fpgaAttempt_fails (hw : windowOk p = true) (a : Nat) {r : FpgaRun} (hfails : r.Fails p t)
    (hr : readMany r.reads.length e = (r.reads, e')) :
    Runs p m (fpgaAttempt t image a) ⟨h, e⟩ false ⟨h, e'⟩ (r.events p m t image) := by
  obtain ⟨vs, verify⟩ := r
  obtain ⟨rfl, hmissed⟩ | ⟨hverify, hseen⟩ := hfails
  · exact Runs.fpgaAttempt_missed hw a hmissed (by simpa [FpgaRun.reads] using hr)
  · obtain ⟨d, rfl, hd⟩ := Option.any_eq_true _ _ |>.mp hverify
    exact (Runs.fpgaAttempt_seen hw a hseen hr).cast (by simpa using hd) rfl rfl

theorem Runs.fpgaAttempt_succeeds (hw : windowOk p = true) (a : Nat) {r : FpgaRun} (hsucceeds : r.Succeeds p t)
    (hr : readMany r.reads.length e = (r.reads, e')) :
    Runs p m (fpgaAttempt t image a) ⟨h, e⟩ true ⟨h, e'⟩ (r.events p m t image) := by
  obtain ⟨vs, verify⟩ := r
  obtain ⟨hverify, hseen⟩ := hsucceeds
  obtain ⟨d, rfl, hd⟩ := Option.any_eq_true _ _ |>.mp hverify
  exact (Runs.fpgaAttempt_seen hw a hseen hr).cast hd rfl rfl

/-! ## A boot as its attempts (R205) -/

/-- What a boot gives: OK where one of its attempts configures the target. -/
def bootResult (site : Site) (last : Option FpgaRun) : Except Failure Unit :=
  if last.isSome then .ok () else .error ⟨.protocolTimeout, site⟩

theorem Runs.fpgaAttempts (hw : windowOk p = true) {site : Site} {last : Option FpgaRun} (hlast : ∀ r ∈ last, r.Succeeds p t)
    (fails : List FpgaRun) (hfails : ∀ r ∈ fails, r.Fails p t) {a n : Nat} {e : Env}
    (hn : if last.isSome then fails.length < n else fails.length = n)
    (hr : readMany (bootReads fails last).length e = (bootReads fails last, e')) :
    Runs p m (fpgaAttempts t image site a n) ⟨h, e⟩ (bootResult site last) ⟨h, e'⟩ (bootEvents p m t image fails last) := by
  induction fails generalizing a n e with
  | nil =>
    cases last with
    | none =>
      obtain rfl : 0 = n := hn
      cases hr
      exact Runs.pure _
    | some r =>
      obtain ⟨k, rfl⟩ := Nat.exists_eq_succ_of_ne_zero (Nat.ne_of_gt (show 0 < n from hn))
      have hrun := Runs.fpgaAttempt_succeeds (m := m) (h := h) (image := image) hw a (hlast r rfl)
        (by simpa [bootReads] using hr)
      refine (hrun.bind (fs := []) ?_).of_eq (by simp [bootEvents])
      exact Runs.pure _
  | cons r fails ih =>
    obtain ⟨hfirst, hothers⟩ := List.forall_mem_cons.mp hfails
    obtain ⟨k, rfl⟩ : ∃ k, n = k + 1 := by
      refine Nat.exists_eq_succ_of_ne_zero ?_
      rintro rfl
      split at hn <;> simp at hn
    have hsplit : bootReads (r :: fails) last = r.reads ++ bootReads fails last := rfl
    rw [hsplit] at hr
    obtain ⟨e₁, hreads, hrest⟩ := readMany_append hr
    have hk : if last.isSome then fails.length < k else fails.length = k := by
      split at hn
      · rename_i hsome
        rw [if_pos hsome]
        simpa using hn
      · rename_i hnone
        rw [if_neg hnone]
        simpa using hn
    exact (Runs.fpgaAttempt_fails hw a hfirst hreads).bind (ih hothers hk hrest)

theorem Runs.fpgaBoot (hw : windowOk p = true) {site : Site} {fails : List FpgaRun} {last : Option FpgaRun}
    (hboots : FpgaBoots p t fails last) (hr : readMany (bootReads fails last).length e = (bootReads fails last, e')) :
    Runs p m (fpgaBoot t image site) ⟨h, e⟩ (bootResult site last) ⟨h, e'⟩ (bootEvents p m t image fails last) := by
  obtain ⟨hfails, hlast, hn⟩ := hboots
  exact Runs.withCfg (Runs.fpgaAttempts hw hlast fails hfails hn hr)

/-! ## BOOT_COMM_FPGA (R208) -/

theorem argFailure_bootComm {rev : Nat} (hlen : image.length = fwWordsComm p rev) :
    argFailure p (.bootCommFpga m rev image) = none := if_neg (not_not.mpr hlen)

/-- A cycle that runs without changing the handle is BOOT_COMM_FPGA, which keeps in `commDone` whether it succeeded. -/
theorem bootComm_answers {s : State} {x : Module} {rev : Nat} {r : Except Failure Unit} (hs : s.Online m x)
    (hw : windowOk s.cfg = true) (hlen : image.length = fwWordsComm s.cfg rev)
    (hrun : ∀ h, Runs s.cfg m (Machine.fpgaBoot .comm image .commFpga) ⟨h, x.env⟩ r ⟨h, e⟩ es) :
    Answers (exec (.bootCommFpga m rev image) s) s .bootCommFpga m
      { x with handle := { x.handle with boot := { x.handle.boot with commDone := isOk r } }, env := e } (replyOf none r) es := by
  have hbody : Runs s.cfg m (bootCommBody image) x.ctx r
      ⟨{ x.handle with boot := { x.handle.boot with commDone := isOk r } }, e⟩ ([] ++ (es ++ [])) :=
    (Runs.setHandle _).andThen ((hrun _).bind (f := fun r => (setBoot fun b => { b with commDone := isOk r }).map fun _ => r)
      (Runs.setHandle _).map)
  rw [List.append_nil] at hbody
  exact exec_answers_online (i := .bootCommFpga m rev image) hs hw rfl rfl (argFailure_bootComm hlen) rfl
    (hbody.map (f := replyOf none))

/-- Settles O46: the first attempt configures the target. -/
theorem bootCommFirstAttempt : Obligations.BootCommFirstAttempt := by
  intro s m x rev image bad v d e hs hw hlen hn hr hready
  exact bootComm_answers hs hw hlen fun h => Runs.fpgaBoot_first (c := ⟨h, x.env⟩) hw hn hr hready

/-- A boot of the interface FPGA answers what its attempts give. -/
theorem bootComm_attempts {s : State} {x : Module} {rev : Nat} {fails : List FpgaRun} {last : Option FpgaRun}
    (hs : s.Online m x) (hw : windowOk s.cfg = true) (hlen : image.length = fwWordsComm s.cfg rev)
    (hboots : FpgaBoots s.cfg .comm fails last)
    (hr : readMany (bootReads fails last).length x.env = (bootReads fails last, e)) :
    Answers (exec (.bootCommFpga m rev image) s) s .bootCommFpga m
      { x with handle := { x.handle with boot := { x.handle.boot with commDone := last.isSome } }, env := e }
      { status := if last.isSome then .ok else .fail ⟨.protocolTimeout, .commFpga⟩ }
      (bootEvents s.cfg m .comm image fails last) := by
  have hans := bootComm_answers hs hw hlen fun h => Runs.fpgaBoot (h := h) (image := image) (site := .commFpga) hw hboots hr
  cases last <;> exact hans

/-! ## INIT never seen (R206) -/

theorem groupsOf_length (k n : Nat) (ws : List Word) : (groupsOf k n ws).length = n := by
  rw [groupsOf_eq, List.length_map, List.length_range]

/-- As many words as the groups hold are the groups, one after the other. -/
theorem groupsOf_flatten {k n : Nat} {ws : List Word} (hlen : ws.length = n * k) : (groupsOf k n ws).flatten = ws := by
  induction n generalizing ws with
  | zero => rw [List.eq_nil_of_length_eq_zero (hlen.trans (Nat.zero_mul k))]; rfl
  | succ n ih =>
    rw [groupsOf, List.flatten_cons, ih (by rw [List.length_drop, hlen, Nat.succ_mul, Nat.add_sub_cancel]),
      List.take_append_drop]

theorem length_of_mem_groupsOf {k n : Nat} {ws g : List Word} (hlen : ws.length = n * k) (hg : g ∈ groupsOf k n ws) :
    g.length = k := by
  induction n generalizing ws with
  | zero => cases hg
  | succ n ih =>
    rw [Nat.succ_mul] at hlen
    obtain rfl | hg := List.mem_cons.mp hg
    · rw [List.length_take]
      omega
    · exact ih (by rw [List.length_drop]; omega) hg

/-- What a trace writes, reads and counts does not depend on the places it was issued at. -/
theorem wordsTo_issuedAt_named (r : Reg) (pos : Place) (u : List Issued) : wordsTo r (issuedAt pos (named u)) = wordsTo r u := by
  simp only [wordsTo, issuedAt, named, List.map_map, List.filterMap_map]
  rfl

theorem wordsFrom_issuedAt_named (r : Reg) (pos : Place) (u : List Issued) : wordsFrom r (issuedAt pos (named u)) = wordsFrom r u := by
  simp only [wordsFrom, issuedAt, named, List.map_map, List.filterMap_map]
  rfl

theorem countEvents_issuedAt_named (f : Event → Bool) (pos : Place) (u : List Issued) :
    countEvents f (issuedAt pos (named u)) = countEvents f u := by
  simp only [countEvents, issuedAt, named, List.map_map, List.countP_map]
  rfl

/-- The trace of `n` attempts that read `vs` and see no INIT (R206). -/
structure NeverReady (p : Params) (t : Target) (n : Nat) (vs : List Word) (u : List Issued) : Prop where
  lines : wordsTo .cfgCtrl u = (List.replicate n [(patternOf p t).progLow, (patternOf p t).progHigh]).flatten
  polled : wordsFrom .cfgStat u = vs
  streamed : wordsTo .cfgData u = []
  writes : countEvents isWrite u = 2 * n
  reads : countEvents isRead u = vs.length
  sleeps : p.fpgaProgHoldNs = 0 → 0 < p.fpgaInitDelayNs → countEvents isSleep u = vs.length

theorem NeverReady.append {n k : Nat} {vs ws : List Word} {u v : List Issued} (hu : NeverReady p t n vs u)
    (hv : NeverReady p t k ws v) : NeverReady p t (n + k) (vs ++ ws) (u ++ v) where
  lines := by rw [wordsTo_append, hu.lines, hv.lines, List.replicate_add, List.flatten_append]
  polled := by rw [wordsFrom_append, hu.polled, hv.polled]
  streamed := by rw [wordsTo_append, hu.streamed, hv.streamed, List.append_nil]
  writes := by rw [countEvents_append, hu.writes, hv.writes, Nat.mul_add]
  reads := by rw [countEvents_append, hu.reads, hv.reads, List.length_append]
  sleeps hhold hdelay := by rw [countEvents_append, hu.sleeps hhold hdelay, hv.sleeps hhold hdelay, List.length_append]

/-- The reads of a poll that misses, each with its sleep. -/
theorem neverReady_poll (pos : Place) (vs : List Word) :
    NeverReady p t 0 vs (issuedAt pos (pollEvents p m .cfgStat p.fpgaInitDelayNs vs)) := by
  induction vs with
  | nil => exact ⟨rfl, rfl, rfl, rfl, rfl, fun _ _ => rfl⟩
  | cons v vs ih =>
    have hone : NeverReady p t 0 [v] (issuedAt pos (rdEvent p m .cfgStat v :: sleepEvents p.fpgaInitDelayNs)) := by
      unfold sleepEvents
      split
      · exact ⟨rfl, rfl, rfl, rfl, rfl, fun _ _ => rfl⟩
      · exact ⟨rfl, rfl, rfl, rfl, rfl, fun _ hdelay => absurd hdelay ‹_›⟩
    have happend := hone.append ih
    rwa [issuedAt, issuedAt, ← List.map_append] at happend

/-- One attempt: the program line, and the poll. -/
theorem neverReady_attempt (pos : Place) {vs : List Word} (hvs : ∀ w ∈ vs, initSeen p t w = false) :
    NeverReady p t 1 vs (issuedAt pos (FpgaRun.events p m t image ⟨vs, none⟩)) := by
  have hclear : NeverReady p t 1 [] (issuedAt pos ([wrEvent p m .cfgCtrl (patternOf p t).progLow] ++
      sleepEvents p.fpgaProgHoldNs ++ [wrEvent p m .cfgCtrl (patternOf p t).progHigh])) := by
    unfold sleepEvents
    split
    · exact ⟨rfl, rfl, rfl, rfl, rfl, fun hhold _ => absurd hhold (Nat.ne_of_gt ‹_›)⟩
    · exact ⟨rfl, rfl, rfl, rfl, rfl, fun _ _ => rfl⟩
  have happend := hclear.append (neverReady_poll (m := m) pos vs)
  rwa [issuedAt, issuedAt, ← List.map_append, ← pollTrace_of_missed hvs, ← List.append_nil (_ ++ pollTrace ..)] at happend

theorem neverReady_attempts (pos : Place) {vss : List (List Word)} (hvss : ∀ vs ∈ vss, ∀ w ∈ vs, initSeen p t w = false) :
    NeverReady p t vss.length vss.flatten (issuedAt pos (bootEvents p m t image (vss.map fun vs => ⟨vs, none⟩) none)) := by
  induction vss with
  | nil => exact ⟨rfl, rfl, rfl, rfl, rfl, fun _ _ => rfl⟩
  | cons vs vss ih =>
    obtain ⟨hvs, hothers⟩ := List.forall_mem_cons.mp hvss
    have happend := (neverReady_attempt (m := m) (image := image) pos hvs).append (ih hothers)
    rwa [issuedAt, issuedAt, ← List.map_append, Nat.add_comm] at happend

/-- Settles O47: the boot is its attempts (`bootComm_attempts`); the words of a boot that sees no INIT are those of its polls. -/
theorem bootCommNeverReady : Obligations.BootCommNeverReady := by
  refine ⟨fun s m x rev image fails last e hs hw hlen hboots hr => bootComm_attempts hs hw hlen hboots hr,
    fun s m x rev image vs e hs hw hlen hr hnever => ?_⟩
  have hcount : vs.length = s.cfg.fpgaAttempts * s.cfg.fpgaInitPolls := by
    simpa [hr] using readMany_length (s.cfg.fpgaAttempts * s.cfg.fpgaInitPolls) x.env
  have hflat := groupsOf_flatten hcount
  have hmissed : ∀ g ∈ groupsOf s.cfg.fpgaInitPolls s.cfg.fpgaAttempts vs, ∀ w ∈ g, initSeen s.cfg .comm w = false := by
    intro g hg w hwg
    have hmem : w ∈ vs := hflat ▸ List.mem_flatten_of_mem hg hwg
    simpa [initSeen, patternOf] using hnever w hmem
  obtain ⟨u, hexec, hu⟩ := bootComm_attempts (e := e) hs hw hlen
    (fails := (groupsOf s.cfg.fpgaInitPolls s.cfg.fpgaAttempts vs).map fun g => ⟨g, none⟩) (last := none)
    ⟨List.forall_mem_map.mpr fun g hg => .inl ⟨rfl, length_of_mem_groupsOf hcount hg, hmissed g hg⟩, nofun,
      (List.length_map _).trans (groupsOf_length _ _ _)⟩
    (by
      have hreads : bootReads ((groupsOf s.cfg.fpgaInitPolls s.cfg.fpgaAttempts vs).map fun g => ⟨g, none⟩) none = vs := by
        simp [bootReads, List.flatMap_map, FpgaRun.reads, hflat]
      rw [hreads, hcount, hr])
  have htrace := neverReady_attempts (m := m) (image := image) (startPos .bootCommFpga) hmissed
  rw [← hu, groupsOf_length, hflat] at htrace
  obtain ⟨hlines, hpolled, hstreamed, hwrites, hreads, hsleeps⟩ := htrace
  rw [wordsTo_issuedAt_named] at hlines hstreamed
  rw [wordsFrom_issuedAt_named] at hpolled
  rw [countEvents_issuedAt_named, hcount] at hreads hsleeps
  rw [countEvents_issuedAt_named] at hwrites
  exact ⟨_, hexec, rfl, putModule_module_self _ _ _ hs.1, hlines, hpolled, hstreamed, hwrites, hreads, hsleeps⟩

end Sys2Proof.Machine
end

section
/-! SUPPORT. The flags of the boot stages (43_boot.md R209, R211, R226): a stage changes nothing of the handle but its own flag, which
says afterwards whether the stage succeeded. -/

namespace Sys2Proof.Machine

variable {sc : Scope} {c c' : Ctx} {u : List Stage} {r : Except Failure Unit}

/-- A part without the right to write a field leaves the handle as it was. -/
theorem Op.Made.handle_eq {α : Type} {S : Right → Prop} {x : Op α} {a : α} (hx : x.Made S) (hS : ∀ q, ¬ S (.write q))
    (h : x sc c = .ok a c' u) : c'.handle = c.handle := by
  have hsame : ∀ q : Field, q.Same c.handle c'.handle := fun q => (hx.framed h).field q (hS q)
  exact Handle.mk.injEq .. ▸ ⟨hsame .dev, hsame .win, hsame .slot, hsame .offline, hsame .boot, hsame .hbrHeld, hsame .dma,
    hsame .ser, hsame .lines⟩

theorem fpgaBoot_handle {t : Target} {image : List Word} {site : Site} (h : fpgaBoot t image site sc c = .ok r c' u) :
    c'.handle = c.handle := Op.Made.handle_eq (S := fun _ => False) (.fpgaBoot t image site) (fun _ => id) h

theorem dspBootFrom_handle {w : List Word} {a more : Nat} (h : dspBootFrom w a more sc c = .ok r c' u) :
    c'.handle = c.handle := Op.Made.handle_eq (S := (Right.request = ·)) (.dspBootFrom rfl w a more) nofun h

theorem setBoot_eq_ok {f : Boot → Boot} {v : Unit} (h : setBoot f sc c = .ok v c' u) :
    c'.handle = { c.handle with boot := f c.handle.boot } := by
  cases h
  rfl

/-- Whenever the stage ends, all it has changed of the handle is the boot record, in which `f` has written whether it succeeded. -/
def Op.SetsFlag (f : Boot → Bool → Boot) (x : Op (Except Failure Unit)) : Prop :=
  ∀ sc c r c' u, x sc c = .ok r c' u → c'.handle = { c.handle with boot := f c.handle.boot (isOk r) }

theorem bootCommBody_setsFlag (image : List Word) : (bootCommBody image).SetsFlag fun b ok => { b with commDone := ok } := by
  intro sc c r c' u h
  obtain ⟨c₁, t₁, t₂, hclear, hrest, -⟩ := Op.andThen_eq_ok.mp h
  obtain ⟨r', c₂, t₃, t₄, hboot, hmap, -⟩ := Op.bind_eq_ok.mp hrest
  obtain ⟨_, hset, rfl⟩ := Op.map_eq_ok.mp hmap
  rw [setBoot_eq_ok hset, fpgaBoot_handle hboot, setBoot_eq_ok hclear]

theorem bootSpBody_setsFlag (image : List Word) : (bootSpBody image).SetsFlag fun b ok => { b with spDone := ok } := by
  intro sc c r c' u h
  obtain ⟨c₁, t₁, t₂, hclear, hrest, -⟩ := Op.andThen_eq_ok.mp h
  obtain ⟨f, hfirst, rfl⟩ | ⟨_, c₂, t₃, t₄, hfirst, hrest, -⟩ := Op.ifOk_eq_ok.mp hrest
  · rw [fpgaBoot_handle hfirst, setBoot_eq_ok hclear]
    rfl
  obtain ⟨f, hsecond, rfl⟩ | ⟨_, c₃, t₅, t₆, hsecond, hrest, -⟩ := Op.ifOk_eq_ok.mp hrest
  · rw [fpgaBoot_handle hsecond, fpgaBoot_handle hfirst, setBoot_eq_ok hclear]
    rfl
  obtain ⟨c₄, t₇, t₈, hpulse, hmap, -⟩ := Op.andThen_eq_ok.mp hrest
  obtain ⟨_, hset, rfl⟩ := Op.map_eq_ok.mp hmap
  have hpulsed : c₄.handle = c₃.handle := Op.Made.handle_eq (S := fun _ => False) .clockDomainReset (fun _ => id) hpulse
  rw [setBoot_eq_ok hset, hpulsed, fpgaBoot_handle hsecond, fpgaBoot_handle hfirst, setBoot_eq_ok hclear]
  rfl

theorem bootDspBody_setsFlag (w : List Word) : (bootDspBody w).SetsFlag fun b ok => { b with dspDone := ok } := by
  intro sc c r c' u h
  obtain ⟨c₁, t₁, t₂, hclear, hrest, -⟩ := Op.andThen_eq_ok.mp h
  obtain ⟨r', c₂, t₃, t₄, hboot, hend, -⟩ := Op.bind_eq_ok.mp (Op.withCfg_apply _ ▸ hrest)
  cases r' with
  | ok _ =>
    obtain ⟨_, hset, rfl⟩ := Op.map_eq_ok.mp hend
    rw [setBoot_eq_ok hset, dspBootFrom_handle hboot, setBoot_eq_ok hclear]
    rfl
  | error f =>
    cases hend
    rw [dspBootFrom_handle hboot, setBoot_eq_ok hclear]
    rfl

/-- A stage on a serving module completes, and its handle is the one its body leaves. -/
theorem IsStage.exec_boot {s : State} {m : Nat} {y : Module} {i : Instr} {x : Op (Except Failure Unit)}
    (hx : IsStage s.cfg m i x) (hs : s.Serves m y) {f : Boot → Bool → Boot} (hflag : x.SetsFlag f) :
    ∃ t z, Machine.exec i s = .next t ∧ t.module? m = some z ∧
      z.handle = { y.handle with boot := f y.handle.boot (decide (t.status = some .ok)) } := by
  obtain ⟨g, hg, hready, hbody⟩ := hx.program
  obtain ⟨hon, hw, hh, hv⟩ := hs
  obtain ⟨r, c, u, hrun, -, -⟩ := hx.completes ⟨s.cfg, .module m, startPos g.op⟩ y.ctx hw hv hh
  have hmap : g.body ⟨s.cfg, .module m, startPos g.op⟩ y.ctx = .ok (replyOf none r) c u := hbody ▸ Op.map_of_ok hrun
  refine ⟨_, _, exec_of_online hon hg (offsetsOk_of_windowOk hw (by simp [hx.raw])) hx.checks hready hmap,
    putModule_module_self _ _ _ hon.1, (hflag _ _ _ _ _ hrun).trans ?_⟩
  cases r <;> rfl

/-- Settles O48: each stage's body leaves its own flag at its status. -/
theorem bootFlagsFollowStatus : Obligations.BootFlagsFollowStatus := by
  intro s m x rev image file hs
  refine ⟨fun hlen => ?_, fun hlen => ?_, fun hfile => ?_⟩
  · exact (IsStage.bootComm (rev := rev) (if_neg (not_not.mpr hlen))).exec_boot hs (bootCommBody_setsFlag _)
  · exact (IsStage.bootSp (rev := rev) (if_neg (not_not.mpr hlen))).exec_boot hs (bootSpBody_setsFlag _)
  · exact (IsStage.bootDsp (if_pos hfile)).exec_boot hs (bootDspBody_setsFlag _)

end Sys2Proof.Machine
end

section
/-! SUPPORT. The processor file repacked (43_boot.md R216): each pair of bytes is one stream word. -/

namespace Sys2Proof.Machine

/-- The stream word of a pair of bytes, the first one high (U7, log 25). -/
def pairWord (a b : Byte) : Word := (a.setWidth 32 <<< 8) ||| b.setWidth 32

theorem append_eq_pairWord (a b : Byte) : (a ++ b).setWidth 32 = pairWord a b := by
  refine BitVec.eq_of_getLsbD_eq fun k hk => ?_
  simp only [pairWord, BitVec.getLsbD_setWidth, BitVec.getLsbD_append, BitVec.getLsbD_or, BitVec.getLsbD_shiftLeft]
  by_cases h : k < 8
  · simp [h, hk]
  · have hlt : k - 8 < 32 := by omega
    simp [h, hk, hlt, BitVec.getLsbD_of_ge b k (Nat.le_of_not_lt h)]

theorem repack_of_odd (f : List Byte) : f.length % 2 = 1 → repack f = none := by
  induction f using repack.induct with
  | case1 => nofun
  | case2 a => exact fun _ => rfl
  | case3 a b rest ih =>
    intro h
    rw [repack, ih (by simpa [Nat.add_assoc] using h)]
    rfl

/-- A file of even length is its pairs. -/
theorem repack_of_even (f : List Byte) : f.length % 2 = 0 → ∃ ws, repack f = some ws ∧ ws.length = f.length / 2 ∧
    ∀ i, i < ws.length → ws[i]? = some (pairWord (f.getD (2 * i) 0) (f.getD (2 * i + 1) 0)) := by
  induction f using repack.induct with
  | case1 => exact fun _ => ⟨[], rfl, rfl, nofun⟩
  | case2 a => nofun
  | case3 a b rest ih =>
    intro h
    obtain ⟨ws, hws, hlen, hwords⟩ := ih (by simpa [Nat.add_assoc] using h)
    refine ⟨pairWord a b :: ws, by rw [repack, hws, append_eq_pairWord]; rfl, by simp only [List.length_cons, hlen]; omega, fun i hi => ?_⟩
    cases i with
    | zero => rfl
    | succ i => exact hwords i (Nat.lt_of_succ_lt_succ hi)

/-- Settles O50, by induction along the pairs of the file. -/
theorem repackPairsBytes : Obligations.RepackPairsBytes := by
  refine fun f p => ⟨fun hodd => ?_, repack_of_even f⟩
  have hnone := repack_of_odd f hodd
  exact ⟨hnone, by simp [checkFile, fileOk, hnone]⟩

end Sys2Proof.Machine
end

section
/-! SUPPORT. Where a part of an operation stands when it issues its events (`Op.Issues`; 10_state.md R23), and the two FPGA pairs of
BOOT_SP_FPGA (43_boot.md R211, R212). -/

namespace Sys2Proof.Machine

/-! ## The events of a part, by the place it starts from -/

/-- `P` relates the place a part starts from and every event it issues, whenever it ends well. -/
def Op.Issues {α : Type} (P : Place → Issued → Prop) (x : Op α) : Prop :=
  ∀ sc c a c' u, x sc c = .ok a c' u → ∀ e ∈ shown u, P sc.pos e

namespace Op.Issues

variable {α β : Type} {P Q : Place → Issued → Prop}

theorem pure (a : α) : (Op.pure a).Issues P := by
  rintro _ _ _ _ _ ⟨⟩ _ ⟨⟩

theorem getHandle : Op.getHandle.Issues P := by
  rintro _ _ _ _ _ ⟨⟩ _ ⟨⟩

theorem setHandle (f : Handle → Handle) : (Op.setHandle f).Issues P := by
  rintro _ _ _ _ _ ⟨⟩ _ ⟨⟩

theorem fault (f : Fault) : (Op.fault f : Op α).Issues P := by
  rintro _ _ _ _ _ ⟨⟩

theorem bind {x : Op α} {f : α → Op β} (hx : x.Issues P) (hf : ∀ a, (f a).Issues P) : (x.bind f).Issues P := by
  intro sc c b c' u h
  obtain ⟨a, c₁, t₁, t₂, h₁, h₂, rfl⟩ := Op.bind_eq_ok.mp h
  rw [shown_append, List.forall_mem_append]
  exact ⟨hx _ _ _ _ _ h₁, hf a _ _ _ _ _ h₂⟩

theorem andThen {x : Op Unit} {y : Op β} (hx : x.Issues P) (hy : y.Issues P) : (x.andThen y).Issues P := bind hx fun _ => hy

theorem map {f : α → β} {x : Op α} (hx : x.Issues P) : (x.map f).Issues P := bind hx fun _ => pure _

theorem ifOk {x : Op (Except Failure α)} {f : α → Op (Except Failure β)} (hx : x.Issues P) (hf : ∀ a, (f a).Issues P) :
    (x.ifOk f).Issues P :=
  bind hx fun r =>
    match r with
    | .ok a => hf a
    | .error _ => pure _

theorem withCfg {f : Params → Op α} (hf : ∀ p, (f p).Issues P) : (Op.withCfg f).Issues P := fun sc => hf sc.cfg sc

theorem ite {p : Prop} [Decidable p] {x y : Op α} (hx : x.Issues P) (hy : y.Issues P) : (if p then x else y).Issues P := by
  split <;> assumption

/-- A part run at another place. -/
theorem placed {g : Place → Place} {x : Op α} (hx : x.Issues Q) (hg : ∀ pos e, Q (g pos) e → P pos e) :
    (x.placed g).Issues P := fun sc c a c' u h e he => hg _ _ (hx { sc with pos := g sc.pos } c a c' u h e he)

theorem each {f : Nat → α → Op Unit} (hf : ∀ i a, (f i a).Issues P) (l : List α) (i : Nat) : (Op.each f i l).Issues P := by
  induction l generalizing i with
  | nil => exact pure _
  | cons a l ih => exact andThen (hf i a) (ih (i + 1))

theorem eachOk {f : Nat → α → Op (Except Failure β)} (hf : ∀ i a, (f i a).Issues P) (l : List α) (i : Nat) :
    (Op.eachOk f i l).Issues P := by
  induction l generalizing i with
  | nil => exact pure _
  | cons a l ih => exact ifOk (hf i a) fun _ => ifOk (ih (i + 1)) fun _ => pure _

theorem regRead {r : Reg} (h : ∀ pos w off v, P pos ⟨pos, some r, .rd w off v⟩) : (regRead r).Issues P := by
  intro sc c v c' u hrun
  obtain ⟨-, -, rfl⟩ := regRead_eq_ok hrun
  exact List.forall_mem_singleton.mpr (h _ _ _ _)

theorem regWrite {r : Reg} {v : Word} (h : ∀ pos w off, P pos ⟨pos, some r, .wr w off v⟩) : (regWrite r v).Issues P := by
  intro sc c _ c' u hrun
  obtain ⟨-, rfl⟩ := regWrite_eq_ok hrun
  exact List.forall_mem_singleton.mpr (h _ _ _)

theorem sleep {ns : Nat} (h : ∀ pos, P pos ⟨pos, none, .sleep ns⟩) : (sleep ns).Issues P := by
  rintro sc _ _ _ _ ⟨⟩
  exact List.forall_mem_singleton.mpr (h _)

theorem sleepIfPositive {ns : Nat} (h : ∀ pos, P pos ⟨pos, none, .sleep ns⟩) : (sleepIfPositive ns).Issues P :=
  ite (sleep h) (pure _)

/-- A poll reads and sleeps where `place` puts it. -/
theorem pollUntil {place : Nat → Place → Place} {r : Reg} {pred : Word → Bool} {n d : Nat} (hr : (Machine.regRead r).Issues Q)
    (hs : ∀ ns, (Machine.sleep ns).Issues Q) (hg : ∀ i pos e, Q (place i pos) e → P pos e) :
    (pollUntil place r pred n d).Issues P := by
  suffices h : ∀ n i, (pollFrom place r pred d i n).Issues P from h n 1
  intro n
  induction n with
  | zero => exact fun i => pure _
  | succ n ih =>
    exact fun i => bind (placed hr (hg i)) fun _ =>
      ite (pure _) (andThen (placed (ite (hs d) (pure _)) (hg i)) (ih (i + 1)))

end Op.Issues

/-! ## The failures of a part -/

/-- Whenever the part ends with a failure, `P` holds of it. -/
def Op.FailsWith {α : Type} (P : Failure → Prop) (x : Op (Except Failure α)) : Prop :=
  x.Ends fun r _ => ∀ f, r = .error f → P f

namespace Op.FailsWith

variable {α β : Type} {P : Failure → Prop}

theorem success (a : α) : (Op.pure (.ok a)).FailsWith P := Op.Ends.pure fun _ _ h => nomatch h

theorem error {f : Failure} (hf : P f) : (Op.pure (.error f : Except Failure α)).FailsWith P :=
  Op.Ends.pure fun _ _ h => Except.error.inj h ▸ hf

theorem bind {x : Op β} {f : β → Op (Except Failure α)} (hf : ∀ b, (f b).FailsWith P) : (x.bind f).FailsWith P :=
  Op.Ends.bind hf

theorem andThen {x : Op Unit} {y : Op (Except Failure α)} (hy : y.FailsWith P) : (x.andThen y).FailsWith P :=
  Op.Ends.andThen hy

theorem withCfg {f : Params → Op (Except Failure α)} (hf : ∀ p, (f p).FailsWith P) : (Op.withCfg f).FailsWith P :=
  Op.Ends.withCfg hf

theorem placed {g : Place → Place} {x : Op (Except Failure α)} (hx : x.FailsWith P) : (x.placed g).FailsWith P :=
  Op.Ends.placed hx

theorem ifOk {x : Op (Except Failure α)} {f : α → Op (Except Failure β)} (hx : x.FailsWith P)
    (hf : ∀ a, (f a).FailsWith P) : (x.ifOk f).FailsWith P :=
  Op.Ends.bind_of hx fun r hr =>
    match r, hr with
    | .ok a, _ => hf a
    | .error g, hg => error (hg g rfl)

theorem ite {p : Prop} [Decidable p] {x y : Op (Except Failure α)} (hx : x.FailsWith P) (hy : y.FailsWith P) :
    (if p then x else y).FailsWith P := by
  split <;> assumption

theorem eachOk {f : Nat → α → Op (Except Failure β)} (hf : ∀ i a, (f i a).FailsWith P) (l : List α) (i : Nat) :
    (Op.eachOk f i l).FailsWith P := by
  induction l generalizing i with
  | nil => exact success _
  | cons a l ih => exact ifOk (hf i a) fun _ => ifOk (ih (i + 1)) fun _ => success _

end Op.FailsWith

/-! ## Phases (10_state.md R23) -/

/-- The operation of a place. -/
def Place.op : Place → Mnemonic
  | .running k _ _ => k

/-- The phase of a place. -/
def Place.phase : Place → Phase
  | .running _ ph _ => ph

@[simp] theorem posPhase_op (ph : Phase) (pos : Place) : (posPhase ph pos).op = pos.op := rfl
@[simp] theorem posPhase_phase (ph : Phase) (pos : Place) : (posPhase ph pos).phase = ph := rfl
@[simp] theorem posLoop_op (k : Nat) (pos : Place) : (posLoop k pos).op = pos.op := rfl
@[simp] theorem posLoop_phase (k : Nat) (pos : Place) : (posLoop k pos).phase = pos.phase := rfl

/-! ## The cycle of a target (43_boot.md R201 to R205) -/

/-- An event in the phase of its place, and no write to `CLKRST`. -/
def SparesClock (pos : Place) (e : Issued) : Prop := e.pos.phase = pos.phase ∧ writesReg .clkrst e = false

/-- An event in a phase of the target's cycle, and no write to `CLKRST`. -/
def InCycle (t : Target) (_ : Place) (e : Issued) : Prop :=
  (∃ a q, e.pos.phase = .fpga t a q) ∧ writesReg .clkrst e = false

theorem InCycle.of_phase {t : Target} {a : Nat} {q : FpgaPhase} (pos : Place) (e : Issued)
    (h : SparesClock (posPhase (.fpga t a q) pos) e) : InCycle t pos e := ⟨⟨a, q, h.1⟩, h.2⟩

theorem regRead_sparesClock (r : Reg) : (regRead r).Issues SparesClock := .regRead fun _ _ _ _ => ⟨rfl, rfl⟩

theorem regWrite_sparesClock {r : Reg} (hr : (r == .clkrst) = false) (v : Word) : (regWrite r v).Issues SparesClock :=
  .regWrite fun _ _ _ => ⟨rfl, hr⟩

theorem sleep_sparesClock (ns : Nat) : (sleep ns).Issues SparesClock := .sleep fun _ => ⟨rfl, rfl⟩

theorem fpgaAttempt_inCycle (t : Target) (image : List Word) (a : Nat) : (fpgaAttempt t image a).Issues (InCycle t) := by
  have hclear : (fpgaClear t).Issues SparesClock := .withCfg fun p =>
    .andThen (regWrite_sparesClock rfl _) (.andThen (.ite (sleep_sparesClock _) (.pure _)) (regWrite_sparesClock rfl _))
  have hpoll : (fpgaPollInit t a).Issues (InCycle t) := .withCfg fun p =>
    .map (.pollUntil (regRead_sparesClock _) sleep_sparesClock fun i => InCycle.of_phase)
  have hstream : (fpgaStream t a image).Issues (InCycle t) := .withCfg fun p => .each
    (fun i w => .placed (.andThen (regWrite_sparesClock rfl _) (sleep_sparesClock _)) InCycle.of_phase) image 0
  have hverify : (fpgaVerify t).Issues SparesClock := .withCfg fun p => .map (regRead_sparesClock _)
  exact .andThen (.placed hclear InCycle.of_phase) <| .bind hpoll fun ready =>
    .ite (.andThen hstream (.placed hverify InCycle.of_phase)) (.pure _)

theorem fpgaBoot_inCycle (t : Target) (image : List Word) (site : Site) : (fpgaBoot t image site).Issues (InCycle t) := by
  suffices h : ∀ n a, (fpgaAttempts t image site a n).Issues (InCycle t) from .withCfg fun p => h _ _
  intro n
  induction n with
  | zero => exact fun a => .pure _
  | succ n ih => exact fun a => .bind (fpgaAttempt_inCycle t image a) fun done => .ite (.pure _) (ih (a + 1))

/-- A cycle that fails has timed out. -/
theorem fpgaBoot_fails (t : Target) (image : List Word) (site : Site) :
    (fpgaBoot t image site).FailsWith fun f => f = ⟨.protocolTimeout, site⟩ := by
  suffices h : ∀ n a, (fpgaAttempts t image site a n).FailsWith fun f => f = ⟨.protocolTimeout, site⟩ from
    .withCfg fun p => h _ _
  intro n
  induction n with
  | zero => exact fun a => .error rfl
  | succ n ih =>
    refine fun a => .bind fun done => ?_
    cases done with
    | true => exact .success _
    | false => exact ih (a + 1)

/-! ## BOOT_SP_FPGA (R211, R212) -/

variable {sc : Scope} {c c' : Ctx} {u : List Stage} {r : Except Failure Unit}

theorem wordsTo_of_not_written {q : Reg} {t : List Issued} (h : ∀ e ∈ t, writesReg q e = false) : wordsTo q t = [] := by
  refine List.filterMap_eq_nil_iff.mpr fun e he => ?_
  have hnot := h e he
  obtain ⟨pos, _ | r, event⟩ := e
  · rfl
  · cases event with
    | wr w off v => exact if_neg (beq_eq_false_iff_ne.mp hnot)
    | _ => rfl

/-- A cycle writes no word to `CLKRST`. -/
theorem wordsTo_clkrst_of_inCycle {t : Target} {pos : Place} (h : ∀ e ∈ shown u, InCycle t pos e) :
    wordsTo .clkrst (shown u) = [] := wordsTo_of_not_written fun e he => (h e he).2

theorem clockDomainReset_words {v : Unit} (h : clockDomainReset sc c = .ok v c' u) :
    wordsTo .clkrst (shown u) = [sc.cfg.clkrstAssert, sc.cfg.clkrstDeassert] := by
  rw [clockDomainReset, Op.withCfg_apply] at h
  obtain ⟨c₁, t₁, t₂, hassert, hrest, rfl⟩ := Op.andThen_eq_ok.mp h
  obtain ⟨c₂, t₃, t₄, hsleep, hdeassert, rfl⟩ := Op.andThen_eq_ok.mp hrest
  obtain ⟨-, rfl⟩ := regWrite_eq_ok hassert
  obtain ⟨-, rfl⟩ := regWrite_eq_ok hdeassert
  have hslept : wordsTo .clkrst (shown t₃) = [] := wordsTo_of_not_written fun e he =>
    (Op.Issues.sleepIfPositive (P := SparesClock) (fun _ => ⟨rfl, rfl⟩) _ _ _ _ _ hsleep e he).2
  rw [shown_append, shown_append, wordsTo_append, wordsTo_append, hslept]
  rfl

/-- The boot of the pairs: both configured and the pulse written, or the pair that failed, and no pulse. -/
theorem bootSpBody_ends {image : List Word} (h : bootSpBody image sc c = .ok r c' u) :
    (r = .ok () ∧ wordsTo .clkrst (shown u) = [sc.cfg.clkrstAssert, sc.cfg.clkrstDeassert]) ∨
    (r = .error ⟨.protocolTimeout, .spFpgaB⟩ ∧ wordsTo .clkrst (shown u) = []) ∨
    (r = .error ⟨.protocolTimeout, .spFpgaA⟩ ∧ wordsTo .clkrst (shown u) = [] ∧
      ∀ e ∈ shown u, ∃ a q, e.pos.phase = .fpga .spA a q) := by
  obtain ⟨c₁, t₁, t₂, hclear, hrest, rfl⟩ := Op.andThen_eq_ok.mp h
  cases hclear
  rw [List.nil_append]
  obtain ⟨f, hfirst, rfl⟩ | ⟨_, c₂, t₃, t₄, hfirst, hpairB, rfl⟩ := Op.ifOk_eq_ok.mp hrest
  · have hcycle := fpgaBoot_inCycle _ _ _ _ _ _ _ _ hfirst
    rw [fpgaBoot_fails _ _ _ _ _ _ _ _ hfirst f rfl]
    exact .inr (.inr ⟨rfl, wordsTo_clkrst_of_inCycle hcycle, fun e he => (hcycle e he).1⟩)
  have hno := wordsTo_clkrst_of_inCycle (fpgaBoot_inCycle _ _ _ _ _ _ _ _ hfirst)
  rw [shown_append, wordsTo_append, hno, List.nil_append]
  obtain ⟨f, hsecond, rfl⟩ | ⟨_, c₃, t₅, t₆, hsecond, hend, rfl⟩ := Op.ifOk_eq_ok.mp hpairB
  · rw [fpgaBoot_fails _ _ _ _ _ _ _ _ hsecond f rfl]
    exact .inr (.inl ⟨rfl, wordsTo_clkrst_of_inCycle (fpgaBoot_inCycle _ _ _ _ _ _ _ _ hsecond)⟩)
  have hno := wordsTo_clkrst_of_inCycle (fpgaBoot_inCycle _ _ _ _ _ _ _ _ hsecond)
  obtain ⟨c₄, t₇, t₈, hpulse, hmap, rfl⟩ := Op.andThen_eq_ok.mp hend
  obtain ⟨_, hset, rfl⟩ := Op.map_eq_ok.mp hmap
  cases hset
  rw [shown_append, wordsTo_append, hno, List.nil_append, List.append_nil]
  exact .inl ⟨rfl, clockDomainReset_words hpulse⟩

theorem Runs.clockDomainReset {p : Params} {m : Nat} (hw : windowOk p = true) :
    Runs p m clockDomainReset c () c ([wrEvent p m .clkrst p.clkrstAssert] ++ sleepEvents p.clkrstHoldNs ++
      [wrEvent p m .clkrst p.clkrstDeassert]) :=
  Runs.withCfg (((Runs.regWrite hw _ _).andThen ((Runs.sleepIfPositive _).andThen (Runs.regWrite hw _ _))).of_eq (by simp))

/-- Two cycles that succeed are followed by the pulse and the flag. -/
theorem Runs.bootSpBody {p : Params} {m : Nat} {image : List Word} {h : Handle} {e e₁ e₂ : Env}
    {es fs : List (Option Reg × Event)} (hw : windowOk p = true)
    (hfirst : ∀ h, Runs p m (Machine.fpgaBoot .spA image .spFpgaA) ⟨h, e⟩ (.ok ()) ⟨h, e₁⟩ es)
    (hsecond : ∀ h, Runs p m (Machine.fpgaBoot .spB image .spFpgaB) ⟨h, e₁⟩ (.ok ()) ⟨h, e₂⟩ fs) :
    Runs p m (bootSpBody image) ⟨h, e⟩ (.ok ()) ⟨{ h with boot := { h.boot with spDone := true } }, e₂⟩
      (es ++ fs ++ [wrEvent p m .clkrst p.clkrstAssert] ++ sleepEvents p.clkrstHoldNs ++
        [wrEvent p m .clkrst p.clkrstDeassert]) := by
  have hend := (Runs.clockDomainReset (m := m) (c := ⟨{ h with boot := { h.boot with spDone := false } }, e₂⟩) hw).andThen
    ((Runs.setHandle fun h => { h with boot := { h.boot with spDone := true } }).map (f := fun _ => (.ok () : Except Failure Unit)))
  have hrun := (Runs.setHandle (p := p) (m := m) (c := ⟨h, e⟩) fun h => { h with boot := { h.boot with spDone := false } }).andThen
    ((hfirst _).ifOk (f := fun _ => (Machine.fpgaBoot .spB image .spFpgaB).ifOk fun _ => Machine.clockDomainReset.andThen <|
      (setBoot fun b => { b with spDone := true }).map fun _ => .ok ()) ((hsecond _).ifOk hend))
  exact hrun.of_eq (by simp)

/-- Settles O49: both cycles run as their attempts; on every path the body ends as `bootSpBody_ends` says. -/
theorem bootSpPairsInOrder : Obligations.BootSpPairsInOrder := by
  refine ⟨fun s m x rev image failsA failsB a b e₁ e₂ hs hw hlen hA hB hrA hrB => ?_, fun s t m x rev image hs hlen hexec => ?_⟩
  · have hbody : Runs s.cfg m (Machine.bootSpBody image) x.ctx _ _ _ := Runs.bootSpBody hw
      (fun h => Runs.fpgaBoot (site := .spFpgaA) hw hA hrA) (fun h => Runs.fpgaBoot (site := .spFpgaB) hw hB hrB)
    exact exec_answers_online (i := .bootSpFpga m rev image) hs hw rfl rfl (if_neg (not_not.mpr hlen)) rfl
      (hbody.map (f := replyOf none))
  · obtain ⟨g, r, c, u, hg, -, hres, rfl⟩ := exec_eq_next_on_module rfl hs.1 hexec
    rw [result_of_online hs (programOf_ready hg nofun) ((programOf_checks hg).trans (if_neg (not_not.mpr hlen)))] at hres
    cases hg
    obtain ⟨r, hbody, rfl⟩ := Op.map_eq_ok.mp hres
    refine (bootSpBody_ends hbody).imp ?_ (Or.imp ?_ ?_)
    · rintro ⟨rfl, hwords⟩
      exact ⟨rfl, hwords⟩
    · rintro ⟨rfl, hwords⟩
      exact ⟨rfl, hwords⟩
    · rintro ⟨rfl, hwords, hplaces⟩
      refine ⟨rfl, hwords, fun e he a p ls heq => ?_⟩
      obtain ⟨a', q, hphase⟩ := hplaces e he
      rw [heq] at hphase
      cases hphase

end Sys2Proof.Machine
end

section
/-! SUPPORT. The processor boot on every path (43_boot.md R219 to R226): where its attempts stand when they issue their events, how they
fail, and which failures are tried again. -/

namespace Sys2Proof.Machine

/-! ## Parts that stay in their phase -/

/-- An event in the operation and the phase of its place. -/
def Stays (pos : Place) (e : Issued) : Prop := e.pos.op = pos.op ∧ e.pos.phase = pos.phase

theorem regRead_stays (r : Reg) : (regRead r).Issues Stays := .regRead fun _ _ _ _ => ⟨rfl, rfl⟩

theorem regWrite_stays (r : Reg) (v : Word) : (regWrite r v).Issues Stays := .regWrite fun _ _ _ => ⟨rfl, rfl⟩

theorem sleep_stays (ns : Nat) : (sleep ns).Issues Stays := .sleep fun _ => ⟨rfl, rfl⟩

/-- An iteration of a loop is in the loop's phase. -/
theorem Op.Issues.inLoop {α : Type} {x : Op α} (hx : x.Issues Stays) (k : Nat) : (x.inLoop k).Issues Stays :=
  hx.placed fun _ _ h => h

theorem csrModify_stays (set clr : Word) : (csrModify set clr).Issues Stays :=
  .bind (regRead_stays _) fun _ => regWrite_stays _ _

theorem csrClear_stays (f : CsrMap → Fin 32) : (csrClear f).Issues Stays := .withCfg fun _ => csrModify_stays _ _

theorem hbrDone_stays : hbrDone.Issues Stays :=
  .bind .getHandle fun _ => .ite (.andThen (.withCfg fun _ => regWrite_stays _ _) (.setHandle _)) (.fault _)

theorem hbrRequest_stays : hbrRequest.Issues Stays := by
  have hpoll : hbrGrantPoll.Issues Stays := .withCfg fun p => .ite
    (.bind (.pollUntil (regRead_stays _) sleep_stays fun _ _ _ h => h) fun r =>
      match r with
      | some _ => .pure _
      | none => .andThen hbrDone_stays (.pure _))
    (.pure _)
  exact .bind .getHandle fun _ =>
    .ite (.fault _) (.andThen (.withCfg fun _ => regWrite_stays _ _) (.andThen (.setHandle _) hpoll))

theorem withHbr_stays {α : Type} {x : Op α} (hx : x.Issues Stays) : (withHbr x).Issues Stays :=
  .ifOk hbrRequest_stays fun _ => .bind hx fun _ => .map hbrDone_stays

theorem dspReadOne_stays (a : Word) : (dspReadOne a).Issues Stays :=
  withHbr_stays (.andThen (regWrite_stays _ _) (regRead_stays _))

theorem hbrWriteGroup_stays (a : Word) (ws : List Word) : (hbrWriteGroup a ws).Issues Stays :=
  withHbr_stays (.andThen (regWrite_stays _ _) (.each (fun _ _ => .inLoop (regWrite_stays _ _) _) ws 0))

theorem tagStream_stays (fuel : Nat) (ws : List Word) : (tagStream fuel ws).Issues Stays := by
  induction fuel generalizing ws with
  | zero => rcases ws with _ | ⟨_, _ | ⟨_, _ | ⟨_, _⟩⟩⟩ <;> exact .pure _
  | succ fuel ih =>
    match ws with
    | [] | [_] | [_, _] => exact .pure _
    | tag :: count :: addr :: more =>
      refine .withCfg fun p => .ite (.pure _) ?_
      cases tagInfo p tag with
      | none => exact .pure _
      | some t =>
        refine .ite (.pure _) (.ifOk (.eachOk (fun _ _ => .inLoop (hbrWriteGroup_stays _ _) _) _ 0) fun _ => ?_)
        cases t.kind with
        | final => exact .pure _
        | zero => exact ih _
        | init => exact ih _

/-! ## After Reset (R220) -/

/-- An event of attempt `a`, in a phase after Reset. -/
def AfterReset (a : Nat) (pos : Place) (e : Issued) : Prop := e.pos.op = pos.op ∧ ∃ q ≠ .reset, e.pos.phase = .dsp a q

/-- A part run in a phase of the attempt. -/
theorem Op.Issues.inAttempt {α : Type} {x : Op α} (hx : x.Issues Stays) {a : Nat} {q : DspPhase} (hq : q ≠ .reset) :
    (Op.inPhase (.dsp a q) x).Issues (AfterReset a) := hx.placed fun _ _ ⟨hop, hphase⟩ => ⟨hop, q, hq, hphase⟩

theorem cfgVerify_afterReset (a j : Nat) (pair : CfgPair) (n : Nat) : ∀ k, (cfgVerify a j pair k n).Issues (AfterReset a) := by
  induction n with
  | zero => exact fun k => .pure _
  | succ n ih =>
    refine fun k => .ifOk (.inAttempt (.withCfg fun p => .ifOk ?_ fun _ => dspReadOne_stays _) (by nofun)) fun v =>
      .ite (.pure _) (ih (k + 1))
    cases p.cfgVerifyMode with
    | writeRead => exact hbrWriteGroup_stays _ _
    | readOnly => exact .pure _

theorem kernelDownload_afterReset (a : Nat) (w : List Word) : (kernelDownload a w).Issues (AfterReset a) :=
  .withCfg fun _ => .eachOk (fun _ _ => .inAttempt (hbrWriteGroup_stays _ _) (by nofun)) _ 0

theorem pollPudone_afterReset (a n : Nat) : ∀ k, (pollPudone a k n).Issues (AfterReset a) := by
  induction n with
  | zero => exact fun k => .pure _
  | succ n ih =>
    exact fun k => .withCfg fun p => .ifOk (.inAttempt (dspReadOne_stays _) (by nofun)) fun v =>
      .ite (.pure _) (.andThen (.inAttempt (sleep_stays _) (by nofun)) (ih (k + 1)))

/-! ## The attempts of a boot (R226) -/

/-- The place of attempt `a` in phase Reset. -/
abbrev resetPlace (a : Nat) : Place := .running .bootDsp (.dsp a .reset) []

/-- The events of the attempts `a` to `n`: three of each in phase Reset, and none of another attempt. -/
structure AttemptsTrace (a n : Nat) (u : List Issued) : Prop where
  resets : ∀ b, a ≤ b → b ≤ n → (u.filter fun e => e.pos == resetPlace b).length = 3
  places : ∀ e ∈ u, ∃ b q ls, a ≤ b ∧ b ≤ n ∧ e.pos = .running .bootDsp (.dsp b q) ls

/-- Events of other attempts are not in phase Reset of attempt `k`. -/
theorem AttemptsTrace.filter_reset {a n k : Nat} {u : List Issued} (h : AttemptsTrace a n u) (hk : k < a ∨ n < k) :
    (u.filter fun e => e.pos == resetPlace k) = [] := by
  refine List.filter_eq_nil_iff.mpr fun e he => ?_
  obtain ⟨b, q, ls, hab, hbn, hpos⟩ := h.places e he
  rw [hpos, beq_iff_eq]
  rintro ⟨⟩
  omega

/-- One attempt, then those after it. -/
theorem AttemptsTrace.cons {a n : Nat} {u v : List Issued} (hu : AttemptsTrace a a u) (hv : AttemptsTrace (a + 1) n v)
    (han : a ≤ n) : AttemptsTrace a n (u ++ v) where
  resets b hab hbn := by
    rw [List.filter_append]
    obtain rfl | hlt := Nat.eq_or_lt_of_le hab
    · rw [hv.filter_reset (.inl (Nat.lt_succ_self a)), List.append_nil, hu.resets a le_rfl le_rfl]
    · rw [hu.filter_reset (.inr hlt), List.nil_append, hv.resets b hlt hbn]
  places := List.forall_mem_append.mpr
    ⟨fun e he => (hu.places e he).imp fun b ⟨q, ls, hab, hba, hpos⟩ => ⟨q, ls, hab, hba.trans han, hpos⟩,
      fun e he => (hv.places e he).imp fun b ⟨q, ls, hab, hbn, hpos⟩ => ⟨q, ls, Nat.le_of_succ_le hab, hbn, hpos⟩⟩

variable {sc : Scope} {c c' : Ctx} {u : List Stage}

/-- Reset is three events at its place. -/
theorem resetPhase_places {set clr : Word} {ns : Nat} {v : Unit}
    (h : ((csrModify set clr).andThen (sleep ns)) sc c = .ok v c' u) :
    (shown u).map Issued.pos = [sc.pos, sc.pos, sc.pos] := by
  obtain ⟨c₁, t₁, t₂, hmodify, hsleep, rfl⟩ := Op.andThen_eq_ok.mp h
  obtain ⟨w, c₂, t₃, t₄, hread, hwrite, rfl⟩ := Op.bind_eq_ok.mp hmodify
  obtain ⟨-, -, rfl⟩ := regRead_eq_ok hread
  obtain ⟨-, rfl⟩ := regWrite_eq_ok hwrite
  cases hsleep
  rfl

/-- An attempt is its three events of Reset, and events of later phases. -/
theorem dspAttempt_trace {w : List Word} {a : Nat} {r : Except Failure Unit} (hpos : sc.pos = startPos .bootDsp)
    (h : dspAttempt w a sc c = .ok r c' u) : AttemptsTrace a a (shown u) := by
  rw [dspAttempt, Op.withCfg_apply] at h
  obtain ⟨c₁, t₁, t₂, hreset, hrest, rfl⟩ := Op.andThen_eq_ok.mp h
  have hthree := resetPhase_places hreset
  rw [hpos] at hthree
  have hlater : ∀ e ∈ shown t₂, AfterReset a sc.pos e := Op.Issues.andThen (.inAttempt (csrClear_stays _) (by nofun))
    (.ifOk (.eachOk (fun _ _ => cfgVerify_afterReset _ _ _ _ _) _ 0) fun _ => .ifOk (kernelDownload_afterReset a w) fun _ =>
      .ifOk (.inAttempt (tagStream_stays _ _) (by nofun)) fun _ =>
        .andThen (.inAttempt (csrClear_stays _) (by nofun)) (pollPudone_afterReset a _ 1)) _ _ _ _ _ hrest
  have hplaces : ∀ e ∈ shown t₂, ∃ q ≠ DspPhase.reset, ∃ ls, e.pos = .running .bootDsp (.dsp a q) ls := by
    intro e he
    obtain ⟨hop, q, hq, hphase⟩ := hlater e he
    rw [hpos] at hop
    obtain ⟨⟨k, ph, ls⟩, r, ev⟩ := e
    cases hop
    cases hphase
    exact ⟨q, hq, ls, rfl⟩
  have hat : ∀ e ∈ shown t₁, e.pos = resetPlace a := by
    have hmem : ∀ q ∈ (shown t₁).map Issued.pos, q = resetPlace a := by
      rw [hthree]
      simp [posPhase]
    exact fun e he => hmem _ (List.mem_map_of_mem he)
  rw [shown_append]
  refine ⟨fun b hab hba => ?_, List.forall_mem_append.mpr ⟨fun e he => ⟨a, .reset, [], le_rfl, le_rfl, hat e he⟩, fun e he => ?_⟩⟩
  · obtain rfl := Nat.le_antisymm hab hba
    have hnone : (shown t₂).filter (fun e => e.pos == resetPlace a) = [] := by
      refine List.filter_eq_nil_iff.mpr fun e he => ?_
      obtain ⟨q, hq, ls, hpos⟩ := hplaces e he
      simp [hpos, hq]
    rw [List.filter_append, hnone, List.append_nil, List.filter_eq_self.mpr fun e he => by simp [hat e he]]
    exact (List.length_map _).symm.trans (congrArg List.length hthree)
  · obtain ⟨q, -, ls, hpos⟩ := hplaces e he
    exact ⟨a, q, ls, le_rfl, le_rfl, hpos⟩

/-! ## How an attempt fails (R219 to R225) -/

/-- The failures of the stream, which end the boot (R219). -/
abbrev StreamFails (f : Failure) : Prop := f ∈ [⟨.dataIntegrityFailure, .dspTag⟩, (⟨.dataIntegrityFailure, .dspStream⟩ : Failure)]

/-- The timeouts an attempt is made again after (R226; log 20). -/
abbrev TimesOut (f : Failure) : Prop :=
  f ∈ [⟨.protocolTimeout, .dspPudone⟩, ⟨.protocolTimeout, .dspCfg⟩, (⟨.protocolTimeout, .hbrGrant⟩ : Failure)]

theorem isHard_of_timesOut {f : Failure} (h : TimesOut f) : isHard f = false := by
  simp only [List.mem_cons, List.not_mem_nil, or_false] at h
  obtain rfl | rfl | rfl := h <;> rfl

/-- A failure of an attempt. -/
abbrev AttemptFails (f : Failure) : Prop := StreamFails f ∨ TimesOut f

theorem hbrRequest_fails : hbrRequest.FailsWith AttemptFails := by
  have hpoll : hbrGrantPoll.FailsWith AttemptFails := by
    refine .withCfg fun p => .ite (.bind fun r => ?_) (.success _)
    cases r with
    | some v => exact .success _
    | none => exact .andThen (.error (by decide))
  refine .bind fun h => .ite ?_ (.andThen (.andThen hpoll))
  rintro _ _ _ _ _ ⟨⟩

theorem withHbr_fails {α : Type} (x : Op α) : (withHbr x).FailsWith AttemptFails :=
  .ifOk hbrRequest_fails fun _ => .bind fun _ => .bind fun _ => .success _

theorem cfgVerify_fails (a j : Nat) (pair : CfgPair) (n : Nat) : ∀ k, (cfgVerify a j pair k n).FailsWith AttemptFails := by
  induction n with
  | zero => exact fun k => .error (by decide)
  | succ n ih =>
    refine fun k => .ifOk (.placed (.withCfg fun p => .ifOk ?_ fun _ => withHbr_fails _)) fun v =>
      .ite (.success _) (ih (k + 1))
    cases p.cfgVerifyMode with
    | writeRead => exact withHbr_fails _
    | readOnly => exact .success _

theorem tagStream_fails (fuel : Nat) (ws : List Word) : (tagStream fuel ws).FailsWith AttemptFails := by
  have hstream : AttemptFails streamFailure := by decide
  induction fuel generalizing ws with
  | zero =>
    rcases ws with _ | ⟨_, _ | ⟨_, _ | ⟨_, _⟩⟩⟩
    · exact .success _
    all_goals exact .error hstream
  | succ fuel ih =>
    match ws with
    | [] => exact .success _
    | [_] | [_, _] => exact .error hstream
    | tag :: count :: addr :: more =>
      refine .withCfg fun p => .ite (.error hstream) ?_
      cases tagInfo p tag with
      | none => exact .error (by decide)
      | some t =>
        refine .ite (.error hstream) (.ifOk (.eachOk (fun _ _ => .placed (withHbr_fails _)) _ 0) fun _ => ?_)
        cases t.kind with
        | final => exact .success _
        | zero => exact ih _
        | init => exact ih _

theorem pollPudone_fails (a n : Nat) : ∀ k, (pollPudone a k n).FailsWith AttemptFails := by
  induction n with
  | zero => exact fun k => .error (by decide)
  | succ n ih =>
    exact fun k => .withCfg fun p => .ifOk (.placed (withHbr_fails _)) fun v => .ite (.success _) (.andThen (ih (k + 1)))

theorem dspAttempt_fails (w : List Word) (a : Nat) : (dspAttempt w a).FailsWith AttemptFails :=
  .withCfg fun _ => .andThen <| .andThen <| .ifOk (.eachOk (fun _ _ => cfgVerify_fails _ _ _ _ _) _ 0) fun _ =>
    .ifOk (.withCfg fun _ => .eachOk (fun _ _ => .placed (withHbr_fails _)) _ 0) fun _ =>
    .ifOk (.placed (tagStream_fails _ _)) fun _ => .andThen (pollPudone_fails a _ 1)

/-- A boot that fails has made its attempts one after the other, and all of them unless the stream has failed. -/
theorem dspBootFrom_error {w : List Word} {a more : Nat} {f : Failure} (hpos : sc.pos = startPos .bootDsp)
    (h : dspBootFrom w a more sc c = .ok (.error f) c' u) :
    ∃ n, a ≤ n ∧ n ≤ a + more ∧ AttemptsTrace a n (shown u) ∧ (StreamFails f ∨ (TimesOut f ∧ n = a + more)) := by
  induction more generalizing a c u with
  | zero =>
    exact ⟨a, le_rfl, le_rfl, dspAttempt_trace hpos h, (dspAttempt_fails w a _ _ _ _ _ h f rfl).imp_right fun ht => ⟨ht, rfl⟩⟩
  | succ more ih =>
    obtain ⟨r, c₁, t₁, t₂, hattempt, hnext, rfl⟩ := Op.bind_eq_ok.mp h
    have htrace := dspAttempt_trace hpos hattempt
    cases r with
    | ok _ => cases hnext
    | error g =>
      have hfails := dspAttempt_fails w a _ _ _ _ _ hattempt g rfl
      dsimp only at hnext
      split at hnext
      · rename_i hhard
        cases hnext
        rw [List.append_nil]
        refine ⟨a, le_rfl, Nat.le_add_right _ _, htrace, .inl (hfails.resolve_right fun ht => ?_)⟩
        cases (isHard_of_timesOut ht).symm.trans hhard
      · obtain ⟨n, han, hn, hrest, hend⟩ := ih hnext
        rw [shown_append]
        refine ⟨n, Nat.le_of_succ_le han, by omega, htrace.cons hrest (Nat.le_of_succ_le han), hend.imp_right ?_⟩
        exact fun ⟨ht, heq⟩ => ⟨ht, by omega⟩

/-- A boot that fails made its attempts, each from Reset, and ended at the stream or with the last of them. -/
theorem bootDsp_fails {s t : State} {m : Nat} {x : Module} {file : List Byte} {f : Failure} (hs : s.Online m x)
    (hfile : fileOk s.cfg file = true) (hexec : exec (.bootDsp m file) s = .next t)
    (hstatus : t.status = some (.fail f)) :
    ∃ n, 1 ≤ n ∧ n ≤ dspAttempts s.cfg ∧ AttemptsTrace 1 n t.issued ∧ (StreamFails f ∨ (TimesOut f ∧ n = dspAttempts s.cfg)) := by
  obtain ⟨g, r, c, u, hg, -, hres, rfl⟩ := exec_eq_next_on_module rfl hs.1 hexec
  rw [result_of_online hs (programOf_ready hg nofun) ((programOf_checks hg).trans (if_pos hfile))] at hres
  cases hg
  obtain ⟨r, hbody, rfl⟩ := Op.map_eq_ok.mp hres
  obtain ⟨c₁, t₁, t₂, hclear, hrest, rfl⟩ := Op.andThen_eq_ok.mp hbody
  cases hclear
  rw [Op.withCfg_apply] at hrest
  obtain ⟨r', c₂, t₃, t₄, hboot, hend, rfl⟩ := Op.bind_eq_ok.mp hrest
  cases r' with
  | ok _ =>
    obtain ⟨_, -, rfl⟩ := Op.map_eq_ok.mp hend
    cases hstatus
  | error g =>
    cases hend
    cases hstatus
    obtain ⟨n, h₁, hn, htrace, hfail⟩ := dspBootFrom_error rfl hboot
    have hmore : 1 + (dspAttempts s.cfg - 1) = dspAttempts s.cfg := Nat.add_comm _ _
    rw [hmore] at hn hfail
    exact ⟨n, h₁, hn, by simpa [State.issued] using htrace, hfail⟩

end Sys2Proof.Machine
end

section
/-! SUPPORT. The processor boot run forward, without grant polls (43_boot.md R215 to R226): the tries of a configuration register, the
kernel and the stream, the power-up poll, an attempt by the words it reads, and a boot as its attempts. -/

namespace Sys2Proof.Machine

variable {p : Params} {m : Nat} {h : Handle} {e e' : Env} {es : List (Option Reg × Event)} {b : BootStream}

/-! ## Tries, by the words they read -/

/-- The words `vs` of at most `n` tries: the last one is as wanted and no other, or all `n` are not. -/
def TriesEnd (n : Nat) (pred : Word → Bool) (vs : List Word) (found : Bool) : Prop :=
  if found then PollSeen n pred vs else PollMissed n pred vs

theorem TriesEnd.zero {pred : Word → Bool} {vs : List Word} {found : Bool} (ht : TriesEnd 0 pred vs found) :
    found = false ∧ vs = [] := by
  cases found with
  | false =>
    obtain ⟨hlen, -⟩ := ht
    exact ⟨rfl, List.eq_nil_of_length_eq_zero hlen⟩
  | true =>
    obtain ⟨hlen, -, hlast⟩ := ht
    rw [List.eq_nil_of_length_eq_zero (Nat.le_zero.mp hlen)] at hlast
    cases hlast

/-- The first try: it is as wanted and the last, or the others follow. -/
theorem TriesEnd.succ {n : Nat} {pred : Word → Bool} {vs : List Word} {found : Bool} (ht : TriesEnd (n + 1) pred vs found) :
    ∃ v rest, vs = v :: rest ∧
      ((pred v = true ∧ rest = [] ∧ found = true) ∨ (pred v = false ∧ TriesEnd n pred rest found)) := by
  cases found with
  | false =>
    obtain ⟨hlen, hmissed⟩ := ht
    obtain ⟨v, rest, rfl⟩ := List.exists_cons_of_length_eq_add_one hlen
    obtain ⟨hv, hrest⟩ := List.forall_mem_cons.mp hmissed
    exact ⟨v, rest, rfl, .inr ⟨hv, Nat.succ.inj hlen, hrest⟩⟩
  | true =>
    obtain ⟨hlen, hbad, hlast⟩ := ht
    match vs with
    | [] => cases hlast
    | [v] => exact ⟨v, [], rfl, .inl ⟨by simpa using hlast, rfl, rfl⟩⟩
    | v :: w :: rest =>
      rw [List.dropLast_cons_cons] at hbad
      obtain ⟨hv, hrest⟩ := List.forall_mem_cons.mp hbad
      rw [List.getLast?_cons_cons] at hlast
      exact ⟨v, w :: rest, rfl, .inr ⟨hv, Nat.le_of_succ_le_succ hlen, hrest, hlast⟩⟩

section noPolls
variable (hw : windowOk p = true) (hp : p.hbrGrantPolls = 0) (hh : h.hbrHeld = false)
include hw hp hh

/-! ## Configuration registers (R221) -/

/-- One try: the pair written in mode `writeRead`, and one word read back, which decides what follows. -/
theorem Runs.cfgVerify_try (pair : CfgPair) {a j k n : Nat} {v : Word} {e₁ : Env} {r : Except Failure Unit}
    (hr : envRead e = (v, e₁))
    (hrest : Runs p m (if v = pair.value then Op.pure (.ok ()) else Machine.cfgVerify a j pair (k + 1) n) ⟨h, e₁⟩ r ⟨h, e'⟩ es) :
    Runs p m (Machine.cfgVerify a j pair k (n + 1)) ⟨h, e⟩ r ⟨h, e'⟩ (cfgTryEvents p m pair v ++ es) := by
  have hread := Runs.dspReadOne (m := m) (c := ⟨h, e⟩) hw hp hh pair.addr
  rw [hr] at hread
  refine (Runs.inPhase (Runs.withCfg ?_)).ifOk hrest
  unfold cfgTryEvents
  cases p.cfgVerifyMode with
  | writeRead => exact (Runs.hbrWriteGroup hw hp hh _ _).ifOk hread
  | readOnly => exact (Runs.pure _).ifOk hread

/-- What tries that end with `found` give. -/
def triesResult (site : Site) (found : Bool) : Except Failure Unit :=
  if found then .ok () else .error ⟨.protocolTimeout, site⟩

theorem Runs.cfgVerify (pair : CfgPair) {found : Bool} {a j k n : Nat} {vs : List Word} {e : Env}
    (ht : TriesEnd n (cfgHolds pair) vs found) (hr : readMany vs.length e = (vs, e')) :
    Runs p m (Machine.cfgVerify a j pair k n) ⟨h, e⟩ (triesResult .dspCfg found) ⟨h, e'⟩ (vs.flatMap (cfgTryEvents p m pair)) := by
  induction n generalizing k vs e with
  | zero =>
    obtain ⟨rfl, rfl⟩ := ht.zero
    cases hr
    exact Runs.pure _
  | succ n ih =>
    obtain ⟨v, rest, rfl, hv⟩ := ht.succ
    obtain ⟨e₁, hfirst, hrest⟩ := readMany_append (vs := [v]) hr
    refine Runs.cfgVerify_try hw hp hh pair (readMany_singleton hfirst) ?_
    obtain ⟨hholds, rfl, rfl⟩ | ⟨hfails, hothers⟩ := hv
    · rw [if_pos (by simpa [cfgHolds] using hholds)]
      cases hrest
      exact Runs.pure _
    · rw [if_neg (by simpa [cfgHolds] using hfails)]
      exact ih hothers hrest

/-! ## The power-up poll (R225) -/

/-- The events of a power-up poll that reads `vs`: every word without the flag is followed by the sleep. -/
def pudoneEvents (p : Params) (m : Nat) (vs : List Word) : List (Option Reg × Event) :=
  vs.flatMap fun v => hbrReadEvents p m p.dspPudoneAddr v ++ if pudoneSeen p v then [] else [sleepEvent p.dspPudoneDelayNs]

theorem Runs.pollPudone {found : Bool} {a k n : Nat} {vs : List Word} {e : Env} (ht : TriesEnd n (pudoneSeen p) vs found)
    (hr : readMany vs.length e = (vs, e')) :
    Runs p m (pollPudone a k n) ⟨h, e⟩ (triesResult .dspPudone found) ⟨h, e'⟩ (pudoneEvents p m vs) := by
  induction n generalizing k vs e with
  | zero =>
    obtain ⟨rfl, rfl⟩ := ht.zero
    cases hr
    exact Runs.pure _
  | succ n ih =>
    obtain ⟨v, rest, rfl, hv⟩ := ht.succ
    obtain ⟨e₁, hfirst, hrest⟩ := readMany_append (vs := [v]) hr
    have hread := Runs.dspReadOne (m := m) (c := ⟨h, e⟩) hw hp hh p.dspPudoneAddr
    rw [readMany_singleton hfirst] at hread
    have hevents : pudoneEvents p m (v :: rest) = hbrReadEvents p m p.dspPudoneAddr v ++
        ((if pudoneSeen p v then [] else [sleepEvent p.dspPudoneDelayNs]) ++ pudoneEvents p m rest) :=
      (List.flatMap_cons).trans (List.append_assoc ..)
    rw [hevents]
    refine Runs.withCfg (Runs.ifOk (Runs.inPhase hread) ?_)
    obtain ⟨hseen, rfl, rfl⟩ | ⟨hmissed, hothers⟩ := hv
    · rw [if_pos (show anySet p.dspPudoneMask v = true from hseen), if_pos hseen]
      cases hrest
      exact Runs.pure _
    · rw [if_neg (show ¬ anySet p.dspPudoneMask v = true from Bool.not_eq_true _ ▸ hmissed), if_neg (by simp [hmissed])]
      exact (Runs.inPhase (Runs.sleep _)).andThen (ih hothers hrest)

/-! ## Kernel and stream (R218, R219) -/

/-- The kernel's words are the groups at the front of the stream. -/
theorem Runs.kernelDownload (a : Nat) {kernel rest : List Word} (hlen : kernel.length = p.dspKernelWords * p.dspKernelSubwords) :
    ∃ us, Runs p m (kernelDownload a (kernel ++ rest)) ⟨h, e⟩ (.ok us) ⟨h, e⟩
      ((List.range p.dspKernelWords).flatMap fun i => hbrGroupEvents p m (p.dspKernelAddr + BitVec.ofNat 32 i)
        ((kernel.drop (i * p.dspKernelSubwords)).take p.dspKernelSubwords)) := by
  have hgroups : groupsOf p.dspKernelSubwords p.dspKernelWords (kernel ++ rest) =
      (List.range p.dspKernelWords).map fun i => (kernel.drop (i * p.dspKernelSubwords)).take p.dspKernelSubwords := by
    rw [groupsOf_eq]
    refine List.map_congr_left fun i hi => ?_
    have hfits : (i + 1) * p.dspKernelSubwords ≤ kernel.length := hlen ▸ Nat.mul_le_mul_right _ (List.mem_range.mp hi)
    rw [Nat.succ_mul] at hfits
    rw [List.drop_append_of_le_length (by omega), List.take_append_of_le_length (by rw [List.length_drop]; omega)]
  have hrun := Runs.eachOk_same (p := p) (m := m) (c := ⟨h, e⟩) (g := fun _ _ => ())
    (f := fun i ws => Op.inPhase (.dsp a (.kernel i)) <| Machine.hbrWriteGroup (p.dspKernelAddr + BitVec.ofNat 32 i) ws)
    (ev := fun i ws => hbrGroupEvents p m (p.dspKernelAddr + BitVec.ofNat 32 i) ws)
    (groupsOf p.dspKernelSubwords p.dspKernelWords (kernel ++ rest)) 0
    fun _ _ _ => (Runs.hbrWriteGroup hw hp hh _ _).inPhase
  refine ⟨_, (Runs.withCfg hrun).of_eq ?_⟩
  rw [hgroups, List.flatMap_def]
  refine congrArg List.flatten (List.ext_getElem (by simp) fun i h₁ h₂ => ?_)
  simp

omit hh in
/-- Segments that are not final, and then what the rest of the stream gives. -/
theorem Runs.tagStream_append {rest : List Word} {r : Except Failure Unit} {c : Ctx} (hc : c.handle.hbrHeld = false)
    (hrest : ∀ k, rest.length ≤ k → Runs p m (Machine.tagStream k rest) c r c es) (gs : List Segment)
    (hgs : ∀ g ∈ gs, g.Ok p ∧ g.info.kind ≠ .final) {fuel : Nat} (hf : (gs.flatMap Segment.words ++ rest).length ≤ fuel) :
    Runs p m (Machine.tagStream fuel (gs.flatMap Segment.words ++ rest)) c r c (gs.flatMap (Segment.events p m) ++ es) := by
  induction gs generalizing fuel with
  | nil => exact hrest fuel hf
  | cons g gs ih =>
    obtain ⟨⟨hok, hkind⟩, hothers⟩ := List.forall_mem_cons.mp hgs
    rw [List.flatMap_cons, List.append_assoc] at hf ⊢
    obtain ⟨k, rfl⟩ : ∃ k, fuel = k + 1 := Nat.exists_eq_succ_of_ne_zero (by rintro rfl; simp [Segment.words] at hf)
    have hk : (gs.flatMap Segment.words ++ rest).length ≤ k := by
      simp only [Segment.words, List.cons_append, List.length_cons, List.length_append] at hf ⊢
      omega
    obtain ⟨us, hg⟩ := Runs.writeSegment (m := m) hw hp hc g
    rw [List.flatMap_cons, List.append_assoc]
    intro pos
    rw [tagStream_segment hok, if_neg hkind]
    exact (hg.ifOk (f := fun _ => Machine.tagStream k _) (ih hothers hk)) pos

end noPolls

/-- A rest that is rejected writes nothing. -/
theorem Runs.tagStream_rejected {rest : List Word} {f : Failure} {c : Ctx} {k : Nat} (hrej : StreamRejected p rest f)
    (hk : rest.length ≤ k) : Runs p m (Machine.tagStream k rest) c (.error f) c [] := by
  intro pos
  refine ⟨[], ?_, rfl⟩
  have hheader : segHeaderWords p = 3 + p.segHeaderExtra := rfl
  match rest with
  | [] | [_] | [_, _] =>
    obtain ⟨hpos, -, rfl⟩ | ⟨hlong, -⟩ | ⟨hlong, -⟩ := hrej
    · rw [tagStream_of_short k hpos (by simp)]
      rfl
    all_goals
      simp only [List.length_cons, List.length_nil] at hlong
      omega
  | tag :: count :: addr :: more =>
    obtain ⟨n, rfl⟩ : ∃ n, k = n + 1 := Nat.exists_eq_succ_of_ne_zero (by rintro rfl; simp at hk)
    simp only [StreamRejected, List.length_cons, List.getD_cons_zero, List.getD_cons_succ, hheader] at hrej
    obtain ⟨-, hshort, rfl⟩ | ⟨hlong, htag, rfl⟩ | ⟨hlong, rfl, g, htag, hkind, hshort⟩ := hrej
    · exact tagStream_of_short_header (sc := ⟨p, .module m, pos⟩) n (by simp only; omega)
    · exact tagStream_of_unsupported (sc := ⟨p, .module m, pos⟩) n (by simp only; omega) htag
    · have hwords : segWords p g count = if g.kind = .final then p.finalBlockWords else count.toNat := by
        rw [segWords]
        cases g.kind <;> rfl
      rw [← hwords] at hshort
      exact tagStream_of_short_payload (sc := ⟨p, .module m, pos⟩) n (by simp only; omega) htag hkind (by simp only; omega)

/-! ## One attempt (R220) -/

theorem isHard_of_rejected {rest : List Word} {f : Failure} (hrej : StreamRejected p rest f) : isHard f = true := by
  obtain ⟨-, -, rfl⟩ | ⟨-, -, rfl⟩ | ⟨-, rfl, -⟩ := hrej <;> rfl

/-- What the stream gives. -/
def BootStream.result (b : BootStream) : Except Failure Unit :=
  match b.bad with
  | none => .ok ()
  | some f => .error f

/-- What an attempt gives, as its status says. -/
def DspRun.result (b : BootStream) (r : DspRun) : Except Failure Unit :=
  match r.status b with
  | .ok => .ok ()
  | .fail f => .error f

/-- The events of an attempt up to Release. -/
def startEvents (p : Params) (m : Nat) (reset release : Word) : List (Option Reg × Event) :=
  csrEvents p m reset (1#32 <<< p.csrmap.dspReset.val ||| 1#32 <<< p.csrmap.dspDownload.val) 0 ++
    [sleepEvent p.dspResetHoldNs] ++ csrEvents p m release 0 (1#32 <<< p.csrmap.dspReset.val)

/-- The events of the kernel download. -/
def kernelEvents (p : Params) (m : Nat) (kernel : List Word) : List (Option Reg × Event) :=
  (List.range p.dspKernelWords).flatMap fun i => hbrGroupEvents p m (p.dspKernelAddr + BitVec.ofNat 32 i)
    ((kernel.drop (i * p.dspKernelSubwords)).take p.dspKernelSubwords)

/-- What an attempt runs once the kernel is written: the stream, the clear of `DSP_DOWNLOAD`, the power-up poll. -/
def dspLoaded (p : Params) (w : List Word) (a : Nat) : Op (Except Failure Unit) :=
  (Op.inPhase (.dsp a .tagStream) (tagStream w.length (w.drop (kernelStreamWords p)))).ifOk fun _ =>
    (Op.inPhase (.dsp a .tagStream) (csrClear fun f => f.dspDownload)).andThen (pollPudone a 1 p.dspPudonePolls)

/-- What an attempt runs after Release: the configuration registers, the kernel, and what follows them. -/
def dspReleased (p : Params) (w : List Word) (a : Nat) : Op (Except Failure Unit) :=
  (Op.eachOk (fun j pair => cfgVerify a j pair 1 p.dspCfgAttempts) 0 (dspCfgPairs p)).ifOk fun _ =>
    (kernelDownload a w).ifOk fun _ => dspLoaded p w a

/-- The two pairs verified, the second only where the first one reads back its value. -/
def cfgPairsEnd (p : Params) (r : DspRun) : Except Failure Unit → Prop
  | .ok _ => TriesEnd p.dspCfgAttempts (cfgHolds p.dspCfg0) r.tries0 true ∧
      TriesEnd p.dspCfgAttempts (cfgHolds p.dspCfg1) r.tries1 true
  | .error f => f = ⟨.protocolTimeout, .dspCfg⟩ ∧
      ((TriesEnd p.dspCfgAttempts (cfgHolds p.dspCfg0) r.tries0 false ∧ r.tries1 = []) ∨
        (TriesEnd p.dspCfgAttempts (cfgHolds p.dspCfg0) r.tries0 true ∧
          TriesEnd p.dspCfgAttempts (cfgHolds p.dspCfg1) r.tries1 false))

section noPolls
variable (hw : windowOk p = true) (hp : p.hbrGrantPolls = 0) (hh : h.hbrHeld = false)
include hw hp hh

theorem Runs.cfgPairs {a : Nat} {r : DspRun} {st : Except Failure Unit} (hst : cfgPairsEnd p r st)
    (hr : readMany (r.tries0 ++ r.tries1).length e = (r.tries0 ++ r.tries1, e')) :
    ∃ us, us.map (fun _ => ()) = st ∧
      Runs p m (Op.eachOk (fun j pair => Machine.cfgVerify a j pair 1 p.dspCfgAttempts) 0 (dspCfgPairs p)) ⟨h, e⟩ us ⟨h, e'⟩
        (r.tries0.flatMap (cfgTryEvents p m p.dspCfg0) ++ r.tries1.flatMap (cfgTryEvents p m p.dspCfg1)) := by
  obtain ⟨e₁, hr₀, hr₁⟩ := readMany_append hr
  have hpair₀ : ∀ {found}, TriesEnd p.dspCfgAttempts (cfgHolds p.dspCfg0) r.tries0 found → Runs p m _ _ _ _ _ :=
    fun ht => Runs.cfgVerify (m := m) (a := a) (j := 0) (k := 1) hw hp hh p.dspCfg0 ht hr₀
  have hpair₁ : ∀ {found}, TriesEnd p.dspCfgAttempts (cfgHolds p.dspCfg1) r.tries1 found → Runs p m _ _ _ _ _ :=
    fun ht => Runs.cfgVerify (m := m) (a := a) (j := 0 + 1) (k := 1) hw hp hh p.dspCfg1 ht hr₁
  cases st with
  | ok _ =>
    obtain ⟨h₀, h₁⟩ := hst
    have hend := ((hpair₁ h₁).ifOk (f := fun b => (Op.pure (.ok [])).ifOk fun bs => Op.pure (.ok (b :: bs)))
      ((Runs.pure _).ifOk (Runs.pure _))).ifOk (f := fun bs => Op.pure (.ok (() :: bs))) (Runs.pure _)
    exact ⟨.ok [(), ()], rfl, ((hpair₀ h₀).ifOk hend).of_eq (by simp)⟩
  | error f =>
    obtain ⟨rfl, ⟨h₀, hnil⟩ | ⟨h₀, h₁⟩⟩ := hst
    · rw [hnil] at hr₁ ⊢
      cases hr₁
      exact ⟨.error _, rfl, (hpair₀ h₀).ifError.of_eq (by simp)⟩
    · exact ⟨.error _, rfl, (hpair₀ h₀).ifOk ((hpair₁ h₁).ifError.ifError)⟩

/-- The stream, up to its end or to what is rejected. -/
theorem Runs.loadStream (hb : b.Ok p) :
    Runs p m (Machine.tagStream b.words.length (b.words.drop (kernelStreamWords p))) ⟨h, e⟩ b.result ⟨h, e⟩
      ((b.segments ++ b.last.toList).flatMap (Segment.events p m)) := by
  obtain ⟨hkernel, hsegments, hlast, hbad, hend⟩ := hb
  have hdrop : b.words.drop (kernelStreamWords p) = (b.segments ++ b.last.toList).flatMap Segment.words ++ b.rest := by
    rw [BootStream.words, List.append_assoc]
    exact List.drop_left' hkernel
  have hbound : (b.words.drop (kernelStreamWords p)).length ≤ b.words.length := by
    rw [List.length_drop]
    exact Nat.sub_le _ _
  unfold BootStream.result
  cases hf : b.bad with
  | none =>
    exact Runs.tagStream hw hp hh b.last b.rest hlast (hend hf) b.segments hsegments (by rw [hdrop, List.flatMap_append]) hbound
  | some f =>
    obtain ⟨hnone, hrej⟩ := hbad f hf
    rw [hdrop] at hbound ⊢
    rw [hnone, Option.toList_none, List.append_nil] at hbound ⊢
    exact (Runs.tagStream_append hw hp hh (fun k hk => Runs.tagStream_rejected hrej hk) b.segments hsegments hbound).of_eq
      (List.append_nil _)

omit hp hh in
/-- Reset and Release. -/
theorem Runs.dspAttempt_start {w : List Word} {a : Nat} {r : Except Failure Unit} {reset release : Word} {e₁ : Env}
    (hr : readMany [reset, release].length e = ([reset, release], e₁))
    (hrest : Runs p m (dspReleased p w a) ⟨h, e₁⟩ r ⟨h, e'⟩ es) :
    Runs p m (Machine.dspAttempt w a) ⟨h, e⟩ r ⟨h, e'⟩ (startEvents p m reset release ++ es) := by
  obtain ⟨e₀, hreset, hrelease⟩ := readMany_append (vs := [reset]) hr
  have hmodify := Runs.csrModify (p := p) (m := m) (c := ⟨h, e⟩) hw
    (fieldBit p.csrmap.dspReset ||| fieldBit p.csrmap.dspDownload) 0
  have hclear := Runs.csrClear (p := p) (m := m) (c := ⟨h, e₀⟩) hw fun f => f.dspReset
  rw [readMany_singleton hreset] at hmodify
  rw [readMany_singleton hrelease] at hclear
  exact Runs.withCfg (((hmodify.andThen (Runs.sleep _)).inPhase.andThen (hclear.inPhase.andThen hrest)).of_eq
    (by simp [startEvents, fieldBit]))

omit hw hp hh in
/-- The pairs of an attempt fail where it ends at one of them. -/
theorem cfgPairsEnd_of_ok {r : DspRun} (hok : r.Ok p b) :
    cfgPairsEnd p r (if r.ends = .cfg0 ∨ r.ends = .cfg1 then .error ⟨.protocolTimeout, .dspCfg⟩ else .ok ()) := by
  obtain ⟨h₀, h₁, -⟩ := hok
  cases hends : r.ends <;> rw [hends] at h₀ h₁
  case cfg0 => exact ⟨rfl, .inl ⟨h₀, h₁⟩⟩
  case cfg1 => exact ⟨rfl, .inr ⟨h₀, h₁⟩⟩
  all_goals exact ⟨h₀, h₁⟩

/-- An attempt that ends at a configuration register. -/
theorem Runs.dspAttempt_cfg (a : Nat) {r : DspRun} (hok : r.Ok p b) (hends : r.ends = .cfg0 ∨ r.ends = .cfg1)
    (hr : readMany r.reads.length e = (r.reads, e')) :
    Runs p m (Machine.dspAttempt b.words a) ⟨h, e⟩ (.error ⟨.protocolTimeout, .dspCfg⟩) ⟨h, e'⟩ (r.events p m b) := by
  have hcfg := cfgPairsEnd_of_ok hok
  obtain ⟨-, -, -, hdown, hpolls⟩ := hok
  rw [if_pos hends] at hcfg
  have hdownload : r.download = none := by obtain h | h := hends <;> rwa [h] at hdown
  have hnone : r.polls = [] := by obtain h | h := hends <;> rwa [h] at hpolls
  have hreads : r.reads = [r.reset, r.release] ++ (r.tries0 ++ r.tries1) := by simp [DspRun.reads, hdownload, hnone]
  rw [hreads] at hr
  obtain ⟨e₁, hstart, htries⟩ := readMany_append hr
  obtain ⟨us, hus, hpairs⟩ := Runs.cfgPairs (m := m) (a := a) hw hp hh hcfg htries
  obtain rfl : us = .error _ := by
    cases us <;> cases hus
    rfl
  exact (Runs.dspAttempt_start hw hstart hpairs.ifError).of_eq
    (by simp [DspRun.events, startEvents, hends, hdownload, hnone])

theorem Runs.dspLoaded_rejected (a : Nat) (hb : b.Ok p) {f : Failure} (hbad : b.bad = some f) :
    Runs p m (dspLoaded p b.words a) ⟨h, e⟩ (.error f) ⟨h, e⟩ ((b.segments ++ b.last.toList).flatMap (Segment.events p m)) := by
  have hstream := Runs.loadStream (m := m) (e := e) hw hp hh hb
  rw [BootStream.result, hbad] at hstream
  exact hstream.inPhase.ifError

theorem Runs.dspLoaded_polled (a : Nat) (hb : b.Ok p) (hbad : b.bad = none) {found : Bool} {v : Word} {vs : List Word}
    (ht : TriesEnd p.dspPudonePolls (pudoneSeen p) vs found) (hr : readMany (v :: vs).length e = (v :: vs, e')) :
    Runs p m (dspLoaded p b.words a) ⟨h, e⟩ (triesResult .dspPudone found) ⟨h, e'⟩
      ((b.segments ++ b.last.toList).flatMap (Segment.events p m) ++
        (csrEvents p m v 0 (1#32 <<< p.csrmap.dspDownload.val) ++ pudoneEvents p m vs)) := by
  have hstream := Runs.loadStream (m := m) (e := e) hw hp hh hb
  rw [BootStream.result, hbad] at hstream
  obtain ⟨hdownload, hpolls⟩ := readMany_cons hr
  have hclear := Runs.csrClear (p := p) (m := m) (c := ⟨h, e⟩) hw fun f => f.dspDownload
  rw [hdownload] at hclear
  exact hstream.inPhase.ifOk (hclear.inPhase.andThen (Runs.pollPudone hw hp hh ht hpolls))

/-- An attempt whose configuration registers hold writes the kernel, and then what follows it. -/
theorem Runs.dspAttempt_loaded (a : Nat) (hb : b.Ok p) {r : DspRun} (hok : r.Ok p b)
    (hends : ¬ (r.ends = .cfg0 ∨ r.ends = .cfg1)) {st : Except Failure Unit} (hr : readMany r.reads.length e = (r.reads, e'))
    (hrest : ∀ e₂, readMany (r.download.toList ++ r.polls).length e₂ = (r.download.toList ++ r.polls, e') →
      Runs p m (dspLoaded p b.words a) ⟨h, e₂⟩ st ⟨h, e'⟩ es) :
    Runs p m (Machine.dspAttempt b.words a) ⟨h, e⟩ st ⟨h, e'⟩ (startEvents p m r.reset r.release ++
      (r.tries0.flatMap (cfgTryEvents p m p.dspCfg0) ++ r.tries1.flatMap (cfgTryEvents p m p.dspCfg1) ++
        (kernelEvents p m b.kernel ++ es))) := by
  have hcfg := cfgPairsEnd_of_ok hok
  rw [if_neg hends] at hcfg
  have hreads : r.reads = [r.reset, r.release] ++ ((r.tries0 ++ r.tries1) ++ (r.download.toList ++ r.polls)) := by
    simp [DspRun.reads]
  rw [hreads] at hr
  obtain ⟨e₁, hstart, hr⟩ := readMany_append hr
  obtain ⟨e₂, htries, hr⟩ := readMany_append hr
  obtain ⟨us, hus, hpairs⟩ := Runs.cfgPairs (m := m) (a := a) hw hp hh hcfg htries
  obtain ⟨vs, rfl⟩ : ∃ vs, us = .ok vs := by
    cases us with
    | ok vs => exact ⟨vs, rfl⟩
    | error f => cases hus
  obtain ⟨ks, hkernel⟩ := Runs.kernelDownload (m := m) (e := e₂) hw hp hh a
    (rest := (b.segments ++ b.last.toList).flatMap Segment.words ++ b.rest) hb.1
  rw [← List.append_assoc] at hkernel
  exact Runs.dspAttempt_start hw hstart (hpairs.ifOk (hkernel.ifOk (hrest e₂ hr)))

/-- An attempt that reaches the power-up poll. -/
theorem Runs.dspAttempt_polled (a : Nat) (hb : b.Ok p) {r : DspRun} (hok : r.Ok p b)
    (hends : ¬ (r.ends = .cfg0 ∨ r.ends = .cfg1)) (hbad : b.bad = none) (hdown : r.download.isSome = true) {found : Bool}
    (ht : TriesEnd p.dspPudonePolls (pudoneSeen p) r.polls found) (hr : readMany r.reads.length e = (r.reads, e')) :
    Runs p m (Machine.dspAttempt b.words a) ⟨h, e⟩ (triesResult .dspPudone found) ⟨h, e'⟩ (r.events p m b) := by
  obtain ⟨v, hv⟩ := Option.isSome_iff_exists.mp hdown
  have hrest : ∀ e₂, readMany (r.download.toList ++ r.polls).length e₂ = (r.download.toList ++ r.polls, e') → Runs p m _ _ _ _ _ :=
    fun e₂ hr₂ => Runs.dspLoaded_polled (e := e₂) hw hp hh a hb hbad ht (by rwa [hv] at hr₂)
  exact (Runs.dspAttempt_loaded hw hp hh a hb hok hends hr hrest).of_eq
    (by simp [DspRun.events, startEvents, BootStream.events, kernelEvents, pudoneEvents, hends, hv])

/-- An attempt by the words it reads. -/
theorem Runs.dspAttempt (a : Nat) (hb : b.Ok p) {r : DspRun} (hok : r.Ok p b)
    (hr : readMany r.reads.length e = (r.reads, e')) :
    Runs p m (Machine.dspAttempt b.words a) ⟨h, e⟩ (r.result b) ⟨h, e'⟩ (r.events p m b) := by
  obtain ⟨-, -, hbad, hdown, hpolls⟩ := id hok
  unfold DspRun.result DspRun.status
  cases hends : r.ends <;> rw [hends] at hbad hdown hpolls
  case cfg0 => exact Runs.dspAttempt_cfg hw hp hh a hok (.inl hends) hr
  case cfg1 => exact Runs.dspAttempt_cfg hw hp hh a hok (.inr hends) hr
  case stream =>
    obtain ⟨f, hf⟩ := Option.ne_none_iff_exists'.mp (hbad rfl)
    have hdownload : r.download = none := hdown
    have hnone : r.polls = [] := hpolls
    rw [hf]
    have hrest : ∀ e₂, readMany (r.download.toList ++ r.polls).length e₂ = (r.download.toList ++ r.polls, e') →
        Runs p m (dspLoaded p b.words a) ⟨h, e₂⟩ (.error f) ⟨h, e'⟩ ((b.segments ++ b.last.toList).flatMap (Segment.events p m)) := by
      intro e₂ hr₂
      rw [hdownload, hnone] at hr₂
      cases hr₂
      exact Runs.dspLoaded_rejected hw hp hh a hb hf
    exact (Runs.dspAttempt_loaded hw hp hh a hb hok (by simp [hends]) hr hrest).of_eq
      (by simp [DspRun.events, startEvents, BootStream.events, kernelEvents, hends, hdownload, hnone])
  case pudone =>
    obtain ⟨hgood, hsome⟩ : b.bad = none ∧ r.download.isSome = true := hdown
    exact Runs.dspAttempt_polled (found := false) hw hp hh a hb hok (by simp [hends]) hgood hsome hpolls hr
  case running =>
    obtain ⟨hgood, hsome⟩ : b.bad = none ∧ r.download.isSome = true := hdown
    exact Runs.dspAttempt_polled (found := true) hw hp hh a hb hok (by simp [hends]) hgood hsome hpolls hr

/-! ## A boot as its attempts (R226) -/

omit hw hp hh in
/-- The failures of attempts that are made again are not hard. -/
theorem result_of_retried {r : DspRun} (hr : r.Retried) : ∃ f, r.result b = .error f ∧ isHard f = false := by
  unfold DspRun.result DspRun.status
  obtain h | h | h := hr <;> rw [h] <;> exact ⟨_, rfl, rfl⟩

omit hw hp hh in
/-- Another attempt runs, or meets a stream that is rejected. -/
theorem result_of_not_retried (hb : b.Ok p) {r : DspRun} (hok : r.Ok p b) (hr : ¬ r.Retried) :
    r.result b = .ok () ∨ ∃ f, r.result b = .error f ∧ isHard f = true := by
  obtain ⟨-, -, hbad, -⟩ := hok
  obtain ⟨-, -, -, hrejected, -⟩ := hb
  unfold DspRun.result DspRun.status
  cases hends : r.ends <;> simp only [DspRun.Retried, hends, reduceCtorEq, or_self, or_true, true_or, not_true] at hr
  case stream =>
    obtain ⟨f, hf⟩ := Option.ne_none_iff_exists'.mp (hbad hends)
    rw [hf]
    exact .inr ⟨f, rfl, isHard_of_rejected (hrejected f hf).2⟩
  case running => exact .inl rfl

theorem Runs.dspBootFrom (hb : b.Ok p) {last : DspRun} (hlast : last.Ok p b) (fails : List DspRun)
    (hfails : ∀ r ∈ fails, r.Ok p b ∧ r.Retried) {a more : Nat} {e : Env} (hn : fails.length ≤ more)
    (hall : last.Retried → fails.length = more)
    (hr : readMany ((fails ++ [last]).flatMap DspRun.reads).length e = ((fails ++ [last]).flatMap DspRun.reads, e')) :
    Runs p m (Machine.dspBootFrom b.words a more) ⟨h, e⟩ (last.result b) ⟨h, e'⟩
      ((fails ++ [last]).flatMap (DspRun.events p m b)) := by
  induction fails generalizing a more e with
  | nil =>
    simp only [List.nil_append, List.flatMap_singleton] at hr ⊢
    have hattempt := Runs.dspAttempt (m := m) hw hp hh a hb hlast hr
    cases more with
    | zero => exact hattempt
    | succ more =>
      refine (hattempt.bind (fs := []) ?_).of_eq (List.append_nil _)
      obtain hok | ⟨f, hf, hhard⟩ := result_of_not_retried hb hlast fun hretried => by simpa using hall hretried
      · rw [hok]
        exact Runs.pure _
      · rw [hf]
        simp only [hhard, if_true]
        exact Runs.pure _
  | cons r fails ih =>
    obtain ⟨⟨hok, hretried⟩, hothers⟩ := List.forall_mem_cons.mp hfails
    obtain ⟨k, rfl⟩ : ∃ k, more = k + 1 := Nat.exists_eq_succ_of_ne_zero (by rintro rfl; simp at hn)
    have hsplit : (r :: fails ++ [last]).flatMap DspRun.reads = r.reads ++ (fails ++ [last]).flatMap DspRun.reads := rfl
    rw [hsplit] at hr
    obtain ⟨e₁, hreads, hrest⟩ := readMany_append hr
    obtain ⟨f, hf, hsoft⟩ := result_of_retried (b := b) hretried
    have hattempt := Runs.dspAttempt (m := m) hw hp hh a hb hok hreads
    rw [hf] at hattempt
    refine hattempt.bind ?_
    simp only [hsoft, Bool.false_eq_true, if_false]
    exact ih hothers (Nat.le_of_succ_le_succ hn) (fun hl => Nat.succ.inj (hall hl)) hrest

end noPolls

/-! ## BOOT_DSP (R226) -/

/-- A stream that is what it says is long enough for its kernel. -/
theorem fileOk_of_repack {file : List Byte} (hb : b.Ok p) (hfile : repack file = some b.words) : fileOk p file = true := by
  simp [fileOk, hfile, kernelStreamWords, BootStream.words, hb.1]

/-- The attempt runs exactly where it ends with the processor running. -/
theorem isOk_result (r : DspRun) : isOk (r.result b) = decide (r.ends = .running) := by
  unfold DspRun.result DspRun.status
  cases r.ends <;> rfl

theorem replyOf_result (r : DspRun) : replyOf none (r.result b) = { status := r.status b } := by
  unfold DspRun.result
  cases r.status b <;> rfl

/-- A boot that runs without changing the handle is BOOT_DSP's body, which keeps in `dspDone` whether it succeeded. -/
theorem Runs.bootDspBody {w : List Word} {r : Except Failure Unit} (hh : h.hbrHeld = false)
    (hrun : ∀ h, h.hbrHeld = false → Runs p m (Machine.dspBootFrom w 1 p.dspMoreAttempts) ⟨h, e⟩ r ⟨h, e'⟩ es) :
    Runs p m (Machine.bootDspBody w) ⟨h, e⟩ r ⟨{ h with boot := { h.boot with dspDone := isOk r } }, e'⟩ es := by
  have hboot := hrun { h with boot := { h.boot with dspDone := false } } hh
  refine ((Runs.setHandle _).andThen (Runs.withCfg (hboot.bind (fs := []) ?_))).of_eq (List.append_nil es)
  cases r with
  | ok _ => exact (Runs.setHandle _).map
  | error f => exact Runs.pure _

/-- A boot of the processor answers what its attempts give. -/
theorem bootDsp_attempts {s : State} {x : Module} {file : List Byte} {fails : List DspRun} {last : DspRun} (hs : s.Serves m x)
    (hp : s.cfg.hbrGrantPolls = 0) (hfile : repack file = some b.words) (hb : b.Ok s.cfg)
    (hfails : ∀ r ∈ fails, r.Ok s.cfg b ∧ r.Retried) (hlast : last.Ok s.cfg b) (hn : fails.length < dspAttempts s.cfg)
    (hall : last.Retried → fails.length + 1 = dspAttempts s.cfg)
    (hr : readMany ((fails ++ [last]).flatMap DspRun.reads).length x.env = ((fails ++ [last]).flatMap DspRun.reads, e)) :
    Answers (exec (.bootDsp m file) s) s .bootDsp m
      { x with handle := { x.handle with boot := { x.handle.boot with dspDone := decide (last.ends = .running) } }, env := e }
      { status := last.status b } ((fails ++ [last]).flatMap (DspRun.events s.cfg m b)) := by
  obtain ⟨-, hw, hheld, -⟩ := id hs
  have hbody := Runs.bootDspBody hheld fun h hh => Runs.dspBootFrom (m := m) (h := h) hw hp hh hb hlast fails hfails
    (Nat.le_of_lt_succ hn) (fun hl => Nat.succ.inj (hall hl)) hr
  have hstream : streamOf file = b.words := by rw [streamOf, hfile, Option.getD_some]
  rw [← hstream] at hbody
  have hans := exec_answers (i := .bootDsp m file) hs rfl rfl (if_pos (fileOk_of_repack hb hfile)) rfl (hbody.map (f := replyOf none))
  rwa [isOk_result, replyOf_result] at hans

/-- Settles O54: what a failed boot has done is `bootDsp_fails`; without grant polls the boot is its attempts
(`bootDsp_attempts`). -/
theorem bootDspRetriesFromReset : Obligations.BootDspRetriesFromReset := by
  refine ⟨fun s t m x file f hs hfile hexec hstatus => ?_,
    fun s m x file b fails last e hs hp hfile hb hfails hlast hn hall hr =>
      bootDsp_attempts hs hp hfile hb hfails hlast hn hall hr⟩
  obtain ⟨n, h₁, hn, htrace, hends⟩ := bootDsp_fails hs hfile hexec hstatus
  exact ⟨n, h₁, hn, htrace.resets,
    fun e he => (htrace.places e he).imp fun a ⟨q, ls, _, han, hpos⟩ => ⟨q, ls, han, hpos⟩, hends⟩

/-- The first word read is the wanted one. -/
theorem pollSeen_singleton {n : Nat} {pred : Word → Bool} {v : Word} (hn : 0 < n) (hv : pred v = true) : PollSeen n pred [v] :=
  ⟨hn, nofun, by simpa using hv⟩

/-- Settles O53: a stream that ends with its kernel, and one attempt, whose every word is right at the first try. -/
theorem bootDspKernelOnly : Obligations.BootDspKernelOnly := by
  intro s m x file ws v₀ v₁ v₂ f e hs hp htries hpolls hfile hlen hr hf
  have hseen : pudoneSeen s.cfg f = true := by simpa [pudoneSeen] using hf
  have hans := bootDsp_attempts (b := ⟨ws, [], none, [], none⟩) (fails := [])
    (last := ⟨v₀, v₁, [s.cfg.dspCfg0.value], [s.cfg.dspCfg1.value], some v₂, [f], .running⟩) hs hp
    (by simpa [BootStream.words] using hfile) ⟨hlen, nofun, nofun, nofun, fun _ _ => rfl⟩ nofun
    ⟨pollSeen_singleton htries (beq_self_eq_true _), pollSeen_singleton htries (beq_self_eq_true _), nofun, ⟨rfl, rfl⟩,
      pollSeen_singleton hpolls hseen⟩ (Nat.succ_pos _) (by simp) hr
  simpa [DspRun.events, BootStream.events, cfgVerifyEvents, DspRun.status, hseen] using hans

end Sys2Proof.Machine
end

section
/-! SUPPORT. MODULE_CLOSE of an open module (44_discovery.md R247), and the slots matched to the devices that reported them
(R243). -/

namespace Sys2Proof.Machine

/-! ## Closing a module (R247) -/

/-- An open module's device is unmapped and closed. -/
theorem moduleCloseBody_of_open {sc : Scope} {c : Ctx} {va : VAddr} (hw : c.handle.win = some va)
    (hv : c.env.vendorLeft = none) : ∃ t,
    moduleCloseBody sc c = .ok { status := .ok } { c with handle := { c.handle with win := none, dev := none } } t ∧
      shown t = issuedAt sc.pos [(none, .unmapBar c.handle.dev va), (none, .closeDev c.handle.dev)] := by
  have hunmap : unmapCall c.handle.dev va sc c = .ok () c _ := vendorCall_of_returns hv
  have hclose : closeCall c.handle.dev sc c = .ok () c _ := vendorCall_of_returns hv
  have hrelease := Op.andThen_of_ok hunmap <| Op.andThen_of_ok hclose <|
    Op.map_of_ok (f := fun _ => ({ status := .ok } : Reply)) (Op.setHandle_apply fun h => { h with win := none, dev := none })
  have hbody : moduleCloseBody sc c = _ := Op.bind_of_ok (t₁ := []) Op.getHandle_apply (by rw [hw]; exact hrelease)
  exact ⟨_, hbody, rfl⟩

/-- Settles O60: MODULE_CLOSE runs `Preamble` alone, and its body releases the device. -/
theorem moduleCloseReleases : Obligations.ModuleCloseReleases := by
  rintro s m x va ⟨hx, hp, honline, -⟩ hw hv
  obtain ⟨t, hbody, ht⟩ := moduleCloseBody_of_open (sc := ⟨s.cfg, .module m, startPos .moduleClose⟩) (c := x.ctx) hw hv
  have hres : moduleCloseProgram.result s.cfg false m x.ctx = _ := hbody
  rw [exec_eq_runOn (g := moduleCloseProgram) rfl (fun _ => List.not_mem_nil.elim), runOn_of_idle hx hp, honline, hres, ← hp]
  exact congrArg (fun u => Host.Outcome.next (finish .moduleClose _ u _)) ht

/-! ## Match (R243) -/

section matching
variable {probed : List (DevKey × Nat)}

/-- A slot and those after it are matched where the slot has a reporter and the rest is matched. -/
theorem matchSlots_cons_eq_some {slot : Nat} {rest : List Nat} {keys : List DevKey} :
    matchSlots probed (slot :: rest) = some keys ↔ ∃ d ks, probed.find? (fun d => d.2 == slot) = some d ∧
      matchSlots probed rest = some ks ∧ d.1 :: ks = keys := by
  rw [matchSlots]
  cases probed.find? (fun d => d.2 == slot) with
  | none => simp
  | some d => simp

/-- A match fails for a slot nobody reported. -/
theorem matchSlots_eq_none_iff {slotMap : List Nat} :
    matchSlots probed slotMap = none ↔ ∃ slot ∈ slotMap, ∀ d ∈ probed, Prod.snd d ≠ slot := by
  induction slotMap with
  | nil => simp [matchSlots]
  | cons slot rest ih =>
    have hunreported : probed.find? (fun d => d.2 == slot) = none ↔ ∀ d ∈ probed, Prod.snd d ≠ slot := by simp
    rw [List.exists_mem_cons_iff, ← ih, ← hunreported, matchSlots]
    cases probed.find? (fun d => d.2 == slot) with
    | none => simp
    | some d => simp

theorem matchSlots_length {slotMap : List Nat} {keys : List DevKey} (h : matchSlots probed slotMap = some keys) :
    keys.length = slotMap.length := by
  induction slotMap generalizing keys with
  | nil =>
    cases h
    rfl
  | cons slot rest ih =>
    obtain ⟨d, ks, -, hks, rfl⟩ := matchSlots_cons_eq_some.mp h
    exact congrArg (· + 1) (ih hks)

/-- The key of a slot is that of the first device that reported it. -/
theorem matchSlots_first {slotMap : List Nat} {keys : List DevKey} (h : matchSlots probed slotMap = some keys) {i slot : Nat}
    {key : DevKey} (hslot : slotMap[i]? = some slot) (hkey : keys[i]? = some key) :
    ∃ j : Nat, probed[j]? = some (key, slot) ∧ ∀ k < j, ∀ d : DevKey × Nat, probed[k]? = some d → d.2 ≠ slot := by
  induction slotMap generalizing keys i with
  | nil => cases hslot
  | cons slot' rest ih =>
    obtain ⟨d, ks, hd, hks, rfl⟩ := matchSlots_cons_eq_some.mp h
    cases i with
    | zero =>
      cases hslot
      cases hkey
      obtain ⟨hreports, j, hj, rfl, hfirst⟩ := List.find?_eq_some_iff_getElem.mp hd
      refine ⟨j, ?_, fun k hk e he => ?_⟩
      · rw [List.getElem?_eq_getElem hj, ← beq_iff_eq.mp hreports]
      · obtain ⟨-, rfl⟩ := List.getElem?_eq_some_iff.mp he
        simpa using hfirst k hk
    | succ i => exact ih hks hslot hkey

end matching

/-- Settles O59, by induction on the slot map. -/
theorem matchBindsFirstReporter : Obligations.MatchBindsFirstReporter :=
  fun _ _ => ⟨matchSlots_eq_none_iff, fun _ h => ⟨matchSlots_length h, fun _ _ _ => matchSlots_first h⟩⟩

end Sys2Proof.Machine
end

section
/-! SUPPORT. SYS_INIT online (44_discovery.md R240 to R246): what Find, Probe and OpenModules end with and issue, wherever the
sequencer stands (`Op.EndsWith`), what the whole of discovery does (`Discovered`), and what exec makes of it. -/

namespace Sys2Proof.Machine

variable {α β : Type} {p : Params}

/-! ## What a part ends with and issues -/

/-- With parameters `p` and every vendor call returning, the part ends well, every vendor call still returning, and its value and
its named events satisfy `Q`, wherever the sequencer stands. -/
def Op.EndsWith (p : Params) (Q : α → List (Option Reg × Event) → Prop) (x : Op α) : Prop :=
  ∀ who pos c, c.env.vendorLeft = none →
    ∃ a c' t, x ⟨p, who, pos⟩ c = .ok a c' t ∧ c'.env.vendorLeft = none ∧ Q a (named (shown t))

namespace Op.EndsWith
variable {P Q : α → List (Option Reg × Event) → Prop} {R : β → List (Option Reg × Event) → Prop}

theorem pure {a : α} (h : Q a []) : (Op.pure a).EndsWith p Q := fun _ _ c hv => ⟨a, c, [], rfl, hv, h⟩

theorem bind {x : Op α} {f : α → Op β} (hx : x.EndsWith p P)
    (hf : ∀ a es, P a es → (f a).EndsWith p fun b fs => R b (es ++ fs)) : (x.bind f).EndsWith p R := by
  intro who pos c hv
  obtain ⟨a, c₁, t, h, hv₁, ha⟩ := hx who pos c hv
  obtain ⟨b, c₂, u, h', hv₂, hb⟩ := hf a _ ha who pos c₁ hv₁
  exact ⟨b, c₂, t ++ u, Op.bind_of_ok h h', hv₂, by rwa [shown_append, named_append]⟩

theorem andThen {x : Op Unit} {y : Op β} {P : Unit → List (Option Reg × Event) → Prop} (hx : x.EndsWith p P)
    (hy : ∀ es, P () es → y.EndsWith p fun b fs => R b (es ++ fs)) : (x.andThen y).EndsWith p R := hx.bind fun _ => hy

theorem map {f : α → β} {x : Op α} (hx : x.EndsWith p fun a => R (f a)) : (x.map f).EndsWith p R :=
  hx.bind fun _ _ h => pure (by rwa [List.append_nil])

/-- A failure is returned as it is. -/
theorem ifOk {P : Except Failure α → List (Option Reg × Event) → Prop} {R : Except Failure β → List (Option Reg × Event) → Prop}
    {x : Op (Except Failure α)} {f : α → Op (Except Failure β)} (hx : x.EndsWith p P)
    (hok : ∀ a es, P (.ok a) es → (f a).EndsWith p fun b fs => R b (es ++ fs))
    (herror : ∀ e es, P (.error e) es → R (.error e) es) : (x.ifOk f).EndsWith p R :=
  hx.bind fun r es hr =>
    match r, hr with
    | .ok a, ha => hok a es ha
    | .error e, he => pure (by simpa using herror e es he)

theorem mono {x : Op α} (hx : x.EndsWith p P) (h : ∀ a es, P a es → Q a es) : x.EndsWith p Q := by
  intro who pos c hv
  obtain ⟨a, c', t, hrun, hv', ha⟩ := hx who pos c hv
  exact ⟨a, c', t, hrun, hv', h _ _ ha⟩

theorem withCfg {f : Params → Op α} (h : (f p).EndsWith p Q) : (Op.withCfg f).EndsWith p Q := h

theorem inLoop {k : Nat} {x : Op α} (hx : x.EndsWith p Q) : (x.inLoop k).EndsWith p Q :=
  fun who pos => hx who (posLoop k pos)

/-- A vendor call issues one event, with its answer. -/
theorem vendorCall {answer : Env → α × Env} {event : α → Event} (ha : ∀ e, (answer e).2.vendorLeft = e.vendorLeft)
    (h : ∀ a, Q a [(none, event a)]) : (vendorCall answer fun _ a => event a).EndsWith p Q :=
  fun _ _ c hv => ⟨_, _, _, vendorCall_of_returns hv, (ha c.env).trans hv, h _⟩

end Op.EndsWith

/-! ## Find (R241) -/

/-- One more key is kept where no earlier key has its bus/slot. -/
theorem firstPerSlot_concat (ks : List DevKey) (key : DevKey) : firstPerSlot p (ks ++ [key]) =
    firstPerSlot p ks ++ if ks.all fun q => busSlotOf p q != busSlotOf p key then [key] else [] := by
  have hkept : (ks.zipIdx.filter fun k => ((ks ++ [key]).take k.2).all fun q => busSlotOf p q != busSlotOf p k.1) =
      ks.zipIdx.filter fun k => (ks.take k.2).all fun q => busSlotOf p q != busSlotOf p k.1 := by
    refine List.filter_congr fun k hk => ?_
    obtain ⟨-, hlt, -⟩ := List.mem_zipIdx hk
    rw [List.take_append_of_le_length (by omega)]
  rw [firstPerSlot, List.zipIdx_append, List.filter_append, hkept, List.map_append]
  congr 1
  split_ifs with h <;> simp [h]

/-- The kept keys have the bus/slots of all. -/
theorem any_firstPerSlot (ks : List DevKey) (slot : Nat) :
    (firstPerSlot p ks).any (fun q => busSlotOf p q == slot) = ks.any fun q => busSlotOf p q == slot := by
  induction ks using List.reverseRecOn with
  | nil => rfl
  | append_singleton ks key ih =>
    rw [firstPerSlot_concat, List.any_append, List.any_append, ih]
    split_ifs with hnew
    · rfl
    · obtain ⟨q, hq, hsame⟩ : ∃ q ∈ ks, busSlotOf p q = busSlotOf p key := by simpa using hnew
      by_cases hkey : busSlotOf p key = slot
      · have hany : (ks.any fun q => busSlotOf p q == slot) = true := List.any_eq_true.mpr ⟨q, hq, by simp [hsame, hkey]⟩
        rw [hany, Bool.true_or, Bool.true_or]
      · simp [hkey]

/-- What Find keeps when it is given one more key. -/
theorem keep_eq_firstPerSlot (ks : List DevKey) (key : DevKey) :
    (if (firstPerSlot p ks).any (fun k₂ => busSlotOf p k₂ == busSlotOf p key) then firstPerSlot p ks
      else firstPerSlot p ks ++ [key]) = firstPerSlot p (ks ++ [key]) := by
  have hnew : (ks.all fun q => busSlotOf p q != busSlotOf p key) = !ks.any fun q => busSlotOf p q == busSlotOf p key := by
    rw [List.not_any_eq_all_not]
    rfl
  rw [any_firstPerSlot, firstPerSlot_concat, hnew]
  cases ks.any fun q => busSlotOf p q == busSlotOf p key with
  | true => simp
  | false => simp

/-- `findDevice` calls end at the `n`-th, or at the first that finds nothing. -/
def FindStops (n : Nat) (rs : List (Option DevKey)) : Prop :=
  rs.length ≤ n ∧ (∀ r ∈ rs.dropLast, r.isSome = true) ∧ (rs.length = n ∨ rs.getLast? = some none)

theorem FindStops.cons {n : Nat} {rs : List (Option DevKey)} (h : FindStops n rs) (key : DevKey) :
    FindStops (n + 1) (some key :: rs) := by
  obtain ⟨hlen, hfound, hends⟩ := h
  cases rs with
  | nil => simp_all [FindStops]
  | cons r rs => simp_all [FindStops]

/-- The events of `findDevice` calls from call `k` on. -/
def findEventsFrom (p : Params) (k : Nat) (rs : List (Option DevKey)) : List (Option Reg × Event) :=
  (rs.zipIdx k).map fun r => (none, .find p.pciVendorId p.pciDeviceId r.2 r.1)

theorem findEventsFrom_cons (k : Nat) (r : Option DevKey) (rs : List (Option DevKey)) : findEventsFrom p k (r :: rs) =
    (none, .find p.pciVendorId p.pciDeviceId k r) :: findEventsFrom p (k + 1) rs := by
  rw [findEventsFrom, List.zipIdx_cons, List.map_cons, findEventsFrom]

theorem findFrom_endsWith (n : Nat) : ∀ (k : Nat) (ks : List DevKey), (findFrom k n (firstPerSlot p ks)).EndsWith p
    fun keys es => ∃ rs, FindStops n rs ∧ es = findEventsFrom p k rs ∧ keys = firstPerSlot p (ks ++ rs.filterMap id) := by
  induction n with
  | zero => exact fun k ks => .pure ⟨[], ⟨le_rfl, nofun, .inl rfl⟩, rfl, by simp⟩
  | succ n ih =>
    intro k ks
    have hcall : (Op.inLoop k (findCall k)).EndsWith p
        fun r es => es = [(none, .find p.pciVendorId p.pciDeviceId k r)] :=
      .inLoop (.withCfg (.vendorCall envFind_vendorLeft fun _ => rfl))
    refine hcall.bind fun r es hes => ?_
    subst hes
    cases r with
    | none => exact .pure ⟨[none], ⟨by simp, by simp, .inr rfl⟩, rfl, by simp⟩
    | some key =>
      refine .withCfg ?_
      rw [keep_eq_firstPerSlot]
      refine (ih (k + 1) (ks ++ [key])).mono ?_
      rintro keys es ⟨rs, hrs, rfl, rfl⟩
      exact ⟨some key :: rs, hrs.cons key, (findEventsFrom_cons ..).symm, by simp⟩

theorem findAll_endsWith : findAll.EndsWith p fun r es => ∃ rs, FindRan p rs ∧ es = findEvents p rs ∧
    r = if firstPerSlot p (rs.filterMap id) = [] then .error ⟨.resourceFailure, .find⟩
      else .ok (firstPerSlot p (rs.filterMap id)) := by
  refine .withCfg (.map ((findFrom_endsWith p.findLimit 0 []).mono ?_))
  rintro keys es ⟨rs, hrs, rfl, rfl⟩
  refine ⟨rs, hrs, rfl, ?_⟩
  rw [List.nil_append]
  cases firstPerSlot p (rs.filterMap id) <;> rfl

/-! ## A device opened and released (R242, R244, R245) -/

/-- What opening and mapping a device gives and issues. -/
def Acquired (p : Params) (key : DevKey) : Except Failure (DevHandle × VAddr) → List (Option Reg × Event) → Prop
  | .ok d, es => es = acquireEvents p key d
  | .error f, es => ∃ o, f = acquireFailure o ∧ es = acquireFailEvents p key o

theorem closeCall_endsWith (h : Option DevHandle) : (closeCall h).EndsWith p fun _ es => es = [(none, .closeDev h)] :=
  .vendorCall (fun _ => rfl) fun _ => rfl

theorem releaseDevice_endsWith (d : DevHandle × VAddr) : (releaseDevice d).EndsWith p fun _ es => es = releaseEvents d :=
  .andThen (P := fun _ es => es = [(none, .unmapBar (some d.1) d.2)]) (.vendorCall (fun _ => rfl) fun _ => rfl)
    fun _ hes => hes ▸ (closeCall_endsWith _).mono fun _ _ hfs => hfs ▸ rfl

theorem openDevice_endsWith (key : DevKey) : (openDevice key).EndsWith p (Acquired p key) := by
  have hopen : (openCall key).EndsWith p fun o es => es = [(none, .openDev key o)] :=
    .vendorCall envOpen_vendorLeft fun _ => rfl
  refine hopen.bind fun o es hes => ?_
  subst hes
  cases o with
  | none => exact .pure ⟨none, rfl, rfl⟩
  | some h =>
    have hmap : (mapCall h).EndsWith p fun v es => es = [(none, .mapBar h p.barIndex v)] :=
      .withCfg (.vendorCall envMap_vendorLeft fun _ => rfl)
    refine hmap.bind fun v es hes => ?_
    subst hes
    cases v with
    | none => exact .map ((closeCall_endsWith _).mono fun _ _ hfs => ⟨some h, rfl, hfs ▸ rfl⟩)
    | some va => exact .pure rfl

theorem unwind_endsWith (held : List (DevHandle × VAddr)) :
    (unwind held).EndsWith p fun _ es => es = held.flatMap releaseEvents := by
  induction held with
  | nil => exact .pure rfl
  | cons d held ih =>
    exact (releaseDevice_endsWith d).andThen fun _ hes => hes ▸ ih.mono fun _ _ hfs => hfs ▸ rfl

/-! ## OpenModules (R244, R245) -/

/-- OpenModules, where `held` had been acquired before: every key acquired, or those before the one that fails, after which all
are released, last first. -/
def ModulesOpened (p : Params) (held : List (DevHandle × VAddr)) (keys : List DevKey) :
    Except Failure (List (DevHandle × VAddr)) → List (Option Reg × Event) → Prop
  | .ok ds, es => ∃ hs, ds = held.reverse ++ hs ∧ hs.length = keys.length ∧
      es = (keys.zip hs).flatMap fun k => acquireEvents p k.1 k.2
  | .error f, es => ∃ hs key o, keys[hs.length]? = some key ∧ f = acquireFailure o ∧
      es = (keys.zip hs).flatMap (fun k => acquireEvents p k.1 k.2) ++ acquireFailEvents p key o ++
        (hs.reverse ++ held).flatMap releaseEvents

theorem ModulesOpened.cons {held : List (DevHandle × VAddr)} {keys : List DevKey} {d : DevHandle × VAddr}
    {r : Except Failure (List (DevHandle × VAddr))} {es : List (Option Reg × Event)} (h : ModulesOpened p (d :: held) keys r es)
    (key : DevKey) : ModulesOpened p held (key :: keys) r (acquireEvents p key d ++ es) := by
  cases r with
  | ok ds =>
    obtain ⟨hs, rfl, hlen, rfl⟩ := h
    exact ⟨d :: hs, by simp, congrArg (· + 1) hlen, rfl⟩
  | error f =>
    obtain ⟨hs, key', o, hkey, rfl, rfl⟩ := h
    exact ⟨d :: hs, key', o, hkey, rfl, by simp⟩

theorem openModules_endsWith (keys : List DevKey) : ∀ held, (openModules held keys).EndsWith p (ModulesOpened p held keys) := by
  induction keys with
  | nil => exact fun held => .pure ⟨[], (List.append_nil _).symm, rfl, rfl⟩
  | cons key keys ih =>
    refine fun held => (openDevice_endsWith key).inLoop.bind fun r es hr => ?_
    cases r with
    | ok d =>
      obtain rfl : es = _ := hr
      exact (ih (d :: held)).mono fun _ _ h => h.cons key
    | error f =>
      obtain ⟨o, rfl, rfl⟩ := hr
      exact .map ((unwind_endsWith held).mono fun _ _ hfs => ⟨[], key, o, rfl, rfl, hfs ▸ rfl⟩)

/-! ## The slot read of a probe (R242; 41_serial_bus.md R132) -/

/-- Every event is a read, a write, a sleep or a vendor call. -/
theorem countEvents_kinds (t : List Issued) :
    countEvents isRead t + countEvents isWrite t + countEvents isSleep t + countEvents isVendor t = t.length := by
  induction t with
  | nil => rfl
  | cons e t ih =>
    have hkind : (isRead e.event).toNat + (isWrite e.event).toNat + (isSleep e.event).toNat + (isVendor e.event).toNat = 1 := by
      cases e.event <;> rfl
    have hcount : ∀ f : Event → Bool, countEvents f (e :: t) = countEvents f t + (f e.event).toNat := fun f => by
      cases h : f e.event <;> simp [countEvents, h]
    rw [hcount, hcount, hcount, hcount, List.length_cons]
    omega

/-- On the lines no vendor call is made. -/
theorem LineTrace.no_vendor {ls : List Lines} {vs : List Word} {t : List Issued} (h : LineTrace p ls vs t) :
    ∀ e ∈ t, isVendor e.event = false := by
  have hkinds := countEvents_kinds t
  rw [h.reads, h.writes, h.sleeps, h.length] at hkinds
  have hnone : countEvents isVendor t = 0 := by omega
  simpa [countEvents] using hnone

/-- What a part of a transfer issues on the window of probe `j` is on that window, or sleeps. -/
theorem onProbe_of_lines {x : Op α} {j : Nat} {pos : Place} {c c' : Ctx} {a : α} {t : List Stage} {ls : List Lines}
    {vs : List Word} (hx : x.Made (· ∈ rights .serReadSeq)) (hrun : x ⟨p, .probe j, pos⟩ c = .ok a c' t)
    (htrace : LineTrace p ls vs (shown t)) : OnProbe j (shown t) := by
  intro e he
  have hwindow := (hx.permitted hrun e he).window
  have hvendor := htrace.no_vendor e he
  have hown : ∀ w, windowOf e.event = some w → windowOf e.event = some (.probe j) := fun w hw => by
    rcases hwindow w hw with rfl | ⟨hprobe, -⟩
    · exact hw
    · exact absurd hprobe (by decide)
  cases hev : e.event with
  | rd | wr =>
    rw [hev] at hown
    exact .inl (hown _ rfl)
  | sleep => exact .inr rfl
  | _ => cases hev ▸ hvendor

/-- The first `n` words read are all low, or there is a first that is not. -/
theorem allLow_or_firstHigh (p : Params) (n : Nat) (e : Env) : (∀ v ∈ (readMany n e).1, isLow p v) ∨
    ∃ j < n, (∀ v ∈ (readMany j e).1, isLow p v) ∧ ¬ isLow p (envRead (readMany j e).2).1 := by
  induction n with
  | zero => exact .inl nofun
  | succ n ih =>
    obtain hlow | ⟨j, hj, hfirst⟩ := ih
    · by_cases hnext : isLow p (envRead (readMany n e).2).1
      · rw [readMany_add_words, List.forall_mem_append]
        exact .inl ⟨hlow, by simpa [readMany] using hnext⟩
      · exact .inr ⟨n, Nat.lt_succ_self n, hlow, hnext⟩
    · exact .inr ⟨j, Nat.lt_succ_of_lt hj, hfirst⟩

theorem readMany_take (n k : Nat) (e : Env) : (readMany (n + k) e).1.take n = (readMany n e).1 := by
  rw [readMany_add_words, List.take_left' (readMany_length n e)]

theorem readMany_succ_getD (n : Nat) (e : Env) : (readMany (n + 1) e).1.getD n 0 = (envRead (readMany n e).2).1 := by
  rw [readMany_add_words, List.getD_append_right _ _ _ _ (readMany_length n e).le, readMany_length, Nat.sub_self]
  rfl

/-- The trace of a slot read, by what it gives. -/
def SlotReadEnds (p : Params) : Except Failure (List Byte) → List Issued → Prop
  | .ok bytes, t => SlotRead p t bytes
  | .error _, t => SlotReadFails p t

section probe
variable (hw : windowOk p = true)
include hw

/-- A slot read on the lines gives its bytes, or ends at the first leading byte that is not acknowledged. -/
theorem slotRead_onLines (h : Handle) (e : Env) : ∃ r h' e' ls vs qs,
    RunsOnLines p (serReadSeqBody p.slotReadLead p.slotReadCount) ⟨h, e⟩ r ⟨h', e'⟩ ls vs qs ∧
      e'.vendorLeft = e.vendorLeft ∧ ∀ t, LineTrace p ls vs t → SlotReadEnds p r t := by
  obtain hlow | ⟨j, hj, hlow, hhigh⟩ := allLow_or_firstHigh p p.slotReadLead.length e
  · obtain ⟨bytes, qs, hlen, hsampled, hrun⟩ := RunsOnLines.serReadSeqBody hw p.slotReadCount (h := h) hlow
    refine ⟨_, _, _, _, _, qs, hrun, readMany_vendorLeft .., fun t ht => ⟨ht.written, ?_, ?_, hlen, ?_⟩⟩
    · rw [ht.sampled, readMany_length]
    · rwa [ht.sampled, readMany_take]
    · rwa [ht.sampled]
  · obtain ⟨qs, hfail⟩ := RunsOnLines.serLead_fails hw p.slotReadLead j 0 h e hj hlow hhigh
    refine ⟨_, _, _, _, _, qs, hfail.ifError, readMany_vendorLeft .., fun t ht => ⟨j, hj, ht.written, ?_, ?_, ?_⟩⟩
    · rw [ht.sampled, readMany_length]
    · rwa [ht.sampled, readMany_take]
    · rwa [ht.sampled, readMany_succ_getD]

theorem slotRead_endsWith (j : Nat) (d : DevHandle) (va : VAddr) :
    (onProbe j d va (serReadSeqBody p.slotReadLead p.slotReadCount)).EndsWith p
      fun r es => ∃ read, es = named read ∧ OnProbe j read ∧ SlotReadEnds p r read := by
  intro who pos c hv
  obtain ⟨r, h', e', ls, vs, qs, hrun, hv', hends⟩ := slotRead_onLines hw (scratchHandle c.env (some d) (some va))
    { c.env with used := c.env.used + 1 }
  obtain ⟨t, ht, htrace, -⟩ := hrun (.probe j) pos
  refine ⟨r, ⟨c.handle, e'⟩, t, ?_, hv'.trans hv, shown t, rfl, ?_, hends _ htrace⟩
  · rw [onProbe, ht]
  · exact onProbe_of_lines (.serReadSeqBody (by decide) (by decide) _ _) ht htrace

/-! ## Probe (R242) -/

/-- How the probe of device `j` fails: the device is not opened or not mapped, or its slot read fails and it is released. -/
def ProbeFails (p : Params) (j : Nat) (key : DevKey) (f : Failure) (es : List (Option Reg × Event)) : Prop :=
  (∃ o, f = acquireFailure o ∧ es = acquireFailEvents p key o) ∨
  ∃ d read, OnProbe j read ∧ SlotReadFails p read ∧ es = acquireEvents p key d ++ named read ++ releaseEvents d ∧
    f = ⟨.protocolTimeout, .slotRead⟩

/-- What the probe of device `j` gives and issues. -/
def ProbeEnds (p : Params) (j : Nat) (key : DevKey) : Except Failure (DevKey × Nat) → List (Option Reg × Event) → Prop
  | .ok reported, es => ∃ run : ProbeRun, run.key = key ∧ OnProbe j run.read ∧ SlotRead p run.read run.bytes ∧
      reported = run.reported p ∧ es = run.events p
  | .error f, es => ProbeFails p j key f es

theorem probeOne_endsWith (j : Nat) (key : DevKey) : (probeOne j key).EndsWith p (ProbeEnds p j key) := by
  refine .inLoop ((openDevice_endsWith key).ifOk (fun d es hes => ?_) fun f es h => .inl h)
  obtain rfl : es = _ := hes
  refine .withCfg ((slotRead_endsWith hw j d.1 d.2).bind ?_)
  rintro r es ⟨read, rfl, hprobe, hends⟩
  refine .map ((releaseDevice_endsWith d).mono ?_)
  rintro - es rfl
  cases r with
  | ok bytes => exact ⟨⟨key, d, read, bytes⟩, rfl, hprobe, hends, rfl, (List.append_assoc ..).symm⟩
  | error f => exact .inr ⟨d, read, hprobe, hends, (List.append_assoc ..).symm, rfl⟩

end probe

/-- The runs `probes` are those of the first devices of `found`, in order, the first as device `i`. -/
structure Probed (p : Params) (i : Nat) (found : List DevKey) (probes : List ProbeRun) : Prop where
  reads : ∀ j r, probes[j]? = some r → OnProbe (i + j) r.read ∧ SlotRead p r.read r.bytes
  keys : probes.map ProbeRun.key = found.take probes.length

theorem Probed.nil (p : Params) (i : Nat) (found : List DevKey) : Probed p i found [] := ⟨nofun, rfl⟩

theorem Probed.cons {i : Nat} {found : List DevKey} {probes : List ProbeRun} (h : Probed p (i + 1) found probes) {r : ProbeRun}
    (hprobe : OnProbe i r.read) (hread : SlotRead p r.read r.bytes) : Probed p i (r.key :: found) (r :: probes) where
  reads j q hq := by
    cases j with
    | zero =>
      cases hq
      exact ⟨hprobe, hread⟩
    | succ j => exact Nat.add_right_comm i 1 j ▸ h.reads j q hq
  keys := congrArg (r.key :: ·) h.keys

/-- How Probe ends: with every device's report, or with the failure of the device after those probed. -/
def AllProbed (p : Params) (i : Nat) (found : List DevKey) (probes : List ProbeRun) :
    Except Failure (List (DevKey × Nat)) → List (Option Reg × Event) → Prop
  | .ok reported, es => probes.length = found.length ∧ reported = probes.map (ProbeRun.reported p) ∧ es = []
  | .error f, es => ∃ key, found[probes.length]? = some key ∧ ProbeFails p (i + probes.length) key f es

theorem probeAll_endsWith (hw : windowOk p = true) (found : List DevKey) : ∀ i, (Op.eachOk probeOne i found).EndsWith p
    fun r es => ∃ probes fs, Probed p i found probes ∧ es = probes.flatMap (ProbeRun.events p) ++ fs ∧
      AllProbed p i found probes r fs := by
  induction found with
  | nil => exact fun i => .pure ⟨[], [], .nil p i [], rfl, rfl, rfl, rfl⟩
  | cons key found ih =>
    refine fun i => (probeOne_endsWith hw i key).ifOk ?_ fun f es hf => ⟨[], es, .nil p i _, rfl, key, rfl, hf⟩
    rintro d es ⟨run, rfl, hprobe, hread, rfl, rfl⟩
    refine (ih (i + 1)).ifOk ?_ ?_
    · rintro ds es ⟨probes, fs, hprobed, rfl, hlen, rfl, rfl⟩
      exact .pure ⟨run :: probes, [], hprobed.cons hprobe hread, by simp, congrArg (· + 1) hlen, rfl, rfl⟩
    · rintro f es ⟨probes, fs, hprobed, rfl, key, hkey, hfails⟩
      refine ⟨run :: probes, fs, hprobed.cons hprobe hread, by simp, key, hkey, ?_⟩
      rwa [List.length_cons, ← Nat.add_assoc, Nat.add_right_comm]

/-! ## The whole of discovery (R240) -/

/-- How discovery ends after `probes` of the keys found: with the modules of every slot, or with the failure of a phase. -/
def DiscoveryEnds (p : Params) (slotMap : List Nat) (found : List DevKey) (probes : List ProbeRun) :
    Except Failure (List (DevHandle × VAddr)) → List (Option Reg × Event) → Prop
  | .ok hs, es => ∃ keys, found ≠ [] ∧ probes.length = found.length ∧
      matchSlots (probes.map (ProbeRun.reported p)) slotMap = some keys ∧ hs.length = keys.length ∧
      es = (keys.zip hs).flatMap fun k => acquireEvents p k.1 k.2
  | .error f, es =>
      (found = [] ∧ es = [] ∧ f = ⟨.resourceFailure, .find⟩) ∨
      (∃ key, found[probes.length]? = some key ∧ ProbeFails p probes.length key f es) ∨
      (found ≠ [] ∧ probes.length = found.length ∧ matchSlots (probes.map (ProbeRun.reported p)) slotMap = none ∧ es = [] ∧
        f = ⟨.invalidArgument, .matchSlot⟩) ∨
      ∃ keys, found ≠ [] ∧ probes.length = found.length ∧
        matchSlots (probes.map (ProbeRun.reported p)) slotMap = some keys ∧ ModulesOpened p [] keys (.error f) es

/-- What discovery gives and issues: Find, then Probe of the first keys found, then its end. -/
def Discovered (p : Params) (slotMap : List Nat) (r : Except Failure (List (DevHandle × VAddr)))
    (es : List (Option Reg × Event)) : Prop :=
  ∃ rs probes found fs, FindRan p rs ∧ found = firstPerSlot p (rs.filterMap id) ∧ Probed p 0 found probes ∧
    es = findEvents p rs ++ probes.flatMap (ProbeRun.events p) ++ fs ∧ DiscoveryEnds p slotMap found probes r fs

theorem discover_endsWith (hw : windowOk p = true) (slotMap : List Nat) :
    (discover slotMap).EndsWith p (Discovered p slotMap) := by
  refine findAll_endsWith.ifOk ?_ ?_
  · rintro found es ⟨rs, hrs, rfl, hfound⟩
    obtain ⟨hne, rfl⟩ : firstPerSlot p (rs.filterMap id) ≠ [] ∧ found = firstPerSlot p (rs.filterMap id) := by
      split_ifs at hfound with hnil
      exact ⟨hnil, Except.ok.inj hfound⟩
    refine (probeAll_endsWith hw _ 0).ifOk ?_ ?_
    · rintro reported es ⟨probes, fs, hprobed, rfl, hlen, rfl, rfl⟩
      cases hkeys : matchSlots (probes.map (ProbeRun.reported p)) slotMap with
      | none => exact .pure ⟨rs, probes, _, [], hrs, rfl, hprobed, by simp, .inr (.inr (.inl ⟨hne, hlen, hkeys, rfl, rfl⟩))⟩
      | some keys =>
        refine (openModules_endsWith keys []).mono fun r es h => ?_
        refine ⟨rs, probes, _, es, hrs, rfl, hprobed, by simp, ?_⟩
        cases r with
        | ok ds =>
          obtain ⟨hs, rfl, hopened, rfl⟩ := h
          exact ⟨keys, hne, hlen, hkeys, hopened, rfl⟩
        | error f => exact .inr (.inr (.inr ⟨keys, hne, hlen, hkeys, h⟩))
    · rintro f es ⟨probes, fs, hprobed, rfl, key, hkey, hfails⟩
      rw [Nat.zero_add] at hfails
      exact ⟨rs, probes, _, fs, hrs, rfl, hprobed, (List.append_assoc ..).symm, .inr (.inl ⟨key, hkey, hfails⟩)⟩
  · rintro f es ⟨rs, hrs, rfl, hfound⟩
    split_ifs at hfound with hnil
    exact ⟨rs, [], _, [], hrs, rfl, .nil p 0 _, by simp, .inl ⟨hnil, rfl, Except.error.inj hfound⟩⟩

/-! ## SYS_INIT online (R240, R246) -/

/-- The state SYS_INIT leaves once discovery has ended: the system of the devices opened, or none after a failure. -/
def afterDiscovery (slotMap : List Nat) (t : List Issued) (e : Env) (s : State) :
    Except Failure (List (DevHandle × VAddr)) → State
  | .ok hs => finish .sysInit { status := .ok } t (createSystem false (slotMap.zip (hs.map some)) { s with disc := e })
  | .error f => finish .sysInit { status := .fail f } t { s with disc := e }

section created
variable {s : State} {slotMap : List Nat} {t : List Issued} {e : Env} {r : Except Failure (List (DevHandle × VAddr))}
  {hs : List (DevHandle × VAddr)}

theorem exec_sysInit_online (hs : s.system = none) (hlen : slotMap.length ≤ s.cfg.maxModules.val) (hdup : slotMap.Nodup)
    (hw : windowOk s.cfg = true) {c : Ctx} {u : List Stage}
    (hd : discover slotMap ⟨s.cfg, .probe 0, startPos .sysInit⟩ ⟨scratchHandle s.disc none none, s.disc⟩ = .ok r c u) :
    exec (.sysInit slotMap false) s = .next (afterDiscovery slotMap (shown u) c.env s r) := by
  refine (guardRegs_of_windowOk hw).trans ?_
  rw [sysInitChecks_pass_iff.mpr ⟨hs, hlen, hdup⟩, hd]
  cases r <;> rfl

/-- Only the system, the environment discovery meets and the observation change. -/
theorem afterDiscovery_frame : (afterDiscovery slotMap t e s r).cfg = s.cfg ∧ (afterDiscovery slotMap t e s r).calls = s.calls ∧
    (afterDiscovery slotMap t e s r).turns = s.turns ∧ (afterDiscovery slotMap t e s r).issued = t := by
  cases r <;> exact ⟨rfl, rfl, rfl, rfl⟩

theorem afterDiscovery_moduleCount (hlen : hs.length = slotMap.length) :
    (afterDiscovery slotMap t e s (.ok hs)).moduleCount = slotMap.length := by
  simp [afterDiscovery, State.moduleCount, createSystem, newModules_length, hlen]

/-- Each slot has a module, idle and in its reset state, with the device and the window opened for it. -/
theorem afterDiscovery_module {i slot : Nat} {d : DevHandle × VAddr} (hslot : slotMap[i]? = some slot) (hd : hs[i]? = some d) :
    (afterDiscovery slotMap t e s (.ok hs)).module? i = some (newModule i slot false (some d)) := by
  have hi : (slotMap.zip (hs.map some))[i]? = some (slot, some d) :=
    List.getElem?_zip_eq_some.mpr ⟨hslot, by rw [List.getElem?_map, hd]; rfl⟩
  show (newModules false 0 (slotMap.zip (hs.map some)))[i]? = _
  rw [newModules_getElem?, hi, Nat.zero_add]
  rfl

end created

/-- Settles O58: SYS_INIT answers what discovery ends with (`discover_endsWith`). -/
theorem sysInitOnline : Obligations.SysInitOnline := by
  intro s slotMap hs hlen hdup hw hv
  obtain ⟨r, c, u, hd, -, rs, probes, found, fs, hrs, hfound, hprobed, hevents, hends⟩ := discover_endsWith hw slotMap
    (.probe 0) (startPos .sysInit) ⟨scratchHandle s.disc none none, s.disc⟩ hv
  obtain ⟨hcfg, hcalls, hturns, hissued⟩ := afterDiscovery_frame (s := s) (slotMap := slotMap) (t := shown u) (e := c.env) (r := r)
  refine ⟨_, rs, probes, found, fs, exec_sysInit_online hs hlen hdup hw hd, hcfg, hcalls, hturns, hrs, hfound,
    fun j q hq => Nat.zero_add j ▸ hprobed.reads j q hq, hprobed.keys, (congrArg named hissued).trans hevents, ?_⟩
  cases r with
  | ok ds =>
    obtain ⟨keys, hne, hall, hkeys, hopened, rfl⟩ := hends
    exact .inl ⟨keys, ds, hne, hall, hkeys, hopened, rfl, rfl, rfl,
      afterDiscovery_moduleCount (hopened.trans (matchSlots_length hkeys)),
      fun i slot d hslot hd => ⟨_, _, afterDiscovery_module hslot hd, rfl⟩⟩
  | error f =>
    refine .inr ⟨hs, ?_⟩
    obtain ⟨hnil, rfl, rfl⟩ | ⟨key, hkey, ⟨o, rfl, rfl⟩ | ⟨d, read, hprobe, hread, rfl, rfl⟩⟩ | ⟨hne, hall, hkeys, rfl, rfl⟩ |
      ⟨keys, hne, hall, hkeys, ds, key, o, hkey, rfl, rfl⟩ := hends
    · exact .inl ⟨hnil, rfl, rfl⟩
    · exact .inr (.inl ⟨key, o, hkey, rfl, rfl⟩)
    · exact .inr (.inr (.inl ⟨key, d, read, hkey, hprobe, hread, rfl, rfl⟩))
    · exact .inr (.inr (.inr (.inl ⟨hne, hall, hkeys, rfl, rfl⟩)))
    · exact .inr (.inr (.inr (.inr ⟨keys, ds, key, o, hne, hall, hkeys, hkey, by rw [List.append_nil], rfl⟩)))

end Sys2Proof.Machine
end

section
/-! SUPPORT. What completes on a serving module (70_reset_and_hazards.md R285, R287): the body of every operation but HBR_DONE
ends well there, and the operation answers its end. -/

namespace Sys2Proof.Machine

variable {i : Instr} {m : Nat} {g : Program} {s : State} {x : Module}

/-- On an online module whose checks pass a program ends as its body does, whether it runs `Ready` or `Preamble` alone. -/
theorem result_eq_body (hs : s.Online m x) (hc : firstFailure g.checks = none) :
    g.result s.cfg s.isOffline m x.ctx = g.body ⟨s.cfg, .module m, startPos g.op⟩ x.ctx := by
  obtain ⟨-, -, honline, -⟩ := id hs
  cases hr : g.ready with
  | true => exact result_of_online hs hr hc
  | false => simp [Program.result, Program.code, preamble, hc, honline, hr]

/-- A close makes two vendor calls and leaves the request as it was (44_discovery.md R247). -/
theorem moduleCloseBody_completes {held : Bool} : moduleCloseBody.Completes held := by
  refine Op.completes_bind Op.completes_getHandle fun h => ?_
  cases h.win with
  | none => exact Op.completes_pure _
  | some va =>
    exact Op.completes_andThen (vendorCall_completes noAnswer_vendorLeft) <|
      Op.completes_andThen (vendorCall_completes noAnswer_vendorLeft) <|
      Op.completes_map (Op.completes_setHandle fun _ => rfl)

/-- Every body completes but those of the two operations with a raw offset, which a usable window need not admit, and of the
two that change the request. -/
theorem body_completes {p : Params} (hg : programOf p i = some (m, g))
    (hk : i.mnemonic ∉ [.regRead, .regWrite, .hbrRequest, .hbrDone]) : g.body.Completes false := by
  cases i <;> cases hg
  case regRead | regWrite | hbrRequest | hbrDone => simp [Instr.mnemonic] at hk
  case csrRead | fifoReadWm => exact Op.completes_map (regRead_completes _)
  case csrWrite => exact Op.completes_map (regWrite_completes _ _)
  case csrSetBits | csrClearBits => exact Op.completes_map (csrModify_completes _ _)
  case serWriteByte => exact Op.completes_map (serWriteBody_completes _)
  case serReadByte => exact Op.completes_map serReadBody_completes
  case serReadSeq => exact Op.completes_map (serReadSeqBody_completes _ _)
  case dspMemWrite =>
    exact Op.completes_map <| withHbr_completes <| Op.completes_andThen (csrClear_completes _) <|
      Op.completes_andThen (regWrite_completes _ _) (writeAll_completes _ _)
  case dspMemRead => exact Op.completes_bind (dspReadBody_completes _ _ _) (replyWords_completes _ _)
  case dmaBurst => exact Op.completes_bind (dmaBurst_completes _ _ _ _ _) (replyWords_completes _ _)
  case fifoDrain => exact Op.completes_bind (fifoDrainBody_completes _ _) (replyWords_completes _ _)
  case extMemWrite =>
    exact Op.completes_map <| withExtMem_completes <|
      Op.completes_andThen (regWrite_completes _ _) (writeAll_completes _ _)
  case extMemRead => exact Op.completes_bind (withExtMem_completes (extReadBody_completes _ _ _)) (replyWords_completes _ _)
  case extMemClear => exact Op.completes_map (withExtMem_completes (extClearBody_completes _ _))
  case bootCommFpga => exact Op.completes_map (bootCommBody_completes _)
  case bootSpFpga => exact Op.completes_map (bootSpBody_completes _)
  case bootDsp => exact Op.completes_map (bootDspBody_completes _)
  case bootModule => exact Op.completes_map (bootModuleBody_completes _ _)
  case moduleClose => exact moduleCloseBody_completes

/-- On a serving module the body of every admitted operation but HBR_DONE ends well: a raw access at its offset, a request while
none is held, and every body that completes. -/
theorem body_ends (hs : s.Serves m x) (hg : programOf s.cfg i = some (m, g)) (ho : OffsetsOk s.cfg i)
    (hne : i ≠ .hbrDone m) : ∃ r c t, g.body ⟨s.cfg, .module m, startPos g.op⟩ x.ctx = .ok r c t := by
  obtain ⟨-, hw, hh, hv⟩ := hs
  cases i
  case regRead off buf =>
    cases hg
    exact ⟨_, _, _, Op.map_of_ok (memRead_of_ok (ho off (List.mem_cons_self ..)))⟩
  case regWrite off val =>
    cases hg
    exact ⟨_, _, _, Op.map_of_ok (memWrite_of_ok (ho off (List.mem_cons_self ..)))⟩
  case hbrRequest =>
    cases hg
    obtain ⟨r, c, t, hrequest, -, -⟩ :=
      hbrRequest_of_free (sc := ⟨s.cfg, .module m, startPos .hbrRequest⟩) (c := x.ctx) hw hv hh
    exact ⟨_, _, _, Op.map_of_ok hrequest⟩
  case hbrDone =>
    cases hg
    exact absurd rfl hne
  all_goals
    obtain ⟨r, c, t, hbody, -, -⟩ :=
      body_completes hg (by simp [Instr.mnemonic]) ⟨s.cfg, .module m, startPos g.op⟩ x.ctx hw hv hh
    exact ⟨r, c, t, hbody⟩

/-- Settles O14: the operation runs its program, whose body ends well (`body_ends`). -/
theorem servingModuleCompletes : Obligations.ServingModuleCompletes := by
  intro i m s x hi hs ho hf hne
  obtain ⟨hon, -, -, -⟩ := id hs
  obtain ⟨hx, hidle, -, -⟩ := id hon
  obtain ⟨g, hg⟩ := programOf_isSome (p := s.cfg) hi
  obtain ⟨r, c, t, hbody⟩ := body_ends hs hg ho hne
  refine ⟨finish g.op r (shown t) (s.putModule m { x with handle := c.handle, pos := .idle, env := c.env }), ?_,
    congrArg some (programOf_op hg)⟩
  rw [exec_eq_runOn hg ho, runOn_of_idle hx hidle, result_eq_body hon ((programOf_checks hg).trans hf), hbody]
  rfl

end Sys2Proof.Machine
end
